-- ==== Sys2Proof/Word.lean ====
section
/-! DEFINITION. The word types of the block (spec 00_scope.md R9, R11) and the names of its three buffers (10_state.md R45). -/

namespace Sys2Proof

/-- A host register: `WORD_BITS` = 32 bits (R9, R21). -/
abbrev Word := BitVec 32

/-- A character: `CHAR_BITS` = 8 bits (R9). -/
abbrev Byte := BitVec 8

/-- A bit string, in stream order: the head is the bit at offset 0 (R13, R60). -/
abbrev Bits := List Bool

/-- The buffers of R45: SRC (encoder input), CW (codeword bitstream), OUT (decoder output). -/
inductive Buf where
  | src
  | cw
  | out
  deriving DecidableEq, Repr

end Sys2Proof
end

