-- ==== Sys2Proof/Config.lean ====
section
/-! DEFINITION. What one build of the block fixes (spec 00_scope.md R9, 10_state.md R42, R43) and the model's free values. -/

namespace Sys2Proof.Config

/-- `WORD_BITS` (R9, decision D2). -/
def wordBits : Nat := 32

/-- `CHAR_BITS` (R9). -/
def charBits : Nat := 8

/-- The `begin` of an LZW seed (R47, R131). -/
def seed : Nat := 0xFFFFFFFF

/-- The number an absent rank reads as (PINFO, R181). -/
def noRank : Nat := 0xFFFFFFFF

/-- The identification register (R43). -/
def idWord : Word := 0x4C5A0001

/-- The OPEN parameters of R9, R68. DEDUCED (log 1): each of the three sizes is a power of two, since PARAMS
reports its logarithm (R42). `base` is the platform's window base, which no rule reads (R68). -/
structure Build where
  capLog : Nat
  unboundedLog : Nat
  limitLog : Nat
  base : Nat
  deriving DecidableEq, Repr

/-- The parameter values this spec's vectors use (R9): 2^24, 2^16, 2^16. -/
def standardBuild : Build := { capLog := 24, unboundedLog := 16, limitLog := 16, base := 0 }

/-- FREE VALUE (log 4): what a rule reads as `Char(b, k)` where that character is not written (R13 defines it only
when `8k+8 ≤ LEN(b)`). Arguments: the draw, the buffer number, the character index. Safe: nothing constrains it. -/
opaque unwrittenChar : Nat → Nat → Nat → Byte

/-- FREE VALUE (log 5): the sorting key that orders the recency queue after an SMRU cascade over a `PARENT` chain that
never reaches a permanent number (R174 gives no end to it). Arguments: the draw, the matched number, the queue before, and
the codeword number to place. Safe. -/
opaque cascadeKey : Nat → Nat → List Nat → Nat → Nat

end Sys2Proof.Config
end

