-- ==== Sys2Proof/Syntax.lean ====
section
/-! DEFINITION. The commands of the block, one constructor per row of spec/opcode_table.json (30_encoding.md R88). -/

namespace Sys2Proof

/-- A command: its opcode as the constructor, BUF and N where the command uses them (R80, R88). The other operands
are in A0 to A2 (R86). -/
inductive Instr where
  | nop
  | bput (b : Buf) (n : BitVec 6)
  | bget (b : Buf) (n : BitVec 6)
  | bputc (b : Buf)
  | bgetc (b : Buf)
  | bslice (b : Buf)
  | bcopy (b : Buf)
  | beq (b : Buf)
  | bclr (b : Buf)
  | bseek (b : Buf)
  | binfo (b : Buf)
  | textend
  | tedge
  | tremove
  | tmreset
  | tmstep
  | tlookup
  | tnode
  | pmatch
  | pperm
  | pinfo
  | porder
  | econfig
  | estep
  | dstep
  | erun
  | drun
  | eaddext
  deriving DecidableEq, Repr

end Sys2Proof
end

