-- ==== Sys2Proof/WellFormed.lean ====
section
/-! DEFINITION. Which commands are well formed (30_encoding.md R83). The other field checks of R85 have no ill-formed
term: a `Buf` is 0, 1 or 2, and unused fields are not in the syntax. -/

namespace Sys2Proof

/-- R83: the `bit_count` of BPUT and BGET is at most `WORD_BITS`. -/
def Instr.wf : Instr → Bool
  | .bput _ n => decide (n.toNat ≤ Config.wordBits)
  | .bget _ n => decide (n.toNat ≤ Config.wordBits)
  | .nop => true
  | .bputc _ => true
  | .bgetc _ => true
  | .bslice _ => true
  | .bcopy _ => true
  | .beq _ => true
  | .bclr _ => true
  | .bseek _ => true
  | .binfo _ => true
  | .textend => true
  | .tedge => true
  | .tremove => true
  | .tmreset => true
  | .tmstep => true
  | .tlookup => true
  | .tnode => true
  | .pmatch => true
  | .pperm => true
  | .pinfo => true
  | .porder => true
  | .econfig => true
  | .estep => true
  | .dstep => true
  | .erun => true
  | .drun => true
  | .eaddext => true

end Sys2Proof
end

