-- ==== Sys2Proof/Decode.lean ====
section
/-! DEFINITION. The command word: decoder, encoder and opcode map (30_encoding.md R80 to R90). -/

namespace Sys2Proof

/-- Why a word is no command, in the order of R85. -/
inductive DecodeError where
  /-- Checks (1) to (3): unassigned OPC, RSV ≠ 0, BUF or N ≠ 0 where unused (R81 to R84, R89). -/
  | badOpcode (opc : BitVec 8)
  /-- Check (4): BUF = 3 in a buffer command (R82). -/
  | badBuffer
  /-- Check (5): N > 32 in BPUT or BGET (R83). -/
  | bitCount (n : BitVec 6)
  deriving DecidableEq, Repr

/-- Which fields a command uses (the "uses" column of R88), with the command they make. -/
inductive Form where
  | plain (i : Instr)
  | withBuf (mk : Buf → Instr)
  | withBufN (mk : Buf → BitVec 6 → Instr)

/-- The opcode map (R88). -/
def opcodeForm (opc : BitVec 8) : Option Form :=
  match opc.toNat with
  | 0x00 => some (.plain .nop)
  | 0x01 => some (.withBufN .bput)
  | 0x02 => some (.withBufN .bget)
  | 0x03 => some (.withBuf .bputc)
  | 0x04 => some (.withBuf .bgetc)
  | 0x05 => some (.withBuf .bslice)
  | 0x06 => some (.withBuf .bcopy)
  | 0x07 => some (.withBuf .beq)
  | 0x08 => some (.withBuf .bclr)
  | 0x09 => some (.withBuf .bseek)
  | 0x0A => some (.withBuf .binfo)
  | 0x10 => some (.plain .textend)
  | 0x11 => some (.plain .tedge)
  | 0x12 => some (.plain .tremove)
  | 0x13 => some (.plain .tmreset)
  | 0x14 => some (.plain .tmstep)
  | 0x15 => some (.plain .tlookup)
  | 0x16 => some (.plain .tnode)
  | 0x20 => some (.plain .pmatch)
  | 0x21 => some (.plain .pperm)
  | 0x22 => some (.plain .pinfo)
  | 0x23 => some (.plain .porder)
  | 0x30 => some (.plain .econfig)
  | 0x31 => some (.plain .estep)
  | 0x32 => some (.plain .dstep)
  | 0x33 => some (.plain .erun)
  | 0x34 => some (.plain .drun)
  | 0x35 => some (.plain .eaddext)
  | _ => none

/-- OPC, bits 31:24 (R80). -/
def opcField (w : Word) : BitVec 8 := w.extractLsb' 24 8

/-- BUF, bits 23:22 (R80). -/
def bufField (w : Word) : BitVec 2 := w.extractLsb' 22 2

/-- RSV, bits 21:6 (R80). -/
def rsvField (w : Word) : BitVec 16 := w.extractLsb' 6 16

/-- N, bits 5:0 (R80). -/
def nField (w : Word) : BitVec 6 := w.extractLsb' 0 6

/-- BUF names 0 SRC, 1 CW, 2 OUT; 3 is reserved (R82). -/
def bufOfField (f : BitVec 2) : Option Buf :=
  match f.toNat with
  | 0 => some .src
  | 1 => some .cw
  | 2 => some .out
  | _ => none

/-- The decoder, its checks in the order (1) to (5) of R85. -/
def decode (w : Word) : Except DecodeError Instr :=
  match opcodeForm (opcField w) with
  | none => .error (.badOpcode (opcField w))
  | some form =>
    if rsvField w ≠ 0 then .error (.badOpcode (opcField w))
    else
      match form with
      | .plain i => if bufField w ≠ 0 ∨ nField w ≠ 0 then .error (.badOpcode (opcField w)) else .ok i
      | .withBuf mk =>
        if nField w ≠ 0 then .error (.badOpcode (opcField w))
        else
          match bufOfField (bufField w) with
          | none => .error .badBuffer
          | some b => .ok (mk b)
      | .withBufN mk =>
        match bufOfField (bufField w) with
        | none => .error .badBuffer
        | some b => if Config.wordBits < (nField w).toNat then .error (.bitCount (nField w)) else .ok (mk b (nField w))

/-- The buffer number (R45, R82). -/
def Buf.code : Buf → BitVec 2
  | .src => 0
  | .cw => 1
  | .out => 2

/-- The OPC of a command (R88). -/
def Instr.opcode : Instr → BitVec 8
  | .nop => 0x00
  | .bput _ _ => 0x01
  | .bget _ _ => 0x02
  | .bputc _ => 0x03
  | .bgetc _ => 0x04
  | .bslice _ => 0x05
  | .bcopy _ => 0x06
  | .beq _ => 0x07
  | .bclr _ => 0x08
  | .bseek _ => 0x09
  | .binfo _ => 0x0A
  | .textend => 0x10
  | .tedge => 0x11
  | .tremove => 0x12
  | .tmreset => 0x13
  | .tmstep => 0x14
  | .tlookup => 0x15
  | .tnode => 0x16
  | .pmatch => 0x20
  | .pperm => 0x21
  | .pinfo => 0x22
  | .porder => 0x23
  | .econfig => 0x30
  | .estep => 0x31
  | .dstep => 0x32
  | .erun => 0x33
  | .drun => 0x34
  | .eaddext => 0x35

/-- The BUF field of a command, 0 where unused (R80). -/
def Instr.bufBits : Instr → BitVec 2
  | .bput b _ => b.code
  | .bget b _ => b.code
  | .bputc b => b.code
  | .bgetc b => b.code
  | .bslice b => b.code
  | .bcopy b => b.code
  | .beq b => b.code
  | .bclr b => b.code
  | .bseek b => b.code
  | .binfo b => b.code
  | _ => 0

/-- The N field of a command, 0 where unused (R80). -/
def Instr.nBits : Instr → BitVec 6
  | .bput _ n => n
  | .bget _ n => n
  | _ => 0

/-- `word = (OPC << 24) | (BUF << 22) | N` (R80), as the concatenation of its fields with RSV = 0. -/
def encode (i : Instr) : Word := i.opcode ++ i.bufBits ++ (0 : BitVec 16) ++ i.nBits

/-- What the decoder reads from a table word: every command is exactly one 32-bit word (R90), and the bits above
`nbits` are 0. -/
def decodeTableWord (nbits w : Nat) : Option Instr :=
  match decode (BitVec.ofNat 32 (w % 2 ^ nbits)) with
  | .ok i => some i
  | .error _ => none

end Sys2Proof
end

