-- ==== Sys2Proof/Machine/Maps.lean ====
section
/-! DEFINITION. Sparse tables: a list of (key, entry) pairs with strictly rising keys, and no entry for a key that holds
the table's default. The arena, child maps, PARENT, PERM and TAB (10_state.md R47, R49, R51) are held in this form, so
equal tables are equal data (log 11). -/

namespace Sys2Proof.Machine

/-- A sparse table from numbers to entries. -/
abbrev Table (α : Type) := List (Nat × α)

/-- The canonical form: keys strictly rise. -/
def Table.wf {α : Type} (t : Table α) : Bool := decide (t.Pairwise fun x y => x.1 < y.1)

/-- The entry at a key, none where the slot is empty. -/
def Table.get {α : Type} : Table α → Nat → Option α
  | [], _ => none
  | (k, v) :: t, x => if x = k then some v else Table.get t x

/-- Set the entry at a key. -/
def Table.put {α : Type} : Table α → Nat → α → Table α
  | [], x, v => [(x, v)]
  | (k, w) :: t, x, v =>
    if x < k then (x, v) :: (k, w) :: t
    else if x = k then (x, v) :: t
    else (k, w) :: Table.put t x v

/-- Empty the slot at a key. -/
def Table.del {α : Type} (t : Table α) (x : Nat) : Table α := t.filter fun e => e.1 ≠ x

/-- Change the entry at a key, where there is one. -/
def Table.modify {α : Type} (t : Table α) (x : Nat) (f : α → α) : Table α :=
  t.map fun e => if e.1 = x then (e.1, f e.2) else e

/-- PARENT reads 0 where nothing is listed (R49, R56). -/
def Table.getNum (t : Table Nat) (x : Nat) : Nat := (Table.get t x).getD 0

/-- Write a PARENT entry: a 0 is not listed. -/
def Table.putNum (t : Table Nat) (x v : Nat) : Table Nat := if v = 0 then Table.del t x else Table.put t x v

/-- The canonical form of a table whose default is 0. -/
def Table.wfNum (t : Table Nat) : Bool := Table.wf t && t.all fun e => e.2 ≠ 0

/-- A set of numbers as a strictly rising list (PERM, R49). -/
def setInsert (x : Nat) : List Nat → List Nat
  | [] => [x]
  | k :: t => if x < k then x :: k :: t else if x = k then k :: t else k :: setInsert x t

/-- The canonical form of a set of numbers. -/
def setWf (l : List Nat) : Bool := decide (l.Pairwise (· < ·))

end Sys2Proof.Machine
end

