-- ==== Sys2Proof/Machine/State.lean ====
section
/-! DEFINITION. The state of the block (10_state.md R20 to R57), its reset value (R56) and the reasons a step can stop. -/

namespace Sys2Proof.Machine

/-- CFG.VARIANT (R34): 0 LZ78, 1 LZW. -/
inductive Variant where
  | lz78
  | lzw
  deriving DecidableEq, Repr

/-- CFG.POLICY (R34): 0 MRU, 1 SMRU, 2 WMRU, 3 MRA. -/
inductive Policy where
  | mru
  | smru
  | wmru
  | mra
  deriving DecidableEq, Repr

/-- CFG.MODE (R34): 0 encode, 1 decode. -/
inductive Mode where
  | enc
  | dec
  deriving DecidableEq, Repr

/-- ESTATE (R29): 0 UNCONFIGURED, 1 READY, 2 DONE. -/
inductive EngineState where
  | unconfigured
  | ready
  | done
  deriving DecidableEq, Repr

/-- MSTATE (R52): 0 ATROOT, 1 MATCHING, 2 MAXIMAL. -/
inductive MatchState where
  | atRoot
  | matching
  | maximal
  deriving DecidableEq, Repr

/-- The per-command flags of STATUS (R24, R25). -/
@[ext]
structure Flags where
  maximal : Bool
  hasChar : Bool
  reject : Bool
  eoi : Bool
  found : Bool
  equal : Bool
  deriving DecidableEq, Repr

/-- One buffer (R45): `BITS(b)` in stream order, the read cursor and the mutation counter. `LEN(b)` is the length of
`bits`. -/
@[ext]
structure Buffer where
  bits : Bits
  rc : Nat
  epoch : Word
  deriving DecidableEq, Repr

/-- The three buffers (R45). -/
@[ext]
structure Memory where
  src : Buffer
  cw : Buffer
  out : Buffer
  deriving DecidableEq, Repr

/-- The slice register SV (R46). -/
@[ext]
structure Slice where
  buf : Buf
  start : Nat
  len : Nat
  epoch : Word
  valid : Bool
  deriving DecidableEq, Repr

/-- A trie node (R47). The handle of the node is the key it is listed under. DEDUCED (log 12): the root, which has no
parent, holds 0 here, as TNODE reads (R143). -/
@[ext]
structure Node where
  active : Bool
  codewordNo : Nat
  start : Nat
  length : Nat
  parent : Nat
  children : Table Nat
  deriving DecidableEq, Repr

/-- Policy state (R49): `Q` front first, `PARENT` sparse over default 0, `PERM` as the set of permanent numbers, `CUR`. -/
@[ext]
structure PolicyState where
  q : List Nat
  parent : Table Nat
  perm : List Nat
  cur : Nat
  deriving DecidableEq, Repr

/-- A decoder table entry `(begin, length)` (R51). -/
structure Entry where
  start : Nat
  length : Nat
  deriving DecidableEq, Repr

/-- Matcher state (R52): MSTATE, MSTART, MCONS, MNODE, MEDGE, MOFF, MLAST, MLDEPTH. -/
@[ext]
structure Matcher where
  mstate : MatchState
  mstart : Nat
  mcons : Nat
  mnode : Nat
  medge : Option Nat
  moff : Nat
  mlast : Nat
  mldepth : Nat
  deriving DecidableEq, Repr

/-- Configuration state (R53) but for ESTATE and CONFIGURED. CFG is computed from its first three fields (R34). -/
@[ext]
structure Setup where
  variant : Variant
  policy : Policy
  mode : Mode
  userLimit : Nat
  unb : Bool
  limit : Nat
  width : Nat
  deriving DecidableEq, Repr

/-- What the outside world does to the block (R32, R262, R270). An access moves `size` bytes at byte offset `off` of
the register window. -/
inductive HostAccess where
  /-- A host read. -/
  | read (off size : Nat)
  /-- A host write of `v`. -/
  | write (off size : Nat) (v : Word)
  /-- The reset input (R270). -/
  | resetInput
  deriving DecidableEq, Repr

/-- The whole state. `build` is the configuration (log 1). `host`, `rdata` and `freeCount` are the model's own
(logs 2, 3, 4). -/
@[ext]
structure State where
  build : Config.Build
  a0 : Word
  a1 : Word
  a2 : Word
  r0 : Word
  r1 : Word
  r2 : Word
  r3 : Word
  flags : Flags
  fault : Bool
  faultInfo : Word
  faultCmd : Word
  configured : Bool
  estate : EngineState
  setup : Setup
  size : Nat
  epos : Nat
  nl : Nat
  mem : Memory
  sv : Slice
  arena : Table Node
  pol : PolicyState
  tab : Table Entry
  mat : Matcher
  host : List HostAccess
  rdata : Word
  freeCount : Nat
  deriving DecidableEq, Repr

/-- Why a step of the model stops at a fault. There is no such reason: a fault of the block is its fault latch
(60_exceptions.md R241, R246), which is a next state. -/
inductive Fault : Type
  deriving DecidableEq, Repr

/-- Why a step of the model is refused. -/
inductive Refusal where
  /-- Raised by an arm of `exec` whose instruction has no meaning yet; no arm is left so. Safe. -/
  | notModelled (mnemonic : String)
  deriving DecidableEq, Repr

/-- All per-command flags clear (R25). -/
def Flags.clear : Flags :=
  { maximal := false, hasChar := false, reject := false, eoi := false, found := false, equal := false }

/-- An empty buffer (R56). -/
def Buffer.empty : Buffer := { bits := [], rc := 0, epoch := 0 }

/-- The root of the trie: active, codeword number 0, begin 0, length 0, no parent (R47). -/
def Node.root : Node := { active := true, codewordNo := 0, start := 0, length := 0, parent := 0, children := [] }

/-- The matcher of R56, which is also R151 with start 0. -/
def Matcher.initial : Matcher :=
  { mstate := .atRoot, mstart := 0, mcons := 0, mnode := 0, medge := none, moff := 0, mlast := 0, mldepth := 0 }

/-- The state after reset (R56, R270). -/
def State.reset : State where
  build := Config.standardBuild
  a0 := 0
  a1 := 0
  a2 := 0
  r0 := 0
  r1 := 0
  r2 := 0
  r3 := 0
  flags := Flags.clear
  fault := false
  faultInfo := 0
  faultCmd := 0
  configured := false
  estate := .unconfigured
  setup := { variant := .lz78, policy := .mru, mode := .enc, userLimit := 0, unb := false, limit := 0, width := 0 }
  size := 0
  epos := 0
  nl := 0
  mem := { src := Buffer.empty, cw := Buffer.empty, out := Buffer.empty }
  sv := { buf := .src, start := 0, len := 0, epoch := 0, valid := false }
  arena := [(0, Node.root)]
  pol := { q := [], parent := [], perm := [0], cur := 1 }
  tab := [(0, { start := 0, length := 0 })]
  mat := Matcher.initial
  host := []
  rdata := 0
  freeCount := 0

end Sys2Proof.Machine
end

