-- ==== Sys2Proof/Machine/Ops.lean ====
section
/-! DEFINITION. The shared operations: bit strings and buffers (00_scope.md R13, 20_memory.md R60 to R66), result
registers and flags at the start of a command (R16, R22, R25), the fault latch (60_exceptions.md R240, R241) and reset
(70_reset_and_hazards.md R270). -/

namespace Sys2Proof.Machine

/-! ### Bits -/

/-- The low `n` bits of `v`, most significant first (R13, R60). -/
def natBits (n v : Nat) : Bits := (List.range n).map fun k => v.testBit (n - 1 - k)

/-- A bit string as an unsigned number, its first bit the most significant (R13, R60). -/
def bitsNat (l : Bits) : Nat := l.foldl (fun acc b => 2 * acc + b.toNat) 0

/-- `ceil(log2(x))`: the least `k` with `2^k ≥ x` (R11). -/
def ceilLog2 (x : Nat) : Nat := if x ≤ 1 then 0 else Nat.log2 (x - 1) + 1

/-- A register value from a number, modulo 2^32 (R11). -/
def toWord (n : Nat) : Word := BitVec.ofNat 32 n

/-- A single-bit value as a number. -/
def bit (b : Bool) : Nat := b.toNat

/-! ### Buffers -/

/-- `LEN(b)` (R45). -/
def Buffer.len (x : Buffer) : Nat := x.bits.length

/-- `NCHARS(b)`: whole characters (R13). -/
def Buffer.nchars (x : Buffer) : Nat := x.len / 8

/-- `MemRead(b, off, n)` (R13). -/
def Buffer.read (x : Buffer) (off n : Nat) : Nat := bitsNat ((x.bits.drop off).take n)

/-- `MemWrite(b, n, v)`: append the low `n` bits of `v` (R13). -/
def Buffer.append (x : Buffer) (n v : Nat) : Buffer := { x with bits := x.bits ++ natBits n v }

/-- Move the read cursor. -/
def Buffer.setRc (x : Buffer) (p : Nat) : Buffer := { x with rc := p }

/-- One mutation more, modulo 2^32 (R45, R100). -/
def Buffer.bump (x : Buffer) : Buffer := { x with epoch := x.epoch + 1 }

/-- The byte image of a buffer (R62): byte `k` at address `k`, a final partial byte completed with zero bits in its low
positions. -/
def Buffer.byteImage (x : Buffer) : List Host.Cell :=
  (List.range ((x.len + 7) / 8)).map fun k => (k, BitVec.ofNat 8 (bitsNat (((x.bits.drop (8 * k)).take 8 ++ List.replicate 8 false).take 8)))

/-- `BUF` selects a buffer (R45). -/
def Memory.get (m : Memory) : Buf → Buffer
  | .src => m.src
  | .cw => m.cw
  | .out => m.out

/-- Replace one buffer. -/
def Memory.set (m : Memory) (b : Buf) (x : Buffer) : Memory :=
  match b with
  | .src => { m with src := x }
  | .cw => { m with cw := x }
  | .out => { m with out := x }

/-- `CAP_BITS` (R9). -/
def State.capBits (s : State) : Nat := 2 ^ s.build.capLog

/-- `MAX_UNBOUNDED` (R9). -/
def State.maxUnbounded (s : State) : Nat := 2 ^ s.build.unboundedLog

/-- `MAX_LIMIT` (R9). -/
def State.maxLimit (s : State) : Nat := 2 ^ s.build.limitLog

/-- The bounds R45 puts on one buffer: `RC(b) ≤ LEN(b) ≤ CAP_BITS`. -/
def Buffer.wf (cap : Nat) (x : Buffer) : Bool := decide (x.rc ≤ x.len ∧ x.len ≤ cap)

/-- The canonical form of memory (R45, log 11): a bit string has no holes, so its list is its own canonical form, and
each buffer keeps its bounds. -/
def Memory.wf (cap : Nat) (m : Memory) : Bool := m.src.wf cap && m.cw.wf cap && m.out.wf cap

/-- A buffer of the state. -/
def State.buf (s : State) (b : Buf) : Buffer := s.mem.get b

/-- Replace a buffer of the state. -/
def State.setBuf (s : State) (b : Buf) (x : Buffer) : State := { s with mem := s.mem.set b x }

/-- The number of a buffer (R45). -/
def bufNum (b : Buf) : Nat := b.code.toNat

/-- `Char(b, k)` (R13). Where it is not written, a FREE VALUE (log 4). -/
def State.charAt (s : State) (b : Buf) (k : Nat) : Byte :=
  if 8 * k + 8 ≤ (s.buf b).len then BitVec.ofNat 8 ((s.buf b).read (8 * k) 8)
  else Config.unwrittenChar s.freeCount (bufNum b) k

/-! ### Faults (R240, R241) -/

/-- The fault codes (R240). -/
inductive FaultCode where
  | badOpcode
  | badBuffer
  | bitCount
  | readPastEnd
  | capacity
  | sliceRange
  | sliceStale
  | bufAlign
  | notConfigured
  | badConfig
  | order
  | indexRange
  | notActive
  | notMatched
  | alreadyLive
  | arenaFull
  | badStream
  deriving DecidableEq, Repr

/-- FCODE (R240). -/
def FaultCode.num : FaultCode → Nat
  | .badOpcode => 0x01
  | .badBuffer => 0x02
  | .bitCount => 0x03
  | .readPastEnd => 0x04
  | .capacity => 0x05
  | .sliceRange => 0x06
  | .sliceStale => 0x07
  | .bufAlign => 0x08
  | .notConfigured => 0x09
  | .badConfig => 0x0A
  | .order => 0x0B
  | .indexRange => 0x0C
  | .notActive => 0x0D
  | .notMatched => 0x0E
  | .alreadyLive => 0x0F
  | .arenaFull => 0x10
  | .badStream => 0x11

/-- `raise Fault(code, info)` (R14). -/
structure Raise where
  code : FaultCode
  info : Nat
  deriving DecidableEq, Repr

/-- A command's work: a state, or the fault it raises. -/
abbrev Work := Except Raise

/-- `raise Fault(code, info)`. -/
def raise {α : Type} (code : FaultCode) (info : Nat) : Work α := .error { code := code, info := info }

/-- The fault of a word that is no command (R81 to R85). -/
def decodeFault : DecodeError → Raise
  | .badOpcode opc => { code := .badOpcode, info := opc.toNat }
  | .badBuffer => { code := .badBuffer, info := 3 }
  | .bitCount n => { code := .bitCount, info := n.toNat }

/-- FAULT_INFO: FCODE, FOPC and FARG (R39, R241). -/
def faultInfoWord (e : Raise) (cmd : Word) : Word :=
  toWord (e.code.num + (opcField cmd).toNat * 2 ^ 8 + (e.info % 2 ^ 16) * 2 ^ 16)

/-- TAKING A FAULT (R241), applied to the state before the command: everything the command changed is restored, and the
latch is set. There is no handler, no saved pc and no mode change (R246). -/
def State.latch (s : State) (e : Raise) (cmd : Word) : State :=
  { s with fault := true, faultInfo := faultInfoWord e cmd, faultCmd := cmd }

/-- LEAVING THE FAULTED STATE: reset, by CTRL.SRST or the reset input (R41, R248, R270). Every state of R56 takes its
reset value. The configuration and the model's own fields (pending host accesses, the last read, the draw counter) are
outside it (log 14). -/
def State.srst (s : State) : State :=
  { State.reset with build := s.build, host := s.host, rdata := s.rdata, freeCount := s.freeCount }

/-! ### The frame of a command -/

/-- Every command first clears the per-command flags and R0 to R3 (R16, R22, R25). -/
def State.begin (s : State) : State := { s with flags := Flags.clear, r0 := 0, r1 := 0, r2 := 0, r3 := 0 }

/-- Write the result registers (R22). -/
def State.results (s : State) (x0 x1 x2 x3 : Nat) : State :=
  { s with r0 := toWord x0, r1 := toWord x1, r2 := toWord x2, r3 := toWord x3 }

/-- Run a command's work: while FAULT = 1 it is ignored (R243); otherwise it starts from cleared flags and results, and
a fault it raises is latched over the state before it (R241). -/
def runCommand (i : Instr) (work : State → Work State) (s : State) : Host.Outcome State Fault Refusal :=
  if s.fault then .next s
  else
    match work s.begin with
    | .ok t => .next t
    | .error e => .next (s.latch e (encode i))

/-- `MemWrite` with its capacity check (R101, R112): CAPACITY reports the width requested. -/
def putBits (b : Buf) (n v : Nat) (s : State) : Work State :=
  if s.capBits < (s.buf b).len + n then raise .capacity n
  else .ok (s.setBuf b ((s.buf b).append n v))

/-- Count one mutation of `b` when the command made it longer (R100). -/
def bumpIfGrown (b : Buf) (before s : State) : State :=
  if (s.buf b).len = (before.buf b).len then s else s.setBuf b (s.buf b).bump

/-- Each engine command increments the EPOCH of every buffer it changes once (R112; log 15). The engine only appends,
and only to CW and OUT, so a buffer changed exactly when it grew. -/
def bumpEpochs (before s : State) : State := bumpIfGrown .out before (bumpIfGrown .cw before s)

/-- NSEED (R9). -/
def Variant.nseed : Variant → Nat
  | .lz78 => 0
  | .lzw => 256

/-- NSEED of the configuration (R9). -/
def State.nseed (s : State) : Nat := s.setup.variant.nseed

end Sys2Proof.Machine
end

