-- ==== Sys2Proof/Machine/Flags.lean ====
section
/-! DEFINITION. STATUS, CFG, LIMIT and PARAMS as words (10_state.md R24, R34, R35, R42) and the writes of the per-command
flags (R25, R26, R31). -/

namespace Sys2Proof.Machine

/-- The number of a variant (R34). -/
def Variant.num : Variant → Nat
  | .lz78 => 0
  | .lzw => 1

/-- The number of a policy (R34). -/
def Policy.num : Policy → Nat
  | .mru => 0
  | .smru => 1
  | .wmru => 2
  | .mra => 3

/-- The number of a mode (R24, R34). -/
def Mode.num : Mode → Nat
  | .enc => 0
  | .dec => 1

/-- The number of an engine state (R24). -/
def EngineState.num : EngineState → Nat
  | .unconfigured => 0
  | .ready => 1
  | .done => 2

/-- The number of a matcher state (R24). -/
def MatchState.num : MatchState → Nat
  | .atRoot => 0
  | .matching => 1
  | .maximal => 2

/-- STATUS (R24), bit by bit from bit 0; bits 31:13 read 0. -/
def State.statusWord (s : State) : Word :=
  toWord (bit s.fault + bit s.configured * 2 ^ 1 + bit s.flags.maximal * 2 ^ 2 + bit s.flags.hasChar * 2 ^ 3
    + bit s.flags.reject * 2 ^ 4 + bit s.flags.eoi * 2 ^ 5 + bit s.flags.found * 2 ^ 6 + bit s.flags.equal * 2 ^ 7
    + s.estate.num * 2 ^ 8 + s.mat.mstate.num * 2 ^ 10 + s.setup.mode.num * 2 ^ 12)

/-- CFG (R34). -/
def State.cfgWord (s : State) : Word :=
  toWord (s.setup.variant.num + s.setup.policy.num * 2 ^ 1 + s.setup.mode.num * 2 ^ 3)

/-- LIMIT (R35): bit 31 is UNB, bits 30:0 the number. -/
def State.limitWord (s : State) : Word := toWord (s.setup.limit % 2 ^ 31 + bit s.setup.unb * 2 ^ 31)

/-- PARAMS (R42). -/
def State.paramsWord (s : State) : Word :=
  toWord (Config.wordBits + s.build.capLog % 2 ^ 8 * 2 ^ 8 + s.build.unboundedLog % 2 ^ 8 * 2 ^ 16
    + s.build.limitLog % 2 ^ 8 * 2 ^ 24)

/-- Write the flags of a matching step (R26, R152). -/
def State.matchFlags (s : State) (isMaximal hasChar eoi : Bool) : State :=
  { s with flags := { s.flags with maximal := isMaximal, hasChar := hasChar, eoi := eoi } }

/-- Write the flags of an engine step (R31, R210, R220): MAXIMAL is TMSTEP's alone (log 19). -/
def State.stepFlags (s : State) (hasChar reject eoi : Bool) : State :=
  { s with flags := { s.flags with hasChar := hasChar, reject := reject, eoi := eoi } }

/-- REJECT (R26, R172). -/
def State.rejectFlag (s : State) (v : Bool) : State := { s with flags := { s.flags with reject := v } }

/-- FOUND (R31). -/
def State.foundFlag (s : State) (v : Bool) : State := { s with flags := { s.flags with found := v } }

/-- EQUAL (R109). -/
def State.equalFlag (s : State) (v : Bool) : State := { s with flags := { s.flags with equal := v } }

end Sys2Proof.Machine
end

