-- ==== Sys2Proof/Machine/Operands.lean ====
section
/-! DEFINITION. Operand forms (30_encoding.md R86): whole 32-bit operands, characters, the word of BPUT, buffer numbers
and the configuration word (43_engine.md R200). -/

namespace Sys2Proof.Machine

/-- A whole operand register as an unsigned number (R86). -/
def State.opA0 (s : State) : Nat := s.a0.toNat

/-- A whole operand register as an unsigned number (R86). -/
def State.opA1 (s : State) : Nat := s.a1.toNat

/-- A whole operand register as an unsigned number (R86). -/
def State.opA2 (s : State) : Nat := s.a2.toNat

/-- A character operand: bits 7:0, the rest ignored (R86). -/
def charOperand (w : Word) : Byte := w.extractLsb' 0 8

/-- A buffer number in a whole operand register (BEQ, R109). -/
def bufOperand (w : Word) : Option Buf :=
  match w.toNat with
  | 0 => some .src
  | 1 => some .cw
  | 2 => some .out
  | _ => none

/-- Bit 0 of the configuration word (R34, R200). -/
def variantField (w : Word) : Variant := if w.getLsbD 0 then .lzw else .lz78

/-- Bits 2:1 of the configuration word (R34, R200). -/
def policyField (w : Word) : Policy :=
  match (w.extractLsb' 1 2).toNat with
  | 0 => .mru
  | 1 => .smru
  | 2 => .wmru
  | _ => .mra

/-- Bit 3 of the configuration word (R34, R200). -/
def modeField (w : Word) : Mode := if w.getLsbD 3 then .dec else .enc

/-- Bits 31:4 of the configuration word, which must be 0 (R200). -/
def configReserved (w : Word) : BitVec 28 := w.extractLsb' 4 28

end Sys2Proof.Machine
end

