-- ==== Sys2Proof/Machine/BitBuffer.lean ====
section
/-! DEFINITION. The BitBuffer commands (40_bitbuffer.md R100 to R113). -/

namespace Sys2Proof.Machine

/-- BPUT (R101). N > 32 is refused by the decoder already (R85); the check stands here too, so that the meaning of an
ill-formed command is R83's (log 16). -/
def bputWork (b : Buf) (n : BitVec 6) (s : State) : Work State :=
  if Config.wordBits < n.toNat then raise .bitCount n.toNat
  else
    match putBits b n.toNat s.opA0 s with
    | .error e => .error e
    | .ok t => .ok (if n.toNat = 0 then t else t.setBuf b (t.buf b).bump)

/-- The shared read of BGET and BGETC: `n` bits at the cursor, which moves past them (R102, R104). -/
def getBits (b : Buf) (n : Nat) (s : State) : Work State :=
  if (s.buf b).len < (s.buf b).rc + n then raise .readPastEnd (s.buf b).rc
  else
    .ok ((s.setBuf b ((s.buf b).setRc ((s.buf b).rc + n))).results ((s.buf b).read (s.buf b).rc n) 0 0 0)

/-- BGET (R102). -/
def bgetWork (b : Buf) (n : BitVec 6) (s : State) : Work State :=
  if Config.wordBits < n.toNat then raise .bitCount n.toNat else getBits b n.toNat s

/-- BPUTC (R103). -/
def bputcWork (b : Buf) (s : State) : Work State :=
  match putBits b 8 (charOperand s.a0).toNat s with
  | .error e => .error e
  | .ok t => .ok (t.setBuf b (t.buf b).bump)

/-- BGETC (R104). -/
def bgetcWork (b : Buf) (s : State) : Work State := getBits b 8 s

/-- BSLICE (R105). -/
def bsliceWork (b : Buf) (s : State) : Work State :=
  if (s.buf b).nchars < s.opA0 + s.opA1 then raise .sliceRange s.opA0
  else .ok { s with sv := { buf := b, start := s.opA0, len := s.opA1, epoch := (s.buf b).epoch, valid := true } }

/-- R106: a slice may be consumed only while its buffer has not been mutated. -/
def State.sliceFresh (s : State) : Bool := s.sv.valid && (s.buf s.sv.buf).epoch == s.sv.epoch

/-- Append characters in order (R107, R222). -/
def Buffer.appendChars (x : Buffer) (cs : List Byte) : Buffer := cs.foldl (fun y c => y.append 8 c.toNat) x

/-- The characters `k, k+1, …` of a buffer, `n` of them, all read before anything is written (R107, R222). -/
def State.charsAt (s : State) (b : Buf) (k n : Nat) : List Byte := (List.range n).map fun x => s.charAt b (k + x)

/-- BCOPY (R107). -/
def bcopyWork (d : Buf) (s : State) : Work State :=
  if s.sliceFresh = false then raise .sliceStale (bufNum s.sv.buf)
  else if s.capBits < (s.buf d).len + 8 * s.sv.len then raise .capacity s.sv.len
  else if s.sv.len = 0 then .ok (s.results 0 0 0 0)
  else
    .ok ((s.setBuf d ((s.buf d).appendChars (s.charsAt s.sv.buf s.sv.start s.sv.len)).bump).results s.sv.len 0 0 0)

/-- BEQ (R109). -/
def beqWork (b : Buf) (s : State) : Work State :=
  match bufOperand s.a0 with
  | none => raise .badBuffer s.opA0
  | some o =>
    let eq := decide ((s.buf b).bits = (s.buf o).bits)
    .ok ((s.results (bit eq) 0 0 0).equalFlag eq)

/-- The buffer that live dictionary entries refer to (R74, R108): SRC in encode mode, OUT in decode mode. -/
def Mode.backing : Mode → Buf
  | .enc => .src
  | .dec => .out

/-- BCLR (R108). -/
def bclrWork (b : Buf) (s : State) : Work State :=
  if s.configured = true ∧ s.size ≠ s.nseed ∧ b = s.setup.mode.backing then raise .order (bufNum b)
  else .ok (s.setBuf b { bits := [], rc := 0, epoch := (s.buf b).epoch + 1 })

/-- BSEEK (R110). -/
def bseekWork (b : Buf) (s : State) : Work State :=
  if (s.buf b).len < s.opA0 then raise .readPastEnd s.opA0
  else .ok (s.setBuf b ((s.buf b).setRc s.opA0))

/-- BINFO (R111). -/
def binfoWork (b : Buf) (s : State) : Work State :=
  .ok (s.results (s.buf b).len (s.buf b).rc (s.buf b).epoch.toNat (s.buf b).nchars)

/-- BPUT (R101). -/
def execBput (b : Buf) (n : BitVec 6) (s : State) : Host.Outcome State Fault Refusal :=
  runCommand (.bput b n) (bputWork b n) s

/-- BGET (R102). -/
def execBget (b : Buf) (n : BitVec 6) (s : State) : Host.Outcome State Fault Refusal :=
  runCommand (.bget b n) (bgetWork b n) s

/-- BPUTC (R103). -/
def execBputc (b : Buf) (s : State) : Host.Outcome State Fault Refusal := runCommand (.bputc b) (bputcWork b) s

/-- BGETC (R104). -/
def execBgetc (b : Buf) (s : State) : Host.Outcome State Fault Refusal := runCommand (.bgetc b) (bgetcWork b) s

/-- BSLICE (R105). -/
def execBslice (b : Buf) (s : State) : Host.Outcome State Fault Refusal := runCommand (.bslice b) (bsliceWork b) s

/-- BCOPY (R107). -/
def execBcopy (b : Buf) (s : State) : Host.Outcome State Fault Refusal := runCommand (.bcopy b) (bcopyWork b) s

/-- BEQ (R109). -/
def execBeq (b : Buf) (s : State) : Host.Outcome State Fault Refusal := runCommand (.beq b) (beqWork b) s

/-- BCLR (R108). -/
def execBclr (b : Buf) (s : State) : Host.Outcome State Fault Refusal := runCommand (.bclr b) (bclrWork b) s

/-- BSEEK (R110). -/
def execBseek (b : Buf) (s : State) : Host.Outcome State Fault Refusal := runCommand (.bseek b) (bseekWork b) s

/-- BINFO (R111). -/
def execBinfo (b : Buf) (s : State) : Host.Outcome State Fault Refusal := runCommand (.binfo b) (binfoWork b) s

end Sys2Proof.Machine
end

