-- ==== Sys2Proof/Machine/Policy.lean ====
section
/-! DEFINITION. The eviction policy (42_policy.md R170 to R182). -/

namespace Sys2Proof.Machine

/-- `PERM[k] = 1` (R49). -/
def PolicyState.isPerm (p : PolicyState) (k : Nat) : Bool := decide (k ∈ p.perm)

/-- `PARENT[k]` (R49). -/
def PolicyState.parentOf (p : PolicyState) (k : Nat) : Nat := Table.getNum p.parent k

/-- Move `x` to the front of the queue (R173, R174). A number that is not in the queue cannot be moved (log 6). -/
def moveFront (x : Nat) (q : List Nat) : List Nat := if x ∈ q then x :: q.erase x else q

/-- Insert `j` immediately after `i`, one step toward the least-recently-used end (R173). -/
def insertAfter (i j : Nat) : List Nat → List Nat
  | [] => [j]
  | x :: t => if x = i then x :: j :: t else x :: insertAfter i j t

/-- The chain `x, PARENT[x], …` up to the first permanent number, excluded (R174, R180), over at most `fuel` numbers;
and whether a permanent number was reached. -/
def PolicyState.chain (p : PolicyState) : Nat → Nat → List Nat × Bool
  | 0, x => ([], p.isPerm x)
  | fuel + 1, x =>
    if p.isPerm x then ([], true)
    else
      let rest := p.chain fuel (p.parentOf x)
      (x :: rest.1, rest.2)

/-- Insert into a list ordered by key, for the free order. -/
def insertByKey (key : Nat → Nat) (x : Nat) : List Nat → List Nat
  | [] => [x]
  | y :: t => if key x ≤ key y then x :: y :: t else y :: insertByKey key x t

/-- FREE VALUE (log 5): the queue in an order nothing constrains. -/
def freeOrder (draw i : Nat) (q : List Nat) : List Nat := q.foldr (insertByKey (Config.cascadeKey draw i q)) []

/-- The recency moves of SMRU: `i`, then each ancestor, to the front (R174). A chain of `limit + 1` numbers none of
which is permanent has met one of them twice and never ends: then the order after the cascade is free (log 5). -/
def PolicyState.cascade (p : PolicyState) (limit draw i : Nat) : List Nat :=
  match p.chain (limit + 1) i with
  | (xs, true) => xs.foldl (fun q x => moveFront x q) p.q
  | (_, false) => freeOrder draw i p.q

/-- The recency moves before a number is chosen (R173 to R175): `Q'`. -/
def PolicyState.touched (p : PolicyState) (policy : Policy) (limit draw i : Nat) : List Nat :=
  match policy with
  | .smru => p.cascade limit draw i
  | .mru | .wmru | .mra => if p.isPerm i then p.q else moveFront i p.q

/-- What `Select` answers: the number (0 rejects), SIZE and the policy state after it. -/
structure Selection where
  j : Nat
  size : Nat
  pol : PolicyState
  deriving DecidableEq, Repr

/-- Reject: nothing is committed (R171). -/
def PolicyState.rejected (p : PolicyState) (size : Nat) : Selection := { j := 0, size := size, pol := p }

/-- Place `j` into `Q'` and record its prefix (R173). -/
def PolicyState.placed (p : PolicyState) (i j size : Nat) (q : List Nat) : Selection :=
  { j := j, size := size,
    pol := { p with
      q := if p.isPerm i then j :: q else insertAfter i j q
      parent := Table.putNum p.parent j i } }

/-- `Select` of MRU, SMRU and WMRU on `Q'` (R173 to R175). An empty `Q'` of a full dictionary, which no run reaches,
rejects (log 10). -/
def PolicyState.selectRecency (p : PolicyState) (i limit size : Nat) (q : List Nat) : Selection :=
  if size < limit then p.placed i (size + 1) (size + 1) q
  else
    match q.getLast? with
    | none => p.rejected size
    | some j => if j = i then p.rejected size else p.placed i j size (q.erase j)

/-- `NextNonPerm(k)`: the first `x` in `k+1, …, limit, 1, 2, …` that is not permanent (R176). Where there is none, which
no run reaches, `k` itself (log 10). -/
def PolicyState.nextNonPerm (p : PolicyState) (limit k : Nat) : Nat :=
  ((List.range' (k + 1) (limit - k) ++ List.range' 1 limit).find? fun x => !p.isPerm x).getD k

/-- `Select` of MRA (R176). -/
def PolicyState.selectMra (p : PolicyState) (i limit size : Nat) : Selection :=
  if size < limit then
    { j := size + 1, size := size + 1, pol := { p with parent := Table.putNum p.parent (size + 1) i } }
  else if p.cur = i then p.rejected size
  else
    { j := p.cur, size := size,
      pol := { p with cur := p.nextNonPerm limit p.cur, parent := Table.putNum p.parent p.cur i } }

/-- `Select(POLICY, i)` (R172 to R176). -/
def PolicyState.select (p : PolicyState) (policy : Policy) (limit size draw i : Nat) : Selection :=
  match policy with
  | .mra => p.selectMra i limit size
  | .mru | .smru | .wmru => p.selectRecency i limit size (p.touched policy limit draw i)

/-- The PMATCH rule applied to `i` (R172), without the command's own overhead: the engine uses it too. -/
def matchPolicy (i : Nat) (s : State) : Work (State × Nat) :=
  if s.configured = false then raise .notConfigured 0
  else if s.estate = .done then raise .order 0
  else if s.size < i then raise .indexRange i
  else if s.setup.unb = true ∧ s.size = s.setup.limit then raise .arenaFull 0
  else
    let r := s.pol.select s.setup.policy s.setup.limit s.size s.freeCount i
    .ok ({ s with pol := r.pol, size := r.size }, r.j)

/-- PMATCH (R172). -/
def pmatchWork (s : State) : Work State :=
  match matchPolicy s.opA0 s with
  | .error e => .error e
  | .ok (t, j) => .ok ((t.results j 0 0 0).rejectFlag (decide (j = 0)))

/-- The numbers PPERM marks: `i`, or under SMRU `i` and its ancestors up to the first permanent number (R180; log 17). -/
def PolicyState.permSet (p : PolicyState) (policy : Policy) (limit i : Nat) : List Nat :=
  match policy with
  | .smru => (p.chain (limit + 1) i).1
  | .mru | .wmru | .mra => [i]

/-- Would marking `S` leave no reclaimable number in `1..limit` (R180)? -/
def PolicyState.leavesNone (p : PolicyState) (limit : Nat) (S : List Nat) : Bool :=
  (List.range' 1 limit).all fun x => decide (x ∈ S) || p.isPerm x

/-- Mark `S` permanent and take it out of the queue (R180). -/
def PolicyState.makePerm (p : PolicyState) (S : List Nat) : PolicyState :=
  { p with perm := S.foldl (fun l x => setInsert x l) p.perm, q := p.q.filter fun x => decide (x ∉ S) }

/-- PPERM (R180). -/
def ppermWork (s : State) : Work State :=
  if s.configured = false then raise .notConfigured 0
  else if s.estate ≠ .ready then raise .order 0
  else if s.opA0 = 0 ∨ s.size < s.opA0 then raise .indexRange s.opA0
  else
    let S := s.pol.permSet s.setup.policy s.setup.limit s.opA0
    if s.pol.leavesNone s.setup.limit S then raise .indexRange s.opA0
    else
      let p := s.pol.makePerm S
      .ok { s with pol :=
        if s.setup.policy = .mra ∧ p.isPerm p.cur = true then { p with cur := p.nextNonPerm s.setup.limit p.cur } else p }

/-- PINFO (R181). -/
def pinfoWork (s : State) : Work State :=
  if s.configured = false then raise .notConfigured 0
  else if s.setup.limit < s.opA0 then raise .indexRange s.opA0
  else
    .ok ((s.results (s.pol.parentOf s.opA0) (bit (s.pol.isPerm s.opA0))
      (if s.opA0 ∈ s.pol.q then s.pol.q.idxOf s.opA0 else Config.noRank) 0).foundFlag (decide (s.opA0 ≤ s.size)))

/-- PORDER (R182). -/
def porderWork (s : State) : Work State :=
  if s.configured = false then raise .notConfigured 0
  else .ok (s.results ((s.pol.q[s.opA0]?).getD 0) s.pol.q.length s.pol.cur 0)

/-- PMATCH (R172). -/
def execPmatch (s : State) : Host.Outcome State Fault Refusal := runCommand .pmatch pmatchWork s

/-- PPERM (R180). -/
def execPperm (s : State) : Host.Outcome State Fault Refusal := runCommand .pperm ppermWork s

/-- PINFO (R181). -/
def execPinfo (s : State) : Host.Outcome State Fault Refusal := runCommand .pinfo pinfoWork s

/-- PORDER (R182). -/
def execPorder (s : State) : Host.Outcome State Fault Refusal := runCommand .porder porderWork s

end Sys2Proof.Machine
end

