-- ==== Sys2Proof/Machine/Trie.lean ====
section
/-! DEFINITION. The codeword trie and its matcher (41_trie.md R130 to R153). -/

namespace Sys2Proof.Machine

/-! ### Nodes and labels -/

/-- The node in a slot. An empty slot, which no rule reads in a run, reads as an inactive node of length 0 (log 10). -/
def State.node (s : State) (h : Nat) : Node :=
  (Table.get s.arena h).getD { active := false, codewordNo := 0, start := 0, length := 0, parent := 0, children := [] }

/-- Slot `h` is occupied (R47). -/
def State.occupied (s : State) (h : Nat) : Bool := (Table.get s.arena h).isSome

/-- Slot `h` holds an active node (R47). -/
def State.activeAt (s : State) (h : Nat) : Bool := s.occupied h && (s.node h).active

/-- `children(h)[c]` (R47). -/
def State.child (s : State) (h : Nat) (c : Byte) : Option Nat := Table.get (s.node h).children c.toNat

/-- `NodeChar(h, k)` (R132). -/
def State.nodeChar (s : State) (h k : Nat) : Byte :=
  if (s.node h).start = Config.seed then BitVec.ofNat 8 ((s.node h).codewordNo - 1)
  else s.charAt .src ((s.node h).start + k)

/-- `Key(x)`: the first character of the edge into `x` (R132). -/
def State.key (s : State) (x : Nat) : Byte := s.nodeChar x (s.node (s.node x).parent).length

/-- The label `(offset, length)` of the edge from `p` to its child `x` (R132). -/
def State.label (s : State) (p x : Nat) : Nat × Nat :=
  if (s.node x).start = Config.seed then (Config.seed, 1)
  else ((s.node x).start + (s.node p).length, (s.node x).length - (s.node p).length)

/-- Change the node in a slot, where there is one. -/
def State.updNode (s : State) (h : Nat) (f : Node → Node) : State := { s with arena := Table.modify s.arena h f }

/-- Put a node into a slot. -/
def State.putNode (s : State) (h : Nat) (x : Node) : State := { s with arena := Table.put s.arena h x }

/-- Empty a slot. -/
def State.freeNode (s : State) (h : Nat) : State := { s with arena := Table.del s.arena h }

/-- `children(p)[c] <- x`. -/
def State.setChild (s : State) (p : Nat) (c : Byte) (x : Nat) : State :=
  s.updNode p fun nd => { nd with children := Table.put nd.children c.toNat x }

/-- `parent(x) <- p`. -/
def State.setParent (s : State) (x p : Nat) : State := s.updNode x fun nd => { nd with parent := p }

/-- `active(x) <- v`. -/
def State.setActive (s : State) (x : Nat) (v : Bool) : State := s.updNode x fun nd => { nd with active := v }

/-- `FreeInactiveSlot()`: the lowest empty slot in `LIMIT+1 .. 2*LIMIT+1` (R133). -/
def freeInactiveSlot (s : State) : Work Nat :=
  match (List.range' (s.setup.limit + 1) (s.setup.limit + 1)).find? fun h => !s.occupied h with
  | none => raise .arenaFull 0
  | some t => .ok t

/-- Rename a handle. -/
def rename (h t x : Nat) : Nat := if x = h then t else x

/-- The matcher's handles after a node moved (R134). -/
def Matcher.relocate (m : Matcher) (h t : Nat) : Matcher :=
  { m with mnode := rename h t m.mnode, medge := m.medge.map (rename h t) }

/-- `Relocate(h, t)` (R134): the parent's child entry and the children's parent links follow the node. -/
def relocate (h t : Nat) (s : State) : State :=
  match Table.get s.arena h with
  | none => s
  | some nd =>
    let moved := (s.freeNode h).putNode t nd
    let linked := moved.updNode nd.parent fun p => { p with children := p.children.map fun e => (e.1, rename h t e.2) }
    let reparented := nd.children.foldl (fun u e => u.setParent e.2 t) linked
    { reparented with mat := s.mat.relocate h t }

/-! ### Removal -/

/-- `Splice(x)` (R136), for a node with exactly one child. -/
def splice (x : Nat) (s : State) : State :=
  match (s.node x).children with
  | [(_, y)] => (((s.setChild (s.node x).parent (s.key x) y).setParent y (s.node x).parent)).freeNode x
  | _ => s

/-- The leaf case of `RemoveNode` (R137): unlink and free, then splice an inactive parent left with one child. -/
def removeLeaf (x : Nat) (s : State) : State :=
  let p := (s.node x).parent
  let key := s.key x
  let unlinked := (s.updNode p fun nd => { nd with children := Table.del nd.children key.toNat }).freeNode x
  if p ≠ 0 ∧ (unlinked.node p).active = false ∧ (unlinked.node p).children.length = 1 then splice p unlinked
  else unlinked

/-- `RemoveNode(x)` (R137). A slot that holds no node has nothing to retire (log 7). -/
def removeNode (x : Nat) (s : State) : Work State :=
  if s.occupied x = false then .ok s
  else
    let u := s.setActive x false
    match (u.node x).children with
    | [] => .ok (removeLeaf x u)
    | [_] => .ok (splice x u)
    | _ :: _ :: _ =>
      if x ≤ s.setup.limit then
        match freeInactiveSlot u with
        | .error e => .error e
        | .ok t => .ok (relocate x t u)
      else .ok u

/-! ### Extension -/

/-- A match in progress is abandoned when the trie changes (R144). -/
def State.abandonMatch (s : State) : State :=
  if s.mat.mstate = .matching then { s with mat := { s.mat with mstate := .maximal } } else s

/-- Step 1 of TEXTEND: vacate slot `j`; the old node, if any, waits in an inactive slot (R135). -/
def vacate (j : Nat) (s : State) : Work (State × Option Nat) :=
  if s.occupied j = false then .ok (s, none)
  else
    match freeInactiveSlot s with
    | .error e => .error e
    | .ok t => .ok ((relocate j t s).setActive t false, some t)

/-- Step 2 of TEXTEND: wire codeword `j` below `i` on character `c` (R135). Answers the case too. -/
def wire (i start j : Nat) (c : Byte) (s : State) : State × Nat :=
  let depth := (s.node i).length + 1
  let fresh (children : Table Nat) : Node :=
    { active := true, codewordNo := j, start := start, length := depth, parent := i, children := children }
  match s.child i c with
  | none => ((s.putNode j (fresh [])).setChild i c j, 1)
  | some h =>
    if depth < (s.node h).length then
      (((s.putNode j (fresh [((s.nodeChar h depth).toNat, h)])).setChild i c j).setParent h j, 2)
    else
      ((relocate h j s).updNode j fun nd => { nd with active := true, codewordNo := j, start := start }, 3)

/-- Step 3 of TEXTEND: remove the evicted codeword (R135). -/
def removeEvicted (old : Option Nat) (s : State) : Work State :=
  match old with
  | none => .ok s
  | some x => removeNode x s

/-- The characters at `start` are `STR(i)` (R135). -/
def State.spelledAt (s : State) (i start : Nat) : Bool :=
  (List.range (s.node i).length).all fun k => s.charAt .src (start + k) == s.nodeChar i k

/-- The child of `i` on `c` that already is the new codeword, if there is one (R135). -/
def State.alreadyLive (s : State) (i : Nat) (c : Byte) : Option Nat :=
  match s.child i c with
  | none => none
  | some h => if (s.node h).length = (s.node i).length + 1 ∧ (s.node h).active = true then some h else none

/-- TEXTEND's rule after the guards of R141 (R135): the state, the extending character and the case. The engine uses it
too. -/
def extendTrie (i start j : Nat) (s : State) : Work (State × Byte × Nat) :=
  if s.size < i ∨ s.activeAt i = false then raise .notActive i
  else if j = 0 ∨ s.size < j ∨ j = i ∨ s.pol.perm.contains j = true then raise .indexRange j
  else if (s.buf .src).len % 8 ≠ 0 then raise .bufAlign 0
  else if (s.buf .src).nchars < start + (s.node i).length + 1 then raise .sliceRange start
  else if s.spelledAt i start = false then raise .notMatched start
  else
    let c := s.charAt .src (start + (s.node i).length)
    match s.alreadyLive i c with
    | some h => raise .alreadyLive h
    | none =>
      match vacate j s with
      | .error e => .error e
      | .ok (u, old) =>
        match removeEvicted old (wire i start j c u).1 with
        | .error e => .error e
        | .ok v => .ok (v.abandonMatch, c, (wire i start j c u).2)

/-! ### The matcher -/

/-- The matcher of R151 at a start character. -/
def Matcher.at (start : Nat) : Matcher := { Matcher.initial with mstart := start }

/-- What one matching step reports (R26, R152). -/
inductive MatchResult where
  /-- A character was consumed. -/
  | progress
  /-- A maximal match: does an extending character exist, and which. -/
  | maximal (hasChar : Bool) (char : Byte)
  /-- The end of input with nothing consumed. -/
  | endOfInput
  deriving DecidableEq, Repr

/-- The extending character: the one after the matched codeword (R152). -/
def State.extendingChar (s : State) : Byte := s.charAt .src (s.mat.mstart + s.mat.mldepth)

/-- `Mismatch` (R152): the match is maximal, the character is not consumed. -/
def State.mismatch (s : State) : State × MatchResult :=
  ({ s with mat := { s.mat with mstate := .maximal } }, .maximal true s.extendingChar)

/-- The edge being descended, or the one the character starts (R152): its child and the characters matched on it. -/
def State.edgeFor (s : State) (c : Byte) : Option (Nat × Nat) :=
  match s.mat.medge with
  | some h => some (h, s.mat.moff)
  | none => (s.child s.mat.mnode c).map fun h => (h, 0)

/-- Consume the character on the edge to `h` (R152). -/
def Matcher.consume (m : Matcher) (h off : Nat) (base : Nat) (nd : Node) : Matcher :=
  let moved := { m with mstate := .matching, mcons := m.mcons + 1, medge := some h, moff := off + 1 }
  if base + off + 1 = nd.length then
    { moved with
      mnode := h, medge := none, moff := 0,
      mlast := if nd.active then nd.codewordNo else m.mlast,
      mldepth := if nd.active then nd.length else m.mldepth }
  else moved

/-- One matching step without the command's guards (R152): the engine uses it too. -/
def matchStep (s : State) : State × MatchResult :=
  let pos := s.mat.mstart + s.mat.mcons
  if pos = (s.buf .src).nchars then
    ({ s with mat := { s.mat with mstate := .maximal } },
      if s.mat.mcons = 0 then .endOfInput
      else if s.mat.mldepth < s.mat.mcons then .maximal true s.extendingChar
      else .maximal false 0)
  else
    let c := s.charAt .src pos
    match s.edgeFor c with
    | none => s.mismatch
    | some (h, off) =>
      let base := (s.node s.mat.mnode).length
      if s.nodeChar h (base + off) = c then ({ s with mat := s.mat.consume h off base (s.node h) }, .progress)
      else State.mismatch { s with mat := { s.mat with medge := some h, moff := off } }

/-! ### The commands -/

/-- The guards of the mutating trie commands, in order (R141). -/
def trieGuards {α : Type} (s : State) (k : Work α) : Work α :=
  if s.configured = false then raise .notConfigured 0
  else if s.setup.mode ≠ .enc then raise .order 0
  else if s.estate ≠ .ready then raise .order 0
  else k

/-- TEXTEND (R135). -/
def textendWork (s : State) : Work State :=
  trieGuards s
    (match extendTrie s.opA0 s.opA1 s.opA2 s with
    | .error e => .error e
    | .ok (t, c, kind) => .ok (t.results c.toNat kind 0 0))

/-- TEDGE (R138). -/
def tedgeWork (s : State) : Work State :=
  if s.configured = false then raise .notConfigured 0
  else if s.setup.mode ≠ .enc then raise .order 0
  else if 2 * s.setup.limit + 1 < s.opA0 ∨ s.occupied s.opA0 = false then raise .indexRange s.opA0
  else
    match s.child s.opA0 (charOperand s.a1) with
    | none => .ok ((s.results 0 0 0 0).foundFlag false)
    | some d => .ok ((s.results d (s.label s.opA0 d).1 (s.label s.opA0 d).2 0).foundFlag true)

/-- Drop the highest number from the policy (R140): out of Q, PARENT 0, SIZE one less; CUR stays. -/
def State.dropNumber (s : State) (k : Nat) : State :=
  { s with pol := { s.pol with q := s.pol.q.erase k, parent := Table.putNum s.pol.parent k 0 }, size := s.size - 1 }

/-- TREMOVE (R140). -/
def tremoveWork (s : State) : Work State :=
  trieGuards s
    (if s.opA0 = 0 ∨ s.opA0 ≠ s.size ∨ s.pol.perm.contains s.opA0 = true then raise .indexRange s.opA0
    else
      match removeNode s.opA0 s with
      | .error e => .error e
      | .ok t => .ok (t.dropNumber s.opA0).abandonMatch)

/-- TMRESET (R151). -/
def tmresetWork (s : State) : Work State :=
  trieGuards s
    (if (s.buf .src).nchars < s.opA0 then raise .sliceRange s.opA0 else .ok { s with mat := Matcher.at s.opA0 })

/-- The results and flags of a matching step (R26, R152). `ahead` is the counter before the step. -/
def reportMatch (ahead : Nat) : State × MatchResult → State
  | (t, .progress) =>
    (t.results t.mat.mlast t.mat.mldepth (t.mat.mcons - t.mat.mldepth) t.mat.mcons).matchFlags false false false
  | (t, .maximal has c) => (t.results t.mat.mlast t.mat.mldepth c.toNat ahead).matchFlags true has false
  | (t, .endOfInput) => t.matchFlags true false true

/-- TMSTEP (R152). -/
def tmstepWork (s : State) : Work State :=
  trieGuards s
    (if s.mat.mstate = .maximal then raise .order 0
    else if (s.buf .src).len % 8 ≠ 0 then raise .bufAlign 0
    else .ok (reportMatch (s.mat.mcons - s.mat.mldepth) (matchStep s)))

/-- What TLOOKUP finds (R142). -/
def State.lookup (s : State) (k : Nat) : Option (Nat × Nat) :=
  if k = 0 then some (0, 0)
  else if s.size < k then none
  else
    match s.setup.mode with
    | .enc => if s.activeAt k then some ((s.node k).start, (s.node k).length) else none
    | .dec => (Table.get s.tab k).map fun e => (e.start, e.length)

/-- TLOOKUP (R142). -/
def tlookupWork (s : State) : Work State :=
  if s.configured = false then raise .notConfigured 0
  else if s.setup.limit < s.opA0 then raise .indexRange s.opA0
  else
    match s.lookup s.opA0 with
    | none => .ok (s.foundFlag false)
    | some (b, n) => .ok ((s.results b n 0 0).foundFlag true)

/-- TNODE (R143). -/
def tnodeWork (s : State) : Work State :=
  if s.configured = false then raise .notConfigured 0
  else if s.setup.mode ≠ .enc then raise .order 0
  else if 2 * s.setup.limit + 1 < s.opA0 then raise .indexRange s.opA0
  else
    match Table.get s.arena s.opA0 with
    | none => .ok (s.foundFlag false)
    | some nd =>
      .ok ((s.results (if nd.active then 2 ^ 31 + nd.codewordNo else 0) nd.start nd.length
        (if s.opA0 = 0 then 0 else nd.parent)).foundFlag true)

/-- TEXTEND (R135). -/
def execTextend (s : State) : Host.Outcome State Fault Refusal := runCommand .textend textendWork s

/-- TEDGE (R138). -/
def execTedge (s : State) : Host.Outcome State Fault Refusal := runCommand .tedge tedgeWork s

/-- TREMOVE (R140). -/
def execTremove (s : State) : Host.Outcome State Fault Refusal := runCommand .tremove tremoveWork s

/-- TMRESET (R151). -/
def execTmreset (s : State) : Host.Outcome State Fault Refusal := runCommand .tmreset tmresetWork s

/-- TMSTEP (R152). -/
def execTmstep (s : State) : Host.Outcome State Fault Refusal := runCommand .tmstep tmstepWork s

/-- TLOOKUP (R142). -/
def execTlookup (s : State) : Host.Outcome State Fault Refusal := runCommand .tlookup tlookupWork s

/-- TNODE (R143). -/
def execTnode (s : State) : Host.Outcome State Fault Refusal := runCommand .tnode tnodeWork s

end Sys2Proof.Machine
end

