-- ==== Sys2Proof/Machine/Engine.lean ====
section
/-! DEFINITION. The LZ engine: configuration, the encode and decode state machines, the run commands, EADDEXT and NOP
(43_engine.md R200 to R235). -/

namespace Sys2Proof.Machine

/-! ### Configuration -/

/-- The dictionary limit of a configuration (R201): `USER_LIMIT + NSEED`, or `MAX_UNBOUNDED` when unbounded. -/
def configLimit (maxUnbounded nseed userLimit : Nat) : Nat :=
  if userLimit = 0 then maxUnbounded else userLimit + nseed

/-- The codeword width of a configuration (R93, R201). -/
def configWidth (userLimit limit : Nat) : Nat :=
  if userLimit = 0 then Config.wordBits else ceilLog2 (limit + 1)

/-- The seed node of codeword `k` (R131). -/
def seedNode (k : Nat) : Node :=
  { active := true, codewordNo := k, start := Config.seed, length := 1, parent := 0, children := [] }

/-- The arena after ECONFIG (R131, R201). -/
def initialArena (variant : Variant) (mode : Mode) : Table Node :=
  match variant, mode with
  | .lzw, .enc =>
    (0, { Node.root with children := (List.range 256).map fun c => (c, c + 1) })
      :: (List.range 256).map fun c => (c + 1, seedNode (c + 1))
  | .lzw, .dec => [(0, Node.root)]
  | .lz78, .enc => [(0, Node.root)]
  | .lz78, .dec => [(0, Node.root)]

/-- The decoder table after ECONFIG (R51, R201). -/
def initialTab (variant : Variant) : Table Entry :=
  match variant with
  | .lzw => (0, { start := 0, length := 0 }) :: (List.range 256).map fun c => (c + 1, { start := Config.seed, length := 1 })
  | .lz78 => [(0, { start := 0, length := 0 })]

/-- The policy state after ECONFIG (R201): the seeds and 0 are permanent. -/
def initialPolicy (variant : Variant) : PolicyState :=
  { q := [], parent := [], perm := List.range (variant.nseed + 1), cur := variant.nseed + 1 }

/-- The configuration state ECONFIG latches (R201). -/
def latchedSetup (maxUnbounded : Nat) (word : Word) (userLimit : Nat) : Setup :=
  let limit := configLimit maxUnbounded (variantField word).nseed userLimit
  { variant := variantField word, policy := policyField word, mode := modeField word, userLimit := userLimit,
    unb := decide (userLimit = 0), limit := limit, width := configWidth userLimit limit }

/-- The re-initialisation ECONFIG does once its checks pass (R57, R201). -/
def State.configure (s : State) (setup : Setup) : State :=
  { s with
    setup := setup
    size := setup.variant.nseed
    epos := 0
    nl := 0
    estate := .ready
    configured := true
    pol := initialPolicy setup.variant
    arena := initialArena setup.variant setup.mode
    tab := initialTab setup.variant
    mat := Matcher.initial }

/-- ECONFIG (R200, R201). -/
def econfigWork (s : State) : Work State :=
  if configReserved s.a0 ≠ 0 then raise .badConfig s.opA1
  else if s.opA1 = 1 ∨ s.opA1 = 2 then raise .badConfig s.opA1
  else if s.opA1 ≠ 0 ∧ s.maxLimit < s.opA1 + (variantField s.a0).nseed then raise .badConfig s.opA1
  else
    let t := s.configure (latchedSetup s.maxUnbounded s.a0 s.opA1)
    .ok (t.results t.setup.limit t.setup.width t.size 0)

/-! ### Encode -/

/-- One record of the codeword stream (R210, R220): number, length, extending character if any, number assigned. -/
structure Record where
  i : Nat
  len : Nat
  hasChar : Bool
  char : Byte
  j : Nat
  deriving DecidableEq, Repr

/-- Repeat the matching step until the match is maximal (R210). `fuel` bounds the loop: a match from `p` over `n`
characters takes at most `n - p + 1` steps (R153, R234; log 18). -/
def matchLoop : Nat → State → State × MatchResult
  | 0, s => s.mismatch
  | fuel + 1, s =>
    match matchStep s with
    | (t, .progress) => matchLoop fuel t
    | (t, .maximal has c) => (t, .maximal has c)
    | (t, .endOfInput) => (t, .endOfInput)

/-- The longest match at EPOS: TMRESET(EPOS), then TMSTEP until MAXIMAL (R210). -/
def longestMatch (s : State) : Work (State × MatchResult) :=
  if (s.buf .src).nchars < s.epos then raise .sliceRange s.epos
  else .ok (matchLoop ((s.buf .src).nchars - s.epos + 1) { s with mat := Matcher.at s.epos })

/-- The Emit of an encode step (R210, R211): the number in `W` bits, then in LZ78 the character if there is one. -/
def emitRecord (i : Nat) (has : Bool) (c : Byte) (s : State) : Work State :=
  match putBits .cw s.setup.width i s with
  | .error e => .error e
  | .ok t => if s.setup.variant = .lz78 ∧ has = true then putBits .cw 8 c.toNat t else .ok t

/-- The final flush (R213): the assigned number gets no node, its old node is removed, and NL names it. -/
def finalFlush (j : Nat) (s : State) : Work State :=
  match removeNode j s with
  | .error e => .error e
  | .ok t => .ok { t with nl := j }

/-- The dictionary's part of an encode step (R210, R213, R215): extend, flush, or leave it when the policy rejected. -/
def growDictionary (i : Nat) (has : Bool) (j : Nat) (s : State) : Work State :=
  if j = 0 then .ok s
  else if has = true then
    match extendTrie i s.epos j s with
    | .error e => .error e
    | .ok (t, _, _) => .ok t
  else finalFlush j s

/-- How far an encode step moves EPOS (R212). -/
def encodeAdvance (variant : Variant) (len : Nat) (has : Bool) : Nat :=
  len + if variant = .lz78 ∧ has = true then 1 else 0

/-- The rest of an encode step once the maximal match is known (R210). -/
def finishRecord (has : Bool) (c : Byte) (s : State) : Work (State × Record) :=
  let i := s.mat.mlast
  let len := s.mat.mldepth
  match emitRecord i has c s with
  | .error e => .error e
  | .ok t =>
    match matchPolicy i t with
    | .error e => .error e
    | .ok (u, j) =>
      match growDictionary i has j u with
      | .error e => .error e
      | .ok v =>
        .ok ({ v with
                epos := v.epos + encodeAdvance s.setup.variant len has
                estate := if has then v.estate else .done },
          { i := i, len := len, hasChar := has, char := if has then c else 0, j := j })

/-- ESTEP's rule without its flags and results (R210): the state and the record, none at the end of input. -/
def encodeStep (s : State) : Work (State × Option Record) :=
  if s.configured = false then raise .notConfigured 0
  else if s.setup.mode ≠ .enc ∨ s.estate ≠ .ready then raise .order 0
  else if (s.buf .src).len % 8 ≠ 0 then raise .bufAlign 0
  else
    match longestMatch s with
    | .error e => .error e
    | .ok (t, .maximal has c) =>
      match finishRecord has c t with
      | .error e => .error e
      | .ok (u, r) => .ok (u, some r)
    | .ok (t, .progress) => .ok ({ t with estate := .done }, none)
    | .ok (t, .endOfInput) => .ok ({ t with estate := .done }, none)

/-- The results and flags of ESTEP and DSTEP (R210, R220). -/
def reportRecord : State × Option Record → State
  | (t, none) => t.stepFlags false false true
  | (t, some r) => (t.results r.i r.len r.char.toNat r.j).stepFlags r.hasChar (decide (r.j = 0)) false

/-- ESTEP (R210). -/
def estepWork (s : State) : Work State :=
  match encodeStep s with
  | .error e => .error e
  | .ok x => .ok (bumpEpochs s (reportRecord x))

/-! ### Decode -/

/-- Append characters to OUT one `put_char` at a time (R112, R222); CAPACITY reports the width of one (log 8). -/
def putChars : List Byte → State → Work State
  | [], s => .ok s
  | c :: cs, s =>
    match putBits .out 8 c.toNat s with
    | .error e => .error e
    | .ok t => putChars cs t

/-- `CopyOut(b, n)` for codeword `i` (R222): a seed directly, else the first character by explicit copy and then the
remainder, read whole before it is written. -/
def copyOut (i : Nat) (e : Entry) (s : State) : Work State :=
  if e.start = Config.seed then putBits .out 8 (i - 1) s
  else if e.length = 0 then .ok s
  else if (s.buf .out).nchars ≤ e.start then raise .badStream e.start
  else
    match putBits .out 8 (s.charAt .out e.start).toNat s with
    | .error x => .error x
    | .ok t =>
      if (t.buf .out).nchars < e.start + e.length then raise .badStream e.start
      else putChars (t.charsAt .out (e.start + 1) (e.length - 1)) t

/-- Move the cursor of CW (R220). -/
def advanceCw (n : Nat) (s : State) : State := s.setBuf .cw ((s.buf .cw).setRc ((s.buf .cw).rc + n))

/-- Bits of CW after the cursor (R220). -/
def State.remaining (s : State) : Nat := (s.buf .cw).len - (s.buf .cw).rc

/-- The character part of a decode step (R220, R221): is this record final, and its extending character if any. -/
def decodeChar (i : Nat) (s : State) : Work (State × Option Byte × Bool) :=
  match s.setup.variant with
  | .lzw => .ok (s, none, false)
  | .lz78 =>
    if s.remaining = 0 then
      if i = 0 then raise .badStream 0 else .ok (s, none, true)
    else if s.remaining < 8 then raise .badStream s.remaining
    else
      let c : Byte := BitVec.ofNat 8 ((s.buf .cw).read (s.buf .cw).rc 8)
      match putBits .out 8 c.toNat (advanceCw 8 s) with
      | .error e => .error e
      | .ok t => .ok (t, some c, false)

/-- `add_extension(i, pos)` (R223, R228): the PMATCH rule, then the table entry unless it rejected. -/
def addExtension (i pos len : Nat) (s : State) : Work (State × Nat) :=
  match matchPolicy i s with
  | .error e => .error e
  | .ok (t, j) =>
    .ok ((if j = 0 then t else { t with tab := Table.put t.tab j { start := pos, length := len + 1 } }), j)

/-- The entry a decoded number names, or none where the stream is bad (R220, R224). -/
def State.decodedEntry (s : State) (i : Nat) : Option Entry :=
  if s.size < i ∨ (s.setup.variant = .lzw ∧ i = 0) then none else Table.get s.tab i

/-- A decode step once the number is read and its entry found (R220). -/
def decodeRecord (i : Nat) (e : Entry) (s : State) : Work (State × Record) :=
  let pos := (s.buf .out).nchars
  match copyOut i e s with
  | .error x => .error x
  | .ok t =>
    match decodeChar i t with
    | .error x => .error x
    | .ok (u, c, final) =>
      match addExtension i pos e.length u with
      | .error x => .error x
      | .ok (v, j) =>
        .ok ({ v with estate := if final then .done else v.estate },
          { i := i, len := e.length, hasChar := c.isSome, char := c.getD 0, j := j })

/-- DSTEP's rule without its flags and results (R220): the state and the record, none at the end of the stream. -/
def decodeStep (s : State) : Work (State × Option Record) :=
  if s.configured = false then raise .notConfigured 0
  else if s.setup.mode ≠ .dec ∨ s.estate ≠ .ready then raise .order 0
  else if (s.buf .out).len % 8 ≠ 0 then raise .bufAlign 2
  else if s.remaining = 0 then .ok ({ s with estate := .done }, none)
  else if s.remaining < s.setup.width then raise .badStream s.remaining
  else
    let i := (s.buf .cw).read (s.buf .cw).rc s.setup.width
    match s.decodedEntry i with
    | none => raise .badStream i
    | some e =>
      match decodeRecord i e (advanceCw s.setup.width s) with
      | .error x => .error x
      | .ok (t, r) => .ok (t, some r)

/-- DSTEP (R220). -/
def dstepWork (s : State) : Work State :=
  match decodeStep s with
  | .error e => .error e
  | .ok x => .ok (bumpEpochs s (reportRecord x))

/-! ### Run commands, EADDEXT, NOP -/

/-- The loop of ERUN and DRUN (R226, R227): steps while ESTATE = READY, and the records counted. `fuel` bounds it
(R226, R227, R234; log 18). -/
def runSteps (step : State → Work (State × Option Record)) : Nat → Nat → State → Work (State × Nat)
  | 0, count, s => .ok (s, count)
  | fuel + 1, count, s =>
    if s.estate = .ready then
      match step s with
      | .error e => .error e
      | .ok (t, none) => runSteps step fuel count t
      | .ok (t, some _) => runSteps step fuel (count + 1) t
    else .ok (s, count)

/-- ERUN (R226): at most `NCHARS(0) + 1` steps. -/
def erunWork (s : State) : Work State :=
  if s.configured = false then raise .notConfigured 0
  else if s.setup.mode ≠ .enc ∨ s.estate ≠ .ready then raise .order 0
  else
    match runSteps encodeStep ((s.buf .src).nchars + 2) 0 s with
    | .error e => .error e
    | .ok (t, count) => .ok (bumpEpochs s (t.results count 0 0 0))

/-- DRUN (R227): each step consumes at least one bit of CW, or ends. -/
def drunWork (s : State) : Work State :=
  if s.configured = false then raise .notConfigured 0
  else if s.setup.mode ≠ .dec ∨ s.estate ≠ .ready then raise .order 0
  else
    match runSteps decodeStep (s.remaining + 2) 0 s with
    | .error e => .error e
    | .ok (t, count) => .ok (bumpEpochs s (t.results count 0 0 0))

/-- EADDEXT (R228). -/
def eaddextWork (s : State) : Work State :=
  if s.configured = false then raise .notConfigured 0
  else if s.setup.mode ≠ .dec ∨ s.estate ≠ .ready then raise .order 0
  else if s.size < s.opA0 then raise .indexRange s.opA0
  else
    match Table.get s.tab s.opA0 with
    | none => raise .indexRange s.opA0
    | some e =>
      if (s.buf .out).nchars < s.opA1 then raise .sliceRange s.opA1
      else
        match addExtension s.opA0 s.opA1 e.length s with
        | .error x => .error x
        | .ok (t, j) => .ok ((t.results j 0 0 0).rejectFlag (decide (j = 0)))

/-- NOP (R230): nothing beyond the clearing of flags and results. -/
def nopWork (s : State) : Work State := .ok s

/-- NOP (R230). -/
def execNop (s : State) : Host.Outcome State Fault Refusal := runCommand .nop nopWork s

/-- ECONFIG (R201). -/
def execEconfig (s : State) : Host.Outcome State Fault Refusal := runCommand .econfig econfigWork s

/-- ESTEP (R210). -/
def execEstep (s : State) : Host.Outcome State Fault Refusal := runCommand .estep estepWork s

/-- DSTEP (R220). -/
def execDstep (s : State) : Host.Outcome State Fault Refusal := runCommand .dstep dstepWork s

/-- ERUN (R226). -/
def execErun (s : State) : Host.Outcome State Fault Refusal := runCommand .erun erunWork s

/-- DRUN (R227). -/
def execDrun (s : State) : Host.Outcome State Fault Refusal := runCommand .drun drunWork s

/-- EADDEXT (R228). -/
def execEaddext (s : State) : Host.Outcome State Fault Refusal := runCommand .eaddext eaddextWork s

end Sys2Proof.Machine
end

