-- ==== Sys2Proof/Machine/Dispatch.lean ====
section
/-! DEFINITION. One arm per command (30_encoding.md R88). -/

namespace Sys2Proof.Machine

def exec (i : Instr) (s : State) : Host.Outcome State Fault Refusal :=
  match i with
  | .nop => Sys2Proof.Machine.execNop s
  | .bput b n => Sys2Proof.Machine.execBput b n s
  | .bget b n => Sys2Proof.Machine.execBget b n s
  | .bputc b => Sys2Proof.Machine.execBputc b s
  | .bgetc b => Sys2Proof.Machine.execBgetc b s
  | .bslice b => Sys2Proof.Machine.execBslice b s
  | .bcopy b => Sys2Proof.Machine.execBcopy b s
  | .beq b => Sys2Proof.Machine.execBeq b s
  | .bclr b => Sys2Proof.Machine.execBclr b s
  | .bseek b => Sys2Proof.Machine.execBseek b s
  | .binfo b => Sys2Proof.Machine.execBinfo b s
  | .textend => Sys2Proof.Machine.execTextend s
  | .tedge => Sys2Proof.Machine.execTedge s
  | .tremove => Sys2Proof.Machine.execTremove s
  | .tmreset => Sys2Proof.Machine.execTmreset s
  | .tmstep => Sys2Proof.Machine.execTmstep s
  | .tlookup => Sys2Proof.Machine.execTlookup s
  | .tnode => Sys2Proof.Machine.execTnode s
  | .pmatch => Sys2Proof.Machine.execPmatch s
  | .pperm => Sys2Proof.Machine.execPperm s
  | .pinfo => Sys2Proof.Machine.execPinfo s
  | .porder => Sys2Proof.Machine.execPorder s
  | .econfig => Sys2Proof.Machine.execEconfig s
  | .estep => Sys2Proof.Machine.execEstep s
  | .dstep => Sys2Proof.Machine.execDstep s
  | .erun => Sys2Proof.Machine.execErun s
  | .drun => Sys2Proof.Machine.execDrun s
  | .eaddext => Sys2Proof.Machine.execEaddext s

end Sys2Proof.Machine
end

