-- ==== Sys2Proof/Machine/HostWindow.lean ====
section
/-! DEFINITION. The host register window (10_state.md R30 to R44, 60_exceptions.md R243, R263), the fetch of the next
host access, and the assembler of 30_encoding.md R94, R95. -/

namespace Sys2Proof.Machine

/-- A 32-bit access to a word-aligned offset in 0x00–0xFC; every other access is refused (R263). -/
def accessOk (off size : Nat) : Bool := decide (size = 4 ∧ off % 4 = 0 ∧ off ≤ 0xFC)

/-- The value of a register read (R32, R44). Write-only registers and reserved offsets read 0. -/
def State.readReg (s : State) (off : Nat) : Word :=
  match off with
  | 0x04 => s.statusWord
  | 0x08 => s.a0
  | 0x0C => s.a1
  | 0x10 => s.a2
  | 0x14 => s.r0
  | 0x18 => s.r1
  | 0x1C => s.r2
  | 0x20 => s.r3
  | 0x24 => s.cfgWord
  | 0x28 => s.limitWord
  | 0x2C => toWord s.setup.width
  | 0x30 => toWord s.size
  | 0x34 => toWord s.epos
  | 0x38 => s.faultInfo
  | 0x3C => s.faultCmd
  | 0x44 => s.paramsWord
  | 0x48 => Config.idWord
  | _ => 0

/-- What a host read returns: a refused read returns 0 (R263). -/
def State.hostRead (s : State) (off size : Nat) : Word := if accessOk off size then s.readReg off else 0

/-- A write of CMD (R33): while FAULT = 1 it is ignored and no check is made (R85, R243). A word that is no command
raises its fault; a command runs. -/
def issueCommand (w : Word) (s : State) : Host.Outcome State Fault Refusal :=
  if s.fault then .next s
  else
    match decode w with
    | .error e => .next (s.latch (decodeFault e) w)
    | .ok i => exec i s

/-- The effect of a write to a register (R32, R41, R44): A0 to A2 store, CMD issues, CTRL bit 0 resets, the rest ignore
it. -/
def writeReg (off : Nat) (v : Word) (s : State) : Host.Outcome State Fault Refusal :=
  match off with
  | 0x00 => issueCommand v s
  | 0x08 => .next { s with a0 := v }
  | 0x0C => .next { s with a1 := v }
  | 0x10 => .next { s with a2 := v }
  | 0x40 => .next (if v.getLsbD 0 then s.srst else s)
  | _ => .next s

/-- One host access (R262, R263). A read changes nothing but the value returned to the host (R67). -/
def perform (x : HostAccess) (s : State) : Host.Outcome State Fault Refusal :=
  match x with
  | .read off size => .next { s with rdata := s.hostRead off size }
  | .write off size v => if accessOk off size then writeReg off v s else .next s
  | .resetInput => .next s.srst

/-- Fetch: the oldest pending host access, and the state without it. Each access is one draw of the free values
(log 4). -/
def takeAccess (s : State) : Option (HostAccess × State) :=
  match s.host with
  | [] => none
  | x :: rest => some (x, { s with host := rest, freeCount := s.freeCount + 1 })

/-- The host's write of a command word. -/
def commandAccess (w : Word) : HostAccess := .write 0x00 4 w

/-! ### The assembler (R94, R95) -/

/-- The registers a host program writes (R94). -/
inductive HostReg where
  | a0
  | a1
  | a2
  | ctrl
  deriving DecidableEq, Repr

/-- The byte offset of a register (R32). -/
def HostReg.offset : HostReg → Nat
  | .a0 => 0x08
  | .a1 => 0x0C
  | .a2 => 0x10
  | .ctrl => 0x40

/-- `WR <reg>, <value>` (R94). -/
def asmWr (r : HostReg) (v : Nat) : HostAccess := .write r.offset 4 (toWord v)

/-- `<MNEMONIC> [<buffer>][, <n>]` (R94). -/
def asmCmd (i : Instr) : HostAccess := commandAccess (encode i)

/-- `RD <reg>`, the register given by its offset (R94). -/
def asmRd (off : Nat) : HostAccess := .read off 4

/-- `PUTS <buffer>, "<text>"` (R95), the text as its characters. -/
def asmPuts (b : Buf) (text : List Byte) : List HostAccess :=
  text.flatMap fun c => [asmWr .a0 c.toNat, asmCmd (.bputc b)]

/-- `CONFIG <variant>, <policy>, <mode>, <limit>` (R95). -/
def asmConfig (v : Variant) (p : Policy) (m : Mode) (limit : Nat) : List HostAccess :=
  [asmWr .a0 (v.num + p.num * 2 + m.num * 8), asmWr .a1 limit, asmCmd .econfig]

/-- `SETOP <a0>[, <a1>[, <a2>]]` (R95). -/
def asmSetop (x0 : Nat) (x1 x2 : Option Nat) : List HostAccess :=
  asmWr .a0 x0 :: ((x1.map (asmWr .a1)).toList ++ (x2.map (asmWr .a2)).toList)

/-- `SRST` (R95). -/
def asmSrst : HostAccess := asmWr .ctrl 1

/-- The byte lanes of a register on a host bus: lane `k` carries bits `8k+7 .. 8k` (R63). -/
def lane (w : Word) (k : Nat) : Byte := w.extractLsb' (8 * k) 8

end Sys2Proof.Machine
end

