-- ==== Sys2Proof/Machine/Step.lean ====
section
/-! DEFINITION. One step: the oldest pending host access takes effect (10_state.md R20, R23; log 2). -/

namespace Sys2Proof.Machine

/-- One step of the block. With no access pending the block waits for the host (R271). -/
def step (s : State) : Host.Outcome State Fault Refusal :=
  match takeAccess s with
  | none => .next s
  | some (x, t) => perform x t

/-- Place a command word where the next step fetches: the host's next access is the write of that word to CMD (log 2). -/
def State.withFetchWord (s : State) (nbits w : Nat) : State :=
  { s with host := commandAccess (BitVec.ofNat 32 (w % 2 ^ nbits)) :: s.host }

end Sys2Proof.Machine
end

