-- ==== Sys2Proof/Safety.lean ====
section
/-! DEFINITION. What the spec says of every state (10_state.md R37, R45 to R50, 60_exceptions.md R240) in checkable form,
and the terms the statements use: strings of codewords, and frames. -/

namespace Sys2Proof.Machine

/-! ### Invariants -/

/-- The build is large enough for every configuration and small enough for the registers: an unbounded LZW dictionary has
room for its seeds and one number more (R9 gives 2^16), LIMIT fits its 31-bit field (R35), and lengths in bits fit 32 bits
(R233; R9 gives 2^24). -/
def buildOk (b : Config.Build) : Bool :=
  decide (9 ≤ b.unboundedLog ∧ b.unboundedLog ≤ 30 ∧ b.limitLog ≤ 30 ∧ b.capLog ≤ 31)

/-- R45: the bounds of the three buffers. -/
def State.memOk (s : State) : Bool := s.mem.wf s.capBits

/-- The sparse tables are in canonical form (log 11). -/
def State.tablesOk (s : State) : Bool :=
  Table.wf s.arena && s.arena.all (fun e => Table.wf e.2.children) && Table.wf s.tab && Table.wfNum s.pol.parent
    && setWf s.pol.perm

/-- R47: the layout of the arena. Slots `0..LIMIT` hold active nodes only, each under its own number; slots
`LIMIT+1..2*LIMIT+1` hold inactive nodes only; there are no others. -/
def State.layoutOk (s : State) : Bool :=
  s.arena.all fun e =>
    if e.1 ≤ s.setup.limit then e.2.active && decide (e.2.codewordNo = e.1)
    else !e.2.active && decide (e.1 ≤ 2 * s.setup.limit + 1)

/-- R37, R49: `Q` lists distinct assigned numbers, every assigned number that is not permanent is in it (never under MRA,
where it is empty), and `SIZE ≤ LIMIT`. -/
def State.queueOk (s : State) : Bool :=
  decide s.pol.q.Nodup && s.pol.q.all (fun k => decide (1 ≤ k ∧ k ≤ s.size)) && decide (s.size ≤ s.setup.limit)
    && s.pol.isPerm 0
    && (if s.setup.policy = .mra then s.pol.q.isEmpty
        else (List.range' 1 s.size).all fun k => s.pol.isPerm k || decide (k ∈ s.pol.q))

/-- R49, R176, R180: once configured, some number is reclaimable, CUR is in `1..LIMIT`, and under MRA it is not
permanent. -/
def State.cursorOk (s : State) : Bool :=
  !s.configured
    || (decide (1 ≤ s.pol.cur ∧ s.pol.cur ≤ s.setup.limit)
        && (List.range' 1 s.setup.limit).any (fun k => !s.pol.isPerm k)
        && (decide (s.setup.policy ≠ .mra) || !s.pol.isPerm s.pol.cur))

/-- R28, R29: ESTATE is UNCONFIGURED exactly while CONFIGURED = 0. -/
def State.phaseOk (s : State) : Bool := decide (s.estate = .unconfigured) == !s.configured

/-- R39, R40, R240: without a fault the fault registers are 0; with one, FCODE is an assigned code and FOPC is the OPC of
FAULT_CMD. -/
def State.faultOk (s : State) : Bool :=
  if s.fault then
    decide (1 ≤ (s.faultInfo.extractLsb' 0 8).toNat ∧ (s.faultInfo.extractLsb' 0 8).toNat ≤ 0x11
      ∧ s.faultInfo.extractLsb' 8 8 = s.faultCmd.extractLsb' 24 8)
  else decide (s.faultInfo = 0 ∧ s.faultCmd = 0)

/-- R48 (2) to (5), R74: the links of the trie. Inactive nodes have two or more children; a node's characters are written;
a child is deeper, is keyed by its own character, extends the string of its parent and points back; every node but the root
is its parent's child. -/
def State.linksOk (s : State) : Bool :=
  s.arena.all fun e =>
    (e.2.active || decide (2 ≤ e.2.children.length))
      && (if e.2.start = Config.seed then decide (e.2.length = 1)
          else decide (e.2.start + e.2.length ≤ (s.buf .src).nchars))
      && e.2.children.all (fun c =>
          s.occupied c.2 && decide ((s.node c.2).parent = e.1) && decide (e.2.length < (s.node c.2).length)
            && decide ((s.key c.2).toNat = c.1)
            && (List.range e.2.length).all (fun k => s.nodeChar c.2 k == s.nodeChar e.1 k))
      && (e.1 == 0 || s.child e.2.parent (s.key e.1) == some e.1)

/-- R28, R37, R47, R49, R131, R201: what the dictionary holds. `0..NSEED` are permanent, assigned and not in `Q`. Outside
an encode configuration the arena is the bare root. In one, slot 0 is the root, slots `1..NSEED` are the seeds and no other
node is a seed, and every active node's number is assigned. -/
def State.dictionaryOk (s : State) : Bool :=
  (List.range (s.nseed + 1)).all s.pol.isPerm && decide (s.nseed ≤ s.size) && s.pol.q.all (fun k => decide (s.nseed < k))
    && (if s.configured = true ∧ s.setup.mode = .enc then
          s.arena.all (fun e =>
            decide (s.setup.limit < e.1 ∨ e.1 ≤ s.size) && decide (e.2.start = Config.seed → 1 ≤ e.1 ∧ e.1 ≤ s.nseed))
          && decide (s.occupied 0 = true ∧ (s.node 0).start = 0 ∧ (s.node 0).length = 0 ∧ (s.node 0).parent = 0)
          && (List.range' 1 s.nseed).all (fun k =>
              s.occupied k && decide ((s.node k).start = Config.seed ∧ (s.node k).length = 1 ∧ (s.node k).parent = 0))
        else decide (s.arena = [(0, Node.root)]))

/-- R48 (1): every number in `1..SIZE` has its active node. It holds between an assignment and its TEXTEND only for the
other numbers (R282). -/
def State.allNodesOk (s : State) : Bool := (List.range' 1 s.size).all fun k => s.activeAt k

/-- R35, R36, R93, R201, R202: once configured, LIMIT fits in `W` bits and in its register, and `W` is 2 to 32. -/
def State.setupOk (s : State) : Bool :=
  !s.configured
    || decide (2 ≤ s.setup.width ∧ s.setup.width ≤ 32 ∧ s.setup.limit < 2 ^ s.setup.width ∧ s.setup.limit < 2 ^ 31)

/-- R49 as it stands: `Q` holds no permanent number, and no number above SIZE is permanent. A host that mixes TREMOVE and
PPERM under SMRU can leave it (log 17); the engine's own commands keep it. -/
def State.policyExact (s : State) : Bool :=
  s.pol.q.all (fun k => !s.pol.isPerm k) && s.pol.perm.all fun k => decide (k ≤ s.size)

/-- All the invariants that every step keeps. -/
def State.inv (s : State) : Bool :=
  buildOk s.build && s.memOk && s.tablesOk && s.layoutOk && s.queueOk && s.cursorOk && s.phaseOk && s.faultOk
    && s.setupOk && s.dictionaryOk && s.linksOk

/-! ### The string of a codeword (R50) -/

/-- `STR(k)` in encode mode. -/
def State.nodeString (s : State) (k : Nat) : List Byte := (List.range (s.node k).length).map fun x => s.nodeChar k x

/-- `STR(k)` of a decoder table entry. -/
def State.entryString (s : State) (k : Nat) (e : Entry) : List Byte :=
  if e.start = Config.seed then [BitVec.ofNat 8 (k - 1)] else s.charsAt .out e.start e.length

/-- `STR(k)` (R50). -/
def State.str (s : State) (k : Nat) : List Byte :=
  match s.setup.mode with
  | .enc => s.nodeString k
  | .dec => match Table.get s.tab k with | some e => s.entryString k e | none => []

/-! ### Frames -/

/-- `t` with the result registers and per-command flags of `s` put back. A command that writes nothing else gives a `t`
for which this is `s`. -/
def putBackResults (s t : State) : State :=
  { t with flags := s.flags, r0 := s.r0, r1 := s.r1, r2 := s.r2, r3 := s.r3 }

/-- Nothing but results, flags and buffers changed, and of the buffers only `b`. -/
def OnlyBuffer (b : Buf) (s t : State) : Prop :=
  { putBackResults s t with mem := s.mem } = s ∧ ∀ d, d ≠ b → t.buf d = s.buf d

/-- Nothing but results, flags and policy state (SIZE with it) changed. -/
def OnlyPolicy (s t : State) : Prop := { putBackResults s t with pol := s.pol, size := s.size } = s

/-- Nothing but results, flags, the arena and the matcher changed. -/
def OnlyTrie (s t : State) : Prop := { putBackResults s t with arena := s.arena, mat := s.mat } = s

/-- Nothing but results, flags and the matcher changed. -/
def OnlyMatcher (s t : State) : Prop := { putBackResults s t with mat := s.mat } = s

/-- The result registers hold these numbers. -/
def Results (t : State) (x0 x1 x2 x3 : Nat) : Prop :=
  t.r0 = toWord x0 ∧ t.r1 = toWord x1 ∧ t.r2 = toWord x2 ∧ t.r3 = toWord x3

/-- The fault latch over `s` (R241): only FAULT, FAULT_INFO and FAULT_CMD differ, and they hold the code, the argument and
the command word. -/
def Latched (s t : State) (code info : Nat) (cmd : Word) : Prop :=
  t = { s with fault := true, faultInfo := t.faultInfo, faultCmd := cmd }
    ∧ t.faultInfo.toNat = code + (cmd.toNat / 2 ^ 24) * 2 ^ 8 + (info % 2 ^ 16) * 2 ^ 16

/-- The command ends in this fault (R240, R241). -/
def Faults (i : Instr) (s : State) (code info : Nat) : Prop :=
  ∃ t, exec i s = .next t ∧ Latched s t code info (encode i)

/-! ### What a command's rule asks of the state -/

/-- No fault, configured in this mode, and the engine READY (R141, R210, R220). -/
def ReadyIn (m : Mode) (s : State) : Prop :=
  s.fault = false ∧ s.configured = true ∧ s.setup.mode = m ∧ s.estate = .ready

/-- The PMATCH rule may assign a number to the extension of `i` (the checks of R172). -/
def MatchAllowed (s : State) (i : Nat) : Prop :=
  s.configured = true ∧ s.estate ≠ .done ∧ i ≤ s.size ∧ ¬(s.setup.unb = true ∧ s.size = s.setup.limit)

/-- The checks of TEXTEND (R135). -/
def ExtendAllowed (s : State) (i start j : Nat) : Prop :=
  i ≤ s.size ∧ s.activeAt i = true ∧ 1 ≤ j ∧ j ≤ s.size ∧ j ≠ i ∧ s.pol.isPerm j = false ∧ (s.buf .src).len % 8 = 0
    ∧ start + (s.node i).length + 1 ≤ (s.buf .src).nchars
    ∧ (∀ k, k < (s.node i).length → s.charAt .src (start + k) = s.nodeChar i k)
    ∧ ∀ h, s.child i (s.charAt .src (start + (s.node i).length)) = some h →
        (s.node h).length = (s.node i).length + 1 → (s.node h).active = false

/-- `i` is the longest live codeword that is a prefix of the input from character `p` on, and `L` its length (R153). -/
def IsLongestMatch (s : State) (p i L : Nat) : Prop :=
  s.activeAt i = true ∧ (s.node i).length = L ∧ p + L ≤ (s.buf .src).nchars
    ∧ (∀ k, k < L → s.charAt .src (p + k) = s.nodeChar i k)
    ∧ ∀ x, s.activeAt x = true → p + (s.node x).length ≤ (s.buf .src).nchars →
        (∀ k, k < (s.node x).length → s.charAt .src (p + k) = s.nodeChar x k) → (s.node x).length ≤ L

/-- `n` commands `i` in a row, none of which faults, lead from `s` to `t`. -/
def Repeated (i : Instr) : Nat → State → State → Prop
  | 0, s, t => t = s
  | n + 1, s, t => ∃ u, exec i s = .next u ∧ u.fault = false ∧ Repeated i n u t

/-- Steps of a run while ESTATE = READY, with what each reports, lead from `s` to `t` (R226, R227). -/
def RunsOver (step : State → Work (State × Option Record)) : State → List (Option Record) → State → Prop
  | s, [], t => s.estate ≠ .ready ∧ t = s
  | s, r :: rs, t => s.estate = .ready ∧ ∃ u, step s = .ok (u, r) ∧ RunsOver step u rs t

/-- Steps of a run lead from `s` to `u`, where ESTATE is still READY (R226, R227). -/
def RunsInto (step : State → Work (State × Option Record)) : State → List (Option Record) → State → Prop
  | s, [], u => s.estate = .ready ∧ u = s
  | s, r :: rs, u => s.estate = .ready ∧ ∃ v, step s = .ok (v, r) ∧ RunsInto step v rs u

/-- A well-formed record stands at the cursor of CW, and `e` is the entry of its number (R220 to R222, R224): the number is
assigned, an LZW or final LZ78 record does not name 0, an extending character is whole, and OUT holds the entry's string
up to one character. -/
def RecordReads (s : State) (e : Entry) : Prop :=
  let i := (s.buf .cw).read (s.buf .cw).rc s.setup.width
  let left := s.remaining - s.setup.width
  let pos := (s.buf .out).nchars
  s.setup.width ≤ s.remaining ∧ i ≤ s.size ∧ Table.get s.tab i = some e ∧ (s.setup.variant = .lzw → i ≠ 0)
    ∧ (s.setup.variant = .lz78 → left = 0 → i ≠ 0) ∧ (s.setup.variant = .lz78 → left ≠ 0 → 8 ≤ left)
    ∧ (e.start = Config.seed → e.length = 1)
    ∧ (e.start ≠ Config.seed → e.length = 0 ∨ (e.start < pos ∧ e.start + e.length ≤ pos + 1))

/-- The decoder can copy the string of every assigned number, none longer than `m` (R50, R51, R222). -/
def TableReads (s : State) (m : Nat) : Prop :=
  let pos := (s.buf .out).nchars
  Table.get s.tab 0 = some { start := 0, length := 0 }
    ∧ ∀ k, 1 ≤ k → k ≤ s.size → ∃ e, Table.get s.tab k = some e ∧ 1 ≤ e.length ∧ e.length ≤ m
        ∧ (e.start = Config.seed → e.length = 1) ∧ (e.start ≠ Config.seed → e.start < pos ∧ e.start + e.length ≤ pos + 1)

/-- Bits of a record with its extending character, if it has one (R91, R92). -/
def State.recordBits (s : State) : Nat := s.setup.width + if s.setup.variant = .lz78 then 8 else 0

/-- CW holds exactly `n` records from its cursor on (R91, R92; the last of LZ78 may go without its character), and each names
a number that is assigned by then: `r` records raise SIZE by `r` up to LIMIT (R170). -/
def StreamReads (s : State) (n : Nat) : Prop :=
  let short := s.setup.variant = .lz78 ∧ 0 < n ∧ s.remaining + 8 = n * s.recordBits
  (s.remaining = n * s.recordBits ∨ short)
    ∧ ∀ r, r < n →
        let i := (s.buf .cw).read ((s.buf .cw).rc + r * s.recordBits) s.setup.width
        i ≤ min (s.size + r) s.setup.limit ∧ (s.setup.variant = .lzw → i ≠ 0) ∧ (short → r + 1 = n → i ≠ 0)

/-- `xs` is `x, PARENT[x], …` up to the first permanent number, excluded (R174, R180). -/
def ChainOf (p : PolicyState) : Nat → List Nat → Prop
  | x, [] => p.isPerm x = true
  | x, y :: ys => y = x ∧ p.isPerm x = false ∧ ChainOf p (p.parentOf x) ys

/-- `x` is `NextNonPerm(k)` (R176): the first number of `k+1, …, limit, 1, 2, …` that is not permanent. -/
def IsNextNonPerm (p : PolicyState) (limit k x : Nat) : Prop :=
  1 ≤ x ∧ x ≤ limit ∧ p.isPerm x = false
    ∧ (k < x → ∀ y, k < y → y < x → p.isPerm y = true)
    ∧ (x ≤ k → (∀ y, k < y → y ≤ limit → p.isPerm y = true) ∧ ∀ y, 1 ≤ y → y < x → p.isPerm y = true)

/-- PARENT after number `j` was assigned to the extension of `i`: `PARENT[j] = i`, the rest as before (R173, R176). -/
def ParentSet (p q : PolicyState) (j i : Nat) : Prop :=
  q.parentOf j = i ∧ ∀ k, k ≠ j → q.parentOf k = p.parentOf k

end Sys2Proof.Machine
end

