-- ==== Sys2Proof/Certificates/Slice0/Obligations.lean ====
section
/-! DEFINITION. The statements for the provers, in the order: command word and host window, faults and reset,
whole-machine rules and invariants, BitBuffer, trie, policy, engine. -/

open Sys2Proof Sys2Proof.Machine

/-! ### The command word and the host window -/

/-- 30_encoding.md R80, R88: no bit of a command word is lost. -/
def Obligations.DecodeOfEncode : Prop := ∀ i : Instr, i.wf = true → decode (encode i) = .ok i

/-- R80, R88, R90: a word the decoder takes is the word of one well-formed command, and of no other. -/
def Obligations.EncodeOfDecode : Prop :=
  ∀ (w : Word) (i : Instr), decode w = .ok i →
    encode i = w ∧ i.wf = true ∧ ∀ k : Instr, k.wf = true → encode k = w → k = i

/-- R81 to R85, R89: a word written to CMD is checked in the order of R85 and the first failing check is the fault
reported; a word that passes is the command with that OPC, BUF and N. -/
def Obligations.CommandWordChecksInOrder : Prop :=
  ∀ (w : Word) (s : State), s.fault = false →
    let opc := w.toNat / 2 ^ 24
    let buf := w.toNat / 2 ^ 22 % 4
    let rsv := w.toNat / 2 ^ 6 % 2 ^ 16
    let n := w.toNat % 2 ^ 6
    let assigned := opc ≤ 0x0A ∨ (0x10 ≤ opc ∧ opc ≤ 0x16) ∨ (0x20 ≤ opc ∧ opc ≤ 0x23) ∨ (0x30 ≤ opc ∧ opc ≤ 0x35)
    let usesBuf := 0x01 ≤ opc ∧ opc ≤ 0x0A
    let usesN := opc = 0x01 ∨ opc = 0x02
    let unusedFieldsZero := (usesBuf ∨ buf = 0) ∧ (usesN ∨ n = 0)
    let faults (code info : Nat) : Prop := ∃ t, issueCommand w s = .next t ∧ Latched s t code info w
    (¬assigned → faults 0x01 opc)
      ∧ (assigned → rsv ≠ 0 → faults 0x01 opc)
      ∧ (assigned → rsv = 0 → ¬unusedFieldsZero → faults 0x01 opc)
      ∧ (assigned → rsv = 0 → unusedFieldsZero → buf = 3 → faults 0x02 3)
      ∧ (assigned → rsv = 0 → unusedFieldsZero → buf ≠ 3 → 32 < n → faults 0x03 n)
      ∧ (assigned → rsv = 0 → unusedFieldsZero → buf ≠ 3 → n ≤ 32 →
          ∃ i : Instr, issueCommand w s = exec i s ∧ i.opcode.toNat = opc ∧ i.bufBits.toNat = buf ∧ i.nBits.toNat = n)

/-- R88, R94 and the opcode table: words of every family, written out from R80. -/
def Obligations.WordsOfTheSpecDecode : Prop :=
  decode 0x00000000 = .ok .nop ∧ decode 0x01400009 = .ok (.bput .cw 9) ∧ decode 0x04800000 = .ok (.bgetc .out)
    ∧ decode 0x10000000 = .ok .textend ∧ decode 0x20000000 = .ok .pmatch ∧ decode 0x31000000 = .ok .estep

/-- R20, R33, R61: when the host's next access is the write of a word that decodes, the step is that command run on the
state without that access (log 2; the free values are drawn once more, log 4). With no access pending the block waits. -/
def Obligations.StepRunsTheDecodedCommand : Prop :=
  (∀ (s : State) (w : Word) (rest : List HostAccess) (i : Instr),
      s.host = .write 0x00 4 w :: rest → s.fault = false → decode w = .ok i →
        step s = exec i { s with host := rest, freeCount := s.freeCount + 1 })
    ∧ ∀ s : State, s.host = [] → step s = .next s

/-- R30, R44, R263: what a host access outside the readable and writable registers does. That the value a read returns is
the field `rdata` is the model's choice (log 3). -/
def Obligations.RefusedAndReservedAccesses : Prop :=
  ∀ (s : State) (rest : List HostAccess) (off size : Nat) (v : Word),
    let after : State := { s with host := rest, freeCount := s.freeCount + 1 }
    let refused := ¬(size = 4 ∧ off % 4 = 0 ∧ off ≤ 0xFC)
    let readOnly := off = 0x04 ∨ (0x14 ≤ off ∧ off ≤ 0x3C) ∨ off = 0x44 ∨ off = 0x48
    let writeOnly := off = 0x00 ∨ off = 0x40
    let reserved := 0x4C ≤ off ∧ off ≤ 0xFC
    (s.host = .read off size :: rest → refused ∨ writeOnly ∨ reserved → step s = .next { after with rdata := 0 })
      ∧ (s.host = .write off size v :: rest → refused ∨ readOnly ∨ reserved → step s = .next after)

/-- R21, R32, R67: a host read of a register returns its value and has no side effect; a host write of an operand register
stores the value and does nothing else. -/
def Obligations.HostReadsAndWritesRegisters : Prop :=
  ∀ (s : State) (rest : List HostAccess),
    let after : State := { s with host := rest, freeCount := s.freeCount + 1 }
    let reads (off : Nat) (v : Word) : Prop := s.host = .read off 4 :: rest → step s = .next { after with rdata := v }
    reads 0x04 s.statusWord ∧ reads 0x08 s.a0 ∧ reads 0x0C s.a1 ∧ reads 0x10 s.a2 ∧ reads 0x14 s.r0 ∧ reads 0x18 s.r1
      ∧ reads 0x1C s.r2 ∧ reads 0x20 s.r3 ∧ reads 0x24 s.cfgWord ∧ reads 0x28 s.limitWord
      ∧ reads 0x2C (BitVec.ofNat 32 s.setup.width) ∧ reads 0x30 (BitVec.ofNat 32 s.size)
      ∧ reads 0x34 (BitVec.ofNat 32 s.epos) ∧ reads 0x38 s.faultInfo ∧ reads 0x3C s.faultCmd ∧ reads 0x44 s.paramsWord
      ∧ reads 0x48 0x4C5A0001
      ∧ ∀ v : Word,
          (s.host = .write 0x08 4 v :: rest → step s = .next { after with a0 := v })
            ∧ (s.host = .write 0x0C 4 v :: rest → step s = .next { after with a1 := v })
            ∧ (s.host = .write 0x10 4 v :: rest → step s = .next { after with a2 := v })

/-- 10_state.md R24, R34, R35, R42: the layouts of STATUS, CFG, LIMIT and PARAMS. -/
def Obligations.RegisterLayouts : Prop :=
  ∀ s : State,
    let w := s.statusWord
    (w.getLsbD 0 = s.fault ∧ w.getLsbD 1 = s.configured ∧ w.getLsbD 2 = s.flags.maximal ∧ w.getLsbD 3 = s.flags.hasChar
      ∧ w.getLsbD 4 = s.flags.reject ∧ w.getLsbD 5 = s.flags.eoi ∧ w.getLsbD 6 = s.flags.found
      ∧ w.getLsbD 7 = s.flags.equal
      ∧ (w.extractLsb' 8 2).toNat = (match s.estate with | .unconfigured => 0 | .ready => 1 | .done => 2)
      ∧ (w.extractLsb' 10 2).toNat = (match s.mat.mstate with | .atRoot => 0 | .matching => 1 | .maximal => 2)
      ∧ w.getLsbD 12 = decide (s.setup.mode = .dec) ∧ w.extractLsb' 13 19 = 0)
    ∧ (s.cfgWord.getLsbD 0 = decide (s.setup.variant = .lzw)
      ∧ (s.cfgWord.extractLsb' 1 2).toNat = (match s.setup.policy with | .mru => 0 | .smru => 1 | .wmru => 2 | .mra => 3)
      ∧ s.cfgWord.getLsbD 3 = decide (s.setup.mode = .dec) ∧ s.cfgWord.extractLsb' 4 28 = 0)
    ∧ (s.setup.limit < 2 ^ 31 →
        s.limitWord.getLsbD 31 = s.setup.unb ∧ (s.limitWord.extractLsb' 0 31).toNat = s.setup.limit)
    ∧ (buildOk s.build = true →
        (s.paramsWord.extractLsb' 0 8).toNat = 32 ∧ 2 ^ (s.paramsWord.extractLsb' 8 8).toNat = s.capBits
          ∧ 2 ^ (s.paramsWord.extractLsb' 16 8).toNat = s.maxUnbounded
          ∧ 2 ^ (s.paramsWord.extractLsb' 24 8).toNat = s.maxLimit)

/-! ### Faults and reset -/

/-- 60_exceptions.md R241: a command that raises a fault changes nothing but FAULT, FAULT_INFO and FAULT_CMD; one that does
not leaves these three alone. -/
def Obligations.FaultLatchRollsBack : Prop :=
  ∀ (w : Word) (s t : State), s.fault = false → issueCommand w s = .next t →
    (t.fault = true → ∃ code info, 1 ≤ code ∧ code ≤ 0x11 ∧ Latched s t code info w)
      ∧ (t.fault = false → t.faultInfo = s.faultInfo ∧ t.faultCmd = s.faultCmd)

/-- 60_exceptions.md R243: the faulted state. That an access leaves the queue and draws the free values once more, and that a
reset keeps the build and the model's own fields, is the model's (logs 2, 4 and 14). -/
def Obligations.FaultedBlockIgnoresCommands : Prop :=
  ∀ (s : State) (rest : List HostAccess), s.fault = true →
    let after : State := { s with host := rest, freeCount := s.freeCount + 1 }
    (∀ w, s.host = .write 0x00 4 w :: rest → step s = .next after)
      ∧ (∀ off, off % 4 = 0 → off ≤ 0xFC → s.host = .read off 4 :: rest →
          step s = .next { after with rdata := s.readReg off })
      ∧ (∀ v, s.host = .write 0x08 4 v :: rest → step s = .next { after with a0 := v })
      ∧ (∀ v, s.host = .write 0x0C 4 v :: rest → step s = .next { after with a1 := v })
      ∧ (∀ v, s.host = .write 0x10 4 v :: rest → step s = .next { after with a2 := v })
      ∧ (∀ v : Word, v.getLsbD 0 = true → s.host = .write 0x40 4 v :: rest →
          step s = .next { State.reset with build := s.build, host := rest, rdata := s.rdata, freeCount := s.freeCount + 1 })

/-- 10_state.md R27, 60 R242, R248: a step that clears FAULT is a reset. -/
def Obligations.OnlyResetClearsFault : Prop :=
  ∀ s t : State, s.fault = true → step s = .next t → t.fault = false →
    ∃ rest, s.host = .resetInput :: rest ∨ ∃ v : Word, v.getLsbD 0 = true ∧ s.host = .write 0x40 4 v :: rest

/-- 10_state.md R56: the state after reset, as the host reads it and inside. That the root's parent field holds 0 is the
model's reading (log 12). -/
def Obligations.ResetState : Prop :=
  let r := State.reset
  r.a0 = 0 ∧ r.a1 = 0 ∧ r.a2 = 0 ∧ r.r0 = 0 ∧ r.r1 = 0 ∧ r.r2 = 0 ∧ r.r3 = 0 ∧ r.statusWord = 0
    ∧ r.cfgWord = 0 ∧ r.limitWord = 0 ∧ r.setup.width = 0 ∧ r.size = 0 ∧ r.epos = 0 ∧ r.faultInfo = 0 ∧ r.faultCmd = 0
    ∧ r.paramsWord = 0x10101820 ∧ r.readReg 0x48 = 0x4C5A0001
    ∧ (∀ b, r.buf b = { bits := [], rc := 0, epoch := 0 })
    ∧ r.sv = { buf := .src, start := 0, len := 0, epoch := 0, valid := false }
    ∧ r.arena = [(0, { active := true, codewordNo := 0, start := 0, length := 0, parent := 0, children := [] })]
    ∧ r.pol.q = [] ∧ (∀ k, r.pol.parentOf k = 0) ∧ (∀ k, r.pol.isPerm k = true ↔ k = 0) ∧ r.pol.cur = 1
    ∧ Table.get r.tab 0 = some { start := 0, length := 0 } ∧ (∀ k, k ≠ 0 → Table.get r.tab k = none)
    ∧ r.mat = { mstate := .atRoot, mstart := 0, mcons := 0, mnode := 0, medge := none, moff := 0, mlast := 0, mldepth := 0 }
    ∧ r.setup.userLimit = 0 ∧ r.estate = .unconfigured ∧ r.nl = 0

/-- 10_state.md R41, 70 R270: both resets give every state of R56 its reset value; CTRL with bit 0 = 0 does nothing. The
configuration of the build and the model's own fields stay (log 14). -/
def Obligations.ResetByCtrlAndByInput : Prop :=
  ∀ (s : State) (rest : List HostAccess),
    let clean : State := { State.reset with build := s.build, host := rest, rdata := s.rdata, freeCount := s.freeCount + 1 }
    (s.host = .resetInput :: rest → step s = .next clean)
      ∧ ∀ v : Word, s.host = .write 0x40 4 v :: rest →
          step s = .next (if v.getLsbD 0 then clean else { s with host := rest, freeCount := s.freeCount + 1 })

/-! ### Rules of the whole machine -/

/-- 10_state.md R21, R22: no command writes an operand register; a command that completes leaves 0 in every result register
that its row of 30_encoding.md R87 does not name. The lists are the rows that name R3, R2, R1 and R0. (BEQ writes R0 by
40_bitbuffer.md R109, which its row leaves out: log 20.) -/
def Obligations.OperandsKeptAndUnnamedResultsZero : Prop :=
  ∀ (i : Instr) (s t : State), exec i s = .next t →
    (t.a0 = s.a0 ∧ t.a1 = s.a1 ∧ t.a2 = s.a2)
      ∧ (s.fault = false → t.fault = false →
          let buffer (p : Buf → Instr) : Prop := ∃ b, i = p b
          (¬buffer .binfo → i ∉ [.tmstep, .tnode, .estep, .dstep] → t.r3 = 0)
          ∧ (¬buffer .binfo → i ∉ [.tedge, .tmstep, .tnode, .pinfo, .porder, .econfig, .estep, .dstep] → t.r2 = 0)
          ∧ (¬buffer .binfo →
              i ∉ [.textend, .tedge, .tmstep, .tlookup, .tnode, .pinfo, .porder, .econfig, .estep, .dstep] → t.r1 = 0)
          ∧ (¬buffer .bgetc → (¬∃ b n, i = .bget b n) → ¬buffer .bcopy → ¬buffer .beq → ¬buffer .binfo →
              i ∉ [.textend, .tedge, .tmstep, .tlookup, .tnode, .pmatch, .pinfo, .porder, .econfig, .estep, .dstep, .erun,
                .drun, .eaddext] → t.r0 = 0))

/-- 10_state.md R25, R31: which command can set which per-command flag. -/
def Obligations.FlagOwners : Prop :=
  ∀ (i : Instr) (s t : State), exec i s = .next t → s.fault = false → t.fault = false →
    (t.flags.maximal = true → i = .tmstep)
      ∧ (t.flags.hasChar = true → i ∈ [.tmstep, .estep, .dstep])
      ∧ (t.flags.reject = true → i ∈ [.pmatch, .estep, .dstep, .eaddext])
      ∧ (t.flags.eoi = true → i ∈ [.tmstep, .estep, .dstep])
      ∧ (t.flags.found = true → i ∈ [.tedge, .tlookup, .tnode, .pinfo])
      ∧ (t.flags.equal = true → ∃ b, i = .beq b)

/-- 40_bitbuffer.md R74, R100, R108, R112, R113: a command only appends to a buffer, unless it is its BCLR; EPOCH counts the
commands that changed the buffer, and every BCLR. That a run counts once however many records it wrote is the model's
reading of R100 and R112 (log 15). -/
def Obligations.BuffersGrowAndEpochsCount : Prop :=
  ∀ (i : Instr) (s t : State) (b : Buf), exec i s = .next t →
    (i ≠ .bclr b → ∃ l, (t.buf b).bits = (s.buf b).bits ++ l)
      ∧ (i ≠ .bclr b → (t.buf b).epoch = if (t.buf b).bits = (s.buf b).bits then (s.buf b).epoch else (s.buf b).epoch + 1)
      ∧ (i = .bclr b → t.buf b = s.buf b ∨ t.buf b = { bits := [], rc := 0, epoch := (s.buf b).epoch + 1 })

/-- 10_state.md R28, R29, R46, R53: the configuration is written by ECONFIG only; ESTATE goes from READY to DONE by the
engine's steps only; SV by BSLICE only. -/
def Obligations.ConfigurationWrittenByEconfigOnly : Prop :=
  ∀ (i : Instr) (s t : State), exec i s = .next t →
    (i ≠ .econfig → t.setup = s.setup ∧ t.configured = s.configured)
      ∧ (i ∉ [.econfig, .estep, .dstep, .erun, .drun] → t.estate = s.estate)
      ∧ (i ≠ .econfig → t.estate ≠ s.estate → s.estate = .ready ∧ t.estate = .done)
      ∧ ((∀ b, i ≠ .bslice b) → t.sv = s.sv)

/-- 10_state.md R37, R38, R49, R51, R52, R54: the dictionary's state is written by the commands the rules name, and by no
other. -/
def Obligations.DictionaryStateWriters : Prop :=
  ∀ (i : Instr) (s t : State), exec i s = .next t →
    (i ∉ [.econfig, .pmatch, .tremove, .estep, .dstep, .erun, .drun, .eaddext] → t.size = s.size)
      ∧ (i ∉ [.econfig, .pmatch, .pperm, .tremove, .estep, .dstep, .erun, .drun, .eaddext] → t.pol = s.pol)
      ∧ (i ∉ [.econfig, .textend, .tremove, .estep, .erun] → t.arena = s.arena)
      ∧ (i ∉ [.econfig, .textend, .tremove, .tmreset, .tmstep, .estep, .erun] → t.mat = s.mat)
      ∧ (i ∉ [.econfig, .dstep, .drun, .eaddext] → t.tab = s.tab)
      ∧ (i ∉ [.econfig, .estep, .erun] → t.epos = s.epos ∧ t.nl = s.nl)

/-- 60_exceptions.md R240, 70 R272: before the first ECONFIG every trie, policy and engine command but ECONFIG and NOP ends
in NOT_CONFIGURED. -/
def Obligations.UnconfiguredCommandsFault : Prop :=
  ∀ (i : Instr) (s : State), s.fault = false → s.configured = false →
    i ∈ [.textend, .tedge, .tremove, .tmreset, .tmstep, .tlookup, .tnode, .pmatch, .pperm, .pinfo, .porder, .estep, .dstep,
      .erun, .drun, .eaddext] → Faults i s 0x09 0

/-! ### Invariants that every step keeps -/

/-- 10_state.md R45: 0 ≤ RC(b) ≤ LEN(b) ≤ CAP_BITS for the three buffers. -/
def Obligations.StepKeepsBufferBounds : Prop := ∀ s t : State, s.memOk = true → step s = .next t → t.memOk = true

/-- Log 11: the sparse tables keep their canonical form. -/
def Obligations.StepKeepsCanonicalTables : Prop :=
  ∀ s t : State, s.tablesOk = true → step s = .next t → t.tablesOk = true

/-- 10_state.md R47: the layout of the arena. The premises are invariants themselves (`StepKeepsThePolicy`). -/
def Obligations.StepKeepsTheArenaLayout : Prop :=
  ∀ s t : State, buildOk s.build = true → s.size ≤ s.setup.limit → s.layoutOk = true → step s = .next t → t.layoutOk = true

/-- 10_state.md R37, R49, 42 R176, R180: the recency queue, SIZE and CUR. -/
def Obligations.StepKeepsThePolicy : Prop :=
  ∀ s t : State, buildOk s.build = true → s.phaseOk = true → s.queueOk = true → s.cursorOk = true → step s = .next t →
    buildOk t.build = true ∧ t.queueOk = true ∧ t.cursorOk = true

/-- 10_state.md R28, R29, R39, R40: ESTATE against CONFIGURED, and the fault registers against FAULT. -/
def Obligations.StepKeepsPhaseAndFaultRegisters : Prop :=
  ∀ s t : State, step s = .next t → (s.phaseOk = true → t.phaseOk = true) ∧ (s.faultOk = true → t.faultOk = true)

/-- 10_state.md R48 (2) to (5), R37, R131: every step keeps the trie's links and the dictionary's fixed part, with all the
invariants above. -/
def Obligations.StepKeepsTheTrie : Prop := ∀ s t : State, s.inv = true → step s = .next t → t.inv = true

/-- The invariants hold after reset (R56): each one, and `State.inv`, which is all of them. -/
def Obligations.ResetMeetsTheInvariants : Prop :=
  buildOk State.reset.build = true ∧ State.reset.memOk = true ∧ State.reset.tablesOk = true ∧ State.reset.layoutOk = true
    ∧ State.reset.phaseOk = true ∧ State.reset.faultOk = true ∧ State.reset.queueOk = true ∧ State.reset.cursorOk = true
    ∧ State.reset.setupOk = true ∧ State.reset.dictionaryOk = true ∧ State.reset.linksOk = true ∧ State.reset.inv = true

/-! ### BitBuffer -/

/-- 40_bitbuffer.md R101, R103, 20 R60: BPUT appends the low N bits of A0, most significant first; BPUTC is BPUT of 8. -/
def Obligations.AppendingCommands : Prop :=
  ∀ (i : Instr) (b : Buf) (n : Nat) (s : State),
    (∃ m : BitVec 6, i = .bput b m ∧ m.toNat = n) ∨ (i = .bputc b ∧ n = 8) → s.fault = false →
    (32 < n → Faults i s 0x03 n)
      ∧ (n ≤ 32 → s.capBits < (s.buf b).len + n → Faults i s 0x05 n)
      ∧ (n ≤ 32 → (s.buf b).len + n ≤ s.capBits →
          ∃ t, exec i s = .next t ∧ OnlyBuffer b s t ∧ Results t 0 0 0 0 ∧ t.flags = Flags.clear
            ∧ (t.buf b).len = (s.buf b).len + n ∧ (t.buf b).bits.take (s.buf b).len = (s.buf b).bits
            ∧ (∀ k, k < n → (t.buf b).bits[(s.buf b).len + k]? = some (s.a0.getLsbD (n - 1 - k)))
            ∧ (t.buf b).rc = (s.buf b).rc
            ∧ (t.buf b).epoch = if n = 0 then (s.buf b).epoch else (s.buf b).epoch + 1)

/-- 40_bitbuffer.md R102, R104, 20 R60: BGET reads N bits at the cursor, the first the most significant, zero-extended, and
moves past them; BGETC is BGET of 8. -/
def Obligations.ReadingCommands : Prop :=
  ∀ (i : Instr) (b : Buf) (n : Nat) (s : State),
    (∃ m : BitVec 6, i = .bget b m ∧ m.toNat = n) ∨ (i = .bgetc b ∧ n = 8) → s.fault = false →
    (32 < n → Faults i s 0x03 n)
      ∧ (n ≤ 32 → (s.buf b).len < (s.buf b).rc + n → Faults i s 0x04 (s.buf b).rc)
      ∧ (n ≤ 32 → (s.buf b).rc + n ≤ (s.buf b).len →
          ∃ t, exec i s = .next t ∧ OnlyBuffer b s t ∧ t.buf b = { s.buf b with rc := (s.buf b).rc + n }
            ∧ (∀ k, k < n → (s.buf b).bits[(s.buf b).rc + k]? = some (t.r0.getLsbD (n - 1 - k)))
            ∧ (∀ k, n ≤ k → t.r0.getLsbD k = false)
            ∧ t.r1 = 0 ∧ t.r2 = 0 ∧ t.r3 = 0 ∧ t.flags = Flags.clear)

/-- 40_bitbuffer.md R105: BSLICE. -/
def Obligations.SliceCommand : Prop :=
  ∀ (b : Buf) (s : State), s.fault = false →
    ((s.buf b).nchars < s.a0.toNat + s.a1.toNat → Faults (.bslice b) s 0x06 s.a0.toNat)
      ∧ (s.a0.toNat + s.a1.toNat ≤ (s.buf b).nchars →
          ∃ t, exec (.bslice b) s = .next t ∧ { putBackResults s t with sv := s.sv } = s ∧ Results t 0 0 0 0
            ∧ t.flags = Flags.clear
            ∧ t.sv = { buf := b, start := s.a0.toNat, len := s.a1.toNat, epoch := (s.buf b).epoch, valid := true })

/-- 40_bitbuffer.md R106, R107: BCOPY appends the slice, read whole before anything is written, and refuses a stale one. That
a slice past the written characters (R107 rules it out; it takes an EPOCH that wrapped) still copies, its characters free,
is the model's choice (log 4). -/
def Obligations.CopyCommand : Prop :=
  ∀ (d : Buf) (s : State), s.fault = false →
    let src := s.buf s.sv.buf
    let fresh := s.sv.valid = true ∧ src.epoch = s.sv.epoch
    (¬fresh → Faults (.bcopy d) s 0x07 s.sv.buf.code.toNat)
      ∧ (fresh → s.capBits < (s.buf d).len + 8 * s.sv.len → Faults (.bcopy d) s 0x05 s.sv.len)
      ∧ (fresh → (s.buf d).len + 8 * s.sv.len ≤ s.capBits →
          ∃ t l, exec (.bcopy d) s = .next t ∧ OnlyBuffer d s t ∧ Results t s.sv.len 0 0 0 ∧ t.flags = Flags.clear
            ∧ l.length = 8 * s.sv.len
            ∧ t.buf d = { s.buf d with
                bits := (s.buf d).bits ++ l
                epoch := if s.sv.len = 0 then (s.buf d).epoch else (s.buf d).epoch + 1 }
            ∧ (s.sv.start + s.sv.len ≤ src.nchars → l = (src.bits.drop (8 * s.sv.start)).take (8 * s.sv.len)))

/-- 40_bitbuffer.md R109: BEQ. -/
def Obligations.EqualityCommand : Prop :=
  ∀ (b : Buf) (s : State), s.fault = false →
    (2 < s.a0.toNat → Faults (.beq b) s 0x02 s.a0.toNat)
      ∧ ∀ o : Buf, s.a0.toNat = o.code.toNat →
          ∃ t, exec (.beq b) s = .next t ∧ putBackResults s t = s
            ∧ Results t (if (s.buf b).bits = (s.buf o).bits then 1 else 0) 0 0 0
            ∧ t.flags = { Flags.clear with equal := decide ((s.buf b).bits = (s.buf o).bits) }

/-- 40_bitbuffer.md R108: BCLR, which may not empty the buffer that live dictionary entries refer to. -/
def Obligations.ClearCommand : Prop :=
  ∀ (b : Buf) (s : State), s.fault = false →
    let backs := s.configured = true ∧ s.size ≠ s.nseed
      ∧ ((s.setup.mode = .enc ∧ b = .src) ∨ (s.setup.mode = .dec ∧ b = .out))
    (backs → Faults (.bclr b) s 0x0B b.code.toNat)
      ∧ (¬backs →
          ∃ t, exec (.bclr b) s = .next t ∧ OnlyBuffer b s t ∧ Results t 0 0 0 0 ∧ t.flags = Flags.clear
            ∧ t.buf b = { bits := [], rc := 0, epoch := (s.buf b).epoch + 1 })

/-- 40_bitbuffer.md R110, R111, 43 R230: BSEEK, BINFO and NOP. -/
def Obligations.SeekInfoAndNop : Prop :=
  ∀ (b : Buf) (s : State), s.fault = false →
    ((s.buf b).len < s.a0.toNat → Faults (.bseek b) s 0x04 s.a0.toNat)
      ∧ (s.a0.toNat ≤ (s.buf b).len →
          ∃ t, exec (.bseek b) s = .next t ∧ OnlyBuffer b s t ∧ Results t 0 0 0 0 ∧ t.flags = Flags.clear
            ∧ t.buf b = { s.buf b with rc := s.a0.toNat })
      ∧ (∃ t, exec (.binfo b) s = .next t ∧ putBackResults s t = s ∧ t.flags = Flags.clear
          ∧ Results t (s.buf b).len (s.buf b).rc (s.buf b).epoch.toNat ((s.buf b).len / 8))
      ∧ ∃ t, exec .nop s = .next t ∧ putBackResults s t = s ∧ t.flags = Flags.clear ∧ Results t 0 0 0 0

/-! ### Trie and matcher -/

/-- 41_trie.md R135, R138, R140 to R143, R151, R152, 42 R172, R180, R181, 43 R210, R220, R226 to R228: the checks a configured
command makes before its own work, in order (`UnconfiguredCommandsFault` is the check before these; the rest of TEXTEND's are
`ExtendChecksInOrder`). The checks of a run are those of its first step. -/
def Obligations.CommandGuardsInOrder : Prop :=
  ∀ (i : Instr) (s : State), s.fault = false → s.configured = true →
    let x := s.a0.toNat
    let full := s.setup.unb = true ∧ s.size = s.setup.limit
    let live := x ≤ s.size ∧ s.activeAt x = true
    let free := 1 ≤ s.a2.toNat ∧ s.a2.toNat ≤ s.size ∧ s.a2.toNat ≠ x ∧ s.pol.isPerm s.a2.toNat = false
    (i ∈ [.textend, .tremove, .tmreset, .tmstep] → s.setup.mode ≠ .enc ∨ s.estate ≠ .ready → Faults i s 0x0B 0)
      ∧ (ReadyIn .enc s → ¬live → Faults .textend s 0x0D x)
      ∧ (ReadyIn .enc s → live → ¬free → Faults .textend s 0x0C s.a2.toNat)
      ∧ (ReadyIn .enc s → live → free → (s.buf .src).len % 8 ≠ 0 → Faults .textend s 0x08 0)
      ∧ (ReadyIn .enc s → x = 0 ∨ x ≠ s.size ∨ s.pol.isPerm x = true → Faults .tremove s 0x0C x)
      ∧ (ReadyIn .enc s → (s.buf .src).nchars < x → Faults .tmreset s 0x06 x)
      ∧ (ReadyIn .enc s → s.mat.mstate = .maximal → Faults .tmstep s 0x0B 0)
      ∧ (ReadyIn .enc s → s.mat.mstate ≠ .maximal → (s.buf .src).len % 8 ≠ 0 → Faults .tmstep s 0x08 0)
      ∧ (i ∈ [.tedge, .tnode] → s.setup.mode ≠ .enc → Faults i s 0x0B 0)
      ∧ (i ∈ [.tedge, .tnode] → s.setup.mode = .enc → 2 * s.setup.limit + 1 < x → Faults i s 0x0C x)
      ∧ (s.setup.mode = .enc → s.occupied x = false → Faults .tedge s 0x0C x)
      ∧ (i ∈ [.tlookup, .pinfo] → s.setup.limit < x → Faults i s 0x0C x)
      ∧ (s.estate = .done → Faults .pmatch s 0x0B 0)
      ∧ (s.estate ≠ .done → s.size < x → Faults .pmatch s 0x0C x)
      ∧ (s.estate ≠ .done → x ≤ s.size → full → Faults .pmatch s 0x10 0)
      ∧ (s.estate ≠ .ready → Faults .pperm s 0x0B 0)
      ∧ (s.estate = .ready → x = 0 ∨ s.size < x → Faults .pperm s 0x0C x)
      ∧ (i ∈ [.estep, .erun] → s.setup.mode ≠ .enc ∨ s.estate ≠ .ready → Faults i s 0x0B 0)
      ∧ (i ∈ [.dstep, .drun, .eaddext] → s.setup.mode ≠ .dec ∨ s.estate ≠ .ready → Faults i s 0x0B 0)
      ∧ (i ∈ [.estep, .erun] → ReadyIn .enc s → (s.buf .src).len % 8 ≠ 0 → Faults i s 0x08 0)
      ∧ (i ∈ [.dstep, .drun] → ReadyIn .dec s → (s.buf .out).len % 8 ≠ 0 → Faults i s 0x08 2)
      ∧ (i ∈ [.estep, .erun] → ReadyIn .enc s → (s.buf .src).len % 8 = 0 → (s.buf .src).nchars < s.epos →
          Faults i s 0x06 s.epos)
      ∧ (ReadyIn .dec s → s.size < x ∨ Table.get s.tab x = none → Faults .eaddext s 0x0C x)
      ∧ (∀ e, ReadyIn .dec s → x ≤ s.size → Table.get s.tab x = some e → (s.buf .out).nchars < s.a1.toNat →
          Faults .eaddext s 0x06 s.a1.toNat)
      ∧ (∀ e, ReadyIn .dec s → x ≤ s.size → Table.get s.tab x = some e → s.a1.toNat ≤ (s.buf .out).nchars → full →
          Faults .eaddext s 0x10 0)
      ∧ (∀ code info, ReadyIn .enc s → Faults .estep s code info → Faults .erun s code info)
      ∧ ∀ code info, ReadyIn .dec s → Faults .dstep s code info → Faults .drun s code info

/-- 41_trie.md R151: TMRESET. -/
def Obligations.MatcherReset : Prop :=
  ∀ s : State, ReadyIn .enc s →
    ((s.buf .src).nchars < s.a0.toNat → Faults .tmreset s 0x06 s.a0.toNat)
      ∧ (s.a0.toNat ≤ (s.buf .src).nchars →
          ∃ t, exec .tmreset s = .next t ∧ OnlyMatcher s t ∧ Results t 0 0 0 0 ∧ t.flags = Flags.clear
            ∧ t.mat = { Matcher.initial with mstart := s.a0.toNat })

/-- 41_trie.md R152: TMSTEP at the end of the input and on a mismatch. -/
def Obligations.MatcherStepReportsMaximal : Prop :=
  ∀ s : State, ReadyIn .enc s →
    let pos := s.mat.mstart + s.mat.mcons
    let ahead := s.mat.mcons - s.mat.mldepth
    let next := (s.charAt .src (s.mat.mstart + s.mat.mldepth)).toNat
    (s.mat.mstate = .maximal → Faults .tmstep s 0x0B 0)
      ∧ (s.mat.mstate ≠ .maximal → (s.buf .src).len % 8 ≠ 0 → Faults .tmstep s 0x08 0)
      ∧ (s.mat.mstate ≠ .maximal → (s.buf .src).len % 8 = 0 →
          (pos = (s.buf .src).nchars →
            ∃ t, exec .tmstep s = .next t ∧ OnlyMatcher s t ∧ t.mat = { s.mat with mstate := .maximal }
              ∧ (s.mat.mcons = 0 → Results t 0 0 0 0 ∧ t.flags = { Flags.clear with maximal := true, eoi := true })
              ∧ (s.mat.mcons ≠ 0 → 0 < ahead →
                  Results t s.mat.mlast s.mat.mldepth next ahead
                    ∧ t.flags = { Flags.clear with maximal := true, hasChar := true })
              ∧ (s.mat.mcons ≠ 0 → ahead = 0 →
                  Results t s.mat.mlast s.mat.mldepth 0 0 ∧ t.flags = { Flags.clear with maximal := true }))
          ∧ (pos ≠ (s.buf .src).nchars → s.mat.medge = none → s.child s.mat.mnode (s.charAt .src pos) = none →
              ∃ t, exec .tmstep s = .next t ∧ OnlyMatcher s t ∧ t.mat = { s.mat with mstate := .maximal }
                ∧ Results t s.mat.mlast s.mat.mldepth next ahead
                ∧ t.flags = { Flags.clear with maximal := true, hasChar := true })
          ∧ ∀ h off, pos ≠ (s.buf .src).nchars →
              (s.mat.medge = some h ∧ off = s.mat.moff)
                ∨ (s.mat.medge = none ∧ s.child s.mat.mnode (s.charAt .src pos) = some h ∧ off = 0) →
              s.nodeChar h ((s.node s.mat.mnode).length + off) ≠ s.charAt .src pos →
              ∃ t, exec .tmstep s = .next t ∧ OnlyMatcher s t
                ∧ t.mat = { s.mat with mstate := .maximal, medge := some h, moff := off }
                ∧ Results t s.mat.mlast s.mat.mldepth next ahead
                ∧ t.flags = { Flags.clear with maximal := true, hasChar := true })

/-- 41_trie.md R150, R152: TMSTEP consumes a character that continues an edge; at the edge's end it enters the node, and an
active node becomes the match. -/
def Obligations.MatcherStepConsumes : Prop :=
  ∀ (s : State) (h off : Nat), ReadyIn .enc s → s.mat.mstate ≠ .maximal → (s.buf .src).len % 8 = 0 →
    let pos := s.mat.mstart + s.mat.mcons
    let base := (s.node s.mat.mnode).length
    pos ≠ (s.buf .src).nchars →
    (s.mat.medge = some h ∧ off = s.mat.moff)
      ∨ (s.mat.medge = none ∧ s.child s.mat.mnode (s.charAt .src pos) = some h ∧ off = 0) →
    s.nodeChar h (base + off) = s.charAt .src pos →
    ∃ t, exec .tmstep s = .next t ∧ OnlyMatcher s t ∧ t.flags = Flags.clear
      ∧ Results t t.mat.mlast t.mat.mldepth (t.mat.mcons - t.mat.mldepth) t.mat.mcons
      ∧ t.mat.mstate = .matching ∧ t.mat.mstart = s.mat.mstart ∧ t.mat.mcons = s.mat.mcons + 1
      ∧ (base + off + 1 ≠ (s.node h).length →
          t.mat.mnode = s.mat.mnode ∧ t.mat.medge = some h ∧ t.mat.moff = off + 1 ∧ t.mat.mlast = s.mat.mlast
            ∧ t.mat.mldepth = s.mat.mldepth)
      ∧ (base + off + 1 = (s.node h).length →
          t.mat.mnode = h ∧ t.mat.medge = none ∧ t.mat.moff = 0
            ∧ (if (s.node h).active = true then t.mat.mlast = (s.node h).codewordNo ∧ t.mat.mldepth = (s.node h).length
              else t.mat.mlast = s.mat.mlast ∧ t.mat.mldepth = s.mat.mldepth))

/-- 41_trie.md R153 (an inference of the spec, from R152 and R48): TMRESET and at most `n - p + 1` TMSTEPs give the longest
live codeword that is a prefix of the remaining input. -/
def Obligations.MatcherFindsTheLongestCodeword : Prop :=
  ∀ s : State, ReadyIn .enc s → s.inv = true → (s.buf .src).len % 8 = 0 → s.a0.toNat ≤ (s.buf .src).nchars →
    let p := s.a0.toNat
    ∃ s0 t n, exec .tmreset s = .next s0 ∧ 1 ≤ n ∧ n ≤ (s.buf .src).nchars - p + 1 ∧ Repeated .tmstep n s0 t
      ∧ t.flags.maximal = true ∧ (t.flags.eoi = true ↔ p = (s.buf .src).nchars)
      ∧ (t.flags.eoi = false →
          ∃ i L, IsLongestMatch s p i L ∧ t.r0 = toWord i ∧ t.r1 = toWord L
            ∧ (t.flags.hasChar = true ↔ p + L < (s.buf .src).nchars)
            ∧ (t.flags.hasChar = true → t.r2 = toWord (s.charAt .src (p + L)).toNat))

/-- 41_trie.md R135: the checks of TEXTEND, in order. -/
def Obligations.ExtendChecksInOrder : Prop :=
  ∀ s : State, ReadyIn .enc s →
    let i := s.a0.toNat
    let start := s.a1.toNat
    let j := s.a2.toNat
    let c := s.charAt .src (start + (s.node i).length)
    let live := i ≤ s.size ∧ s.activeAt i = true
    let free := 1 ≤ j ∧ j ≤ s.size ∧ j ≠ i ∧ s.pol.isPerm j = false
    let whole := (s.buf .src).len % 8 = 0
    let inside := start + (s.node i).length + 1 ≤ (s.buf .src).nchars
    let spelled := ∀ k, k < (s.node i).length → s.charAt .src (start + k) = s.nodeChar i k
    (¬live → Faults .textend s 0x0D i)
      ∧ (live → ¬free → Faults .textend s 0x0C j)
      ∧ (live → free → ¬whole → Faults .textend s 0x08 0)
      ∧ (live → free → whole → ¬inside → Faults .textend s 0x06 start)
      ∧ (live → free → whole → inside → ¬spelled → Faults .textend s 0x0E start)
      ∧ (live → free → whole → inside → spelled →
          ∀ h, s.child i c = some h → (s.node h).length = (s.node i).length + 1 → (s.node h).active = true →
            Faults .textend s 0x0F h)

/-- 41_trie.md R135, R144: TEXTEND into an empty slot: the three cases, node by node. The premises are the invariants of
the trie. -/
def Obligations.ExtendIntoEmptySlot : Prop :=
  ∀ s : State, ReadyIn .enc s → s.inv = true → ExtendAllowed s s.a0.toNat s.a1.toNat s.a2.toNat →
    s.occupied s.a2.toNat = false →
    let i := s.a0.toNat
    let start := s.a1.toNat
    let j := s.a2.toNat
    let L := (s.node i).length
    let c := s.charAt .src (start + L)
    ∃ t kind, exec .textend s = .next t ∧ OnlyTrie s t ∧ Results t c.toNat kind 0 0 ∧ t.flags = Flags.clear
      ∧ t.child i c = some j ∧ (t.node i).active = true
      ∧ (∀ d, d ≠ c → t.child i d = s.child i d)
      ∧ (t.node j).active = true ∧ (t.node j).codewordNo = j ∧ (t.node j).start = start ∧ (t.node j).length = L + 1
      ∧ (t.node j).parent = i
      ∧ (s.child i c = none → kind = 1 ∧ (t.node j).children = []
          ∧ ∀ x, x ≠ i → x ≠ j → Table.get t.arena x = Table.get s.arena x)
      ∧ (∀ h, s.child i c = some h → L + 1 < (s.node h).length →
          kind = 2 ∧ (t.node j).children = [((s.nodeChar h (L + 1)).toNat, h)]
            ∧ t.node h = { s.node h with parent := j }
            ∧ ∀ x, x ≠ i → x ≠ j → x ≠ h → Table.get t.arena x = Table.get s.arena x)
      ∧ (∀ h, s.child i c = some h → (s.node h).length = L + 1 →
          kind = 3 ∧ (t.node j).children = (s.node h).children ∧ t.occupied h = false
            ∧ (∀ e ∈ (s.node h).children, t.node e.2 = { s.node e.2 with parent := j })
            ∧ ∀ x, x ≠ i → x ≠ j → x ≠ h → (∀ e ∈ (s.node h).children, x ≠ e.2) →
                Table.get t.arena x = Table.get s.arena x)
      ∧ t.mat.mstate = if s.mat.mstate = .matching then .maximal else s.mat.mstate

/-- 41_trie.md R135, R137: TEXTEND makes `j` the codeword `STR(i) ++ c`, whatever slot `j` held, and keeps the string of
every other codeword. The premises are the invariants of the trie. -/
def Obligations.ExtendMakesTheString : Prop :=
  ∀ s : State, ReadyIn .enc s → s.inv = true → ExtendAllowed s s.a0.toNat s.a1.toNat s.a2.toNat →
    let c := s.charAt .src (s.a1.toNat + (s.node s.a0.toNat).length)
    ∃ t kind, exec .textend s = .next t ∧ OnlyTrie s t ∧ Results t c.toNat kind 0 0 ∧ 1 ≤ kind ∧ kind ≤ 3
      ∧ t.flags = Flags.clear
      ∧ t.activeAt s.a2.toNat = true ∧ t.nodeString s.a2.toNat = s.nodeString s.a0.toNat ++ [c]
      ∧ (∀ k, k ≠ s.a2.toNat → t.activeAt k = s.activeAt k)
      ∧ ∀ k, k ≠ s.a2.toNat → s.activeAt k = true → t.nodeString k = s.nodeString k

/-- 41_trie.md R137, R140, R144: TREMOVE. The premises are the invariants of the trie. That a number without a node (a bare
PMATCH's, R282) is removed like any other is the model's reading (log 7). -/
def Obligations.RemoveHighestCodeword : Prop :=
  ∀ s : State, ReadyIn .enc s →
    let k := s.a0.toNat
    (k = 0 ∨ k ≠ s.size ∨ s.pol.isPerm k = true → Faults .tremove s 0x0C k)
      ∧ (1 ≤ k → k = s.size → s.pol.isPerm k = false → s.inv = true →
          ∃ t, exec .tremove s = .next t ∧ Results t 0 0 0 0 ∧ t.flags = Flags.clear
            ∧ { putBackResults s t with arena := s.arena, mat := s.mat, pol := s.pol, size := s.size } = s
            ∧ t.size = s.size - 1 ∧ t.pol.q = s.pol.q.erase k ∧ ParentSet s.pol t.pol k 0 ∧ t.pol.perm = s.pol.perm
            ∧ t.pol.cur = s.pol.cur ∧ t.occupied k = false
            ∧ (∀ x, x ≠ k → t.activeAt x = s.activeAt x)
            ∧ (∀ x, x ≠ k → s.activeAt x = true → t.nodeString x = s.nodeString x)
            ∧ (s.mat.mstate = .matching → t.mat.mstate = .maximal) ∧ (s.mat.mstate ≠ .matching → t.mat.mstate = s.mat.mstate))

/-- 41_trie.md R132, R138, R143: TEDGE and TNODE. -/
def Obligations.EdgeAndNodeCommands : Prop :=
  ∀ s : State, s.fault = false → s.configured = true → s.setup.mode = .enc →
    let h := s.a0.toNat
    let c : Byte := BitVec.ofNat 8 s.a1.toNat
    (2 * s.setup.limit + 1 < h ∨ s.occupied h = false → Faults .tedge s 0x0C h)
      ∧ (2 * s.setup.limit + 1 < h → Faults .tnode s 0x0C h)
      ∧ (h ≤ 2 * s.setup.limit + 1 → s.occupied h = true → s.child h c = none →
          ∃ t, exec .tedge s = .next t ∧ putBackResults s t = s ∧ Results t 0 0 0 0 ∧ t.flags = Flags.clear)
      ∧ (∀ d, h ≤ 2 * s.setup.limit + 1 → s.occupied h = true → s.child h c = some d →
          ∃ t, exec .tedge s = .next t ∧ putBackResults s t = s ∧ t.flags = { Flags.clear with found := true }
            ∧ if (s.node d).start = Config.seed then Results t d 0xFFFFFFFF 1 0
              else Results t d ((s.node d).start + (s.node h).length) ((s.node d).length - (s.node h).length) 0)
      ∧ (h ≤ 2 * s.setup.limit + 1 → Table.get s.arena h = none →
          ∃ t, exec .tnode s = .next t ∧ putBackResults s t = s ∧ Results t 0 0 0 0 ∧ t.flags = Flags.clear)
      ∧ ∀ nd, h ≤ 2 * s.setup.limit + 1 → Table.get s.arena h = some nd →
          ∃ t, exec .tnode s = .next t ∧ putBackResults s t = s ∧ t.flags = { Flags.clear with found := true }
            ∧ Results t (if nd.active = true then 2 ^ 31 + nd.codewordNo else 0) nd.start nd.length
                (if h = 0 then 0 else nd.parent)

/-- 41_trie.md R142: TLOOKUP. -/
def Obligations.LookupCommand : Prop :=
  ∀ s : State, s.fault = false → s.configured = true →
    let k := s.a0.toNat
    (s.setup.limit < k → Faults .tlookup s 0x0C k)
      ∧ (k ≤ s.setup.limit →
          ∃ t, exec .tlookup s = .next t ∧ putBackResults s t = s
            ∧ (k = 0 → Results t 0 0 0 0 ∧ t.flags = { Flags.clear with found := true })
            ∧ (1 ≤ k → k ≤ s.size → s.setup.mode = .enc → s.activeAt k = true →
                Results t (s.node k).start (s.node k).length 0 0 ∧ t.flags = { Flags.clear with found := true })
            ∧ (∀ e, 1 ≤ k → k ≤ s.size → s.setup.mode = .dec → Table.get s.tab k = some e →
                Results t e.start e.length 0 0 ∧ t.flags = { Flags.clear with found := true })
            ∧ (1 ≤ k → s.size < k ∨ (s.setup.mode = .enc ∧ s.activeAt k = false)
                  ∨ (s.setup.mode = .dec ∧ Table.get s.tab k = none) →
                Results t 0 0 0 0 ∧ t.flags = Flags.clear))

/-! ### Policy -/

/-- 42_policy.md R171 to R175: PMATCH under MRU, SMRU and WMRU. `moved` is what the rule moves to the front: `i` alone, or
under SMRU `i` and its ancestors up to a permanent number. `rest` is the queue without it. -/
def Obligations.MatchByRecency : Prop :=
  ∀ (s : State) (moved : List Nat), s.fault = false → s.queueOk = true → MatchAllowed s s.a0.toNat →
    s.setup.policy ≠ .mra →
    (s.setup.policy = .smru → ChainOf s.pol s.a0.toNat moved ∧ ∀ x ∈ moved, x ∈ s.pol.q) →
    (s.setup.policy ≠ .smru → moved = if s.pol.isPerm s.a0.toNat = true then [] else [s.a0.toNat]) →
    let i := s.a0.toNat
    let rest := s.pol.q.filter fun x => decide (x ∉ moved)
    let assigns (j size : Nat) (tail : List Nat) : Prop :=
      ∃ t, exec .pmatch s = .next t ∧ OnlyPolicy s t ∧ Results t j 0 0 0 ∧ t.flags = Flags.clear ∧ t.size = size
        ∧ t.pol.q = (if moved = [] then j :: tail else moved.tail.reverse ++ i :: j :: tail)
        ∧ ParentSet s.pol t.pol j i ∧ t.pol.perm = s.pol.perm ∧ t.pol.cur = s.pol.cur
    let rejects : Prop :=
      ∃ t, exec .pmatch s = .next t ∧ putBackResults s t = s ∧ Results t 0 0 0 0
        ∧ t.flags = { Flags.clear with reject := true }
    (s.size < s.setup.limit → assigns (s.size + 1) (s.size + 1) rest)
      ∧ (s.size = s.setup.limit → ∀ l j, rest = l ++ [j] → j ≠ i → assigns j s.size l)
      ∧ (s.size = s.setup.limit → moved ≠ [] → rest = [] → rejects)
      ∧ (s.size = s.setup.limit → moved = [] → s.pol.q.getLast? = some i → rejects)

/-- 42_policy.md R171, R176: PMATCH under MRA. -/
def Obligations.MatchByCursor : Prop :=
  ∀ s : State, s.fault = false → s.queueOk = true → s.cursorOk = true → MatchAllowed s s.a0.toNat →
    s.setup.policy = .mra →
    let i := s.a0.toNat
    (s.size < s.setup.limit →
        ∃ t, exec .pmatch s = .next t ∧ OnlyPolicy s t ∧ Results t (s.size + 1) 0 0 0 ∧ t.flags = Flags.clear
          ∧ t.size = s.size + 1 ∧ ParentSet s.pol t.pol (s.size + 1) i ∧ t.pol.q = [] ∧ t.pol.perm = s.pol.perm
          ∧ t.pol.cur = s.pol.cur)
      ∧ (s.size = s.setup.limit → s.pol.cur ≠ i →
          ∃ t, exec .pmatch s = .next t ∧ OnlyPolicy s t ∧ Results t s.pol.cur 0 0 0 ∧ t.flags = Flags.clear
            ∧ t.size = s.size ∧ ParentSet s.pol t.pol s.pol.cur i ∧ t.pol.q = [] ∧ t.pol.perm = s.pol.perm
            ∧ IsNextNonPerm s.pol s.setup.limit s.pol.cur t.pol.cur)
      ∧ (s.size = s.setup.limit → s.pol.cur = i →
          ∃ t, exec .pmatch s = .next t ∧ putBackResults s t = s ∧ Results t 0 0 0 0
            ∧ t.flags = { Flags.clear with reject := true })

/-- 42_policy.md R171: a rejected match leaves all policy state and SIZE as they were, and the trie with them; a fresh
allocation is never rejected. -/
def Obligations.RejectionChangesNothing : Prop :=
  ∀ s t : State, s.queueOk = true → s.cursorOk = true → s.fault = false → exec .pmatch s = .next t → t.fault = false →
    (t.flags.reject = true → putBackResults s t = s ∧ t.r0 = 0)
      ∧ (s.size < s.setup.limit → t.flags.reject = false ∧ t.size = s.size + 1)

/-- 42_policy.md R179: the policy is a function of its own state and `i`: the rest of the block, the free values among it,
does not enter. Under SMRU alone this asks that the ancestor chain ends: where it does not, the order of the queue is free
(log 5). -/
def Obligations.PolicyIsAFunctionOfItsState : Prop :=
  ∀ s u s' u' : State, s.fault = false → u.fault = false → s.pol = u.pol → s.size = u.size → s.setup = u.setup →
    s.a0 = u.a0 →
    (s.setup.policy = .smru → ∃ moved, ChainOf s.pol s.a0.toNat moved ∧ ∀ x ∈ moved, x ≤ s.setup.limit) →
    exec .pmatch s = .next s' → exec .pmatch u = .next u' → s'.fault = false → u'.fault = false →
      s'.pol = u'.pol ∧ s'.size = u'.size ∧ s'.r0 = u'.r0

/-- 42_policy.md R180: PPERM. `marked` is the set `S` of the rule. -/
def Obligations.MakePermanent : Prop :=
  ∀ (s : State) (marked : List Nat), ReadyIn s.setup.mode s → s.queueOk = true → s.cursorOk = true → s.a0.toNat ≠ 0 →
    s.a0.toNat ≤ s.size →
    (s.setup.policy = .smru → ChainOf s.pol s.a0.toNat marked ∧ ∀ x ∈ marked, x ≤ s.setup.limit) →
    (s.setup.policy ≠ .smru → marked = [s.a0.toNat]) →
    let leavesOne := ∃ x, 1 ≤ x ∧ x ≤ s.setup.limit ∧ x ∉ marked ∧ s.pol.isPerm x = false
    (¬leavesOne → Faults .pperm s 0x0C s.a0.toNat)
      ∧ (leavesOne →
          ∃ t, exec .pperm s = .next t ∧ OnlyPolicy s t ∧ Results t 0 0 0 0 ∧ t.flags = Flags.clear ∧ t.size = s.size
            ∧ (∀ k, t.pol.isPerm k = true ↔ s.pol.isPerm k = true ∨ k ∈ marked)
            ∧ t.pol.q = s.pol.q.filter (fun x => decide (x ∉ marked)) ∧ t.pol.parent = s.pol.parent
            ∧ (s.setup.policy = .mra ∧ s.pol.cur ∈ marked → IsNextNonPerm t.pol s.setup.limit s.pol.cur t.pol.cur)
            ∧ (¬(s.setup.policy = .mra ∧ s.pol.cur ∈ marked) → t.pol.cur = s.pol.cur))

/-- 42_policy.md R181, R182: PINFO and PORDER. -/
def Obligations.PolicyReads : Prop :=
  ∀ s : State, s.fault = false →
    let i := s.a0.toNat
    (s.configured = false → Faults .pinfo s 0x09 0 ∧ Faults .porder s 0x09 0)
      ∧ (s.configured = true → s.setup.limit < i → Faults .pinfo s 0x0C i)
      ∧ (s.configured = true → i ≤ s.setup.limit →
          ∃ t rank, exec .pinfo s = .next t ∧ putBackResults s t = s
            ∧ Results t (s.pol.parentOf i) (if s.pol.isPerm i = true then 1 else 0) rank 0
            ∧ (i ∉ s.pol.q → rank = 0xFFFFFFFF)
            ∧ (∀ k, s.pol.q[k]? = some i → (∀ m, m < k → s.pol.q[m]? ≠ some i) → rank = k)
            ∧ t.flags = { Flags.clear with found := decide (i ≤ s.size) })
      ∧ (s.configured = true →
          ∃ t first, exec .porder s = .next t ∧ putBackResults s t = s ∧ t.flags = Flags.clear
            ∧ Results t first s.pol.q.length s.pol.cur 0
            ∧ (∀ x, s.pol.q[i]? = some x → first = x) ∧ (s.pol.q.length ≤ i → first = 0))

/-! ### Engine -/

/-- 43_engine.md R200: the checks of ECONFIG. -/
def Obligations.ConfigureChecks : Prop :=
  ∀ s : State, s.fault = false →
    let nseed := if s.a0.getLsbD 0 = true then 256 else 0
    let good := s.a0.toNat < 16 ∧ (s.a1.toNat = 0 ∨ (3 ≤ s.a1.toNat ∧ s.a1.toNat + nseed ≤ s.maxLimit))
    (¬good → Faults .econfig s 0x0A s.a1.toNat) ∧ (good → ∃ t, exec .econfig s = .next t ∧ t.fault = false)

/-- 43_engine.md R201, 10 R57: what ECONFIG writes, and what it leaves. -/
def Obligations.ConfigureInitialises : Prop :=
  ∀ s : State, s.fault = false → s.a0.toNat < 16 →
    let lzw := s.a0.getLsbD 0
    let nseed := if lzw = true then 256 else 0
    let enc := s.a0.getLsbD 3 = false
    s.a1.toNat = 0 ∨ (3 ≤ s.a1.toNat ∧ s.a1.toNat + nseed ≤ s.maxLimit) →
    ∃ t, exec .econfig s = .next t
      ∧ { putBackResults s t with
          setup := s.setup, size := s.size, epos := s.epos, nl := s.nl, estate := s.estate, configured := s.configured,
          pol := s.pol, arena := s.arena, tab := s.tab, mat := s.mat } = s
      ∧ Results t t.setup.limit t.setup.width nseed 0 ∧ t.flags = Flags.clear
      ∧ t.cfgWord = s.a0 ∧ t.setup.userLimit = s.a1.toNat ∧ t.setup.unb = decide (s.a1.toNat = 0)
      ∧ t.setup.limit = (if s.a1.toNat = 0 then s.maxUnbounded else s.a1.toNat + nseed)
      ∧ (s.a1.toNat = 0 → t.setup.width = 32)
      ∧ (s.a1.toNat ≠ 0 → t.setup.limit + 1 ≤ 2 ^ t.setup.width ∧ 2 ^ (t.setup.width - 1) < t.setup.limit + 1)
      ∧ t.size = nseed ∧ t.epos = 0 ∧ t.nl = 0 ∧ t.estate = .ready ∧ t.configured = true
      ∧ t.pol.q = [] ∧ t.pol.cur = nseed + 1 ∧ (∀ k, t.pol.parentOf k = 0)
      ∧ (∀ k, t.pol.isPerm k = true ↔ k ≤ nseed)
      ∧ (t.node 0).active = true ∧ (t.node 0).length = 0
      ∧ (∀ k, 1 ≤ k → k ≤ nseed → enc →
          Table.get t.arena k = some { active := true, codewordNo := k, start := Config.seed, length := 1, parent := 0, children := [] })
      ∧ (∀ c : Byte, t.child 0 c = if lzw = true ∧ enc then some (c.toNat + 1) else none)
      ∧ (∀ k, t.occupied k = true ↔ k = 0 ∨ (enc ∧ k ≤ nseed))
      ∧ (∀ k, Table.get t.tab k = if k = 0 then some { start := 0, length := 0 }
          else if k ≤ nseed then some { start := Config.seed, length := 1 } else none)
      ∧ t.mat = { mstate := .atRoot, mstart := 0, mcons := 0, mnode := 0, medge := none, moff := 0, mlast := 0, mldepth := 0 }

/-- 43_engine.md R210, R214, R220, R226, R227: a step that starts at the end of its input reports EOI, emits nothing, calls
no policy and finishes; so does a run, which counts 0 records. And DRUN gets to that end over every well-formed stream: `n`
records that each name a number assigned by then, from a table whose strings are at most `m` long, into room for strings
that grow by one character a record. -/
def Obligations.EndOfInputFinishes : Prop :=
  (∀ s : State, ReadyIn .enc s → (s.buf .src).len % 8 = 0 → s.epos = (s.buf .src).nchars →
      (∃ t, exec .estep s = .next t ∧ Results t 0 0 0 0 ∧ t.flags = { Flags.clear with eoi := true } ∧ t.estate = .done
        ∧ { putBackResults s t with estate := s.estate, mat := s.mat } = s)
      ∧ ∃ t, exec .erun s = .next t ∧ Results t 0 0 0 0 ∧ t.flags = Flags.clear ∧ t.estate = .done
        ∧ { putBackResults s t with estate := s.estate, mat := s.mat } = s)
    ∧ (∀ s : State, ReadyIn .dec s → (s.buf .out).len % 8 = 0 → (s.buf .cw).rc = (s.buf .cw).len →
      (∃ t, exec .dstep s = .next t ∧ Results t 0 0 0 0 ∧ t.flags = { Flags.clear with eoi := true } ∧ t.estate = .done
        ∧ { putBackResults s t with estate := s.estate } = s)
      ∧ ∃ t, exec .drun s = .next t ∧ Results t 0 0 0 0 ∧ t.flags = Flags.clear ∧ t.estate = .done
        ∧ { putBackResults s t with estate := s.estate } = s)
    ∧ ∀ (s : State) (n m : Nat), ReadyIn .dec s → s.inv = true → (s.buf .out).len % 8 = 0 → TableReads s m →
      StreamReads s n → (s.setup.unb = true → s.size + n ≤ s.setup.limit) →
      (s.buf .out).len + 8 * (n * (m + n)) ≤ s.capBits →
      ∃ t, exec .drun s = .next t ∧ Results t n 0 0 0 ∧ t.flags = Flags.clear ∧ t.estate = .done
        ∧ t.buf .src = s.buf .src ∧ t.buf .cw = { s.buf .cw with rc := (s.buf .cw).len }
        ∧ (t.buf .out).rc = (s.buf .out).rc
        ∧ (∃ l, (t.buf .out).bits = (s.buf .out).bits ++ l ∧ l.length % 8 = 0 ∧ l.length ≤ 8 * (n * (m + n)))
        ∧ { putBackResults s t with
            mem := s.mem, pol := s.pol, size := s.size, tab := s.tab, estate := s.estate } = s

/-- 43_engine.md R210 to R215: one record of the encoder: the longest match at EPOS, its codeword number (and in LZ78 its
extending character) into CW, the PMATCH rule, the new string or the final flush, and EPOS past what the record covers.
CAPACITY names the field that does not fit in CW, the number or the character; ARENA_FULL comes after it. -/
def Obligations.EncodeStepRecord : Prop :=
  ∀ s : State, ReadyIn .enc s → s.inv = true → s.policyExact = true → (s.buf .src).len % 8 = 0 →
    s.epos < (s.buf .src).nchars →
    (s.capBits < (s.buf .cw).len + s.setup.width → Faults .estep s 0x05 s.setup.width)
      ∧ ∃ i L, IsLongestMatch s s.epos i L ∧
          let has := decide (s.epos + L < (s.buf .src).nchars)
          let c : Byte := if has = true then s.charAt .src (s.epos + L) else 0
          let withChar := has = true ∧ s.setup.variant = .lz78
          let fits := (s.buf .cw).len + s.setup.width + (if withChar then 8 else 0) ≤ s.capBits
          let full := s.setup.unb = true ∧ s.size = s.setup.limit
          ((s.buf .cw).len + s.setup.width ≤ s.capBits → ¬fits → Faults .estep s 0x05 8)
            ∧ (fits → full → Faults .estep s 0x10 0)
            ∧ (fits → ¬full →
                ∃ t j, exec .estep s = .next t ∧ Results t i L c.toNat j
                  ∧ t.flags = { Flags.clear with hasChar := has, reject := decide (j = 0) }
                  ∧ { putBackResults s t with
                      mem := s.mem, pol := s.pol, size := s.size, arena := s.arena, mat := s.mat, epos := s.epos,
                      nl := s.nl, estate := s.estate } = s
                  ∧ t.buf .src = s.buf .src ∧ t.buf .out = s.buf .out
                  ∧ t.buf .cw = { s.buf .cw with
                      bits := (s.buf .cw).bits ++ natBits s.setup.width i ++ (if withChar then natBits 8 c.toNat else [])
                      epoch := (s.buf .cw).epoch + 1 }
                  ∧ t.epos = s.epos + L + (if withChar then 1 else 0)
                  ∧ t.estate = (if has = true then .ready else .done) ∧ t.mat.mstate = .maximal
                  ∧ (∃ p, exec .pmatch { s with a0 := toWord i } = .next p ∧ p.fault = false ∧ p.r0 = toWord j
                      ∧ t.pol = p.pol ∧ t.size = p.size)
                  ∧ (j = 0 → t.arena = s.arena ∧ t.nl = s.nl)
                  ∧ (j ≠ 0 → (∀ k, k ≠ j → t.activeAt k = s.activeAt k)
                      ∧ ∀ k, k ≠ j → s.activeAt k = true → t.nodeString k = s.nodeString k)
                  ∧ (j ≠ 0 → has = true → t.nl = s.nl ∧ t.activeAt j = true ∧ t.nodeString j = s.nodeString i ++ [c])
                  ∧ (j ≠ 0 → has = false → t.nl = j ∧ t.occupied j = false))

/-- 43_engine.md R226, R234: ERUN terminates: from a state with the block's invariants, room in CW and numbers to assign, it
consumes the whole input, emits at most one record per character and ends DONE. That EPOCH of CW counts the run once is the
model's reading (log 15). -/
def Obligations.EncodeRunCompletes : Prop :=
  ∀ s : State, ReadyIn .enc s → s.inv = true → s.policyExact = true → (s.buf .src).len % 8 = 0 →
    s.epos ≤ (s.buf .src).nchars →
    let left := (s.buf .src).nchars - s.epos
    (s.setup.unb = true → s.size + left ≤ s.setup.limit) →
    (s.buf .cw).len + left * (s.setup.width + 8) ≤ s.capBits →
    ∃ t n, exec .erun s = .next t ∧ Results t n 0 0 0 ∧ t.flags = Flags.clear ∧ n ≤ left ∧ (0 < left → 0 < n)
      ∧ t.estate = .done ∧ t.epos = (s.buf .src).nchars ∧ t.buf .src = s.buf .src ∧ t.buf .out = s.buf .out
      ∧ (t.buf .cw).rc = (s.buf .cw).rc ∧ (∃ l, (t.buf .cw).bits = (s.buf .cw).bits ++ l ∧ n * s.setup.width ≤ l.length)
      ∧ (t.buf .cw).epoch = (if left = 0 then (s.buf .cw).epoch else (s.buf .cw).epoch + 1)
      ∧ t.setup = s.setup ∧ t.tab = s.tab ∧ t.sv = s.sv

/-- 43_engine.md R226, R227: a run is its steps, one after the other while ESTATE = READY, and R0 counts the records; a fault
of a step is the run's, which rolls all of it back. That EPOCH counts a run once is the model's reading (log 15). -/
def Obligations.RunsRepeatTheirSteps : Prop :=
  (∀ (s t : State) (records : List (Option Record)), ReadyIn .enc s → s.inv = true →
      RunsOver encodeStep s.begin records t →
        exec .erun s = .next (bumpEpochs s.begin (t.results (records.filter Option.isSome).length 0 0 0)))
    ∧ (∀ (s t : State) (records : List (Option Record)), ReadyIn .dec s → s.inv = true →
      RunsOver decodeStep s.begin records t →
        exec .drun s = .next (bumpEpochs s.begin (t.results (records.filter Option.isSome).length 0 0 0)))
    ∧ (∀ (s u : State) (records : List (Option Record)) (e : Raise), ReadyIn .enc s → s.inv = true →
      RunsInto encodeStep s.begin records u → encodeStep u = .error e → Faults .erun s e.code.num e.info)
    ∧ ∀ (s u : State) (records : List (Option Record)) (e : Raise), ReadyIn .dec s → s.inv = true →
      RunsInto decodeStep s.begin records u → decodeStep u = .error e → Faults .drun s e.code.num e.info

/-- 43_engine.md R220 to R225: one record of the decoder: the number, its string (its first character written before the rest
is read, so that the string may run one character into the output of this record), the extending character, and the table
entry of the extension. A record that OUT cannot take whole is a CAPACITY fault, and ARENA_FULL comes after it; that this
CAPACITY names 8, the width of one character, is the model's reading (log 8). -/
def Obligations.DecodeStepRecord : Prop :=
  ∀ (s : State) (e : Entry), ReadyIn .dec s → s.inv = true → (s.buf .out).len % 8 = 0 → RecordReads s e →
    let i := (s.buf .cw).read (s.buf .cw).rc s.setup.width
    let left := s.remaining - s.setup.width
    let pos := (s.buf .out).nchars
    let has := decide (s.setup.variant = .lz78 ∧ left ≠ 0)
    let final := s.setup.variant = .lz78 ∧ left = 0
    let c := (s.buf .cw).read ((s.buf .cw).rc + s.setup.width) 8
    let fits := (s.buf .out).len + 8 * (e.length + has.toNat) ≤ s.capBits
    let full := s.setup.unb = true ∧ s.size = s.setup.limit
    (¬fits → Faults .dstep s 0x05 8)
      ∧ (fits → full → Faults .dstep s 0x10 0)
      ∧ (fits → ¬full →
          ∃ t j, exec .dstep s = .next t ∧ Results t i e.length (if has = true then c else 0) j
            ∧ t.flags = { Flags.clear with hasChar := has, reject := decide (j = 0) }
            ∧ { putBackResults s t with
                mem := s.mem, pol := s.pol, size := s.size, tab := s.tab, estate := s.estate } = s
            ∧ t.buf .src = s.buf .src
            ∧ t.buf .cw = { s.buf .cw with rc := (s.buf .cw).rc + s.setup.width + (if has = true then 8 else 0) }
            ∧ (t.buf .out).rc = (s.buf .out).rc
            ∧ (t.buf .out).epoch = (if e.length + has.toNat = 0 then (s.buf .out).epoch else (s.buf .out).epoch + 1)
            ∧ (t.buf .out).bits.take (s.buf .out).len = (s.buf .out).bits
            ∧ (t.buf .out).len = (s.buf .out).len + 8 * (e.length + has.toNat)
            ∧ (e.start = Config.seed → t.charAt .out pos = BitVec.ofNat 8 (i - 1))
            ∧ (e.start ≠ Config.seed → ∀ k, k < e.length → t.charAt .out (pos + k) = t.charAt .out (e.start + k))
            ∧ (has = true → t.charAt .out (pos + e.length) = BitVec.ofNat 8 c)
            ∧ t.estate = (if final then .done else .ready)
            ∧ (∃ p, exec .pmatch { s with a0 := toWord i } = .next p ∧ p.fault = false ∧ p.r0 = toWord j ∧ t.pol = p.pol
                ∧ t.size = p.size)
            ∧ (j = 0 → t.tab = s.tab)
            ∧ (j ≠ 0 → Table.get t.tab j = some { start := pos, length := e.length + 1 }
                ∧ ∀ k, k ≠ j → Table.get t.tab k = Table.get s.tab k))

/-- 43_engine.md R220 to R222, R224: the streams the decoder cannot parse. -/
def Obligations.BadStreams : Prop :=
  ∀ s : State, ReadyIn .dec s → (s.buf .out).len % 8 = 0 →
    let i := (s.buf .cw).read (s.buf .cw).rc s.setup.width
    let left := s.remaining - s.setup.width
    let pos := (s.buf .out).nchars
    (s.remaining ≠ 0 → s.remaining < s.setup.width → Faults .dstep s 0x11 s.remaining)
      ∧ (s.remaining ≠ 0 → s.setup.width ≤ s.remaining →
          (s.size < i ∨ Table.get s.tab i = none ∨ (s.setup.variant = .lzw ∧ i = 0) → Faults .dstep s 0x11 i)
          ∧ ∀ e, i ≤ s.size → Table.get s.tab i = some e → ¬(s.setup.variant = .lzw ∧ i = 0) →
              (e.start ≠ Config.seed → e.length ≠ 0 → pos ≤ e.start → Faults .dstep s 0x11 e.start)
              ∧ (e.start ≠ Config.seed → e.length ≠ 0 → e.start < pos → (s.buf .out).len + 8 ≤ s.capBits →
                  pos + 1 < e.start + e.length → Faults .dstep s 0x11 e.start)
              ∧ (e.length = 0 → e.start ≠ Config.seed → s.setup.variant = .lz78 → left = 0 → i = 0 →
                  Faults .dstep s 0x11 0)
              ∧ (e.start ≠ Config.seed → e.length = 0 ∨ (e.start < pos ∧ e.start + e.length ≤ pos + 1) →
                  (s.buf .out).len + 8 * e.length ≤ s.capBits → s.setup.variant = .lz78 → 0 < left → left < 8 →
                  Faults .dstep s 0x11 left))

/-- 43_engine.md R223, R228: EADDEXT is the PMATCH rule and the table entry of the number it assigns. -/
def Obligations.AddExtensionCommand : Prop :=
  ∀ s : State, ReadyIn .dec s → s.inv = true →
    let i := s.a0.toNat
    let pos := s.a1.toNat
    (s.size < i ∨ Table.get s.tab i = none → Faults .eaddext s 0x0C i)
      ∧ ∀ e, i ≤ s.size → Table.get s.tab i = some e →
          ((s.buf .out).nchars < pos → Faults .eaddext s 0x06 pos)
          ∧ (pos ≤ (s.buf .out).nchars → s.setup.unb = true → s.size = s.setup.limit → Faults .eaddext s 0x10 0)
          ∧ (pos ≤ (s.buf .out).nchars → MatchAllowed s i →
              ∃ t p, exec .pmatch s = .next p ∧ p.fault = false ∧ exec .eaddext s = .next t
                ∧ { putBackResults s t with pol := s.pol, size := s.size, tab := s.tab } = s
                ∧ t.pol = p.pol ∧ t.size = p.size ∧ t.flags = p.flags ∧ Results t p.r0.toNat 0 0 0
                ∧ (p.r0 = 0 → t.tab = s.tab)
                ∧ (p.r0 ≠ 0 → Table.get t.tab p.r0.toNat = some { start := pos, length := e.length + 1 }
                    ∧ ∀ k, k ≠ p.r0.toNat → Table.get t.tab k = Table.get s.tab k))

/-- 43_engine.md R231: `decode(encode(x)) = x`. `s` encodes the characters of SRC from an ECONFIG on, into an empty CW; `d`,
configured alike but to decode, with that stream and an empty OUT, decodes the same characters in the same number of
records. -/
def Obligations.DecodeOfEncodeIsTheInput : Prop :=
  ∀ s s1 t d d1 : State, buildOk s.build = true → s.memOk = true → s.fault = false → s.a0.getLsbD 3 = false →
    exec .econfig s = .next s1 → s1.fault = false → (s.buf .src).len % 8 = 0 → (s.buf .cw).bits = [] →
    exec .erun s1 = .next t → t.fault = false →
    d.build = s.build → d.fault = false → d.a0 = s.a0 ||| 8 → d.a1 = s.a1 → exec .econfig d = .next d1 →
    (d.buf .cw).bits = (t.buf .cw).bits → (d.buf .cw).rc = 0 → (d.buf .out).bits = [] →
    ∃ u, exec .drun d1 = .next u ∧ u.fault = false ∧ u.estate = .done ∧ (u.buf .out).bits = (s.buf .src).bits ∧ u.r0 = t.r0
end

