-- ==== Sys2Proof/Laws/Maps.lean ====
section
/-! SUPPORT. Sparse tables: reads after writes, and every operation keeps the canonical form. -/

namespace Sys2Proof.Machine

variable {α : Type}

/-! ### Reads after writes -/

@[simp] theorem Table.get_put_same (t : Table α) (x : Nat) (v : α) : Table.get (Table.put t x v) x = some v := by
  induction t with
  | nil => simp [Table.put, Table.get]
  | cons e t ih =>
    obtain ⟨k, w⟩ := e
    by_cases h1 : x < k
    · simp [Table.put, Table.get, h1]
    · by_cases h2 : x = k
      · simp [Table.put, Table.get, h2]
      · simp [Table.put, Table.get, h1, h2, ih]

theorem Table.get_put_other (t : Table α) {x y : Nat} (v : α) (h : y ≠ x) :
    Table.get (Table.put t x v) y = Table.get t y := by
  induction t with
  | nil => simp [Table.put, Table.get, h]
  | cons e t ih =>
    obtain ⟨k, w⟩ := e
    by_cases h1 : x < k
    · simp [Table.put, Table.get, h1, h]
    · by_cases h2 : x = k
      · subst h2; simp [Table.put, Table.get, h]
      · simp [Table.put, Table.get, h1, h2, ih]

@[simp] theorem Table.get_del_same (t : Table α) (x : Nat) : Table.get (Table.del t x) x = none := by
  induction t with
  | nil => simp [Table.del, Table.get]
  | cons e t ih =>
    obtain ⟨k, w⟩ := e
    by_cases h : k = x
    · simpa [Table.del, h] using ih
    · simp only [Table.del, List.filter_cons, ne_eq, h, not_false_eq_true, decide_true, if_true, Table.get, Ne.symm h,
        if_false]
      exact ih

theorem Table.get_del_other (t : Table α) {x y : Nat} (h : y ≠ x) : Table.get (Table.del t x) y = Table.get t y := by
  induction t with
  | nil => simp [Table.del, Table.get]
  | cons e t ih =>
    obtain ⟨k, w⟩ := e
    by_cases h1 : k = x
    · subst h1
      have : Table.del ((k, w) :: t) k = Table.del t k := by simp [Table.del]
      rw [this, ih]
      simp [Table.get, h]
    · have : Table.del ((k, w) :: t) x = (k, w) :: Table.del t x := by simp [Table.del, h1]
      rw [this]
      simp [Table.get, ih]

theorem Table.get_modify (t : Table α) (x y : Nat) (f : α → α) :
    Table.get (Table.modify t x f) y = if y = x then (Table.get t y).map f else Table.get t y := by
  induction t with
  | nil => simp [Table.modify, Table.get]
  | cons e t ih =>
    obtain ⟨k, w⟩ := e
    have hc : Table.modify ((k, w) :: t) x f = (if k = x then (k, f w) else (k, w)) :: Table.modify t x f := by
      simp [Table.modify]
    rw [hc]
    by_cases hk : k = x <;> by_cases hy : y = k <;> simp_all [Table.get]

@[simp] theorem Table.get_modify_same (t : Table α) (x : Nat) (f : α → α) :
    Table.get (Table.modify t x f) x = (Table.get t x).map f := by
  simp [Table.get_modify]

theorem Table.get_modify_other (t : Table α) {x y : Nat} (f : α → α) (h : y ≠ x) :
    Table.get (Table.modify t x f) y = Table.get t y := by
  simp [Table.get_modify, h]

/-! ### Entries of a changed table -/

theorem Table.mem_put {t : Table α} {x : Nat} {v : α} {e : Nat × α} (h : e ∈ Table.put t x v) : e = (x, v) ∨ e ∈ t := by
  induction t with
  | nil => simpa [Table.put] using h
  | cons d t ih =>
    obtain ⟨k, w⟩ := d
    unfold Table.put at h
    split at h
    · rcases List.mem_cons.1 h with h | h
      · exact .inl h
      · exact .inr h
    · split at h
      · rcases List.mem_cons.1 h with h | h
        · exact .inl h
        · exact .inr (List.mem_cons_of_mem _ h)
      · rcases List.mem_cons.1 h with h | h
        · exact .inr (h ▸ List.mem_cons_self)
        · exact (ih h).imp id (List.mem_cons_of_mem _)

theorem Table.mem_del {t : Table α} {x : Nat} {e : Nat × α} (h : e ∈ Table.del t x) : e ∈ t ∧ e.1 ≠ x := by
  simpa [Table.del] using h

theorem Table.mem_modify {t : Table α} {x : Nat} {f : α → α} {e : Nat × α} (h : e ∈ Table.modify t x f) :
    ∃ d ∈ t, d.1 = e.1 ∧ e.2 = if d.1 = x then f d.2 else d.2 := by
  obtain ⟨d, hd, rfl⟩ := List.mem_map.1 h
  exact ⟨d, hd, by split <;> simp, by split <;> simp_all⟩

theorem Table.mem_of_get {t : Table α} {x : Nat} {v : α} (h : Table.get t x = some v) : (x, v) ∈ t := by
  induction t with
  | nil => simp [Table.get] at h
  | cons e t ih =>
    obtain ⟨k, w⟩ := e
    by_cases hk : x = k
    · simp_all [Table.get]
    · simp only [Table.get, hk, if_false] at h
      exact List.mem_cons_of_mem _ (ih h)

/-! ### The canonical form -/

theorem Table.wf_iff (t : Table α) : Table.wf t = true ↔ t.Pairwise fun x y => x.1 < y.1 := by
  simp [Table.wf]

theorem Table.wf_put {t : Table α} (h : Table.wf t = true) (x : Nat) (v : α) : Table.wf (Table.put t x v) = true := by
  rw [Table.wf_iff] at h ⊢
  induction t with
  | nil => simp [Table.put]
  | cons e t ih =>
    obtain ⟨k, w⟩ := e
    obtain ⟨hk, ht⟩ := List.pairwise_cons.1 h
    unfold Table.put
    split
    · rename_i hx
      refine List.pairwise_cons.2 ⟨fun d hd => ?_, h⟩
      rcases List.mem_cons.1 hd with rfl | hd
      · exact hx
      · exact Nat.lt_trans hx (hk d hd)
    · split
      · rename_i hx
        subst hx
        exact List.pairwise_cons.2 ⟨hk, ht⟩
      · rename_i h1 h2
        refine List.pairwise_cons.2 ⟨fun d hd => ?_, ih ht⟩
        rcases Table.mem_put hd with rfl | hd
        · show k < x
          omega
        · exact hk d hd

theorem Table.wf_del {t : Table α} (h : Table.wf t = true) (x : Nat) : Table.wf (Table.del t x) = true := by
  rw [Table.wf_iff] at h ⊢
  exact List.Pairwise.filter _ h

theorem Table.wf_map_entries {β : Type} {t : Table α} (h : Table.wf t = true) (g : Nat × α → β) :
    Table.wf (t.map fun e => (e.1, g e)) = true := by
  rw [Table.wf_iff] at h ⊢
  exact List.pairwise_map.2 h

theorem Table.wf_modify {t : Table α} (h : Table.wf t = true) (x : Nat) (f : α → α) :
    Table.wf (Table.modify t x f) = true := by
  have : Table.modify t x f = t.map fun e => (e.1, if e.1 = x then f e.2 else e.2) := by
    unfold Table.modify
    refine List.map_congr_left fun e _ => ?_
    split <;> simp
  rw [this]
  exact Table.wf_map_entries h _

theorem Table.wfNum_putNum {t : Table Nat} (h : Table.wfNum t = true) (x v : Nat) :
    Table.wfNum (Table.putNum t x v) = true := by
  simp only [Table.wfNum, Bool.and_eq_true, List.all_eq_true] at h ⊢
  unfold Table.putNum
  split
  · exact ⟨Table.wf_del h.1 x, fun e he => h.2 e (Table.mem_del he).1⟩
  · rename_i hv
    refine ⟨Table.wf_put h.1 x v, fun e he => ?_⟩
    rcases Table.mem_put he with rfl | he
    · simpa using hv
    · exact h.2 e he

@[simp] theorem Table.getNum_putNum_same (t : Table Nat) (x v : Nat) : Table.getNum (Table.putNum t x v) x = v := by
  unfold Table.getNum Table.putNum
  split <;> simp_all

theorem Table.getNum_putNum_other (t : Table Nat) {x y : Nat} (v : Nat) (h : y ≠ x) :
    Table.getNum (Table.putNum t x v) y = Table.getNum t y := by
  unfold Table.getNum Table.putNum
  split
  · rw [Table.get_del_other t h]
  · rw [Table.get_put_other t v h]

/-! ### Sets of numbers -/

theorem mem_setInsert {l : List Nat} {x y : Nat} : y ∈ setInsert x l ↔ y = x ∨ y ∈ l := by
  induction l with
  | nil => simp [setInsert]
  | cons k l ih =>
    unfold setInsert
    split
    · simp
    · split
      · rename_i h
        subst h
        simp
      · simp [ih]
        tauto

theorem setWf_setInsert {l : List Nat} (h : setWf l = true) (x : Nat) : setWf (setInsert x l) = true := by
  simp only [setWf, decide_eq_true_eq] at h ⊢
  induction l with
  | nil => simp [setInsert]
  | cons k l ih =>
    obtain ⟨hk, hl⟩ := List.pairwise_cons.1 h
    unfold setInsert
    split
    · rename_i hx
      exact List.pairwise_cons.2 ⟨fun y hy => (List.mem_cons.1 hy).elim (fun e => e ▸ hx) (fun hy => hx.trans (hk y hy)), h⟩
    · split
      · exact h
      · rename_i h1 h2
        refine List.pairwise_cons.2 ⟨fun y hy => ?_, ih hl⟩
        rcases mem_setInsert.1 hy with rfl | hy
        · omega
        · exact hk y hy

/-! ### Lookup and membership agree on a canonical table -/

theorem Table.get_of_mem {t : Table α} (h : Table.wf t = true) {x : Nat} {v : α} (hm : (x, v) ∈ t) :
    Table.get t x = some v := by
  rw [Table.wf_iff] at h
  induction t with
  | nil => simp at hm
  | cons e t ih =>
    obtain ⟨k, w⟩ := e
    obtain ⟨h1, h2⟩ := List.pairwise_cons.1 h
    rcases List.mem_cons.1 hm with he | hm
    · cases he
      simp [Table.get]
    · have hk : k < x := h1 _ hm
      rw [Table.get, if_neg (by omega)]
      exact ih h2 hm

theorem Table.mem_snd {l : Table α} {y : α} : y ∈ l.map Prod.snd ↔ ∃ c, (c, y) ∈ l := by simp

theorem Table.length_put_new {t : Table α} {x : Nat} (v : α) (h : Table.get t x = none) :
    (Table.put t x v).length = t.length + 1 := by
  induction t with
  | nil => rfl
  | cons e t ih =>
    obtain ⟨k, w⟩ := e
    rw [Table.get] at h
    split at h
    · cases h
    · rename_i hk
      unfold Table.put
      split
      · rfl
      · rw [List.length_cons, ih h, List.length_cons]

theorem Table.length_put_le (t : Table α) (x : Nat) (v : α) : t.length ≤ (Table.put t x v).length := by
  induction t with
  | nil => simp [Table.put]
  | cons e t ih =>
    obtain ⟨k, w⟩ := e
    unfold Table.put
    split
    · simp
    · split
      · simp
      · simpa using ih

theorem Table.length_del {t : Table α} (h : Table.wf t = true) {x : Nat} {v : α} (hg : Table.get t x = some v) :
    (Table.del t x).length + 1 = t.length := by
  rw [Table.wf_iff] at h
  induction t with
  | nil => simp [Table.get] at hg
  | cons e t ih =>
    obtain ⟨k, w⟩ := e
    obtain ⟨h1, h2⟩ := List.pairwise_cons.1 h
    rw [Table.get] at hg
    split at hg
    · rename_i hk
      have hself : Table.del t x = t := List.filter_eq_self.2 fun e he => by
        have : k < e.1 := h1 e he
        have : e.1 ≠ x := by omega
        simpa using this
      have : Table.del ((k, w) :: t) x = Table.del t x := List.filter_cons_of_neg (by simp [hk])
      rw [this, hself, List.length_cons]
    · rename_i hk
      have : Table.del ((k, w) :: t) x = (k, w) :: Table.del t x :=
        List.filter_cons_of_pos (by simpa using Ne.symm hk)
      rw [this, List.length_cons, List.length_cons, ih h2 hg]

end Sys2Proof.Machine
end

