-- ==== Sys2Proof/Laws/State.lean ====
section
/-! SUPPORT. One lemma per field per update of the state, each true by rfl, so that no later proof unfolds a record
update. -/

namespace Sys2Proof.Machine

/-! ### begin -/

@[simp] theorem State.begin_build (s : State) : (State.begin s).build = s.build := rfl
@[simp] theorem State.begin_a0 (s : State) : (State.begin s).a0 = s.a0 := rfl
@[simp] theorem State.begin_a1 (s : State) : (State.begin s).a1 = s.a1 := rfl
@[simp] theorem State.begin_a2 (s : State) : (State.begin s).a2 = s.a2 := rfl
@[simp] theorem State.begin_r0 (s : State) : (State.begin s).r0 = 0 := rfl
@[simp] theorem State.begin_r1 (s : State) : (State.begin s).r1 = 0 := rfl
@[simp] theorem State.begin_r2 (s : State) : (State.begin s).r2 = 0 := rfl
@[simp] theorem State.begin_r3 (s : State) : (State.begin s).r3 = 0 := rfl
@[simp] theorem State.begin_flags (s : State) : (State.begin s).flags = Flags.clear := rfl
@[simp] theorem State.begin_fault (s : State) : (State.begin s).fault = s.fault := rfl
@[simp] theorem State.begin_faultInfo (s : State) : (State.begin s).faultInfo = s.faultInfo := rfl
@[simp] theorem State.begin_faultCmd (s : State) : (State.begin s).faultCmd = s.faultCmd := rfl
@[simp] theorem State.begin_configured (s : State) : (State.begin s).configured = s.configured := rfl
@[simp] theorem State.begin_estate (s : State) : (State.begin s).estate = s.estate := rfl
@[simp] theorem State.begin_setup (s : State) : (State.begin s).setup = s.setup := rfl
@[simp] theorem State.begin_size (s : State) : (State.begin s).size = s.size := rfl
@[simp] theorem State.begin_epos (s : State) : (State.begin s).epos = s.epos := rfl
@[simp] theorem State.begin_nl (s : State) : (State.begin s).nl = s.nl := rfl
@[simp] theorem State.begin_mem (s : State) : (State.begin s).mem = s.mem := rfl
@[simp] theorem State.begin_sv (s : State) : (State.begin s).sv = s.sv := rfl
@[simp] theorem State.begin_arena (s : State) : (State.begin s).arena = s.arena := rfl
@[simp] theorem State.begin_pol (s : State) : (State.begin s).pol = s.pol := rfl
@[simp] theorem State.begin_tab (s : State) : (State.begin s).tab = s.tab := rfl
@[simp] theorem State.begin_mat (s : State) : (State.begin s).mat = s.mat := rfl
@[simp] theorem State.begin_host (s : State) : (State.begin s).host = s.host := rfl
@[simp] theorem State.begin_rdata (s : State) : (State.begin s).rdata = s.rdata := rfl
@[simp] theorem State.begin_freeCount (s : State) : (State.begin s).freeCount = s.freeCount := rfl

/-! ### results -/

@[simp] theorem State.results_build (s : State) (x0 x1 x2 x3 : Nat) : (s.results x0 x1 x2 x3).build = s.build := rfl
@[simp] theorem State.results_a0 (s : State) (x0 x1 x2 x3 : Nat) : (s.results x0 x1 x2 x3).a0 = s.a0 := rfl
@[simp] theorem State.results_a1 (s : State) (x0 x1 x2 x3 : Nat) : (s.results x0 x1 x2 x3).a1 = s.a1 := rfl
@[simp] theorem State.results_a2 (s : State) (x0 x1 x2 x3 : Nat) : (s.results x0 x1 x2 x3).a2 = s.a2 := rfl
@[simp] theorem State.results_r0 (s : State) (x0 x1 x2 x3 : Nat) : (s.results x0 x1 x2 x3).r0 = toWord x0 := rfl
@[simp] theorem State.results_r1 (s : State) (x0 x1 x2 x3 : Nat) : (s.results x0 x1 x2 x3).r1 = toWord x1 := rfl
@[simp] theorem State.results_r2 (s : State) (x0 x1 x2 x3 : Nat) : (s.results x0 x1 x2 x3).r2 = toWord x2 := rfl
@[simp] theorem State.results_r3 (s : State) (x0 x1 x2 x3 : Nat) : (s.results x0 x1 x2 x3).r3 = toWord x3 := rfl
@[simp] theorem State.results_flags (s : State) (x0 x1 x2 x3 : Nat) : (s.results x0 x1 x2 x3).flags = s.flags := rfl
@[simp] theorem State.results_fault (s : State) (x0 x1 x2 x3 : Nat) : (s.results x0 x1 x2 x3).fault = s.fault := rfl
@[simp] theorem State.results_faultInfo (s : State) (x0 x1 x2 x3 : Nat) : (s.results x0 x1 x2 x3).faultInfo = s.faultInfo := rfl
@[simp] theorem State.results_faultCmd (s : State) (x0 x1 x2 x3 : Nat) : (s.results x0 x1 x2 x3).faultCmd = s.faultCmd := rfl
@[simp] theorem State.results_configured (s : State) (x0 x1 x2 x3 : Nat) : (s.results x0 x1 x2 x3).configured = s.configured := rfl
@[simp] theorem State.results_estate (s : State) (x0 x1 x2 x3 : Nat) : (s.results x0 x1 x2 x3).estate = s.estate := rfl
@[simp] theorem State.results_setup (s : State) (x0 x1 x2 x3 : Nat) : (s.results x0 x1 x2 x3).setup = s.setup := rfl
@[simp] theorem State.results_size (s : State) (x0 x1 x2 x3 : Nat) : (s.results x0 x1 x2 x3).size = s.size := rfl
@[simp] theorem State.results_epos (s : State) (x0 x1 x2 x3 : Nat) : (s.results x0 x1 x2 x3).epos = s.epos := rfl
@[simp] theorem State.results_nl (s : State) (x0 x1 x2 x3 : Nat) : (s.results x0 x1 x2 x3).nl = s.nl := rfl
@[simp] theorem State.results_mem (s : State) (x0 x1 x2 x3 : Nat) : (s.results x0 x1 x2 x3).mem = s.mem := rfl
@[simp] theorem State.results_sv (s : State) (x0 x1 x2 x3 : Nat) : (s.results x0 x1 x2 x3).sv = s.sv := rfl
@[simp] theorem State.results_arena (s : State) (x0 x1 x2 x3 : Nat) : (s.results x0 x1 x2 x3).arena = s.arena := rfl
@[simp] theorem State.results_pol (s : State) (x0 x1 x2 x3 : Nat) : (s.results x0 x1 x2 x3).pol = s.pol := rfl
@[simp] theorem State.results_tab (s : State) (x0 x1 x2 x3 : Nat) : (s.results x0 x1 x2 x3).tab = s.tab := rfl
@[simp] theorem State.results_mat (s : State) (x0 x1 x2 x3 : Nat) : (s.results x0 x1 x2 x3).mat = s.mat := rfl
@[simp] theorem State.results_host (s : State) (x0 x1 x2 x3 : Nat) : (s.results x0 x1 x2 x3).host = s.host := rfl
@[simp] theorem State.results_rdata (s : State) (x0 x1 x2 x3 : Nat) : (s.results x0 x1 x2 x3).rdata = s.rdata := rfl
@[simp] theorem State.results_freeCount (s : State) (x0 x1 x2 x3 : Nat) : (s.results x0 x1 x2 x3).freeCount = s.freeCount := rfl

/-! ### latch -/

@[simp] theorem State.latch_build (s : State) (e : Raise) (cmd : Word) : (s.latch e cmd).build = s.build := rfl
@[simp] theorem State.latch_a0 (s : State) (e : Raise) (cmd : Word) : (s.latch e cmd).a0 = s.a0 := rfl
@[simp] theorem State.latch_a1 (s : State) (e : Raise) (cmd : Word) : (s.latch e cmd).a1 = s.a1 := rfl
@[simp] theorem State.latch_a2 (s : State) (e : Raise) (cmd : Word) : (s.latch e cmd).a2 = s.a2 := rfl
@[simp] theorem State.latch_r0 (s : State) (e : Raise) (cmd : Word) : (s.latch e cmd).r0 = s.r0 := rfl
@[simp] theorem State.latch_r1 (s : State) (e : Raise) (cmd : Word) : (s.latch e cmd).r1 = s.r1 := rfl
@[simp] theorem State.latch_r2 (s : State) (e : Raise) (cmd : Word) : (s.latch e cmd).r2 = s.r2 := rfl
@[simp] theorem State.latch_r3 (s : State) (e : Raise) (cmd : Word) : (s.latch e cmd).r3 = s.r3 := rfl
@[simp] theorem State.latch_flags (s : State) (e : Raise) (cmd : Word) : (s.latch e cmd).flags = s.flags := rfl
@[simp] theorem State.latch_fault (s : State) (e : Raise) (cmd : Word) : (s.latch e cmd).fault = true := rfl
@[simp] theorem State.latch_faultInfo (s : State) (e : Raise) (cmd : Word) : (s.latch e cmd).faultInfo = faultInfoWord e cmd := rfl
@[simp] theorem State.latch_faultCmd (s : State) (e : Raise) (cmd : Word) : (s.latch e cmd).faultCmd = cmd := rfl
@[simp] theorem State.latch_configured (s : State) (e : Raise) (cmd : Word) : (s.latch e cmd).configured = s.configured := rfl
@[simp] theorem State.latch_estate (s : State) (e : Raise) (cmd : Word) : (s.latch e cmd).estate = s.estate := rfl
@[simp] theorem State.latch_setup (s : State) (e : Raise) (cmd : Word) : (s.latch e cmd).setup = s.setup := rfl
@[simp] theorem State.latch_size (s : State) (e : Raise) (cmd : Word) : (s.latch e cmd).size = s.size := rfl
@[simp] theorem State.latch_epos (s : State) (e : Raise) (cmd : Word) : (s.latch e cmd).epos = s.epos := rfl
@[simp] theorem State.latch_nl (s : State) (e : Raise) (cmd : Word) : (s.latch e cmd).nl = s.nl := rfl
@[simp] theorem State.latch_mem (s : State) (e : Raise) (cmd : Word) : (s.latch e cmd).mem = s.mem := rfl
@[simp] theorem State.latch_sv (s : State) (e : Raise) (cmd : Word) : (s.latch e cmd).sv = s.sv := rfl
@[simp] theorem State.latch_arena (s : State) (e : Raise) (cmd : Word) : (s.latch e cmd).arena = s.arena := rfl
@[simp] theorem State.latch_pol (s : State) (e : Raise) (cmd : Word) : (s.latch e cmd).pol = s.pol := rfl
@[simp] theorem State.latch_tab (s : State) (e : Raise) (cmd : Word) : (s.latch e cmd).tab = s.tab := rfl
@[simp] theorem State.latch_mat (s : State) (e : Raise) (cmd : Word) : (s.latch e cmd).mat = s.mat := rfl
@[simp] theorem State.latch_host (s : State) (e : Raise) (cmd : Word) : (s.latch e cmd).host = s.host := rfl
@[simp] theorem State.latch_rdata (s : State) (e : Raise) (cmd : Word) : (s.latch e cmd).rdata = s.rdata := rfl
@[simp] theorem State.latch_freeCount (s : State) (e : Raise) (cmd : Word) : (s.latch e cmd).freeCount = s.freeCount := rfl

/-! ### setBuf -/

@[simp] theorem State.setBuf_build (s : State) (b : Buf) (x : Buffer) : (s.setBuf b x).build = s.build := rfl
@[simp] theorem State.setBuf_a0 (s : State) (b : Buf) (x : Buffer) : (s.setBuf b x).a0 = s.a0 := rfl
@[simp] theorem State.setBuf_a1 (s : State) (b : Buf) (x : Buffer) : (s.setBuf b x).a1 = s.a1 := rfl
@[simp] theorem State.setBuf_a2 (s : State) (b : Buf) (x : Buffer) : (s.setBuf b x).a2 = s.a2 := rfl
@[simp] theorem State.setBuf_r0 (s : State) (b : Buf) (x : Buffer) : (s.setBuf b x).r0 = s.r0 := rfl
@[simp] theorem State.setBuf_r1 (s : State) (b : Buf) (x : Buffer) : (s.setBuf b x).r1 = s.r1 := rfl
@[simp] theorem State.setBuf_r2 (s : State) (b : Buf) (x : Buffer) : (s.setBuf b x).r2 = s.r2 := rfl
@[simp] theorem State.setBuf_r3 (s : State) (b : Buf) (x : Buffer) : (s.setBuf b x).r3 = s.r3 := rfl
@[simp] theorem State.setBuf_flags (s : State) (b : Buf) (x : Buffer) : (s.setBuf b x).flags = s.flags := rfl
@[simp] theorem State.setBuf_fault (s : State) (b : Buf) (x : Buffer) : (s.setBuf b x).fault = s.fault := rfl
@[simp] theorem State.setBuf_faultInfo (s : State) (b : Buf) (x : Buffer) : (s.setBuf b x).faultInfo = s.faultInfo := rfl
@[simp] theorem State.setBuf_faultCmd (s : State) (b : Buf) (x : Buffer) : (s.setBuf b x).faultCmd = s.faultCmd := rfl
@[simp] theorem State.setBuf_configured (s : State) (b : Buf) (x : Buffer) : (s.setBuf b x).configured = s.configured := rfl
@[simp] theorem State.setBuf_estate (s : State) (b : Buf) (x : Buffer) : (s.setBuf b x).estate = s.estate := rfl
@[simp] theorem State.setBuf_setup (s : State) (b : Buf) (x : Buffer) : (s.setBuf b x).setup = s.setup := rfl
@[simp] theorem State.setBuf_size (s : State) (b : Buf) (x : Buffer) : (s.setBuf b x).size = s.size := rfl
@[simp] theorem State.setBuf_epos (s : State) (b : Buf) (x : Buffer) : (s.setBuf b x).epos = s.epos := rfl
@[simp] theorem State.setBuf_nl (s : State) (b : Buf) (x : Buffer) : (s.setBuf b x).nl = s.nl := rfl
@[simp] theorem State.setBuf_mem (s : State) (b : Buf) (x : Buffer) : (s.setBuf b x).mem = s.mem.set b x := rfl
@[simp] theorem State.setBuf_sv (s : State) (b : Buf) (x : Buffer) : (s.setBuf b x).sv = s.sv := rfl
@[simp] theorem State.setBuf_arena (s : State) (b : Buf) (x : Buffer) : (s.setBuf b x).arena = s.arena := rfl
@[simp] theorem State.setBuf_pol (s : State) (b : Buf) (x : Buffer) : (s.setBuf b x).pol = s.pol := rfl
@[simp] theorem State.setBuf_tab (s : State) (b : Buf) (x : Buffer) : (s.setBuf b x).tab = s.tab := rfl
@[simp] theorem State.setBuf_mat (s : State) (b : Buf) (x : Buffer) : (s.setBuf b x).mat = s.mat := rfl
@[simp] theorem State.setBuf_host (s : State) (b : Buf) (x : Buffer) : (s.setBuf b x).host = s.host := rfl
@[simp] theorem State.setBuf_rdata (s : State) (b : Buf) (x : Buffer) : (s.setBuf b x).rdata = s.rdata := rfl
@[simp] theorem State.setBuf_freeCount (s : State) (b : Buf) (x : Buffer) : (s.setBuf b x).freeCount = s.freeCount := rfl

/-! ### matchFlags -/

@[simp] theorem State.matchFlags_build (s : State) (m c e : Bool) : (s.matchFlags m c e).build = s.build := rfl
@[simp] theorem State.matchFlags_a0 (s : State) (m c e : Bool) : (s.matchFlags m c e).a0 = s.a0 := rfl
@[simp] theorem State.matchFlags_a1 (s : State) (m c e : Bool) : (s.matchFlags m c e).a1 = s.a1 := rfl
@[simp] theorem State.matchFlags_a2 (s : State) (m c e : Bool) : (s.matchFlags m c e).a2 = s.a2 := rfl
@[simp] theorem State.matchFlags_r0 (s : State) (m c e : Bool) : (s.matchFlags m c e).r0 = s.r0 := rfl
@[simp] theorem State.matchFlags_r1 (s : State) (m c e : Bool) : (s.matchFlags m c e).r1 = s.r1 := rfl
@[simp] theorem State.matchFlags_r2 (s : State) (m c e : Bool) : (s.matchFlags m c e).r2 = s.r2 := rfl
@[simp] theorem State.matchFlags_r3 (s : State) (m c e : Bool) : (s.matchFlags m c e).r3 = s.r3 := rfl
@[simp] theorem State.matchFlags_flags (s : State) (m c e : Bool) : (s.matchFlags m c e).flags = { s.flags with maximal := m, hasChar := c, eoi := e } := rfl
@[simp] theorem State.matchFlags_fault (s : State) (m c e : Bool) : (s.matchFlags m c e).fault = s.fault := rfl
@[simp] theorem State.matchFlags_faultInfo (s : State) (m c e : Bool) : (s.matchFlags m c e).faultInfo = s.faultInfo := rfl
@[simp] theorem State.matchFlags_faultCmd (s : State) (m c e : Bool) : (s.matchFlags m c e).faultCmd = s.faultCmd := rfl
@[simp] theorem State.matchFlags_configured (s : State) (m c e : Bool) : (s.matchFlags m c e).configured = s.configured := rfl
@[simp] theorem State.matchFlags_estate (s : State) (m c e : Bool) : (s.matchFlags m c e).estate = s.estate := rfl
@[simp] theorem State.matchFlags_setup (s : State) (m c e : Bool) : (s.matchFlags m c e).setup = s.setup := rfl
@[simp] theorem State.matchFlags_size (s : State) (m c e : Bool) : (s.matchFlags m c e).size = s.size := rfl
@[simp] theorem State.matchFlags_epos (s : State) (m c e : Bool) : (s.matchFlags m c e).epos = s.epos := rfl
@[simp] theorem State.matchFlags_nl (s : State) (m c e : Bool) : (s.matchFlags m c e).nl = s.nl := rfl
@[simp] theorem State.matchFlags_mem (s : State) (m c e : Bool) : (s.matchFlags m c e).mem = s.mem := rfl
@[simp] theorem State.matchFlags_sv (s : State) (m c e : Bool) : (s.matchFlags m c e).sv = s.sv := rfl
@[simp] theorem State.matchFlags_arena (s : State) (m c e : Bool) : (s.matchFlags m c e).arena = s.arena := rfl
@[simp] theorem State.matchFlags_pol (s : State) (m c e : Bool) : (s.matchFlags m c e).pol = s.pol := rfl
@[simp] theorem State.matchFlags_tab (s : State) (m c e : Bool) : (s.matchFlags m c e).tab = s.tab := rfl
@[simp] theorem State.matchFlags_mat (s : State) (m c e : Bool) : (s.matchFlags m c e).mat = s.mat := rfl
@[simp] theorem State.matchFlags_host (s : State) (m c e : Bool) : (s.matchFlags m c e).host = s.host := rfl
@[simp] theorem State.matchFlags_rdata (s : State) (m c e : Bool) : (s.matchFlags m c e).rdata = s.rdata := rfl
@[simp] theorem State.matchFlags_freeCount (s : State) (m c e : Bool) : (s.matchFlags m c e).freeCount = s.freeCount := rfl

/-! ### stepFlags -/

@[simp] theorem State.stepFlags_build (s : State) (c r e : Bool) : (s.stepFlags c r e).build = s.build := rfl
@[simp] theorem State.stepFlags_a0 (s : State) (c r e : Bool) : (s.stepFlags c r e).a0 = s.a0 := rfl
@[simp] theorem State.stepFlags_a1 (s : State) (c r e : Bool) : (s.stepFlags c r e).a1 = s.a1 := rfl
@[simp] theorem State.stepFlags_a2 (s : State) (c r e : Bool) : (s.stepFlags c r e).a2 = s.a2 := rfl
@[simp] theorem State.stepFlags_r0 (s : State) (c r e : Bool) : (s.stepFlags c r e).r0 = s.r0 := rfl
@[simp] theorem State.stepFlags_r1 (s : State) (c r e : Bool) : (s.stepFlags c r e).r1 = s.r1 := rfl
@[simp] theorem State.stepFlags_r2 (s : State) (c r e : Bool) : (s.stepFlags c r e).r2 = s.r2 := rfl
@[simp] theorem State.stepFlags_r3 (s : State) (c r e : Bool) : (s.stepFlags c r e).r3 = s.r3 := rfl
@[simp] theorem State.stepFlags_flags (s : State) (c r e : Bool) : (s.stepFlags c r e).flags = { s.flags with hasChar := c, reject := r, eoi := e } := rfl
@[simp] theorem State.stepFlags_fault (s : State) (c r e : Bool) : (s.stepFlags c r e).fault = s.fault := rfl
@[simp] theorem State.stepFlags_faultInfo (s : State) (c r e : Bool) : (s.stepFlags c r e).faultInfo = s.faultInfo := rfl
@[simp] theorem State.stepFlags_faultCmd (s : State) (c r e : Bool) : (s.stepFlags c r e).faultCmd = s.faultCmd := rfl
@[simp] theorem State.stepFlags_configured (s : State) (c r e : Bool) : (s.stepFlags c r e).configured = s.configured := rfl
@[simp] theorem State.stepFlags_estate (s : State) (c r e : Bool) : (s.stepFlags c r e).estate = s.estate := rfl
@[simp] theorem State.stepFlags_setup (s : State) (c r e : Bool) : (s.stepFlags c r e).setup = s.setup := rfl
@[simp] theorem State.stepFlags_size (s : State) (c r e : Bool) : (s.stepFlags c r e).size = s.size := rfl
@[simp] theorem State.stepFlags_epos (s : State) (c r e : Bool) : (s.stepFlags c r e).epos = s.epos := rfl
@[simp] theorem State.stepFlags_nl (s : State) (c r e : Bool) : (s.stepFlags c r e).nl = s.nl := rfl
@[simp] theorem State.stepFlags_mem (s : State) (c r e : Bool) : (s.stepFlags c r e).mem = s.mem := rfl
@[simp] theorem State.stepFlags_sv (s : State) (c r e : Bool) : (s.stepFlags c r e).sv = s.sv := rfl
@[simp] theorem State.stepFlags_arena (s : State) (c r e : Bool) : (s.stepFlags c r e).arena = s.arena := rfl
@[simp] theorem State.stepFlags_pol (s : State) (c r e : Bool) : (s.stepFlags c r e).pol = s.pol := rfl
@[simp] theorem State.stepFlags_tab (s : State) (c r e : Bool) : (s.stepFlags c r e).tab = s.tab := rfl
@[simp] theorem State.stepFlags_mat (s : State) (c r e : Bool) : (s.stepFlags c r e).mat = s.mat := rfl
@[simp] theorem State.stepFlags_host (s : State) (c r e : Bool) : (s.stepFlags c r e).host = s.host := rfl
@[simp] theorem State.stepFlags_rdata (s : State) (c r e : Bool) : (s.stepFlags c r e).rdata = s.rdata := rfl
@[simp] theorem State.stepFlags_freeCount (s : State) (c r e : Bool) : (s.stepFlags c r e).freeCount = s.freeCount := rfl

/-! ### rejectFlag -/

@[simp] theorem State.rejectFlag_build (s : State) (v : Bool) : (s.rejectFlag v).build = s.build := rfl
@[simp] theorem State.rejectFlag_a0 (s : State) (v : Bool) : (s.rejectFlag v).a0 = s.a0 := rfl
@[simp] theorem State.rejectFlag_a1 (s : State) (v : Bool) : (s.rejectFlag v).a1 = s.a1 := rfl
@[simp] theorem State.rejectFlag_a2 (s : State) (v : Bool) : (s.rejectFlag v).a2 = s.a2 := rfl
@[simp] theorem State.rejectFlag_r0 (s : State) (v : Bool) : (s.rejectFlag v).r0 = s.r0 := rfl
@[simp] theorem State.rejectFlag_r1 (s : State) (v : Bool) : (s.rejectFlag v).r1 = s.r1 := rfl
@[simp] theorem State.rejectFlag_r2 (s : State) (v : Bool) : (s.rejectFlag v).r2 = s.r2 := rfl
@[simp] theorem State.rejectFlag_r3 (s : State) (v : Bool) : (s.rejectFlag v).r3 = s.r3 := rfl
@[simp] theorem State.rejectFlag_flags (s : State) (v : Bool) : (s.rejectFlag v).flags = { s.flags with reject := v } := rfl
@[simp] theorem State.rejectFlag_fault (s : State) (v : Bool) : (s.rejectFlag v).fault = s.fault := rfl
@[simp] theorem State.rejectFlag_faultInfo (s : State) (v : Bool) : (s.rejectFlag v).faultInfo = s.faultInfo := rfl
@[simp] theorem State.rejectFlag_faultCmd (s : State) (v : Bool) : (s.rejectFlag v).faultCmd = s.faultCmd := rfl
@[simp] theorem State.rejectFlag_configured (s : State) (v : Bool) : (s.rejectFlag v).configured = s.configured := rfl
@[simp] theorem State.rejectFlag_estate (s : State) (v : Bool) : (s.rejectFlag v).estate = s.estate := rfl
@[simp] theorem State.rejectFlag_setup (s : State) (v : Bool) : (s.rejectFlag v).setup = s.setup := rfl
@[simp] theorem State.rejectFlag_size (s : State) (v : Bool) : (s.rejectFlag v).size = s.size := rfl
@[simp] theorem State.rejectFlag_epos (s : State) (v : Bool) : (s.rejectFlag v).epos = s.epos := rfl
@[simp] theorem State.rejectFlag_nl (s : State) (v : Bool) : (s.rejectFlag v).nl = s.nl := rfl
@[simp] theorem State.rejectFlag_mem (s : State) (v : Bool) : (s.rejectFlag v).mem = s.mem := rfl
@[simp] theorem State.rejectFlag_sv (s : State) (v : Bool) : (s.rejectFlag v).sv = s.sv := rfl
@[simp] theorem State.rejectFlag_arena (s : State) (v : Bool) : (s.rejectFlag v).arena = s.arena := rfl
@[simp] theorem State.rejectFlag_pol (s : State) (v : Bool) : (s.rejectFlag v).pol = s.pol := rfl
@[simp] theorem State.rejectFlag_tab (s : State) (v : Bool) : (s.rejectFlag v).tab = s.tab := rfl
@[simp] theorem State.rejectFlag_mat (s : State) (v : Bool) : (s.rejectFlag v).mat = s.mat := rfl
@[simp] theorem State.rejectFlag_host (s : State) (v : Bool) : (s.rejectFlag v).host = s.host := rfl
@[simp] theorem State.rejectFlag_rdata (s : State) (v : Bool) : (s.rejectFlag v).rdata = s.rdata := rfl
@[simp] theorem State.rejectFlag_freeCount (s : State) (v : Bool) : (s.rejectFlag v).freeCount = s.freeCount := rfl

/-! ### foundFlag -/

@[simp] theorem State.foundFlag_build (s : State) (v : Bool) : (s.foundFlag v).build = s.build := rfl
@[simp] theorem State.foundFlag_a0 (s : State) (v : Bool) : (s.foundFlag v).a0 = s.a0 := rfl
@[simp] theorem State.foundFlag_a1 (s : State) (v : Bool) : (s.foundFlag v).a1 = s.a1 := rfl
@[simp] theorem State.foundFlag_a2 (s : State) (v : Bool) : (s.foundFlag v).a2 = s.a2 := rfl
@[simp] theorem State.foundFlag_r0 (s : State) (v : Bool) : (s.foundFlag v).r0 = s.r0 := rfl
@[simp] theorem State.foundFlag_r1 (s : State) (v : Bool) : (s.foundFlag v).r1 = s.r1 := rfl
@[simp] theorem State.foundFlag_r2 (s : State) (v : Bool) : (s.foundFlag v).r2 = s.r2 := rfl
@[simp] theorem State.foundFlag_r3 (s : State) (v : Bool) : (s.foundFlag v).r3 = s.r3 := rfl
@[simp] theorem State.foundFlag_flags (s : State) (v : Bool) : (s.foundFlag v).flags = { s.flags with found := v } := rfl
@[simp] theorem State.foundFlag_fault (s : State) (v : Bool) : (s.foundFlag v).fault = s.fault := rfl
@[simp] theorem State.foundFlag_faultInfo (s : State) (v : Bool) : (s.foundFlag v).faultInfo = s.faultInfo := rfl
@[simp] theorem State.foundFlag_faultCmd (s : State) (v : Bool) : (s.foundFlag v).faultCmd = s.faultCmd := rfl
@[simp] theorem State.foundFlag_configured (s : State) (v : Bool) : (s.foundFlag v).configured = s.configured := rfl
@[simp] theorem State.foundFlag_estate (s : State) (v : Bool) : (s.foundFlag v).estate = s.estate := rfl
@[simp] theorem State.foundFlag_setup (s : State) (v : Bool) : (s.foundFlag v).setup = s.setup := rfl
@[simp] theorem State.foundFlag_size (s : State) (v : Bool) : (s.foundFlag v).size = s.size := rfl
@[simp] theorem State.foundFlag_epos (s : State) (v : Bool) : (s.foundFlag v).epos = s.epos := rfl
@[simp] theorem State.foundFlag_nl (s : State) (v : Bool) : (s.foundFlag v).nl = s.nl := rfl
@[simp] theorem State.foundFlag_mem (s : State) (v : Bool) : (s.foundFlag v).mem = s.mem := rfl
@[simp] theorem State.foundFlag_sv (s : State) (v : Bool) : (s.foundFlag v).sv = s.sv := rfl
@[simp] theorem State.foundFlag_arena (s : State) (v : Bool) : (s.foundFlag v).arena = s.arena := rfl
@[simp] theorem State.foundFlag_pol (s : State) (v : Bool) : (s.foundFlag v).pol = s.pol := rfl
@[simp] theorem State.foundFlag_tab (s : State) (v : Bool) : (s.foundFlag v).tab = s.tab := rfl
@[simp] theorem State.foundFlag_mat (s : State) (v : Bool) : (s.foundFlag v).mat = s.mat := rfl
@[simp] theorem State.foundFlag_host (s : State) (v : Bool) : (s.foundFlag v).host = s.host := rfl
@[simp] theorem State.foundFlag_rdata (s : State) (v : Bool) : (s.foundFlag v).rdata = s.rdata := rfl
@[simp] theorem State.foundFlag_freeCount (s : State) (v : Bool) : (s.foundFlag v).freeCount = s.freeCount := rfl

/-! ### equalFlag -/

@[simp] theorem State.equalFlag_build (s : State) (v : Bool) : (s.equalFlag v).build = s.build := rfl
@[simp] theorem State.equalFlag_a0 (s : State) (v : Bool) : (s.equalFlag v).a0 = s.a0 := rfl
@[simp] theorem State.equalFlag_a1 (s : State) (v : Bool) : (s.equalFlag v).a1 = s.a1 := rfl
@[simp] theorem State.equalFlag_a2 (s : State) (v : Bool) : (s.equalFlag v).a2 = s.a2 := rfl
@[simp] theorem State.equalFlag_r0 (s : State) (v : Bool) : (s.equalFlag v).r0 = s.r0 := rfl
@[simp] theorem State.equalFlag_r1 (s : State) (v : Bool) : (s.equalFlag v).r1 = s.r1 := rfl
@[simp] theorem State.equalFlag_r2 (s : State) (v : Bool) : (s.equalFlag v).r2 = s.r2 := rfl
@[simp] theorem State.equalFlag_r3 (s : State) (v : Bool) : (s.equalFlag v).r3 = s.r3 := rfl
@[simp] theorem State.equalFlag_flags (s : State) (v : Bool) : (s.equalFlag v).flags = { s.flags with equal := v } := rfl
@[simp] theorem State.equalFlag_fault (s : State) (v : Bool) : (s.equalFlag v).fault = s.fault := rfl
@[simp] theorem State.equalFlag_faultInfo (s : State) (v : Bool) : (s.equalFlag v).faultInfo = s.faultInfo := rfl
@[simp] theorem State.equalFlag_faultCmd (s : State) (v : Bool) : (s.equalFlag v).faultCmd = s.faultCmd := rfl
@[simp] theorem State.equalFlag_configured (s : State) (v : Bool) : (s.equalFlag v).configured = s.configured := rfl
@[simp] theorem State.equalFlag_estate (s : State) (v : Bool) : (s.equalFlag v).estate = s.estate := rfl
@[simp] theorem State.equalFlag_setup (s : State) (v : Bool) : (s.equalFlag v).setup = s.setup := rfl
@[simp] theorem State.equalFlag_size (s : State) (v : Bool) : (s.equalFlag v).size = s.size := rfl
@[simp] theorem State.equalFlag_epos (s : State) (v : Bool) : (s.equalFlag v).epos = s.epos := rfl
@[simp] theorem State.equalFlag_nl (s : State) (v : Bool) : (s.equalFlag v).nl = s.nl := rfl
@[simp] theorem State.equalFlag_mem (s : State) (v : Bool) : (s.equalFlag v).mem = s.mem := rfl
@[simp] theorem State.equalFlag_sv (s : State) (v : Bool) : (s.equalFlag v).sv = s.sv := rfl
@[simp] theorem State.equalFlag_arena (s : State) (v : Bool) : (s.equalFlag v).arena = s.arena := rfl
@[simp] theorem State.equalFlag_pol (s : State) (v : Bool) : (s.equalFlag v).pol = s.pol := rfl
@[simp] theorem State.equalFlag_tab (s : State) (v : Bool) : (s.equalFlag v).tab = s.tab := rfl
@[simp] theorem State.equalFlag_mat (s : State) (v : Bool) : (s.equalFlag v).mat = s.mat := rfl
@[simp] theorem State.equalFlag_host (s : State) (v : Bool) : (s.equalFlag v).host = s.host := rfl
@[simp] theorem State.equalFlag_rdata (s : State) (v : Bool) : (s.equalFlag v).rdata = s.rdata := rfl
@[simp] theorem State.equalFlag_freeCount (s : State) (v : Bool) : (s.equalFlag v).freeCount = s.freeCount := rfl

/-! ### updNode -/

@[simp] theorem State.updNode_build (s : State) (h : Nat) (f : Node → Node) : (s.updNode h f).build = s.build := rfl
@[simp] theorem State.updNode_a0 (s : State) (h : Nat) (f : Node → Node) : (s.updNode h f).a0 = s.a0 := rfl
@[simp] theorem State.updNode_a1 (s : State) (h : Nat) (f : Node → Node) : (s.updNode h f).a1 = s.a1 := rfl
@[simp] theorem State.updNode_a2 (s : State) (h : Nat) (f : Node → Node) : (s.updNode h f).a2 = s.a2 := rfl
@[simp] theorem State.updNode_r0 (s : State) (h : Nat) (f : Node → Node) : (s.updNode h f).r0 = s.r0 := rfl
@[simp] theorem State.updNode_r1 (s : State) (h : Nat) (f : Node → Node) : (s.updNode h f).r1 = s.r1 := rfl
@[simp] theorem State.updNode_r2 (s : State) (h : Nat) (f : Node → Node) : (s.updNode h f).r2 = s.r2 := rfl
@[simp] theorem State.updNode_r3 (s : State) (h : Nat) (f : Node → Node) : (s.updNode h f).r3 = s.r3 := rfl
@[simp] theorem State.updNode_flags (s : State) (h : Nat) (f : Node → Node) : (s.updNode h f).flags = s.flags := rfl
@[simp] theorem State.updNode_fault (s : State) (h : Nat) (f : Node → Node) : (s.updNode h f).fault = s.fault := rfl
@[simp] theorem State.updNode_faultInfo (s : State) (h : Nat) (f : Node → Node) : (s.updNode h f).faultInfo = s.faultInfo := rfl
@[simp] theorem State.updNode_faultCmd (s : State) (h : Nat) (f : Node → Node) : (s.updNode h f).faultCmd = s.faultCmd := rfl
@[simp] theorem State.updNode_configured (s : State) (h : Nat) (f : Node → Node) : (s.updNode h f).configured = s.configured := rfl
@[simp] theorem State.updNode_estate (s : State) (h : Nat) (f : Node → Node) : (s.updNode h f).estate = s.estate := rfl
@[simp] theorem State.updNode_setup (s : State) (h : Nat) (f : Node → Node) : (s.updNode h f).setup = s.setup := rfl
@[simp] theorem State.updNode_size (s : State) (h : Nat) (f : Node → Node) : (s.updNode h f).size = s.size := rfl
@[simp] theorem State.updNode_epos (s : State) (h : Nat) (f : Node → Node) : (s.updNode h f).epos = s.epos := rfl
@[simp] theorem State.updNode_nl (s : State) (h : Nat) (f : Node → Node) : (s.updNode h f).nl = s.nl := rfl
@[simp] theorem State.updNode_mem (s : State) (h : Nat) (f : Node → Node) : (s.updNode h f).mem = s.mem := rfl
@[simp] theorem State.updNode_sv (s : State) (h : Nat) (f : Node → Node) : (s.updNode h f).sv = s.sv := rfl
@[simp] theorem State.updNode_arena (s : State) (h : Nat) (f : Node → Node) : (s.updNode h f).arena = Table.modify s.arena h f := rfl
@[simp] theorem State.updNode_pol (s : State) (h : Nat) (f : Node → Node) : (s.updNode h f).pol = s.pol := rfl
@[simp] theorem State.updNode_tab (s : State) (h : Nat) (f : Node → Node) : (s.updNode h f).tab = s.tab := rfl
@[simp] theorem State.updNode_mat (s : State) (h : Nat) (f : Node → Node) : (s.updNode h f).mat = s.mat := rfl
@[simp] theorem State.updNode_host (s : State) (h : Nat) (f : Node → Node) : (s.updNode h f).host = s.host := rfl
@[simp] theorem State.updNode_rdata (s : State) (h : Nat) (f : Node → Node) : (s.updNode h f).rdata = s.rdata := rfl
@[simp] theorem State.updNode_freeCount (s : State) (h : Nat) (f : Node → Node) : (s.updNode h f).freeCount = s.freeCount := rfl

/-! ### putNode -/

@[simp] theorem State.putNode_build (s : State) (h : Nat) (x : Node) : (s.putNode h x).build = s.build := rfl
@[simp] theorem State.putNode_a0 (s : State) (h : Nat) (x : Node) : (s.putNode h x).a0 = s.a0 := rfl
@[simp] theorem State.putNode_a1 (s : State) (h : Nat) (x : Node) : (s.putNode h x).a1 = s.a1 := rfl
@[simp] theorem State.putNode_a2 (s : State) (h : Nat) (x : Node) : (s.putNode h x).a2 = s.a2 := rfl
@[simp] theorem State.putNode_r0 (s : State) (h : Nat) (x : Node) : (s.putNode h x).r0 = s.r0 := rfl
@[simp] theorem State.putNode_r1 (s : State) (h : Nat) (x : Node) : (s.putNode h x).r1 = s.r1 := rfl
@[simp] theorem State.putNode_r2 (s : State) (h : Nat) (x : Node) : (s.putNode h x).r2 = s.r2 := rfl
@[simp] theorem State.putNode_r3 (s : State) (h : Nat) (x : Node) : (s.putNode h x).r3 = s.r3 := rfl
@[simp] theorem State.putNode_flags (s : State) (h : Nat) (x : Node) : (s.putNode h x).flags = s.flags := rfl
@[simp] theorem State.putNode_fault (s : State) (h : Nat) (x : Node) : (s.putNode h x).fault = s.fault := rfl
@[simp] theorem State.putNode_faultInfo (s : State) (h : Nat) (x : Node) : (s.putNode h x).faultInfo = s.faultInfo := rfl
@[simp] theorem State.putNode_faultCmd (s : State) (h : Nat) (x : Node) : (s.putNode h x).faultCmd = s.faultCmd := rfl
@[simp] theorem State.putNode_configured (s : State) (h : Nat) (x : Node) : (s.putNode h x).configured = s.configured := rfl
@[simp] theorem State.putNode_estate (s : State) (h : Nat) (x : Node) : (s.putNode h x).estate = s.estate := rfl
@[simp] theorem State.putNode_setup (s : State) (h : Nat) (x : Node) : (s.putNode h x).setup = s.setup := rfl
@[simp] theorem State.putNode_size (s : State) (h : Nat) (x : Node) : (s.putNode h x).size = s.size := rfl
@[simp] theorem State.putNode_epos (s : State) (h : Nat) (x : Node) : (s.putNode h x).epos = s.epos := rfl
@[simp] theorem State.putNode_nl (s : State) (h : Nat) (x : Node) : (s.putNode h x).nl = s.nl := rfl
@[simp] theorem State.putNode_mem (s : State) (h : Nat) (x : Node) : (s.putNode h x).mem = s.mem := rfl
@[simp] theorem State.putNode_sv (s : State) (h : Nat) (x : Node) : (s.putNode h x).sv = s.sv := rfl
@[simp] theorem State.putNode_arena (s : State) (h : Nat) (x : Node) : (s.putNode h x).arena = Table.put s.arena h x := rfl
@[simp] theorem State.putNode_pol (s : State) (h : Nat) (x : Node) : (s.putNode h x).pol = s.pol := rfl
@[simp] theorem State.putNode_tab (s : State) (h : Nat) (x : Node) : (s.putNode h x).tab = s.tab := rfl
@[simp] theorem State.putNode_mat (s : State) (h : Nat) (x : Node) : (s.putNode h x).mat = s.mat := rfl
@[simp] theorem State.putNode_host (s : State) (h : Nat) (x : Node) : (s.putNode h x).host = s.host := rfl
@[simp] theorem State.putNode_rdata (s : State) (h : Nat) (x : Node) : (s.putNode h x).rdata = s.rdata := rfl
@[simp] theorem State.putNode_freeCount (s : State) (h : Nat) (x : Node) : (s.putNode h x).freeCount = s.freeCount := rfl

/-! ### freeNode -/

@[simp] theorem State.freeNode_build (s : State) (h : Nat) : (s.freeNode h).build = s.build := rfl
@[simp] theorem State.freeNode_a0 (s : State) (h : Nat) : (s.freeNode h).a0 = s.a0 := rfl
@[simp] theorem State.freeNode_a1 (s : State) (h : Nat) : (s.freeNode h).a1 = s.a1 := rfl
@[simp] theorem State.freeNode_a2 (s : State) (h : Nat) : (s.freeNode h).a2 = s.a2 := rfl
@[simp] theorem State.freeNode_r0 (s : State) (h : Nat) : (s.freeNode h).r0 = s.r0 := rfl
@[simp] theorem State.freeNode_r1 (s : State) (h : Nat) : (s.freeNode h).r1 = s.r1 := rfl
@[simp] theorem State.freeNode_r2 (s : State) (h : Nat) : (s.freeNode h).r2 = s.r2 := rfl
@[simp] theorem State.freeNode_r3 (s : State) (h : Nat) : (s.freeNode h).r3 = s.r3 := rfl
@[simp] theorem State.freeNode_flags (s : State) (h : Nat) : (s.freeNode h).flags = s.flags := rfl
@[simp] theorem State.freeNode_fault (s : State) (h : Nat) : (s.freeNode h).fault = s.fault := rfl
@[simp] theorem State.freeNode_faultInfo (s : State) (h : Nat) : (s.freeNode h).faultInfo = s.faultInfo := rfl
@[simp] theorem State.freeNode_faultCmd (s : State) (h : Nat) : (s.freeNode h).faultCmd = s.faultCmd := rfl
@[simp] theorem State.freeNode_configured (s : State) (h : Nat) : (s.freeNode h).configured = s.configured := rfl
@[simp] theorem State.freeNode_estate (s : State) (h : Nat) : (s.freeNode h).estate = s.estate := rfl
@[simp] theorem State.freeNode_setup (s : State) (h : Nat) : (s.freeNode h).setup = s.setup := rfl
@[simp] theorem State.freeNode_size (s : State) (h : Nat) : (s.freeNode h).size = s.size := rfl
@[simp] theorem State.freeNode_epos (s : State) (h : Nat) : (s.freeNode h).epos = s.epos := rfl
@[simp] theorem State.freeNode_nl (s : State) (h : Nat) : (s.freeNode h).nl = s.nl := rfl
@[simp] theorem State.freeNode_mem (s : State) (h : Nat) : (s.freeNode h).mem = s.mem := rfl
@[simp] theorem State.freeNode_sv (s : State) (h : Nat) : (s.freeNode h).sv = s.sv := rfl
@[simp] theorem State.freeNode_arena (s : State) (h : Nat) : (s.freeNode h).arena = Table.del s.arena h := rfl
@[simp] theorem State.freeNode_pol (s : State) (h : Nat) : (s.freeNode h).pol = s.pol := rfl
@[simp] theorem State.freeNode_tab (s : State) (h : Nat) : (s.freeNode h).tab = s.tab := rfl
@[simp] theorem State.freeNode_mat (s : State) (h : Nat) : (s.freeNode h).mat = s.mat := rfl
@[simp] theorem State.freeNode_host (s : State) (h : Nat) : (s.freeNode h).host = s.host := rfl
@[simp] theorem State.freeNode_rdata (s : State) (h : Nat) : (s.freeNode h).rdata = s.rdata := rfl
@[simp] theorem State.freeNode_freeCount (s : State) (h : Nat) : (s.freeNode h).freeCount = s.freeCount := rfl

/-! ### configure -/

@[simp] theorem State.configure_build (s : State) (c : Setup) : (s.configure c).build = s.build := rfl
@[simp] theorem State.configure_a0 (s : State) (c : Setup) : (s.configure c).a0 = s.a0 := rfl
@[simp] theorem State.configure_a1 (s : State) (c : Setup) : (s.configure c).a1 = s.a1 := rfl
@[simp] theorem State.configure_a2 (s : State) (c : Setup) : (s.configure c).a2 = s.a2 := rfl
@[simp] theorem State.configure_r0 (s : State) (c : Setup) : (s.configure c).r0 = s.r0 := rfl
@[simp] theorem State.configure_r1 (s : State) (c : Setup) : (s.configure c).r1 = s.r1 := rfl
@[simp] theorem State.configure_r2 (s : State) (c : Setup) : (s.configure c).r2 = s.r2 := rfl
@[simp] theorem State.configure_r3 (s : State) (c : Setup) : (s.configure c).r3 = s.r3 := rfl
@[simp] theorem State.configure_flags (s : State) (c : Setup) : (s.configure c).flags = s.flags := rfl
@[simp] theorem State.configure_fault (s : State) (c : Setup) : (s.configure c).fault = s.fault := rfl
@[simp] theorem State.configure_faultInfo (s : State) (c : Setup) : (s.configure c).faultInfo = s.faultInfo := rfl
@[simp] theorem State.configure_faultCmd (s : State) (c : Setup) : (s.configure c).faultCmd = s.faultCmd := rfl
@[simp] theorem State.configure_configured (s : State) (c : Setup) : (s.configure c).configured = true := rfl
@[simp] theorem State.configure_estate (s : State) (c : Setup) : (s.configure c).estate = .ready := rfl
@[simp] theorem State.configure_setup (s : State) (c : Setup) : (s.configure c).setup = c := rfl
@[simp] theorem State.configure_size (s : State) (c : Setup) : (s.configure c).size = c.variant.nseed := rfl
@[simp] theorem State.configure_epos (s : State) (c : Setup) : (s.configure c).epos = 0 := rfl
@[simp] theorem State.configure_nl (s : State) (c : Setup) : (s.configure c).nl = 0 := rfl
@[simp] theorem State.configure_mem (s : State) (c : Setup) : (s.configure c).mem = s.mem := rfl
@[simp] theorem State.configure_sv (s : State) (c : Setup) : (s.configure c).sv = s.sv := rfl
@[simp] theorem State.configure_arena (s : State) (c : Setup) : (s.configure c).arena = initialArena c.variant c.mode := rfl
@[simp] theorem State.configure_pol (s : State) (c : Setup) : (s.configure c).pol = initialPolicy c.variant := rfl
@[simp] theorem State.configure_tab (s : State) (c : Setup) : (s.configure c).tab = initialTab c.variant := rfl
@[simp] theorem State.configure_mat (s : State) (c : Setup) : (s.configure c).mat = Matcher.initial := rfl
@[simp] theorem State.configure_host (s : State) (c : Setup) : (s.configure c).host = s.host := rfl
@[simp] theorem State.configure_rdata (s : State) (c : Setup) : (s.configure c).rdata = s.rdata := rfl
@[simp] theorem State.configure_freeCount (s : State) (c : Setup) : (s.configure c).freeCount = s.freeCount := rfl

/-! ### dropNumber -/

@[simp] theorem State.dropNumber_build (s : State) (k : Nat) : (s.dropNumber k).build = s.build := rfl
@[simp] theorem State.dropNumber_a0 (s : State) (k : Nat) : (s.dropNumber k).a0 = s.a0 := rfl
@[simp] theorem State.dropNumber_a1 (s : State) (k : Nat) : (s.dropNumber k).a1 = s.a1 := rfl
@[simp] theorem State.dropNumber_a2 (s : State) (k : Nat) : (s.dropNumber k).a2 = s.a2 := rfl
@[simp] theorem State.dropNumber_r0 (s : State) (k : Nat) : (s.dropNumber k).r0 = s.r0 := rfl
@[simp] theorem State.dropNumber_r1 (s : State) (k : Nat) : (s.dropNumber k).r1 = s.r1 := rfl
@[simp] theorem State.dropNumber_r2 (s : State) (k : Nat) : (s.dropNumber k).r2 = s.r2 := rfl
@[simp] theorem State.dropNumber_r3 (s : State) (k : Nat) : (s.dropNumber k).r3 = s.r3 := rfl
@[simp] theorem State.dropNumber_flags (s : State) (k : Nat) : (s.dropNumber k).flags = s.flags := rfl
@[simp] theorem State.dropNumber_fault (s : State) (k : Nat) : (s.dropNumber k).fault = s.fault := rfl
@[simp] theorem State.dropNumber_faultInfo (s : State) (k : Nat) : (s.dropNumber k).faultInfo = s.faultInfo := rfl
@[simp] theorem State.dropNumber_faultCmd (s : State) (k : Nat) : (s.dropNumber k).faultCmd = s.faultCmd := rfl
@[simp] theorem State.dropNumber_configured (s : State) (k : Nat) : (s.dropNumber k).configured = s.configured := rfl
@[simp] theorem State.dropNumber_estate (s : State) (k : Nat) : (s.dropNumber k).estate = s.estate := rfl
@[simp] theorem State.dropNumber_setup (s : State) (k : Nat) : (s.dropNumber k).setup = s.setup := rfl
@[simp] theorem State.dropNumber_size (s : State) (k : Nat) : (s.dropNumber k).size = s.size - 1 := rfl
@[simp] theorem State.dropNumber_epos (s : State) (k : Nat) : (s.dropNumber k).epos = s.epos := rfl
@[simp] theorem State.dropNumber_nl (s : State) (k : Nat) : (s.dropNumber k).nl = s.nl := rfl
@[simp] theorem State.dropNumber_mem (s : State) (k : Nat) : (s.dropNumber k).mem = s.mem := rfl
@[simp] theorem State.dropNumber_sv (s : State) (k : Nat) : (s.dropNumber k).sv = s.sv := rfl
@[simp] theorem State.dropNumber_arena (s : State) (k : Nat) : (s.dropNumber k).arena = s.arena := rfl
@[simp] theorem State.dropNumber_pol (s : State) (k : Nat) : (s.dropNumber k).pol = { s.pol with q := s.pol.q.erase k, parent := Table.putNum s.pol.parent k 0 } := rfl
@[simp] theorem State.dropNumber_tab (s : State) (k : Nat) : (s.dropNumber k).tab = s.tab := rfl
@[simp] theorem State.dropNumber_mat (s : State) (k : Nat) : (s.dropNumber k).mat = s.mat := rfl
@[simp] theorem State.dropNumber_host (s : State) (k : Nat) : (s.dropNumber k).host = s.host := rfl
@[simp] theorem State.dropNumber_rdata (s : State) (k : Nat) : (s.dropNumber k).rdata = s.rdata := rfl
@[simp] theorem State.dropNumber_freeCount (s : State) (k : Nat) : (s.dropNumber k).freeCount = s.freeCount := rfl

/-! ### srst -/

@[simp] theorem State.srst_build (s : State) : (s.srst).build = s.build := rfl
@[simp] theorem State.srst_a0 (s : State) : (s.srst).a0 = State.reset.a0 := rfl
@[simp] theorem State.srst_a1 (s : State) : (s.srst).a1 = State.reset.a1 := rfl
@[simp] theorem State.srst_a2 (s : State) : (s.srst).a2 = State.reset.a2 := rfl
@[simp] theorem State.srst_r0 (s : State) : (s.srst).r0 = State.reset.r0 := rfl
@[simp] theorem State.srst_r1 (s : State) : (s.srst).r1 = State.reset.r1 := rfl
@[simp] theorem State.srst_r2 (s : State) : (s.srst).r2 = State.reset.r2 := rfl
@[simp] theorem State.srst_r3 (s : State) : (s.srst).r3 = State.reset.r3 := rfl
@[simp] theorem State.srst_flags (s : State) : (s.srst).flags = State.reset.flags := rfl
@[simp] theorem State.srst_fault (s : State) : (s.srst).fault = State.reset.fault := rfl
@[simp] theorem State.srst_faultInfo (s : State) : (s.srst).faultInfo = State.reset.faultInfo := rfl
@[simp] theorem State.srst_faultCmd (s : State) : (s.srst).faultCmd = State.reset.faultCmd := rfl
@[simp] theorem State.srst_configured (s : State) : (s.srst).configured = State.reset.configured := rfl
@[simp] theorem State.srst_estate (s : State) : (s.srst).estate = State.reset.estate := rfl
@[simp] theorem State.srst_setup (s : State) : (s.srst).setup = State.reset.setup := rfl
@[simp] theorem State.srst_size (s : State) : (s.srst).size = State.reset.size := rfl
@[simp] theorem State.srst_epos (s : State) : (s.srst).epos = State.reset.epos := rfl
@[simp] theorem State.srst_nl (s : State) : (s.srst).nl = State.reset.nl := rfl
@[simp] theorem State.srst_mem (s : State) : (s.srst).mem = State.reset.mem := rfl
@[simp] theorem State.srst_sv (s : State) : (s.srst).sv = State.reset.sv := rfl
@[simp] theorem State.srst_arena (s : State) : (s.srst).arena = State.reset.arena := rfl
@[simp] theorem State.srst_pol (s : State) : (s.srst).pol = State.reset.pol := rfl
@[simp] theorem State.srst_tab (s : State) : (s.srst).tab = State.reset.tab := rfl
@[simp] theorem State.srst_mat (s : State) : (s.srst).mat = State.reset.mat := rfl
@[simp] theorem State.srst_host (s : State) : (s.srst).host = s.host := rfl
@[simp] theorem State.srst_rdata (s : State) : (s.srst).rdata = s.rdata := rfl
@[simp] theorem State.srst_freeCount (s : State) : (s.srst).freeCount = s.freeCount := rfl

/-! ### buffers -/

@[simp] theorem Memory.get_set_same (m : Memory) (b : Buf) (x : Buffer) : (m.set b x).get b = x := by
  cases b <;> rfl

theorem Memory.get_set_other (m : Memory) {b d : Buf} (x : Buffer) (h : d ≠ b) : (m.set b x).get d = m.get d := by
  cases b <;> cases d <;> first | rfl | exact absurd rfl h

@[simp] theorem Memory.set_set (m : Memory) (b : Buf) (x y : Buffer) : (m.set b x).set b y = m.set b y := by
  cases b <;> rfl

@[simp] theorem Memory.set_get (m : Memory) (b : Buf) : m.set b (m.get b) = m := by
  cases b <;> rfl

@[simp] theorem State.buf_setBuf_same (s : State) (b : Buf) (x : Buffer) : (s.setBuf b x).buf b = x :=
  Memory.get_set_same _ _ _

theorem State.buf_setBuf_other (s : State) {b d : Buf} (x : Buffer) (h : d ≠ b) : (s.setBuf b x).buf d = s.buf d :=
  Memory.get_set_other _ _ h

@[simp] theorem State.setBuf_setBuf (s : State) (b : Buf) (x y : Buffer) : (s.setBuf b x).setBuf b y = s.setBuf b y := by
  cases b <;> rfl

theorem State.buf_congr {s t : State} (h : t.mem = s.mem) (b : Buf) : t.buf b = s.buf b := by
  simp [State.buf, h]

@[simp] theorem State.begin_buf (s : State) (b : Buf) : s.begin.buf b = s.buf b := rfl

@[simp] theorem State.results_buf (s : State) (x0 x1 x2 x3 : Nat) (b : Buf) : (s.results x0 x1 x2 x3).buf b = s.buf b := rfl

@[simp] theorem State.begin_charAt (s : State) (b : Buf) (k : Nat) : s.begin.charAt b k = s.charAt b k := rfl

@[simp] theorem State.begin_node (s : State) (h : Nat) : s.begin.node h = s.node h := rfl

end Sys2Proof.Machine
end

