-- ==== Sys2Proof/Laws/Ops.lean ====
section
/-! SUPPORT. What each shared operation can do: bit strings, buffers, the memory bounds, the frame of a command. -/

namespace Sys2Proof.Machine

/-! ### Bit strings -/

@[simp] theorem length_natBits (n v : Nat) : (natBits n v).length = n := by simp [natBits]

theorem getElem_natBits {n v k : Nat} (h : k < (natBits n v).length) : (natBits n v)[k] = v.testBit (n - 1 - k) := by
  simp [natBits]

theorem natBits_mod (n v : Nat) : natBits n (v % 2 ^ n) = natBits n v := by
  unfold natBits
  refine List.map_congr_left fun k hk => ?_
  have hk : k < n := List.mem_range.1 hk
  simp only [Nat.testBit_mod_two_pow, Bool.and_eq_right_iff_imp, decide_eq_true_eq]
  omega

theorem bitsNat_append (l m : Bits) : bitsNat (l ++ m) = bitsNat l * 2 ^ m.length + bitsNat m := by
  have fold : ∀ (m : Bits) (a : Nat), m.foldl (fun acc b => 2 * acc + b.toNat) a
      = a * 2 ^ m.length + m.foldl (fun acc b => 2 * acc + b.toNat) 0 := by
    intro m
    induction m with
    | nil => simp
    | cons b m ih =>
      intro a
      rw [List.foldl_cons, List.foldl_cons, ih, ih (2 * 0 + b.toNat), List.length_cons, Nat.pow_succ]
      ring
  unfold bitsNat
  rw [List.foldl_append, fold]

theorem bitsNat_singleton (b : Bool) : bitsNat [b] = b.toNat := by simp [bitsNat]

theorem natBits_succ (n v : Nat) : natBits (n + 1) v = natBits n (v / 2) ++ [v.testBit 0] := by
  simp only [natBits, List.range_succ, List.map_append, List.map_cons, List.map_nil]
  congr 1
  · refine List.map_congr_left fun k hk => ?_
    have hk : k < n := List.mem_range.1 hk
    rw [show n + 1 - 1 - k = (n - 1 - k) + 1 by omega, Nat.testBit_succ]
  · simp

/-- A number put as `n` bits and read back is its low `n` bits (R60). -/
theorem bitsNat_natBits (n v : Nat) : bitsNat (natBits n v) = v % 2 ^ n := by
  induction n generalizing v with
  | zero => simp [natBits, bitsNat, Nat.mod_one]
  | succ n ih =>
    rw [natBits_succ, bitsNat_append, bitsNat_singleton, ih]
    simp only [List.length_singleton, Nat.pow_one, Nat.testBit_zero]
    rw [Nat.pow_succ, Nat.mul_comm (2 ^ n) 2, Nat.mod_mul]
    rcases Nat.mod_two_eq_zero_or_one v with h | h <;> simp [h] <;> ring

theorem bitsNat_lt (l : Bits) : bitsNat l < 2 ^ l.length := by
  induction l using List.reverseRecOn with
  | nil => simp [bitsNat]
  | append_singleton l b ih =>
    rw [bitsNat_append, bitsNat_singleton, List.length_append, List.length_singleton, Nat.pow_succ]
    cases b <;> simp <;> omega

theorem natBits_bitsNat (l : Bits) : natBits l.length (bitsNat l) = l := by
  induction l using List.reverseRecOn with
  | nil => simp [natBits]
  | append_singleton l b ih =>
    rw [List.length_append, List.length_singleton, natBits_succ, bitsNat_append, bitsNat_singleton]
    have h1 : (bitsNat l * 2 ^ [b].length + b.toNat) / 2 = bitsNat l := by cases b <;> simp <;> omega
    have h2 : (bitsNat l * 2 ^ [b].length + b.toNat).testBit 0 = b := by cases b <;> simp [Nat.add_mod]
    rw [h1, h2, ih]

/-! ### Buffers -/

@[simp] theorem Buffer.append_bits (x : Buffer) (n v : Nat) : (x.append n v).bits = x.bits ++ natBits n v := rfl

@[simp] theorem Buffer.append_len (x : Buffer) (n v : Nat) : (x.append n v).len = x.len + n := by simp [Buffer.len]

@[simp] theorem Buffer.append_rc (x : Buffer) (n v : Nat) : (x.append n v).rc = x.rc := rfl

@[simp] theorem Buffer.append_epoch (x : Buffer) (n v : Nat) : (x.append n v).epoch = x.epoch := rfl

@[simp] theorem Buffer.bump_bits (x : Buffer) : x.bump.bits = x.bits := rfl

@[simp] theorem Buffer.bump_len (x : Buffer) : x.bump.len = x.len := rfl

@[simp] theorem Buffer.bump_rc (x : Buffer) : x.bump.rc = x.rc := rfl

@[simp] theorem Buffer.bump_epoch (x : Buffer) : x.bump.epoch = x.epoch + 1 := rfl

@[simp] theorem Buffer.setRc_bits (x : Buffer) (p : Nat) : (x.setRc p).bits = x.bits := rfl

@[simp] theorem Buffer.setRc_len (x : Buffer) (p : Nat) : (x.setRc p).len = x.len := rfl

@[simp] theorem Buffer.setRc_rc (x : Buffer) (p : Nat) : (x.setRc p).rc = p := rfl

@[simp] theorem Buffer.setRc_epoch (x : Buffer) (p : Nat) : (x.setRc p).epoch = x.epoch := rfl

/-- Appending characters appends their bits, each most significant first (R60, R107). -/
theorem Buffer.appendChars_eq (x : Buffer) (cs : List Byte) :
    x.appendChars cs = { x with bits := x.bits ++ cs.flatMap fun c => natBits 8 c.toNat } := by
  induction cs generalizing x with
  | nil => simp [Buffer.appendChars]
  | cons c cs ih =>
    have : x.appendChars (c :: cs) = (x.append 8 c.toNat).appendChars cs := rfl
    rw [this, ih]
    simp [Buffer.append]

theorem length_flatMap_natBits (cs : List Byte) : (cs.flatMap fun c => natBits 8 c.toNat).length = 8 * cs.length := by
  induction cs with
  | nil => rfl
  | cons c cs ih => simp [ih]; omega

@[simp] theorem Buffer.appendChars_len (x : Buffer) (cs : List Byte) : (x.appendChars cs).len = x.len + 8 * cs.length := by
  rw [Buffer.appendChars_eq]
  simp only [Buffer.len, List.length_append, length_flatMap_natBits]

@[simp] theorem Buffer.appendChars_rc (x : Buffer) (cs : List Byte) : (x.appendChars cs).rc = x.rc := by
  rw [Buffer.appendChars_eq]

@[simp] theorem Buffer.appendChars_epoch (x : Buffer) (cs : List Byte) : (x.appendChars cs).epoch = x.epoch := by
  rw [Buffer.appendChars_eq]

/-- What is below the old end of a buffer reads the same after an append. -/
theorem Buffer.read_append_bits {x y : Buffer} {l : Bits} (h : y.bits = x.bits ++ l) {off n : Nat} (hn : off + n ≤ x.len) :
    y.read off n = x.read off n := by
  unfold Buffer.read
  rw [h]
  congr 1
  have hlen : off + n ≤ x.bits.length := hn
  rw [List.drop_append_of_le_length (by omega), List.take_append_of_le_length (by simp; omega)]

theorem Buffer.nchars_le_len (x : Buffer) : 8 * x.nchars ≤ x.len := by
  unfold Buffer.nchars
  omega

@[simp] theorem length_charsAt (s : State) (b : Buf) (k n : Nat) : (s.charsAt b k n).length = n := by
  simp [State.charsAt]

/-! ### `putBits`: the write with its capacity check -/

/-- All that a write can do. -/
theorem putBits_ok {b : Buf} {n v : Nat} {s t : State} (h : putBits b n v s = .ok t) :
    (s.buf b).len + n ≤ s.capBits ∧ t = s.setBuf b ((s.buf b).append n v) := by
  unfold putBits at h
  split at h
  · cases h
  · rename_i hc
    cases h
    exact ⟨by omega, rfl⟩

theorem putBits_error {b : Buf} {n v : Nat} {s : State} {e : Raise} (h : putBits b n v s = .error e) :
    s.capBits < (s.buf b).len + n ∧ e = { code := .capacity, info := n } := by
  unfold putBits at h
  split at h
  · rename_i hc
    cases h
    exact ⟨hc, rfl⟩
  · cases h

theorem putBits_of_room {b : Buf} {n v : Nat} {s : State} (h : (s.buf b).len + n ≤ s.capBits) :
    putBits b n v s = .ok (s.setBuf b ((s.buf b).append n v)) := by
  unfold putBits
  rw [if_neg (by omega)]

/-! ### The bounds of memory (R45) -/

theorem Buffer.wf_iff (cap : Nat) (x : Buffer) : x.wf cap = true ↔ x.rc ≤ x.len ∧ x.len ≤ cap := by simp [Buffer.wf]

theorem Memory.wf_iff (cap : Nat) (m : Memory) : m.wf cap = true ↔ ∀ b, (m.get b).wf cap = true := by
  constructor
  · intro h b
    simp only [Memory.wf, Bool.and_eq_true] at h
    cases b
    · exact h.1.1
    · exact h.1.2
    · exact h.2
  · intro h
    simp only [Memory.wf, Bool.and_eq_true]
    exact ⟨⟨h .src, h .cw⟩, h .out⟩

/-- Replacing one buffer by a well-formed one keeps the bounds: every memory operation is of this form. -/
theorem Memory.wf_set {cap : Nat} {m : Memory} (h : m.wf cap = true) (b : Buf) {x : Buffer} (hx : x.wf cap = true) :
    (m.set b x).wf cap = true := by
  rw [Memory.wf_iff] at h ⊢
  intro d
  by_cases hd : d = b
  · subst hd; simpa using hx
  · rw [Memory.get_set_other m x hd]; exact h d

theorem Buffer.wf_append {cap n v : Nat} {x : Buffer} (h : x.wf cap = true) (hc : x.len + n ≤ cap) :
    (x.append n v).wf cap = true := by
  rw [Buffer.wf_iff] at h ⊢
  simp only [Buffer.append_len, Buffer.append_rc]
  omega

theorem Buffer.wf_bump {cap : Nat} {x : Buffer} (h : x.wf cap = true) : x.bump.wf cap = true := h

theorem Buffer.wf_setRc {cap p : Nat} {x : Buffer} (h : x.wf cap = true) (hp : p ≤ x.len) : (x.setRc p).wf cap = true := by
  rw [Buffer.wf_iff] at h ⊢
  exact ⟨hp, h.2⟩

theorem Buffer.wf_appendChars {cap : Nat} {x : Buffer} (h : x.wf cap = true) (cs : List Byte)
    (hc : x.len + 8 * cs.length ≤ cap) : (x.appendChars cs).wf cap = true := by
  rw [Buffer.wf_iff] at h ⊢
  simp only [Buffer.appendChars_len, Buffer.appendChars_rc]
  omega

theorem Buffer.wf_empty (cap : Nat) (e : Word) : Buffer.wf cap { bits := [], rc := 0, epoch := e } = true := by
  simp [Buffer.wf, Buffer.len]

theorem Memory.wf_get {cap : Nat} {m : Memory} (h : m.wf cap = true) (b : Buf) : (m.get b).wf cap = true :=
  (Memory.wf_iff cap m).1 h b

/-! ### Growing buffers: what the engine does to memory -/

/-- `t`'s buffers are `s`'s with bits appended; cursors may move, epochs do not. -/
structure Grown (s t : State) : Prop where
  bits : ∀ b, ∃ l, (t.buf b).bits = (s.buf b).bits ++ l
  epoch : ∀ b, (t.buf b).epoch = (s.buf b).epoch

theorem Grown.refl (s : State) : Grown s s := ⟨fun _ => ⟨[], by simp⟩, fun _ => rfl⟩

theorem Grown.of_mem {s t : State} (h : t.mem = s.mem) : Grown s t :=
  ⟨fun b => ⟨[], by simp [State.buf, h]⟩, fun b => by simp [State.buf, h]⟩

theorem Grown.trans {s t u : State} (h : Grown s t) (k : Grown t u) : Grown s u := by
  refine ⟨fun b => ?_, fun b => (k.epoch b).trans (h.epoch b)⟩
  obtain ⟨l, hl⟩ := h.bits b
  obtain ⟨m, hm⟩ := k.bits b
  exact ⟨l ++ m, by rw [hm, hl, List.append_assoc]⟩

theorem Grown.setBuf {s : State} {b : Buf} {x : Buffer} (hb : ∃ l, x.bits = (s.buf b).bits ++ l)
    (he : x.epoch = (s.buf b).epoch) : Grown s (s.setBuf b x) := by
  refine ⟨fun d => ?_, fun d => ?_⟩
  · by_cases hd : d = b
    · subst hd; simpa using hb
    · exact ⟨[], by rw [State.buf_setBuf_other s x hd]; simp⟩
  · by_cases hd : d = b
    · subst hd; simpa using he
    · rw [State.buf_setBuf_other s x hd]

theorem Grown.putBits {b : Buf} {n v : Nat} {s t : State} (h : putBits b n v s = .ok t) : Grown s t := by
  obtain ⟨-, rfl⟩ := putBits_ok h
  exact Grown.setBuf ⟨natBits n v, rfl⟩ rfl

theorem Grown.len_le {s t : State} (h : Grown s t) (b : Buf) : (s.buf b).len ≤ (t.buf b).len := by
  obtain ⟨l, hl⟩ := h.bits b
  simp [Buffer.len, hl]

theorem Grown.bits_of_len {s t : State} (h : Grown s t) (b : Buf) (he : (t.buf b).len = (s.buf b).len) :
    (t.buf b).bits = (s.buf b).bits := by
  obtain ⟨l, hl⟩ := h.bits b
  have : l.length = 0 := by simpa [Buffer.len, hl] using he
  rw [hl, List.eq_nil_of_length_eq_zero this, List.append_nil]

/-! ### Counting mutations (R100, R112) -/

theorem bumpIfGrown_frame (b : Buf) (before s : State) : bumpIfGrown b before s = { s with mem := (bumpIfGrown b before s).mem } := by
  unfold bumpIfGrown
  split <;> rfl

theorem bumpIfGrown_other {b d : Buf} (before s : State) (h : d ≠ b) : (bumpIfGrown b before s).buf d = s.buf d := by
  unfold bumpIfGrown
  split
  · rfl
  · exact State.buf_setBuf_other s _ h

theorem bumpIfGrown_same (b : Buf) (before s : State) :
    (bumpIfGrown b before s).buf b = if (s.buf b).len = (before.buf b).len then s.buf b else (s.buf b).bump := by
  unfold bumpIfGrown
  split <;> simp

theorem bumpEpochs_frame (before s : State) : bumpEpochs before s = { s with mem := (bumpEpochs before s).mem } := by
  unfold bumpEpochs
  rw [bumpIfGrown_frame, bumpIfGrown_frame .cw]

theorem bumpEpochs_buf (before s : State) (b : Buf) :
    (bumpEpochs before s).buf b
      = if b ≠ .src ∧ (s.buf b).len ≠ (before.buf b).len then (s.buf b).bump else s.buf b := by
  unfold bumpEpochs
  cases b
  · rw [bumpIfGrown_other _ _ (by decide), bumpIfGrown_other _ _ (by decide)]; simp
  · rw [bumpIfGrown_other _ _ (by decide), bumpIfGrown_same]; simp
  · rw [bumpIfGrown_same, bumpIfGrown_other _ _ (by decide)]; simp

/-! ### The frame of a command -/

/-- The work of each command. -/
def workOf : Instr → State → Work State
  | .nop => nopWork
  | .bput b n => bputWork b n
  | .bget b n => bgetWork b n
  | .bputc b => bputcWork b
  | .bgetc b => bgetcWork b
  | .bslice b => bsliceWork b
  | .bcopy b => bcopyWork b
  | .beq b => beqWork b
  | .bclr b => bclrWork b
  | .bseek b => bseekWork b
  | .binfo b => binfoWork b
  | .textend => textendWork
  | .tedge => tedgeWork
  | .tremove => tremoveWork
  | .tmreset => tmresetWork
  | .tmstep => tmstepWork
  | .tlookup => tlookupWork
  | .tnode => tnodeWork
  | .pmatch => pmatchWork
  | .pperm => ppermWork
  | .pinfo => pinfoWork
  | .porder => porderWork
  | .econfig => econfigWork
  | .estep => estepWork
  | .dstep => dstepWork
  | .erun => erunWork
  | .drun => drunWork
  | .eaddext => eaddextWork

theorem exec_eq_runCommand (i : Instr) (s : State) : exec i s = runCommand i (workOf i) s := by
  cases i <;> rfl

/-- All that running a command can do: nothing while faulted, its work, or its fault latched. -/
theorem runCommand_cases {i : Instr} {work : State → Work State} {s t : State} (h : runCommand i work s = .next t) :
    (s.fault = true ∧ t = s) ∨ (s.fault = false ∧ work s.begin = .ok t)
      ∨ (s.fault = false ∧ ∃ e, work s.begin = .error e ∧ t = s.latch e (encode i)) := by
  unfold runCommand at h
  split at h
  · rename_i hf
    cases h
    exact .inl ⟨hf, rfl⟩
  · rename_i hf
    have hf : s.fault = false := by simpa using hf
    split at h
    · rename_i u hu
      cases h
      exact .inr (.inl ⟨hf, hu⟩)
    · rename_i e he
      cases h
      exact .inr (.inr ⟨hf, e, he, rfl⟩)

theorem exec_cases {i : Instr} {s t : State} (h : exec i s = .next t) :
    (s.fault = true ∧ t = s) ∨ (s.fault = false ∧ workOf i s.begin = .ok t)
      ∨ (s.fault = false ∧ ∃ e, workOf i s.begin = .error e ∧ t = s.latch e (encode i)) :=
  runCommand_cases (exec_eq_runCommand i s ▸ h)

theorem exec_of_work {i : Instr} {s t : State} (hf : s.fault = false) (h : workOf i s.begin = .ok t) :
    exec i s = .next t := by
  rw [exec_eq_runCommand, runCommand, if_neg (by simp [hf]), h]

theorem exec_of_raise {i : Instr} {s : State} {e : Raise} (hf : s.fault = false) (h : workOf i s.begin = .error e) :
    exec i s = .next (s.latch e (encode i)) := by
  rw [exec_eq_runCommand, runCommand, if_neg (by simp [hf]), h]

theorem exec_faulted {i : Instr} {s : State} (hf : s.fault = true) : exec i s = .next s := by
  rw [exec_eq_runCommand, runCommand, if_pos hf]

/-- No command stops the model. -/
theorem exec_next (i : Instr) (s : State) : ∃ t, exec i s = .next t := by
  rw [exec_eq_runCommand]
  unfold runCommand
  split
  · exact ⟨_, rfl⟩
  · split <;> exact ⟨_, rfl⟩

end Sys2Proof.Machine
end

