-- ==== Sys2Proof/Laws/Trie.lean ====
section
/-! SUPPORT. What each trie operation can do: its frame, the canonical form of the arena, and its layout (R47). -/

namespace Sys2Proof.Machine

/-! ### The frame of the trie operations -/

/-- Nothing but the arena and the matcher differ. -/
def TrieFrame (s t : State) : Prop := t = { s with arena := t.arena, mat := t.mat }

theorem TrieFrame.refl (s : State) : TrieFrame s s := rfl

theorem TrieFrame.trans {s t u : State} (h : TrieFrame s t) (k : TrieFrame t u) : TrieFrame s u := by
  unfold TrieFrame at *
  rw [k, h]

theorem TrieFrame.mem {s t : State} (h : TrieFrame s t) : t.mem = s.mem := by rw [h]

theorem TrieFrame.setup {s t : State} (h : TrieFrame s t) : t.setup = s.setup := by rw [h]

theorem TrieFrame.pol {s t : State} (h : TrieFrame s t) : t.pol = s.pol := by rw [h]

theorem TrieFrame.size {s t : State} (h : TrieFrame s t) : t.size = s.size := by rw [h]

theorem TrieFrame.buf {s t : State} (h : TrieFrame s t) (b : Buf) : t.buf b = s.buf b := State.buf_congr h.mem b

theorem TrieFrame.charAt {s t : State} (h : TrieFrame s t) (b : Buf) (k : Nat) : t.charAt b k = s.charAt b k := by
  have : t.freeCount = s.freeCount := by rw [h]
  simp [State.charAt, h.buf b, this]

theorem updNode_frame (s : State) (h : Nat) (f : Node → Node) : TrieFrame s (s.updNode h f) := rfl

theorem putNode_frame (s : State) (h : Nat) (x : Node) : TrieFrame s (s.putNode h x) := rfl

theorem freeNode_frame (s : State) (h : Nat) : TrieFrame s (s.freeNode h) := rfl

theorem foldl_setParent_frame (l : Table Nat) (p : Nat) (s : State) :
    TrieFrame s (l.foldl (fun u e => u.setParent e.2 p) s) := by
  induction l generalizing s with
  | nil => rfl
  | cons e l ih => exact (updNode_frame s _ _).trans (ih _)

theorem relocate_frame (h t : Nat) (s : State) : TrieFrame s (relocate h t s) := by
  unfold relocate
  split
  · rfl
  · rename_i nd _
    exact ((((freeNode_frame s h).trans (putNode_frame _ t nd)).trans (updNode_frame _ nd.parent _)).trans
      (foldl_setParent_frame nd.children t _)).trans rfl

theorem splice_frame (x : Nat) (s : State) : TrieFrame s (splice x s) := by
  unfold splice
  split
  · rfl
  · rfl

theorem removeLeaf_frame (x : Nat) (s : State) : TrieFrame s (removeLeaf x s) := by
  unfold removeLeaf
  dsimp only
  split
  · exact ((updNode_frame s _ _).trans (freeNode_frame _ x)).trans (splice_frame _ _)
  · rfl

theorem removeNode_frame {x : Nat} {s t : State} (h : removeNode x s = .ok t) : TrieFrame s t := by
  unfold removeNode at h
  split at h
  · cases h; rfl
  · dsimp only at h
    split at h
    · cases h; exact (updNode_frame s x _).trans (removeLeaf_frame _ _)
    · cases h; exact (updNode_frame s x _).trans (splice_frame _ _)
    · split at h
      · split at h
        · cases h
        · cases h; exact (updNode_frame s x _).trans (relocate_frame _ _ _)
      · cases h; rfl

theorem vacate_frame {j : Nat} {s t : State} {old : Option Nat} (h : vacate j s = .ok (t, old)) : TrieFrame s t := by
  unfold vacate at h
  split at h
  · cases h; rfl
  · split at h
    · cases h
    · cases h; exact (relocate_frame _ _ _).trans rfl

theorem wire_frame (i start j : Nat) (c : Byte) (s : State) : TrieFrame s (wire i start j c s).1 := by
  unfold wire
  dsimp only
  split
  · rfl
  · split
    · rfl
    · exact (relocate_frame _ _ _).trans rfl

theorem removeEvicted_frame {old : Option Nat} {s t : State} (h : removeEvicted old s = .ok t) : TrieFrame s t := by
  unfold removeEvicted at h
  split at h
  · cases h; rfl
  · exact removeNode_frame h

theorem abandonMatch_frame (s : State) : TrieFrame s s.abandonMatch := by
  unfold State.abandonMatch
  split <;> rfl

theorem abandonMatch_arena (s : State) : s.abandonMatch.arena = s.arena := by
  unfold State.abandonMatch
  split <;> rfl

/-- All that TEXTEND's rule can do when it raises no fault: its three steps, on a character that is there. -/
theorem extendTrie_ok {i start j : Nat} {s t : State} {c : Byte} {k : Nat} (h : extendTrie i start j s = .ok (t, c, k)) :
    i ≤ s.size ∧ s.activeAt i = true ∧ 1 ≤ j ∧ j ≤ s.size ∧ j ≠ i ∧ j ∉ s.pol.perm
      ∧ (s.buf .src).len % 8 = 0 ∧ start + (s.node i).length + 1 ≤ (s.buf .src).nchars
      ∧ s.spelledAt i start = true ∧ c = s.charAt .src (start + (s.node i).length) ∧ s.alreadyLive i c = none
      ∧ ∃ u old v, vacate j s = .ok (u, old) ∧ removeEvicted old (wire i start j c u).1 = .ok v
        ∧ t = v.abandonMatch ∧ k = (wire i start j c u).2 := by
  unfold extendTrie at h
  split at h
  · cases h
  rename_i h1
  split at h
  · cases h
  rename_i h2
  split at h
  · cases h
  rename_i h3
  split at h
  · cases h
  rename_i h4
  split at h
  · cases h
  rename_i h5
  dsimp only at h
  split at h
  · cases h
  rename_i h6
  split at h
  · cases h
  rename_i u old hv
  split at h
  · cases h
  rename_i v hr
  cases h
  simp only [not_or, Bool.not_eq_false, not_lt, List.contains_iff_mem, not_not] at h1 h2 h3 h4 h5
  exact ⟨h1.1, h1.2, by omega, h2.2.1, h2.2.2.1, h2.2.2.2, h3, h4, h5, rfl, h6, u, old, v, hv, hr, rfl, rfl⟩

theorem extendTrie_frame {i start j : Nat} {s t : State} {c : Byte} {k : Nat}
    (h : extendTrie i start j s = .ok (t, c, k)) : TrieFrame s t := by
  obtain ⟨-, -, -, -, -, -, -, -, -, -, -, u, old, v, hv, hr, rfl, -⟩ := extendTrie_ok h
  exact (((vacate_frame hv).trans (wire_frame _ _ _ _ _)).trans (removeEvicted_frame hr)).trans (abandonMatch_frame v)

/-- A free slot is an inactive slot that holds nothing (R133). -/
theorem freeInactiveSlot_ok {s : State} {t : Nat} (h : freeInactiveSlot s = .ok t) :
    s.setup.limit < t ∧ t ≤ 2 * s.setup.limit + 1 ∧ s.occupied t = false := by
  unfold freeInactiveSlot at h
  split at h
  · cases h
  · rename_i x hx
    cases h
    have hm := List.mem_of_find?_eq_some hx
    have hp := List.find?_some hx
    simp only [List.mem_range', Nat.one_mul] at hm
    obtain ⟨k, hk, rfl⟩ := hm
    exact ⟨by omega, by omega, by simpa using hp⟩

/-- Where an inactive slot is empty, one is found (R133). -/
theorem freeInactiveSlot_of_room {s : State} {x : Nat} (h1 : s.setup.limit < x) (h2 : x ≤ 2 * s.setup.limit + 1)
    (h3 : s.occupied x = false) : ∃ t, freeInactiveSlot s = .ok t := by
  unfold freeInactiveSlot
  split
  · rename_i hn
    have := List.find?_eq_none.1 hn x (by
      simp only [List.mem_range', Nat.one_mul]
      exact ⟨x - (s.setup.limit + 1), by omega, by omega⟩)
    simp [h3] at this
  · exact ⟨_, rfl⟩

/-! ### Properties of every node that the trie operations keep -/

/-- A property of (handle, node) pairs that does not look at links: it survives re-parenting and changes of child maps. -/
structure LinkFree (P : Nat → Node → Prop) : Prop where
  parent : ∀ h nd p, P h nd → P h { nd with parent := p }
  children : ∀ h nd c, P h nd → P h { nd with children := c }

/-- Every listed node has property `P`. -/
def AllNodes (P : Nat → Node → Prop) (s : State) : Prop := ∀ e ∈ s.arena, P e.1 e.2

theorem AllNodes.updNode {P : Nat → Node → Prop} {s : State} (hs : AllNodes P s) {h : Nat} {f : Node → Node}
    (hf : ∀ nd, P h nd → P h (f nd)) : AllNodes P (s.updNode h f) := by
  intro e he
  obtain ⟨d, hd, h1, h2⟩ := Table.mem_modify he
  rw [← h1, h2]
  split
  · rename_i hx
    rw [hx]
    exact hf _ (hx ▸ hs d hd)
  · exact hs d hd

theorem AllNodes.putNode {P : Nat → Node → Prop} {s : State} (hs : AllNodes P s) {h : Nat} {x : Node} (hx : P h x) :
    AllNodes P (s.putNode h x) := by
  intro e he
  rcases Table.mem_put he with rfl | he
  · exact hx
  · exact hs e he

theorem AllNodes.freeNode {P : Nat → Node → Prop} {s : State} (hs : AllNodes P s) (h : Nat) :
    AllNodes P (s.freeNode h) := fun e he => hs e (Table.mem_del he).1

theorem AllNodes.setParent {P : Nat → Node → Prop} (hP : LinkFree P) {s : State} (hs : AllNodes P s) (x p : Nat) :
    AllNodes P (s.setParent x p) := hs.updNode fun nd => hP.parent x nd p

theorem AllNodes.setChild {P : Nat → Node → Prop} (hP : LinkFree P) {s : State} (hs : AllNodes P s) (p : Nat) (c : Byte)
    (x : Nat) : AllNodes P (s.setChild p c x) := hs.updNode fun nd => hP.children p nd _

theorem AllNodes.foldl_setParent {P : Nat → Node → Prop} (hP : LinkFree P) (l : Table Nat) (p : Nat) {s : State}
    (hs : AllNodes P s) : AllNodes P (l.foldl (fun u e => u.setParent e.2 p) s) := by
  induction l generalizing s with
  | nil => exact hs
  | cons e l ih => exact ih (hs.setParent hP _ _)

theorem AllNodes.relocate {P : Nat → Node → Prop} (hP : LinkFree P) {s : State} (hs : AllNodes P s) {h t : Nat}
    (ht : ∀ nd, Table.get s.arena h = some nd → P t nd) : AllNodes P (relocate h t s) := by
  unfold Machine.relocate
  split
  · exact hs
  · rename_i nd hnd
    exact ((hs.freeNode h).putNode (ht nd hnd) |>.updNode fun x hx => hP.children _ _ _ hx).foldl_setParent hP nd.children t

theorem AllNodes.splice {P : Nat → Node → Prop} (hP : LinkFree P) {s : State} (hs : AllNodes P s) (x : Nat) :
    AllNodes P (splice x s) := by
  unfold Machine.splice
  split
  · exact ((hs.setChild hP _ _ _).setParent hP _ _).freeNode _
  · exact hs

theorem AllNodes.removeLeaf {P : Nat → Node → Prop} (hP : LinkFree P) {s : State} (hs : AllNodes P s) (x : Nat) :
    AllNodes P (removeLeaf x s) := by
  unfold Machine.removeLeaf
  dsimp only
  have : AllNodes P ((s.updNode (s.node x).parent
      fun nd => { nd with children := Table.del nd.children (s.key x).toNat }).freeNode x) :=
    (hs.updNode fun nd h => hP.children _ _ _ h).freeNode x
  split
  · exact this.splice hP _
  · exact this

/-! ### The canonical form of the arena (log 11) -/

/-- The arena and every child map are in canonical form. -/
structure ArenaWf (s : State) : Prop where
  keys : Table.wf s.arena = true
  children : AllNodes (fun _ nd => Table.wf nd.children = true) s

theorem ArenaWf.updNode {s : State} (hs : ArenaWf s) {h : Nat} {f : Node → Node}
    (hf : ∀ nd, Table.wf nd.children = true → Table.wf (f nd).children = true) : ArenaWf (s.updNode h f) :=
  ⟨Table.wf_modify hs.keys h f, hs.children.updNode hf⟩

theorem ArenaWf.putNode {s : State} (hs : ArenaWf s) {h : Nat} {x : Node} (hx : Table.wf x.children = true) :
    ArenaWf (s.putNode h x) := ⟨Table.wf_put hs.keys h x, hs.children.putNode hx⟩

theorem ArenaWf.freeNode {s : State} (hs : ArenaWf s) (h : Nat) : ArenaWf (s.freeNode h) :=
  ⟨Table.wf_del hs.keys h, hs.children.freeNode h⟩

theorem ArenaWf.setParent {s : State} (hs : ArenaWf s) (x p : Nat) : ArenaWf (s.setParent x p) := hs.updNode fun _ h => h

theorem ArenaWf.setChild {s : State} (hs : ArenaWf s) (p : Nat) (c : Byte) (x : Nat) : ArenaWf (s.setChild p c x) :=
  hs.updNode fun _ h => Table.wf_put h _ _

theorem ArenaWf.setActive {s : State} (hs : ArenaWf s) (x : Nat) (v : Bool) : ArenaWf (s.setActive x v) :=
  hs.updNode fun _ h => h

theorem ArenaWf.foldl_setParent (l : Table Nat) (p : Nat) {s : State} (hs : ArenaWf s) :
    ArenaWf (l.foldl (fun u e => u.setParent e.2 p) s) := by
  induction l generalizing s with
  | nil => exact hs
  | cons e l ih => exact ih (hs.setParent _ _)

theorem ArenaWf.node {s : State} (hs : ArenaWf s) {h : Nat} {nd : Node} (hg : Table.get s.arena h = some nd) :
    Table.wf nd.children = true := hs.children _ (Table.mem_of_get hg)

theorem ArenaWf.relocate {s : State} (hs : ArenaWf s) (h t : Nat) : ArenaWf (relocate h t s) := by
  unfold Machine.relocate
  split
  · exact hs
  · rename_i nd hnd
    have := ((hs.freeNode h).putNode (h := t) (hs.node hnd) |>.updNode (h := nd.parent)
      (f := fun p => { p with children := p.children.map fun e => (e.1, rename h t e.2) })
      fun x hx => Table.wf_map_entries hx _).foldl_setParent nd.children t
    exact ⟨this.keys, this.children⟩

theorem ArenaWf.splice {s : State} (hs : ArenaWf s) (x : Nat) : ArenaWf (splice x s) := by
  unfold Machine.splice
  split
  · exact ((hs.setChild _ _ _).setParent _ _).freeNode _
  · exact hs

theorem ArenaWf.removeLeaf {s : State} (hs : ArenaWf s) (x : Nat) : ArenaWf (removeLeaf x s) := by
  unfold Machine.removeLeaf
  dsimp only
  have : ArenaWf ((s.updNode (s.node x).parent
      fun nd => { nd with children := Table.del nd.children (s.key x).toNat }).freeNode x) :=
    (hs.updNode fun _ h => Table.wf_del h _).freeNode x
  split
  · exact this.splice _
  · exact this

theorem ArenaWf.removeNode {x : Nat} {s t : State} (hs : ArenaWf s) (h : removeNode x s = .ok t) : ArenaWf t := by
  unfold Machine.removeNode at h
  split at h
  · cases h; exact hs
  · dsimp only at h
    have hu := hs.setActive x false
    split at h
    · cases h; exact hu.removeLeaf x
    · cases h; exact hu.splice x
    · split at h
      · split at h
        · cases h
        · cases h; exact hu.relocate _ _
      · cases h; exact hu

theorem ArenaWf.vacate {j : Nat} {s t : State} {old : Option Nat} (hs : ArenaWf s) (h : vacate j s = .ok (t, old)) :
    ArenaWf t := by
  unfold Machine.vacate at h
  split at h
  · cases h; exact hs
  · split at h
    · cases h
    · cases h; exact (hs.relocate _ _).setActive _ _

theorem ArenaWf.wire {s : State} (hs : ArenaWf s) (i start j : Nat) (c : Byte) : ArenaWf (wire i start j c s).1 := by
  unfold Machine.wire
  dsimp only
  split
  · exact (hs.putNode (by simp [Table.wf])).setChild _ _ _
  · split
    · exact ((hs.putNode (by simp [Table.wf])).setChild _ _ _).setParent _ _
    · exact (hs.relocate _ _).updNode fun _ h => h

theorem ArenaWf.removeEvicted {old : Option Nat} {s t : State} (hs : ArenaWf s) (h : removeEvicted old s = .ok t) :
    ArenaWf t := by
  unfold Machine.removeEvicted at h
  split at h
  · cases h; exact hs
  · exact hs.removeNode h

theorem ArenaWf.congr {s t : State} (hs : ArenaWf s) (h : t.arena = s.arena) : ArenaWf t :=
  ⟨h ▸ hs.keys, fun e he => hs.children e (h ▸ he)⟩

theorem ArenaWf.extendTrie {i start j : Nat} {s t : State} {c : Byte} {k : Nat} (hs : ArenaWf s)
    (h : extendTrie i start j s = .ok (t, c, k)) : ArenaWf t := by
  obtain ⟨-, -, -, -, -, -, -, -, -, -, -, u, old, v, hv, hr, rfl, -⟩ := extendTrie_ok h
  exact (((hs.vacate hv).wire i start j c).removeEvicted hr).congr (abandonMatch_arena v)

/-! ### The matching step changes only the matcher -/

theorem mismatch_frame (s : State) : s.mismatch.1 = { s with mat := s.mismatch.1.mat } := rfl

theorem matchStep_frame (s : State) : (matchStep s).1 = { s with mat := (matchStep s).1.mat } := by
  unfold matchStep
  dsimp only
  split
  · rfl
  · split
    · rfl
    · split <;> rfl

theorem matchLoop_frame (fuel : Nat) (s : State) : (matchLoop fuel s).1 = { s with mat := (matchLoop fuel s).1.mat } := by
  induction fuel generalizing s with
  | zero => rfl
  | succ fuel ih =>
    have hs := matchStep_frame s
    unfold matchLoop
    split
    · rename_i t ht
      rw [ht] at hs
      have hm := ih t
      generalize (matchLoop fuel t).1 = u at hm ⊢
      rw [hm, show t = { s with mat := t.mat } from hs]
    · rename_i t _ _ ht
      rw [ht] at hs
      exact hs
    · rename_i t ht
      rw [ht] at hs
      exact hs

end Sys2Proof.Machine
end

