-- ==== Sys2Proof/Laws/Engine.lean ====
section
/-! SUPPORT. What each engine operation can do: frames, and that buffers only grow (43_engine.md R210 to R228). -/

namespace Sys2Proof.Machine

/-! ### The PMATCH rule -/

/-- All that the PMATCH rule can do when it raises no fault (R172). -/
theorem matchPolicy_ok {i j : Nat} {s t : State} (h : matchPolicy i s = .ok (t, j)) :
    MatchAllowed s i
      ∧ j = (s.pol.select s.setup.policy s.setup.limit s.size s.freeCount i).j
      ∧ t = { s with
          pol := (s.pol.select s.setup.policy s.setup.limit s.size s.freeCount i).pol
          size := (s.pol.select s.setup.policy s.setup.limit s.size s.freeCount i).size } := by
  unfold matchPolicy at h
  split at h
  · cases h
  rename_i h1
  split at h
  · cases h
  rename_i h2
  split at h
  · cases h
  rename_i h3
  split at h
  · cases h
  rename_i h4
  cases h
  exact ⟨⟨by simpa using h1, h2, by omega, h4⟩, rfl, rfl⟩

theorem matchPolicy_of_allowed {i : Nat} {s : State} (h : MatchAllowed s i) :
    matchPolicy i s = .ok ({ s with
        pol := (s.pol.select s.setup.policy s.setup.limit s.size s.freeCount i).pol
        size := (s.pol.select s.setup.policy s.setup.limit s.size s.freeCount i).size },
      (s.pol.select s.setup.policy s.setup.limit s.size s.freeCount i).j) := by
  obtain ⟨h1, h2, h3, h4⟩ := h
  unfold matchPolicy
  rw [if_neg (by simp [h1]), if_neg h2, if_neg (by omega), if_neg h4]

/-- Nothing but policy state and SIZE differ. -/
def PolicyFrame (s t : State) : Prop := t = { s with pol := t.pol, size := t.size }

theorem matchPolicy_frame {i j : Nat} {s t : State} (h : matchPolicy i s = .ok (t, j)) : PolicyFrame s t := by
  rw [(matchPolicy_ok h).2.2]
  rfl

/-! ### Encode -/

/-- The fields an encode step may write. -/
def EncodeFrame (s t : State) : Prop :=
  t = { s with
    mem := t.mem, pol := t.pol, size := t.size, arena := t.arena, mat := t.mat, epos := t.epos, nl := t.nl,
    estate := t.estate }

theorem EncodeFrame.refl (s : State) : EncodeFrame s s := rfl

theorem EncodeFrame.trans {s t u : State} (h : EncodeFrame s t) (k : EncodeFrame t u) : EncodeFrame s u := by
  unfold EncodeFrame at *
  rw [k, h]

theorem PolicyFrame.encode {s t : State} (h : PolicyFrame s t) : EncodeFrame s t := by
  unfold PolicyFrame at h
  unfold EncodeFrame
  rw [h]

theorem TrieFrame.encode {s t : State} (h : TrieFrame s t) : EncodeFrame s t := by
  unfold TrieFrame at h
  unfold EncodeFrame
  rw [h]

theorem setBuf_encode (s : State) (b : Buf) (x : Buffer) : EncodeFrame s (s.setBuf b x) := rfl

theorem putBits_encode {b : Buf} {n v : Nat} {s t : State} (h : putBits b n v s = .ok t) : EncodeFrame s t := by
  obtain ⟨-, rfl⟩ := putBits_ok h
  rfl

/-- An append to `b`: its bits follow the old ones, and nothing else changes. -/
theorem putBits_mem {b : Buf} {n v : Nat} {s t : State} (h : putBits b n v s = .ok t) :
    t = { s with mem := t.mem } ∧ t.buf b = (s.buf b).append n v ∧ ∀ d, d ≠ b → t.buf d = s.buf d := by
  obtain ⟨-, rfl⟩ := putBits_ok h
  exact ⟨rfl, by simp, fun d hd => State.buf_setBuf_other s _ hd⟩

/-- What Emit appends to CW (R211). -/
def emitted (s : State) (i : Nat) (has : Bool) (c : Byte) : Bits :=
  natBits s.setup.width i ++ if s.setup.variant = .lz78 ∧ has = true then natBits 8 c.toNat else []

theorem emitRecord_ok {i : Nat} {has : Bool} {c : Byte} {s t : State} (h : emitRecord i has c s = .ok t) :
    (s.buf .cw).len + (emitted s i has c).length ≤ s.capBits
      ∧ t = s.setBuf .cw { s.buf .cw with bits := (s.buf .cw).bits ++ emitted s i has c } := by
  unfold emitRecord at h
  split at h
  · cases h
  rename_i u hu
  obtain ⟨hc, rfl⟩ := putBits_ok hu
  split at h
  · rename_i hv
    obtain ⟨hd, rfl⟩ := putBits_ok h
    have hv' : s.setup.variant = .lz78 ∧ has = true := hv
    simp only [emitted, if_pos hv', List.length_append, length_natBits]
    simp only [State.buf_setBuf_same, Buffer.append_len] at hd
    refine ⟨by have : s.capBits = (s.setBuf .cw ((s.buf .cw).append s.setup.width i)).capBits := rfl
               omega, ?_⟩
    ext1 <;> simp [State.setBuf, Memory.set, Buffer.append, State.buf, Memory.get]
  · rename_i hv
    cases h
    have hv' : ¬(s.setup.variant = .lz78 ∧ has = true) := hv
    simp only [emitted, if_neg hv', List.append_nil, length_natBits]
    exact ⟨hc, rfl⟩

theorem emitRecord_of_room {i : Nat} {has : Bool} {c : Byte} {s : State}
    (h : (s.buf .cw).len + (emitted s i has c).length ≤ s.capBits) :
    emitRecord i has c s = .ok (s.setBuf .cw { s.buf .cw with bits := (s.buf .cw).bits ++ emitted s i has c }) := by
  unfold emitted at h ⊢
  by_cases hv : s.setup.variant = .lz78 ∧ has = true
  · rw [if_pos hv] at h ⊢
    simp only [List.length_append, length_natBits] at h
    unfold emitRecord
    rw [putBits_of_room (by omega)]
    dsimp only
    rw [if_pos (by exact hv), putBits_of_room (by
      simp only [State.buf_setBuf_same, Buffer.append_len]
      have : s.capBits = (s.setBuf .cw ((s.buf .cw).append s.setup.width i)).capBits := rfl
      omega)]
    congr 1
    ext1 <;> simp [State.setBuf, Memory.set, Buffer.append, State.buf, Memory.get]
  · rw [if_neg hv] at h ⊢
    simp only [List.append_nil, length_natBits] at h ⊢
    unfold emitRecord
    rw [putBits_of_room h]
    dsimp only
    rw [if_neg (by exact hv)]
    rfl

theorem finalFlush_ok {j : Nat} {s t : State} (h : finalFlush j s = .ok t) :
    ∃ u, removeNode j s = .ok u ∧ t = { u with nl := j } := by
  unfold finalFlush at h
  split at h
  · cases h
  · rename_i u hu
    cases h
    exact ⟨u, hu, rfl⟩

/-- All that the dictionary's part of an encode step can do. -/
theorem growDictionary_ok {i j : Nat} {has : Bool} {s t : State} (h : growDictionary i has j s = .ok t) :
    (j = 0 ∧ t = s) ∨ (j ≠ 0 ∧ has = true ∧ ∃ c k, extendTrie i s.epos j s = .ok (t, c, k))
      ∨ (j ≠ 0 ∧ has = false ∧ ∃ u, removeNode j s = .ok u ∧ t = { u with nl := j }) := by
  unfold growDictionary at h
  split at h
  · rename_i hj
    cases h
    exact .inl ⟨hj, rfl⟩
  · rename_i hj
    split at h
    · rename_i hh
      split at h
      · cases h
      · rename_i u c k hu
        cases h
        exact .inr (.inl ⟨hj, hh, c, k, hu⟩)
    · rename_i hh
      exact .inr (.inr ⟨hj, by simpa using hh, finalFlush_ok h⟩)

theorem growDictionary_encode {i j : Nat} {has : Bool} {s t : State} (h : growDictionary i has j s = .ok t) :
    EncodeFrame s t ∧ t.mem = s.mem ∧ t.pol = s.pol ∧ t.size = s.size := by
  rcases growDictionary_ok h with ⟨-, rfl⟩ | ⟨-, -, c, k, hu⟩ | ⟨-, -, u, hu, rfl⟩
  · exact ⟨rfl, rfl, rfl, rfl⟩
  · have := extendTrie_frame hu
    exact ⟨this.encode, this.mem, this.pol, this.size⟩
  · have := removeNode_frame hu
    exact ⟨this.encode.trans rfl, this.mem, this.pol, this.size⟩

/-- All that the rest of an encode step can do when it raises no fault. -/
theorem finishRecord_ok {has : Bool} {c : Byte} {s t : State} {r : Record} (h : finishRecord has c s = .ok (t, r)) :
    ∃ e u v j, emitRecord s.mat.mlast has c s = .ok e ∧ matchPolicy s.mat.mlast e = .ok (u, j)
      ∧ growDictionary s.mat.mlast has j u = .ok v
      ∧ t = { v with
          epos := v.epos + encodeAdvance s.setup.variant s.mat.mldepth has
          estate := if has then v.estate else .done }
      ∧ r = { i := s.mat.mlast, len := s.mat.mldepth, hasChar := has, char := if has then c else 0, j := j } := by
  unfold finishRecord at h
  dsimp only at h
  split at h
  · cases h
  rename_i e he
  split at h
  · cases h
  rename_i u j hu
  split at h
  · cases h
  rename_i v hv
  cases h
  exact ⟨e, u, v, j, he, hu, hv, rfl, rfl⟩

theorem longestMatch_ok {s t : State} {x : MatchResult} (h : longestMatch s = .ok (t, x)) :
    s.epos ≤ (s.buf .src).nchars
      ∧ (t, x) = matchLoop ((s.buf .src).nchars - s.epos + 1) { s with mat := Matcher.at s.epos }
      ∧ t = { s with mat := t.mat } := by
  unfold longestMatch at h
  split at h
  · cases h
  · rename_i hp
    have h' := Except.ok.inj h
    have hf := matchLoop_frame ((s.buf .src).nchars - s.epos + 1) { s with mat := Matcher.at s.epos }
    rw [h'] at hf
    exact ⟨by omega, h'.symm, hf⟩

/-- All that an encode step can do when it raises no fault. -/
theorem encodeStep_ok {s t : State} {r : Option Record} (h : encodeStep s = .ok (t, r)) :
    s.configured = true ∧ s.setup.mode = .enc ∧ s.estate = .ready ∧ (s.buf .src).len % 8 = 0
      ∧ ∃ u x, longestMatch s = .ok (u, x)
        ∧ ((∃ has c r', x = .maximal has c ∧ r = some r' ∧ finishRecord has c u = .ok (t, r'))
          ∨ ((x = .progress ∨ x = .endOfInput) ∧ r = none ∧ t = { u with estate := .done })) := by
  unfold encodeStep at h
  split at h
  · cases h
  rename_i h1
  split at h
  · cases h
  rename_i h2
  split at h
  · cases h
  rename_i h3
  have h2 : s.setup.mode = .enc ∧ s.estate = .ready := by
    constructor
    · by_contra hc
      exact h2 (.inl hc)
    · by_contra hc
      exact h2 (.inr hc)
  refine ⟨by simpa using h1, h2.1, h2.2, by omega, ?_⟩
  split at h
  · cases h
  · rename_i u has c hu
    split at h
    · cases h
    · rename_i v r' hv
      cases h
      exact ⟨u, _, hu, .inl ⟨has, c, r', rfl, rfl, hv⟩⟩
  · rename_i u hu
    cases h
    exact ⟨u, _, hu, .inr ⟨.inl rfl, rfl, rfl⟩⟩
  · rename_i u hu
    cases h
    exact ⟨u, _, hu, .inr ⟨.inr rfl, rfl, rfl⟩⟩

/-- What an encode step does to the buffers: bits appended to CW, nothing else. -/
structure AppendsTo (b : Buf) (s t : State) : Prop where
  bits : ∃ l, t.buf b = { s.buf b with bits := (s.buf b).bits ++ l }
  other : ∀ d, d ≠ b → t.buf d = s.buf d
  cap : (t.buf b).len ≤ s.capBits ∨ (t.buf b).len = (s.buf b).len

theorem AppendsTo.of_mem {b : Buf} {s t : State} (h : t.mem = s.mem) : AppendsTo b s t :=
  ⟨⟨[], by simp [State.buf_congr h]⟩, fun d _ => State.buf_congr h d, .inr (by rw [State.buf_congr h])⟩

theorem AppendsTo.trans {b : Buf} {s t u : State} (h : AppendsTo b s t) (k : AppendsTo b t u) (hc : t.build = s.build) :
    AppendsTo b s u := by
  obtain ⟨l, hl⟩ := h.bits
  obtain ⟨m, hm⟩ := k.bits
  refine ⟨⟨l ++ m, by rw [hm, hl]; simp⟩, fun d hd => (k.other d hd).trans (h.other d hd), ?_⟩
  rcases k.cap with hk | hk
  · exact .inl (by simpa [State.capBits, hc] using hk)
  · rcases h.cap with hh | hh
    · exact .inl (hk ▸ hh)
    · exact .inr (hk.trans hh)

theorem AppendsTo.putBits {b : Buf} {n v : Nat} {s t : State} (h : putBits b n v s = .ok t) : AppendsTo b s t := by
  obtain ⟨hc, rfl⟩ := putBits_ok h
  exact ⟨⟨natBits n v, by simp [Buffer.append]⟩, fun d hd => State.buf_setBuf_other s _ hd, .inl (by simpa using hc)⟩

theorem AppendsTo.grown {b : Buf} {s t : State} (h : AppendsTo b s t) : Grown s t := by
  refine ⟨fun d => ?_, fun d => ?_⟩
  · by_cases hd : d = b
    · subst hd
      obtain ⟨l, hl⟩ := h.bits
      exact ⟨l, by rw [hl]⟩
    · exact ⟨[], by simp [h.other d hd]⟩
  · by_cases hd : d = b
    · subst hd
      obtain ⟨l, hl⟩ := h.bits
      rw [hl]
    · rw [h.other d hd]

theorem finishRecord_frame {has : Bool} {c : Byte} {s t : State} {r : Record} (h : finishRecord has c s = .ok (t, r)) :
    EncodeFrame s t ∧ AppendsTo .cw s t := by
  obtain ⟨e, u, v, j, he, hu, hv, rfl, -⟩ := finishRecord_ok h
  obtain ⟨hc, rfl⟩ := emitRecord_ok he
  have hu' := matchPolicy_frame hu
  obtain ⟨hg, hm, -⟩ := growDictionary_encode hv
  refine ⟨((setBuf_encode s _ _).trans (hu'.encode.trans hg)).trans rfl, ?_⟩
  have hmem : v.mem = (s.setBuf .cw { s.buf .cw with bits := (s.buf .cw).bits ++ emitted s s.mat.mlast has c }).mem := by
    rw [hm, hu']
  have hb : ∀ d, State.buf { v with
      epos := v.epos + encodeAdvance s.setup.variant s.mat.mldepth has
      estate := if has then v.estate else .done } d
        = (s.setBuf .cw { s.buf .cw with bits := (s.buf .cw).bits ++ emitted s s.mat.mlast has c }).buf d := fun d =>
    State.buf_congr (s := s.setBuf .cw _) hmem d
  refine ⟨⟨emitted s s.mat.mlast has c, by rw [hb, State.buf_setBuf_same]⟩, fun d hd => ?_, .inl ?_⟩
  · rw [hb, State.buf_setBuf_other s _ hd]
  · rw [hb, State.buf_setBuf_same]
    simpa [Buffer.len] using hc

theorem encodeStep_frame {s t : State} {r : Option Record} (h : encodeStep s = .ok (t, r)) :
    EncodeFrame s t ∧ AppendsTo .cw s t ∧ (t.estate ≠ s.estate → t.estate = .done) := by
  obtain ⟨-, -, -, -, u, x, hu, h⟩ := encodeStep_ok h
  have hm := (longestMatch_ok hu).2.2
  have hmem : u.mem = s.mem := by rw [hm]
  have hfr : EncodeFrame s u := by
    unfold EncodeFrame
    rw [hm]
  rcases h with ⟨has, c, r', -, -, hf⟩ | ⟨-, -, rfl⟩
  · obtain ⟨h1, h2⟩ := finishRecord_frame hf
    refine ⟨hfr.trans h1, (AppendsTo.of_mem hmem).trans h2 (by rw [hm]), fun hne => ?_⟩
    obtain ⟨e, p, v, j, he, hp, hv, rfl, -⟩ := finishRecord_ok hf
    dsimp only at hne ⊢
    split
    · rename_i hh
      rw [if_pos hh] at hne
      refine absurd ?_ hne
      have h3 : v.estate = p.estate := by
        rcases growDictionary_ok hv with ⟨-, rfl⟩ | ⟨-, -, _, _, hx⟩ | ⟨-, -, _, hx, rfl⟩
        · rfl
        · rw [extendTrie_frame hx]
        · rw [removeNode_frame hx]
      rw [h3, matchPolicy_frame hp, (emitRecord_ok he).2, hm]
      rfl
    · rfl
  · exact ⟨hfr.trans rfl, AppendsTo.of_mem hmem, fun _ => rfl⟩

/-! ### Decode -/

/-- The fields a decode step may write. -/
def DecodeFrame (s t : State) : Prop :=
  t = { s with mem := t.mem, pol := t.pol, size := t.size, tab := t.tab, estate := t.estate }

theorem DecodeFrame.refl (s : State) : DecodeFrame s s := rfl

theorem DecodeFrame.trans {s t u : State} (h : DecodeFrame s t) (k : DecodeFrame t u) : DecodeFrame s u := by
  unfold DecodeFrame at *
  rw [k, h]

/-- What a decode step does to memory: bits appended to OUT, the cursor of CW moved forward within CW, nothing else. -/
structure DecodeMem (s t : State) : Prop where
  src : t.buf .src = s.buf .src
  out : ∃ l, t.buf .out = { s.buf .out with bits := (s.buf .out).bits ++ l }
  cap : (t.buf .out).len ≤ s.capBits ∨ (t.buf .out).len = (s.buf .out).len
  cw : ∃ p, (s.buf .cw).rc ≤ p ∧ t.buf .cw = { s.buf .cw with rc := p }
  cursor : (t.buf .cw).rc ≤ (s.buf .cw).len ∨ (t.buf .cw).rc = (s.buf .cw).rc

theorem DecodeMem.of_mem {s t : State} (h : t.mem = s.mem) : DecodeMem s t := by
  have hb := State.buf_congr h
  exact ⟨hb _, ⟨[], by simp [hb]⟩, .inr (by rw [hb]), ⟨_, Nat.le_refl _, by rw [hb]⟩, .inr (by rw [hb])⟩

theorem DecodeMem.trans {s t u : State} (h : DecodeMem s t) (k : DecodeMem t u) (hc : t.build = s.build) : DecodeMem s u := by
  obtain ⟨l, hl⟩ := h.out
  obtain ⟨m, hm⟩ := k.out
  obtain ⟨p, hp, hp'⟩ := h.cw
  obtain ⟨q, hq, hq'⟩ := k.cw
  refine ⟨k.src.trans h.src, ⟨l ++ m, by rw [hm, hl]; simp⟩, ?_, ⟨q, by
    have hq : p ≤ q := by simpa [hp'] using hq
    omega, by rw [hq', hp']⟩, ?_⟩
  · rcases k.cap with hk | hk
    · exact .inl (by simpa [State.capBits, hc] using hk)
    · rcases h.cap with hh | hh
      · exact .inl (hk ▸ hh)
      · exact .inr (hk.trans hh)
  · rcases k.cursor with hk | hk
    · refine .inl ?_
      have : (t.buf .cw).len = (s.buf .cw).len := by rw [hp']; rfl
      omega
    · rw [hk]
      exact h.cursor

theorem DecodeMem.of_append {s t : State} (h : AppendsTo .out s t) : DecodeMem s t :=
  ⟨h.other _ (by decide), h.bits, h.cap, ⟨_, Nat.le_refl _, by rw [h.other .cw (by decide)]⟩,
    .inr (by rw [h.other .cw (by decide)])⟩

theorem DecodeMem.grown {s t : State} (h : DecodeMem s t) : Grown s t := by
  obtain ⟨l, hl⟩ := h.out
  obtain ⟨p, -, hp⟩ := h.cw
  refine ⟨fun b => ?_, fun b => ?_⟩
  · cases b
    · exact ⟨[], by simp [h.src]⟩
    · exact ⟨[], by simp [hp]⟩
    · exact ⟨l, by rw [hl]⟩
  · cases b
    · rw [h.src]
    · rw [hp]
    · rw [hl]

theorem putChars_ok {cs : List Byte} {s t : State} (h : putChars cs s = .ok t) :
    ((s.buf .out).len + 8 * cs.length ≤ s.capBits ∨ cs = [])
      ∧ t = s.setBuf .out { s.buf .out with bits := (s.buf .out).bits ++ cs.flatMap fun c => natBits 8 c.toNat } := by
  induction cs generalizing s with
  | nil =>
    cases h
    refine ⟨.inr rfl, ?_⟩
    ext1 <;> simp [State.setBuf, Memory.set, State.buf, Memory.get]
  | cons c cs ih =>
    unfold putChars at h
    split at h
    · cases h
    · rename_i u hu
      obtain ⟨hc, rfl⟩ := putBits_ok hu
      obtain ⟨h1, rfl⟩ := ih h
      have hcap : (s.setBuf .out ((s.buf .out).append 8 c.toNat)).capBits = s.capBits := rfl
      refine ⟨.inl ?_, ?_⟩
      · rcases h1 with h1 | rfl
        · simp only [State.buf_setBuf_same, Buffer.append_len] at h1
          simp only [List.length_cons]
          omega
        · simpa using hc
      · ext1 <;> simp [State.setBuf, Memory.set, Buffer.append, State.buf, Memory.get]

theorem putChars_of_room {cs : List Byte} {s : State} (h : (s.buf .out).len + 8 * cs.length ≤ s.capBits) :
    putChars cs s
      = .ok (s.setBuf .out { s.buf .out with bits := (s.buf .out).bits ++ cs.flatMap fun c => natBits 8 c.toNat }) := by
  induction cs generalizing s with
  | nil =>
    unfold putChars
    congr 1
    ext1 <;> simp [State.setBuf, Memory.set, State.buf, Memory.get]
  | cons c cs ih =>
    simp only [List.length_cons] at h
    unfold putChars
    rw [putBits_of_room (by omega)]
    dsimp only
    rw [ih (by
      simp only [State.buf_setBuf_same, Buffer.append_len]
      have hcap : (s.setBuf .out ((s.buf .out).append 8 c.toNat)).capBits = s.capBits := rfl
      omega)]
    congr 1
    ext1 <;> simp [State.setBuf, Memory.set, Buffer.append, State.buf, Memory.get]

theorem putChars_append {cs : List Byte} {s t : State} (h : putChars cs s = .ok t) :
    t = { s with mem := t.mem } ∧ AppendsTo .out s t := by
  obtain ⟨hc, rfl⟩ := putChars_ok h
  refine ⟨rfl, ⟨⟨_, State.buf_setBuf_same s _ _⟩, fun d hd => State.buf_setBuf_other s _ hd, ?_⟩⟩
  rcases hc with hc | rfl
  · refine .inl ?_
    rw [State.buf_setBuf_same]
    simp only [Buffer.len, List.length_append, length_flatMap_natBits] at hc ⊢
    omega
  · exact .inr (by rw [State.buf_setBuf_same]; simp [Buffer.len])

theorem copyOut_append {i : Nat} {e : Entry} {s t : State} (h : copyOut i e s = .ok t) :
    t = { s with mem := t.mem } ∧ AppendsTo .out s t := by
  unfold copyOut at h
  split at h
  · exact ⟨(putBits_mem h).1, .putBits h⟩
  split at h
  · cases h
    exact ⟨rfl, .of_mem rfl⟩
  split at h
  · cases h
  split at h
  · cases h
  rename_i u hu
  split at h
  · cases h
  · have h1 := putBits_mem hu
    obtain ⟨h2, h3⟩ := putChars_append h
    exact ⟨by rw [h2, h1.1], (AppendsTo.putBits hu).trans h3 (by rw [h1.1])⟩

theorem advanceCw_mem {n : Nat} {s : State} (h : (s.buf .cw).rc + n ≤ (s.buf .cw).len) :
    DecodeMem s (advanceCw n s) := by
  unfold advanceCw
  refine ⟨State.buf_setBuf_other s _ (by decide), ⟨[], by rw [State.buf_setBuf_other s _ (by decide)]; simp⟩, .inr (by
    rw [State.buf_setBuf_other s _ (by decide)]), ⟨(s.buf .cw).rc + n, by omega, State.buf_setBuf_same s _ _⟩, .inl ?_⟩
  rw [State.buf_setBuf_same]
  exact h

theorem decodeChar_frame {i : Nat} {s t : State} {c : Option Byte} {final : Bool}
    (h : decodeChar i s = .ok (t, c, final)) : t = { s with mem := t.mem } ∧ DecodeMem s t := by
  unfold decodeChar at h
  split at h
  · cases h
    exact ⟨rfl, .of_mem rfl⟩
  split at h
  · split at h
    · cases h
    · cases h
      exact ⟨rfl, .of_mem rfl⟩
  split at h
  · cases h
  rename_i h0 h8
  dsimp only at h
  split at h
  · cases h
  · rename_i u hu
    cases h
    have h1 := putBits_mem hu
    refine ⟨by rw [h1.1]; rfl, (advanceCw_mem ?_).trans (.of_append (.putBits hu)) rfl⟩
    unfold State.remaining at h8
    omega

theorem addExtension_ok {i pos len j : Nat} {s t : State} (h : addExtension i pos len s = .ok (t, j)) :
    ∃ u, matchPolicy i s = .ok (u, j)
      ∧ t = if j = 0 then u else { u with tab := Table.put u.tab j { start := pos, length := len + 1 } } := by
  unfold addExtension at h
  split at h
  · cases h
  · rename_i u j' hu
    cases h
    exact ⟨u, hu, rfl⟩

theorem addExtension_frame {i pos len j : Nat} {s t : State} (h : addExtension i pos len s = .ok (t, j)) :
    t = { s with pol := t.pol, size := t.size, tab := t.tab } := by
  obtain ⟨u, hu, rfl⟩ := addExtension_ok h
  have hu := matchPolicy_frame hu
  split
  · rw [hu]
  · rw [hu]

theorem decodeRecord_ok {i : Nat} {e : Entry} {s t : State} {r : Record} (h : decodeRecord i e s = .ok (t, r)) :
    ∃ a b c final v j, copyOut i e s = .ok a ∧ decodeChar i a = .ok (b, c, final)
      ∧ addExtension i (s.buf .out).nchars e.length b = .ok (v, j)
      ∧ t = { v with estate := if final then .done else v.estate }
      ∧ r = { i := i, len := e.length, hasChar := c.isSome, char := c.getD 0, j := j } := by
  unfold decodeRecord at h
  dsimp only at h
  split at h
  · cases h
  rename_i a ha
  split at h
  · cases h
  rename_i b c final hb
  split at h
  · cases h
  rename_i v j hv
  cases h
  exact ⟨a, b, c, final, v, j, ha, hb, hv, rfl, rfl⟩

theorem decodeRecord_frame {i : Nat} {e : Entry} {s t : State} {r : Record} (h : decodeRecord i e s = .ok (t, r)) :
    DecodeFrame s t ∧ DecodeMem s t ∧ (t.estate = s.estate ∨ t.estate = .done) := by
  obtain ⟨a, b, c, final, v, j, ha, hb, hv, rfl, -⟩ := decodeRecord_ok h
  obtain ⟨ha, ha'⟩ := copyOut_append ha
  obtain ⟨hb, hb'⟩ := decodeChar_frame hb
  have hv := addExtension_frame hv
  refine ⟨?_, ((DecodeMem.of_append ha').trans hb' (by rw [ha])).trans (.of_mem (by rw [hv])) (by rw [hb, ha]), ?_⟩
  · unfold DecodeFrame
    rw [hv, hb, ha]
  · dsimp only
    split
    · exact .inr rfl
    · exact .inl (by rw [hv, hb, ha])

/-- All that a decode step can do when it raises no fault. -/
theorem decodeStep_ok {s t : State} {r : Option Record} (h : decodeStep s = .ok (t, r)) :
    s.configured = true ∧ s.setup.mode = .dec ∧ s.estate = .ready ∧ (s.buf .out).len % 8 = 0
      ∧ ((s.remaining = 0 ∧ r = none ∧ t = { s with estate := .done })
        ∨ (s.remaining ≠ 0 ∧ s.setup.width ≤ s.remaining ∧ ∃ e r',
            s.decodedEntry ((s.buf .cw).read (s.buf .cw).rc s.setup.width) = some e ∧ r = some r'
              ∧ decodeRecord ((s.buf .cw).read (s.buf .cw).rc s.setup.width) e (advanceCw s.setup.width s) = .ok (t, r'))) := by
  unfold decodeStep at h
  split at h
  · cases h
  rename_i h1
  split at h
  · cases h
  rename_i h2
  split at h
  · cases h
  rename_i h3
  have h2 : s.setup.mode = .dec ∧ s.estate = .ready := by
    constructor
    · by_contra hc
      exact h2 (.inl hc)
    · by_contra hc
      exact h2 (.inr hc)
  refine ⟨by simpa using h1, h2.1, h2.2, by omega, ?_⟩
  split at h
  · rename_i h4
    cases h
    exact .inl ⟨h4, rfl, rfl⟩
  rename_i h4
  split at h
  · cases h
  rename_i h5
  dsimp only at h
  split at h
  · cases h
  rename_i e he
  split at h
  · cases h
  rename_i u r' hu
  cases h
  exact .inr ⟨h4, by omega, e, r', he, rfl, hu⟩

theorem decodeStep_frame {s t : State} {r : Option Record} (h : decodeStep s = .ok (t, r)) :
    DecodeFrame s t ∧ DecodeMem s t ∧ (t.estate = s.estate ∨ t.estate = .done) := by
  obtain ⟨-, -, -, -, h⟩ := decodeStep_ok h
  rcases h with ⟨-, -, rfl⟩ | ⟨h0, hw, e, r', -, -, hd⟩
  · exact ⟨rfl, .of_mem rfl, .inr rfl⟩
  · obtain ⟨h1, h2, h3⟩ := decodeRecord_frame hd
    refine ⟨DecodeFrame.trans (t := advanceCw s.setup.width s) rfl h1, (advanceCw_mem ?_).trans h2 rfl, h3⟩
    unfold State.remaining at h0 hw
    omega

/-! ### Runs -/

/-- What every step of a run keeps, reflexive and transitive, the run keeps. -/
theorem runSteps_keeps {step : State → Work (State × Option Record)} {R : State → State → Prop} (refl : ∀ s, R s s)
    (trans : ∀ {s t u}, R s t → R t u → R s u) (one : ∀ {s t r}, step s = .ok (t, r) → R s t) {fuel n m : Nat}
    {s t : State} (h : runSteps step fuel n s = .ok (t, m)) : R s t := by
  induction fuel generalizing s n with
  | zero =>
    cases h
    exact refl _
  | succ fuel ih =>
    unfold runSteps at h
    split at h
    · split at h
      · cases h
      · rename_i u hu
        exact trans (one hu) (ih h)
      · rename_i u r hu
        exact trans (one hu) (ih h)
    · cases h
      exact refl _

/-- An encode run: its frame, and what it appends to CW. -/
theorem encodeRun_frame {fuel n m : Nat} {s t : State} (h : runSteps encodeStep fuel n s = .ok (t, m)) :
    EncodeFrame s t ∧ AppendsTo .cw s t ∧ (t.estate = s.estate ∨ t.estate = .done) :=
  runSteps_keeps (R := fun s t => EncodeFrame s t ∧ AppendsTo .cw s t ∧ (t.estate = s.estate ∨ t.estate = .done))
    (fun s => ⟨rfl, .of_mem rfl, .inl rfl⟩)
    (fun h k => ⟨h.1.trans k.1, h.2.1.trans k.2.1 (by rw [h.1]), by
      rcases k.2.2 with hk | hk
      · rw [hk]
        exact h.2.2
      · exact .inr hk⟩)
    (fun h => by
      obtain ⟨h1, h2, h3⟩ := encodeStep_frame h
      exact ⟨h1, h2, or_iff_not_imp_left.2 h3⟩) h

/-- A decode run: its frame, and what it does to memory. -/
theorem decodeRun_frame {fuel n m : Nat} {s t : State} (h : runSteps decodeStep fuel n s = .ok (t, m)) :
    DecodeFrame s t ∧ DecodeMem s t ∧ (t.estate = s.estate ∨ t.estate = .done) :=
  runSteps_keeps (R := fun s t => DecodeFrame s t ∧ DecodeMem s t ∧ (t.estate = s.estate ∨ t.estate = .done))
    (fun s => ⟨rfl, .of_mem rfl, .inl rfl⟩)
    (fun h k => ⟨h.1.trans k.1, h.2.1.trans k.2.1 (by rw [h.1]), by
      rcases k.2.2 with hk | hk
      · rw [hk]
        exact h.2.2
      · exact .inr hk⟩)
    decodeStep_frame h

end Sys2Proof.Machine
end

