-- ==== Sys2Proof/Laws/Commands.lean ====
section
/-! SUPPORT. One inversion lemma per command: all that its work can do when it raises no fault; and what no command
writes. -/

namespace Sys2Proof.Machine

/-! ### BitBuffer -/

theorem bputWork_ok {b : Buf} {n : BitVec 6} {s t : State} (h : bputWork b n s = .ok t) :
    n.toNat ≤ 32 ∧ (s.buf b).len + n.toNat ≤ s.capBits
      ∧ t = s.setBuf b (if n.toNat = 0 then (s.buf b).append n.toNat s.opA0 else ((s.buf b).append n.toNat s.opA0).bump) := by
  unfold bputWork at h
  split at h
  · cases h
  rename_i hn
  split at h
  · cases h
  · rename_i u hu
    obtain ⟨hc, rfl⟩ := putBits_ok hu
    refine ⟨by simpa [Config.wordBits] using hn, hc, ?_⟩
    cases h
    split
    · rfl
    · rw [State.buf_setBuf_same, State.setBuf_setBuf]

theorem bputcWork_ok {b : Buf} {s t : State} (h : bputcWork b s = .ok t) :
    (s.buf b).len + 8 ≤ s.capBits ∧ t = s.setBuf b ((s.buf b).append 8 (charOperand s.a0).toNat).bump := by
  unfold bputcWork at h
  split at h
  · cases h
  · rename_i u hu
    obtain ⟨hc, rfl⟩ := putBits_ok hu
    cases h
    exact ⟨hc, by rw [State.buf_setBuf_same, State.setBuf_setBuf]⟩

theorem getBits_ok {b : Buf} {n : Nat} {s t : State} (h : getBits b n s = .ok t) :
    (s.buf b).rc + n ≤ (s.buf b).len
      ∧ t = (s.setBuf b ((s.buf b).setRc ((s.buf b).rc + n))).results ((s.buf b).read (s.buf b).rc n) 0 0 0 := by
  unfold getBits at h
  split at h
  · cases h
  · cases h
    exact ⟨by omega, rfl⟩

theorem bgetWork_ok {b : Buf} {n : BitVec 6} {s t : State} (h : bgetWork b n s = .ok t) :
    n.toNat ≤ 32 ∧ getBits b n.toNat s = .ok t := by
  unfold bgetWork at h
  split at h
  · cases h
  · rename_i hn
    exact ⟨by simpa [Config.wordBits] using hn, h⟩

theorem bsliceWork_ok {b : Buf} {s t : State} (h : bsliceWork b s = .ok t) :
    s.opA0 + s.opA1 ≤ (s.buf b).nchars
      ∧ t = { s with sv := { buf := b, start := s.opA0, len := s.opA1, epoch := (s.buf b).epoch, valid := true } } := by
  unfold bsliceWork at h
  split at h
  · cases h
  · cases h
    exact ⟨by omega, rfl⟩

theorem bcopyWork_ok {d : Buf} {s t : State} (h : bcopyWork d s = .ok t) :
    s.sliceFresh = true ∧ (s.buf d).len + 8 * s.sv.len ≤ s.capBits
      ∧ ((s.sv.len = 0 ∧ t = s.results 0 0 0 0)
        ∨ (s.sv.len ≠ 0 ∧ t = (s.setBuf d
            ((s.buf d).appendChars (s.charsAt s.sv.buf s.sv.start s.sv.len)).bump).results s.sv.len 0 0 0)) := by
  unfold bcopyWork at h
  split at h
  · cases h
  rename_i hf
  split at h
  · cases h
  rename_i hc
  refine ⟨by simpa using hf, by omega, ?_⟩
  split at h
  · rename_i h0
    cases h
    exact .inl ⟨h0, rfl⟩
  · rename_i h0
    cases h
    exact .inr ⟨h0, rfl⟩

theorem beqWork_ok {b : Buf} {s t : State} (h : beqWork b s = .ok t) :
    ∃ o, bufOperand s.a0 = some o
      ∧ t = (s.results (bit (decide ((s.buf b).bits = (s.buf o).bits))) 0 0 0).equalFlag
          (decide ((s.buf b).bits = (s.buf o).bits)) := by
  unfold beqWork at h
  split at h
  · cases h
  · rename_i o ho
    cases h
    exact ⟨o, ho, rfl⟩

theorem bclrWork_ok {b : Buf} {s t : State} (h : bclrWork b s = .ok t) :
    ¬(s.configured = true ∧ s.size ≠ s.nseed ∧ b = s.setup.mode.backing)
      ∧ t = s.setBuf b { bits := [], rc := 0, epoch := (s.buf b).epoch + 1 } := by
  unfold bclrWork at h
  split at h
  · cases h
  · rename_i hn
    cases h
    exact ⟨hn, rfl⟩

theorem bseekWork_ok {b : Buf} {s t : State} (h : bseekWork b s = .ok t) :
    s.opA0 ≤ (s.buf b).len ∧ t = s.setBuf b ((s.buf b).setRc s.opA0) := by
  unfold bseekWork at h
  split at h
  · cases h
  · cases h
    exact ⟨by omega, rfl⟩

theorem binfoWork_ok {b : Buf} {s t : State} (h : binfoWork b s = .ok t) :
    t = s.results (s.buf b).len (s.buf b).rc (s.buf b).epoch.toNat (s.buf b).nchars := by
  cases h
  rfl

/-! ### Trie and matcher -/

/-- The guards of R141. -/
def TrieReady (s : State) : Prop := s.configured = true ∧ s.setup.mode = .enc ∧ s.estate = .ready

theorem trieGuards_ok {α : Type} {s : State} {k : Work α} {x : α} (h : trieGuards s k = .ok x) :
    TrieReady s ∧ k = .ok x := by
  unfold trieGuards at h
  split at h
  · cases h
  rename_i h1
  split at h
  · cases h
  rename_i h2
  split at h
  · cases h
  rename_i h3
  exact ⟨⟨by simpa using h1, not_not.1 h2, not_not.1 h3⟩, h⟩

theorem trieGuards_of_ready {α : Type} {s : State} (h : TrieReady s) (k : Work α) : trieGuards s k = k := by
  unfold trieGuards
  rw [if_neg (by simp [h.1]), if_neg (not_not.2 h.2.1), if_neg (not_not.2 h.2.2)]

theorem textendWork_ok {s t : State} (h : textendWork s = .ok t) :
    TrieReady s ∧ ∃ u c kind, extendTrie s.opA0 s.opA1 s.opA2 s = .ok (u, c, kind) ∧ t = u.results c.toNat kind 0 0 := by
  obtain ⟨hr, h⟩ := trieGuards_ok h
  split at h
  · cases h
  · rename_i u c kind hu
    cases h
    exact ⟨hr, u, c, kind, hu, rfl⟩

theorem tedgeWork_ok {s t : State} (h : tedgeWork s = .ok t) :
    s.configured = true ∧ s.setup.mode = .enc ∧ s.opA0 ≤ 2 * s.setup.limit + 1 ∧ s.occupied s.opA0 = true
      ∧ ((s.child s.opA0 (charOperand s.a1) = none ∧ t = (s.results 0 0 0 0).foundFlag false)
        ∨ ∃ d, s.child s.opA0 (charOperand s.a1) = some d
            ∧ t = (s.results d (s.label s.opA0 d).1 (s.label s.opA0 d).2 0).foundFlag true) := by
  unfold tedgeWork at h
  split at h
  · cases h
  rename_i h1
  split at h
  · cases h
  rename_i h2
  split at h
  · cases h
  rename_i h3
  refine ⟨by simpa using h1, not_not.1 h2, by omega, by simpa using fun hc => h3 (.inr hc), ?_⟩
  split at h
  · rename_i hd
    cases h
    exact .inl ⟨hd, rfl⟩
  · rename_i d hd
    cases h
    exact .inr ⟨d, hd, rfl⟩

theorem tremoveWork_ok {s t : State} (h : tremoveWork s = .ok t) :
    TrieReady s ∧ s.opA0 ≠ 0 ∧ s.opA0 = s.size ∧ s.opA0 ∉ s.pol.perm
      ∧ ∃ u, removeNode s.opA0 s = .ok u ∧ t = (u.dropNumber s.opA0).abandonMatch := by
  obtain ⟨hr, h⟩ := trieGuards_ok h
  split at h
  · cases h
  rename_i h1
  split at h
  · cases h
  · rename_i u hu
    cases h
    simp only [not_or, List.contains_iff_mem, not_not] at h1
    exact ⟨hr, h1.1, h1.2.1, h1.2.2, u, hu, rfl⟩

theorem tmresetWork_ok {s t : State} (h : tmresetWork s = .ok t) :
    TrieReady s ∧ s.opA0 ≤ (s.buf .src).nchars ∧ t = { s with mat := Matcher.at s.opA0 } := by
  obtain ⟨hr, h⟩ := trieGuards_ok h
  split at h
  · cases h
  · cases h
    exact ⟨hr, by omega, rfl⟩

theorem tmstepWork_ok {s t : State} (h : tmstepWork s = .ok t) :
    TrieReady s ∧ s.mat.mstate ≠ .maximal ∧ (s.buf .src).len % 8 = 0
      ∧ t = reportMatch (s.mat.mcons - s.mat.mldepth) (matchStep s) := by
  obtain ⟨hr, h⟩ := trieGuards_ok h
  split at h
  · cases h
  rename_i h1
  split at h
  · cases h
  rename_i h2
  cases h
  exact ⟨hr, h1, by omega, rfl⟩

theorem tlookupWork_ok {s t : State} (h : tlookupWork s = .ok t) :
    s.configured = true ∧ s.opA0 ≤ s.setup.limit
      ∧ ((s.lookup s.opA0 = none ∧ t = s.foundFlag false)
        ∨ ∃ b n, s.lookup s.opA0 = some (b, n) ∧ t = (s.results b n 0 0).foundFlag true) := by
  unfold tlookupWork at h
  split at h
  · cases h
  rename_i h1
  split at h
  · cases h
  rename_i h2
  refine ⟨by simpa using h1, by omega, ?_⟩
  split at h
  · rename_i hd
    cases h
    exact .inl ⟨hd, rfl⟩
  · rename_i b n hd
    cases h
    exact .inr ⟨b, n, hd, rfl⟩

theorem tnodeWork_ok {s t : State} (h : tnodeWork s = .ok t) :
    s.configured = true ∧ s.setup.mode = .enc ∧ s.opA0 ≤ 2 * s.setup.limit + 1
      ∧ ((Table.get s.arena s.opA0 = none ∧ t = s.foundFlag false)
        ∨ ∃ nd, Table.get s.arena s.opA0 = some nd
            ∧ t = (s.results (if nd.active then 2 ^ 31 + nd.codewordNo else 0) nd.start nd.length
                (if s.opA0 = 0 then 0 else nd.parent)).foundFlag true) := by
  unfold tnodeWork at h
  split at h
  · cases h
  rename_i h1
  split at h
  · cases h
  rename_i h2
  split at h
  · cases h
  rename_i h3
  refine ⟨by simpa using h1, not_not.1 h2, by omega, ?_⟩
  split at h
  · rename_i hd
    cases h
    exact .inl ⟨hd, rfl⟩
  · rename_i nd hd
    cases h
    exact .inr ⟨nd, hd, rfl⟩

/-! ### Policy -/

theorem pmatchWork_ok {s t : State} (h : pmatchWork s = .ok t) :
    ∃ u j, matchPolicy s.opA0 s = .ok (u, j) ∧ t = (u.results j 0 0 0).rejectFlag (decide (j = 0)) := by
  unfold pmatchWork at h
  split at h
  · cases h
  · rename_i u j hu
    cases h
    exact ⟨u, j, hu, rfl⟩

/-- The policy state PPERM leaves (R180). -/
def PolicyState.afterPerm (p : PolicyState) (policy : Policy) (limit : Nat) (S : List Nat) : PolicyState :=
  if policy = .mra ∧ (p.makePerm S).isPerm (p.makePerm S).cur = true then
    { p.makePerm S with cur := (p.makePerm S).nextNonPerm limit (p.makePerm S).cur }
  else p.makePerm S

theorem ppermWork_ok {s t : State} (h : ppermWork s = .ok t) :
    s.configured = true ∧ s.estate = .ready ∧ 1 ≤ s.opA0 ∧ s.opA0 ≤ s.size
      ∧ s.pol.leavesNone s.setup.limit (s.pol.permSet s.setup.policy s.setup.limit s.opA0) = false
      ∧ t = { s with
          pol := s.pol.afterPerm s.setup.policy s.setup.limit (s.pol.permSet s.setup.policy s.setup.limit s.opA0) } := by
  unfold ppermWork at h
  split at h
  · cases h
  rename_i h1
  split at h
  · cases h
  rename_i h2
  split at h
  · cases h
  rename_i h3
  dsimp only at h
  split at h
  · cases h
  rename_i h4
  cases h
  exact ⟨by simpa using h1, not_not.1 h2, by omega, by omega, by simpa using h4, rfl⟩

theorem pinfoWork_ok {s t : State} (h : pinfoWork s = .ok t) :
    s.configured = true ∧ s.opA0 ≤ s.setup.limit
      ∧ t = (s.results (s.pol.parentOf s.opA0) (bit (s.pol.isPerm s.opA0))
          (if s.opA0 ∈ s.pol.q then s.pol.q.idxOf s.opA0 else Config.noRank) 0).foundFlag (decide (s.opA0 ≤ s.size)) := by
  unfold pinfoWork at h
  split at h
  · cases h
  rename_i h1
  split at h
  · cases h
  rename_i h2
  cases h
  exact ⟨by simpa using h1, by omega, rfl⟩

theorem porderWork_ok {s t : State} (h : porderWork s = .ok t) :
    s.configured = true ∧ t = s.results ((s.pol.q[s.opA0]?).getD 0) s.pol.q.length s.pol.cur 0 := by
  unfold porderWork at h
  split at h
  · cases h
  rename_i h1
  cases h
  exact ⟨by simpa using h1, rfl⟩

/-! ### Engine -/

theorem econfigWork_ok {s t : State} (h : econfigWork s = .ok t) :
    configReserved s.a0 = 0 ∧ (s.opA1 = 0 ∨ (3 ≤ s.opA1 ∧ s.opA1 + (variantField s.a0).nseed ≤ s.maxLimit))
      ∧ t = (s.configure (latchedSetup s.maxUnbounded s.a0 s.opA1)).results
          (latchedSetup s.maxUnbounded s.a0 s.opA1).limit (latchedSetup s.maxUnbounded s.a0 s.opA1).width
          (variantField s.a0).nseed 0 := by
  unfold econfigWork at h
  split at h
  · cases h
  rename_i h1
  split at h
  · cases h
  rename_i h2
  split at h
  · cases h
  rename_i h3
  cases h
  exact ⟨not_not.1 h1, by omega, rfl⟩

theorem estepWork_ok {s t : State} (h : estepWork s = .ok t) :
    ∃ x, encodeStep s = .ok x ∧ t = bumpEpochs s (reportRecord x) := by
  unfold estepWork at h
  split at h
  · cases h
  · rename_i x hx
    cases h
    exact ⟨x, hx, rfl⟩

theorem dstepWork_ok {s t : State} (h : dstepWork s = .ok t) :
    ∃ x, decodeStep s = .ok x ∧ t = bumpEpochs s (reportRecord x) := by
  unfold dstepWork at h
  split at h
  · cases h
  · rename_i x hx
    cases h
    exact ⟨x, hx, rfl⟩

theorem erunWork_ok {s t : State} (h : erunWork s = .ok t) :
    s.configured = true ∧ s.setup.mode = .enc ∧ s.estate = .ready
      ∧ ∃ u n, runSteps encodeStep ((s.buf .src).nchars + 2) 0 s = .ok (u, n) ∧ t = bumpEpochs s (u.results n 0 0 0) := by
  unfold erunWork at h
  split at h
  · cases h
  rename_i h1
  split at h
  · cases h
  rename_i h2
  split at h
  · cases h
  rename_i u n hu
  cases h
  simp only [not_or, not_not] at h2
  exact ⟨by simpa using h1, h2.1, h2.2, u, n, hu, rfl⟩

theorem drunWork_ok {s t : State} (h : drunWork s = .ok t) :
    s.configured = true ∧ s.setup.mode = .dec ∧ s.estate = .ready
      ∧ ∃ u n, runSteps decodeStep (s.remaining + 2) 0 s = .ok (u, n) ∧ t = bumpEpochs s (u.results n 0 0 0) := by
  unfold drunWork at h
  split at h
  · cases h
  rename_i h1
  split at h
  · cases h
  rename_i h2
  split at h
  · cases h
  rename_i u n hu
  cases h
  simp only [not_or, not_not] at h2
  exact ⟨by simpa using h1, h2.1, h2.2, u, n, hu, rfl⟩

theorem eaddextWork_ok {s t : State} (h : eaddextWork s = .ok t) :
    s.configured = true ∧ s.setup.mode = .dec ∧ s.estate = .ready ∧ s.opA0 ≤ s.size
      ∧ ∃ e u j, Table.get s.tab s.opA0 = some e ∧ s.opA1 ≤ (s.buf .out).nchars
        ∧ addExtension s.opA0 s.opA1 e.length s = .ok (u, j)
        ∧ t = (u.results j 0 0 0).rejectFlag (decide (j = 0)) := by
  unfold eaddextWork at h
  split at h
  · cases h
  rename_i h1
  split at h
  · cases h
  rename_i h2
  split at h
  · cases h
  rename_i h3
  split at h
  · cases h
  rename_i e he
  split at h
  · cases h
  rename_i h4
  split at h
  · cases h
  rename_i u j hu
  cases h
  simp only [not_or, not_not] at h2
  exact ⟨by simpa using h1, h2.1, h2.2, by omega, e, u, j, he, by omega, hu, rfl⟩

/-! ### Report -/

theorem reportRecord_frame (x : State × Option Record) :
    reportRecord x = { x.1 with
      flags := (reportRecord x).flags, r0 := (reportRecord x).r0, r1 := (reportRecord x).r1, r2 := (reportRecord x).r2,
      r3 := (reportRecord x).r3 } := by
  obtain ⟨t, _ | r⟩ := x <;> rfl

theorem reportMatch_frame (n : Nat) (x : State × MatchResult) :
    reportMatch n x = { x.1 with
      flags := (reportMatch n x).flags, r0 := (reportMatch n x).r0, r1 := (reportMatch n x).r1,
      r2 := (reportMatch n x).r2, r3 := (reportMatch n x).r3 } := by
  obtain ⟨t, _ | _ | _⟩ := x <;> rfl

theorem abandonMatch_frame' (s : State) : s.abandonMatch = { s with mat := s.abandonMatch.mat } := by
  unfold State.abandonMatch
  split <;> rfl

/-! ### What each command leaves alone -/

/-- The fields no command's work writes. -/
structure Untouched (s t : State) : Prop where
  build : t.build = s.build
  a0 : t.a0 = s.a0
  a1 : t.a1 = s.a1
  a2 : t.a2 = s.a2
  fault : t.fault = s.fault
  faultInfo : t.faultInfo = s.faultInfo
  faultCmd : t.faultCmd = s.faultCmd
  host : t.host = s.host
  rdata : t.rdata = s.rdata
  freeCount : t.freeCount = s.freeCount

/-- A command's work, as an equation that names every field it may write. -/
def WorkFrame (i : Instr) (s t : State) : Prop :=
  match i with
  | .nop => t = s
  | .bput _ _ | .bget _ _ | .bputc _ | .bgetc _ | .bcopy _ | .bclr _ | .bseek _ =>
    t = { s with mem := t.mem, r0 := t.r0, r1 := t.r1, r2 := t.r2, r3 := t.r3 }
  | .bslice _ => t = { s with sv := t.sv }
  | .beq _ | .binfo _ | .tedge | .tlookup | .tnode | .pinfo | .porder =>
    t = { s with flags := t.flags, r0 := t.r0, r1 := t.r1, r2 := t.r2, r3 := t.r3 }
  | .textend => t = { s with arena := t.arena, mat := t.mat, r0 := t.r0, r1 := t.r1, r2 := t.r2, r3 := t.r3 }
  | .tremove => t = { s with arena := t.arena, mat := t.mat, pol := t.pol, size := t.size }
  | .tmreset => t = { s with mat := t.mat }
  | .tmstep => t = { s with mat := t.mat, flags := t.flags, r0 := t.r0, r1 := t.r1, r2 := t.r2, r3 := t.r3 }
  | .pmatch => t = { s with pol := t.pol, size := t.size, flags := t.flags, r0 := t.r0, r1 := t.r1, r2 := t.r2, r3 := t.r3 }
  | .pperm => t = { s with pol := t.pol }
  | .econfig =>
    t = { s with
      setup := t.setup, size := t.size, epos := t.epos, nl := t.nl, estate := t.estate, configured := t.configured,
      pol := t.pol, arena := t.arena, tab := t.tab, mat := t.mat, r0 := t.r0, r1 := t.r1, r2 := t.r2, r3 := t.r3 }
  | .estep | .erun =>
    t = { s with
      mem := t.mem, pol := t.pol, size := t.size, arena := t.arena, mat := t.mat, epos := t.epos, nl := t.nl,
      estate := t.estate, flags := t.flags, r0 := t.r0, r1 := t.r1, r2 := t.r2, r3 := t.r3 }
  | .dstep | .drun =>
    t = { s with
      mem := t.mem, pol := t.pol, size := t.size, tab := t.tab, estate := t.estate, flags := t.flags, r0 := t.r0, r1 := t.r1,
      r2 := t.r2, r3 := t.r3 }
  | .eaddext =>
    t = { s with
      pol := t.pol, size := t.size, tab := t.tab, flags := t.flags, r0 := t.r0, r1 := t.r1, r2 := t.r2, r3 := t.r3 }

theorem workFrame {i : Instr} {s t : State} (h : workOf i s = .ok t) : WorkFrame i s t := by
  cases i <;> dsimp only [WorkFrame] <;> dsimp only [workOf] at h
  case nop => cases h; rfl
  case bput => rw [(bputWork_ok h).2.2]; rfl
  case bget => rw [(getBits_ok (bgetWork_ok h).2).2]; rfl
  case bputc => rw [(bputcWork_ok h).2]; rfl
  case bgetc => rw [(getBits_ok h).2]; rfl
  case bslice => rw [(bsliceWork_ok h).2]
  case bcopy => rcases (bcopyWork_ok h).2.2 with ⟨-, rfl⟩ | ⟨-, rfl⟩ <;> rfl
  case beq => obtain ⟨o, -, rfl⟩ := beqWork_ok h; rfl
  case bclr => rw [(bclrWork_ok h).2]; rfl
  case bseek => rw [(bseekWork_ok h).2]; rfl
  case binfo => rw [binfoWork_ok h]; rfl
  case textend =>
    obtain ⟨-, u, c, k, hu, rfl⟩ := textendWork_ok h
    have hu := extendTrie_frame hu
    unfold TrieFrame at hu
    rw [hu]; rfl
  case tedge => rcases (tedgeWork_ok h).2.2.2.2 with ⟨-, rfl⟩ | ⟨d, -, rfl⟩ <;> rfl
  case tremove =>
    obtain ⟨-, -, -, -, u, hu, rfl⟩ := tremoveWork_ok h
    have hu := removeNode_frame hu
    unfold TrieFrame at hu
    rw [abandonMatch_frame', hu]; rfl
  case tmreset => rw [(tmresetWork_ok h).2.2]
  case tmstep =>
    rw [(tmstepWork_ok h).2.2.2, reportMatch_frame, matchStep_frame]
  case tlookup => rcases (tlookupWork_ok h).2.2 with ⟨-, rfl⟩ | ⟨b, n, -, rfl⟩ <;> rfl
  case tnode => rcases (tnodeWork_ok h).2.2.2 with ⟨-, rfl⟩ | ⟨nd, -, rfl⟩ <;> rfl
  case pmatch =>
    obtain ⟨u, j, hu, rfl⟩ := pmatchWork_ok h
    have hu := matchPolicy_frame hu
    unfold PolicyFrame at hu
    rw [hu]; rfl
  case pperm => rw [(ppermWork_ok h).2.2.2.2.2]
  case pinfo => rw [(pinfoWork_ok h).2.2]; rfl
  case porder => rw [(porderWork_ok h).2]; rfl
  case econfig => rw [(econfigWork_ok h).2.2]; rfl
  case estep =>
    obtain ⟨⟨u, r⟩, hx, rfl⟩ := estepWork_ok h
    have hu := (encodeStep_frame hx).1
    unfold EncodeFrame at hu
    rw [bumpEpochs_frame, reportRecord_frame, hu]
  case dstep =>
    obtain ⟨⟨u, r⟩, hx, rfl⟩ := dstepWork_ok h
    have hu := (decodeStep_frame hx).1
    unfold DecodeFrame at hu
    rw [bumpEpochs_frame, reportRecord_frame, hu]
  case erun =>
    obtain ⟨-, -, -, u, n, hx, rfl⟩ := erunWork_ok h
    have hu := (encodeRun_frame hx).1
    unfold EncodeFrame at hu
    rw [bumpEpochs_frame, hu]; rfl
  case drun =>
    obtain ⟨-, -, -, u, n, hx, rfl⟩ := drunWork_ok h
    have hu := (decodeRun_frame hx).1
    unfold DecodeFrame at hu
    rw [bumpEpochs_frame, hu]; rfl
  case eaddext =>
    obtain ⟨-, -, -, -, e, u, j, -, -, hx, rfl⟩ := eaddextWork_ok h
    rw [addExtension_frame hx]; rfl

theorem WorkFrame.untouched {i : Instr} {s t : State} (h : WorkFrame i s t) : Untouched s t := by
  cases i <;> dsimp only [WorkFrame] at h <;> constructor <;> rw [h]

/-- What running a command leaves alone in every case. -/
theorem exec_untouched {i : Instr} {s t : State} (h : exec i s = .next t) :
    t.build = s.build ∧ t.a0 = s.a0 ∧ t.a1 = s.a1 ∧ t.a2 = s.a2 ∧ t.host = s.host ∧ t.rdata = s.rdata
      ∧ t.freeCount = s.freeCount := by
  rcases exec_cases h with ⟨-, rfl⟩ | ⟨-, hw⟩ | ⟨-, e, -, rfl⟩
  · exact ⟨rfl, rfl, rfl, rfl, rfl, rfl, rfl⟩
  · have := (workFrame hw).untouched
    exact ⟨this.build, this.a0, this.a1, this.a2, this.host, this.rdata, this.freeCount⟩
  · exact ⟨rfl, rfl, rfl, rfl, rfl, rfl, rfl⟩

/-- A command either completes, with FAULT as it was, or is latched. -/
theorem exec_completes {i : Instr} {s t : State} (hs : s.fault = false) (h : exec i s = .next t) :
    (t.fault = false ∧ workOf i s.begin = .ok t)
      ∨ (t.fault = true ∧ ∃ e, workOf i s.begin = .error e ∧ t = s.latch e (encode i)) := by
  rcases exec_cases h with ⟨hf, -⟩ | ⟨-, hw⟩ | ⟨-, e, he, rfl⟩
  · rw [hs] at hf
    cases hf
  · exact .inl ⟨(workFrame hw).untouched.fault.trans hs, hw⟩
  · exact .inr ⟨rfl, e, he, rfl⟩

/-- What a command does to the buffers: it appends, or it is a BCLR; EPOCH counts (R100). -/
theorem work_buffers {i : Instr} {s t : State} (h : workOf i s = .ok t) (b : Buf) :
    (i = .bclr b ∧ t.buf b = { bits := [], rc := 0, epoch := (s.buf b).epoch + 1 })
      ∨ (i ≠ .bclr b ∧ ∃ l, (t.buf b).bits = (s.buf b).bits ++ l
          ∧ (t.buf b).epoch = if l = [] then (s.buf b).epoch else (s.buf b).epoch + 1) := by
  have keep : t.mem = s.mem → ∃ l, (t.buf b).bits = (s.buf b).bits ++ l
      ∧ (t.buf b).epoch = if l = [] then (s.buf b).epoch else (s.buf b).epoch + 1 := fun hm =>
    ⟨[], by rw [State.buf_congr hm]; simp, by rw [State.buf_congr hm]; simp⟩
  have bumped : ∀ {u : State}, Grown s u → u.buf .src = s.buf .src → ∀ v : State, v.mem = u.mem →
      ∃ l, ((bumpEpochs s v).buf b).bits = (s.buf b).bits ++ l
        ∧ ((bumpEpochs s v).buf b).epoch = if l = [] then (s.buf b).epoch else (s.buf b).epoch + 1 := by
    intro u hg hsrc v hv
    obtain ⟨l, hl⟩ := hg.bits b
    have hb := State.buf_congr hv b
    have he := hg.epoch b
    refine ⟨l, ?_, ?_⟩
    · rw [bumpEpochs_buf, hb]
      split <;> simp [hl]
    · rw [bumpEpochs_buf, hb]
      have hlen : (u.buf b).len = (s.buf b).len ↔ l = [] := by
        rw [Buffer.len, Buffer.len, hl, List.length_append]
        constructor
        · intro hh
          exact List.eq_nil_of_length_eq_zero (by omega)
        · rintro rfl
          simp
      by_cases hb' : b = .src
      · subst hb'
        have : l = [] := hlen.1 (by rw [hsrc])
        simp [this, hsrc]
      · by_cases hl' : l = []
        · rw [if_neg (fun hc => hc.2 (hlen.2 hl')), if_pos hl', he]
        · rw [if_pos ⟨hb', fun hc => hl' (hlen.1 hc)⟩, if_neg hl', Buffer.bump_epoch, he]
  have put : ∀ {d : Buf} {x : Buffer} {m : Bits}, x.bits = (s.buf d).bits ++ m →
      x.epoch = (if m = [] then (s.buf d).epoch else (s.buf d).epoch + 1) →
      ∃ l, ((s.setBuf d x).buf b).bits = (s.buf b).bits ++ l
        ∧ ((s.setBuf d x).buf b).epoch = if l = [] then (s.buf b).epoch else (s.buf b).epoch + 1 := by
    intro d x m hx he
    by_cases hd : b = d
    · subst hd
      exact ⟨m, by simpa using hx, by simpa using he⟩
    · exact ⟨[], by rw [State.buf_setBuf_other s x hd]; simp, by rw [State.buf_setBuf_other s x hd]; simp⟩
  have bitsNe : ∀ n v : Nat, n ≠ 0 → natBits n v ≠ [] := fun n v hn hc => hn (by simpa using congrArg List.length hc)
  have hf := workFrame h
  cases i <;> dsimp only [workOf] at h <;> dsimp only [WorkFrame] at hf <;>
    first
    | refine .inr ⟨Instr.noConfusion, ?_⟩
    | skip
  case nop => cases h; exact keep rfl
  case bput d n =>
    obtain ⟨-, -, rfl⟩ := bputWork_ok h
    split
    · rename_i h0
      exact put (m := []) (by simp [h0, natBits]) (by simp)
    · rename_i h0
      exact put (m := natBits n.toNat s.opA0) rfl (by rw [if_neg (bitsNe _ _ h0)]; rfl)
  case bget d n =>
    obtain ⟨-, rfl⟩ := getBits_ok (bgetWork_ok h).2
    exact put (m := []) (by simp) (by simp)
  case bputc d =>
    obtain ⟨-, rfl⟩ := bputcWork_ok h
    exact put (m := natBits 8 (charOperand s.a0).toNat) rfl (by rw [if_neg (bitsNe _ _ (by decide))]; rfl)
  case bgetc d =>
    obtain ⟨-, rfl⟩ := getBits_ok h
    exact put (m := []) (by simp) (by simp)
  case bslice => obtain ⟨-, rfl⟩ := bsliceWork_ok h; exact keep rfl
  case bcopy d =>
    rcases (bcopyWork_ok h).2.2 with ⟨-, rfl⟩ | ⟨h0, rfl⟩
    · exact keep rfl
    · refine put (m := (s.charsAt s.sv.buf s.sv.start s.sv.len).flatMap fun c => natBits 8 c.toNat) ?_ ?_
      · rw [Buffer.bump_bits, Buffer.appendChars_eq]
      · rw [if_neg, Buffer.bump_epoch, Buffer.appendChars_epoch]
        intro hc
        have := congrArg List.length hc
        rw [length_flatMap_natBits, length_charsAt] at this
        simp only [List.length_nil] at this
        omega
  case beq => obtain ⟨o, -, rfl⟩ := beqWork_ok h; exact keep rfl
  case bclr d =>
    obtain ⟨-, rfl⟩ := bclrWork_ok h
    by_cases hd : d = b
    · subst hd
      exact .inl ⟨rfl, by simp⟩
    · exact .inr ⟨fun hc => hd (Instr.bclr.inj hc), [], by rw [State.buf_setBuf_other s _ (Ne.symm hd)]; simp,
        by rw [State.buf_setBuf_other s _ (Ne.symm hd)]; simp⟩
  case bseek d => obtain ⟨-, rfl⟩ := bseekWork_ok h; exact put (m := []) (by simp) (by simp)
  case binfo => obtain rfl := binfoWork_ok h; exact keep rfl
  case estep =>
    obtain ⟨⟨u, r⟩, hx, rfl⟩ := estepWork_ok h
    have hu := (encodeStep_frame hx).2.1
    exact bumped hu.grown (hu.other _ (by decide)) _ (by rw [reportRecord_frame])
  case dstep =>
    obtain ⟨⟨u, r⟩, hx, rfl⟩ := dstepWork_ok h
    have hu := (decodeStep_frame hx).2.1
    exact bumped hu.grown hu.src _ (by rw [reportRecord_frame])
  case erun =>
    obtain ⟨-, -, -, u, n, hx, rfl⟩ := erunWork_ok h
    have hu := (encodeRun_frame hx).2.1
    exact bumped hu.grown (hu.other _ (by decide)) _ rfl
  case drun =>
    obtain ⟨-, -, -, u, n, hx, rfl⟩ := drunWork_ok h
    have hu := (decodeRun_frame hx).2.1
    exact bumped hu.grown hu.src _ rfl
  all_goals exact keep (by rw [hf])

end Sys2Proof.Machine
end

