-- ==== Sys2Proof/Laws/Policy.lean ====
section
/-! SUPPORT. What `Select` can do, and what it keeps (42_policy.md R171 to R180). -/

namespace Sys2Proof.Machine

/-! ### The queue operations only reorder -/

theorem moveFront_perm (x : Nat) (q : List Nat) : (moveFront x q).Perm q := by
  unfold moveFront
  split
  · rename_i h
    exact (List.perm_cons_erase h).symm
  · exact .refl q

theorem insertAfter_perm (i j : Nat) (q : List Nat) : (insertAfter i j q).Perm (j :: q) := by
  induction q with
  | nil => exact .refl _
  | cons x t ih =>
    unfold insertAfter
    split
    · exact .swap j x t
    · exact (ih.cons x).trans (.swap j x t)

theorem insertByKey_perm (key : Nat → Nat) (x : Nat) (q : List Nat) : (insertByKey key x q).Perm (x :: q) := by
  induction q with
  | nil => exact .refl _
  | cons y t ih =>
    unfold insertByKey
    split
    · exact .refl _
    · exact (ih.cons y).trans (.swap x y t)

theorem freeOrder_perm (draw i : Nat) (q : List Nat) : (freeOrder draw i q).Perm q := by
  unfold freeOrder
  generalize Config.cascadeKey draw i q = key
  induction q with
  | nil => exact .refl _
  | cons x t ih => exact (insertByKey_perm _ x _).trans (ih.cons x)

theorem foldl_moveFront_perm (xs q : List Nat) : (xs.foldl (fun q x => moveFront x q) q).Perm q := by
  induction xs generalizing q with
  | nil => exact .refl q
  | cons x xs ih => exact (ih _).trans (moveFront_perm x q)

theorem cascade_perm (p : PolicyState) (limit draw i : Nat) : (p.cascade limit draw i).Perm p.q := by
  unfold PolicyState.cascade
  split
  · exact foldl_moveFront_perm _ _
  · exact freeOrder_perm _ _ _

theorem touched_perm (p : PolicyState) (policy : Policy) (limit draw i : Nat) :
    (p.touched policy limit draw i).Perm p.q := by
  unfold PolicyState.touched
  cases policy
  · dsimp only
    split
    · exact .refl _
    · exact moveFront_perm _ _
  · exact cascade_perm p limit draw i
  · dsimp only
    split
    · exact .refl _
    · exact moveFront_perm _ _
  · dsimp only
    split
    · exact .refl _
    · exact moveFront_perm _ _

/-! ### Select -/

/-- Everything `Select` can answer (R171 to R176). -/
theorem select_cases (p : PolicyState) (policy : Policy) (limit size draw i : Nat) :
    let r := p.select policy limit size draw i
    (r = p.rejected size ∧ limit ≤ size)
      ∨ (size < limit ∧ r.j = size + 1 ∧ r.size = size + 1 ∧ r.pol.perm = p.perm ∧ r.pol.cur = p.cur
          ∧ r.pol.parent = Table.putNum p.parent r.j i
          ∧ (if policy = .mra then r.pol.q = p.q else r.pol.q.Perm ((size + 1) :: p.q)))
      ∨ (limit ≤ size ∧ policy ≠ .mra ∧ r.j ∈ p.q ∧ r.j ≠ i ∧ r.size = size ∧ r.pol.perm = p.perm ∧ r.pol.cur = p.cur
          ∧ r.pol.parent = Table.putNum p.parent r.j i ∧ r.pol.q.Perm p.q)
      ∨ (limit ≤ size ∧ policy = .mra ∧ r.j = p.cur ∧ p.cur ≠ i ∧ r.size = size ∧ r.pol.perm = p.perm
          ∧ r.pol.cur = p.nextNonPerm limit p.cur ∧ r.pol.parent = Table.putNum p.parent r.j i ∧ r.pol.q = p.q) := by
  have recency : ∀ q, q.Perm p.q → policy ≠ .mra →
      let r := p.selectRecency i limit size q
      (r = p.rejected size ∧ limit ≤ size)
        ∨ (size < limit ∧ r.j = size + 1 ∧ r.size = size + 1 ∧ r.pol.perm = p.perm ∧ r.pol.cur = p.cur
            ∧ r.pol.parent = Table.putNum p.parent r.j i ∧ r.pol.q.Perm ((size + 1) :: p.q))
        ∨ (limit ≤ size ∧ r.j ∈ p.q ∧ r.j ≠ i ∧ r.size = size ∧ r.pol.perm = p.perm ∧ r.pol.cur = p.cur
            ∧ r.pol.parent = Table.putNum p.parent r.j i ∧ r.pol.q.Perm p.q) := by
    intro q hq _
    have placed : ∀ j l, (if p.isPerm i then j :: l else insertAfter i j l).Perm (j :: l) := by
      intro j l
      split
      · exact .refl _
      · exact insertAfter_perm i j l
    dsimp only
    unfold PolicyState.selectRecency
    split
    · rename_i hs
      exact .inr (.inl ⟨hs, rfl, rfl, rfl, rfl, rfl, (placed _ _).trans (hq.cons _)⟩)
    · rename_i hs
      split
      · exact .inl ⟨rfl, by omega⟩
      · rename_i j hj
        split
        · exact .inl ⟨rfl, by omega⟩
        · rename_i hji
          have hm : j ∈ q := List.mem_of_getLast? hj
          exact .inr (.inr ⟨by omega, hq.mem_iff.1 hm, hji, rfl, rfl, rfl, rfl,
            (placed _ _).trans ((List.perm_cons_erase hm).symm.trans hq)⟩)
  dsimp only at recency ⊢
  by_cases hp : policy = .mra
  · subst hp
    simp only [PolicyState.select, PolicyState.selectMra]
    split
    · rename_i hs
      exact .inr (.inl ⟨hs, rfl, rfl, rfl, rfl, rfl, rfl⟩)
    · rename_i hs
      split
      · exact .inl ⟨rfl, by omega⟩
      · rename_i hc
        exact .inr (.inr (.inr ⟨by omega, trivial, rfl, hc, rfl, rfl, rfl, rfl, rfl⟩))
  · have hsel : p.select policy limit size draw i
        = p.selectRecency i limit size (p.touched policy limit draw i) := by
      cases policy
      · rfl
      · rfl
      · rfl
      · exact absurd rfl hp
    rw [hsel]
    rcases recency _ (touched_perm p policy limit draw i) hp with h | h | ⟨h1, h2⟩
    · exact .inl h
    · exact .inr (.inl (by simpa only [if_neg hp] using h))
    · exact .inr (.inr (.inl ⟨h1, hp, h2⟩))

/-! ### The next reclaimable number -/

theorem isPerm_iff (p : PolicyState) (k : Nat) : p.isPerm k = true ↔ k ∈ p.perm := by simp [PolicyState.isPerm]

theorem isPerm_false (p : PolicyState) (k : Nat) : p.isPerm k = false ↔ k ∉ p.perm := by simp [PolicyState.isPerm]

/-- Where some number is reclaimable, `NextNonPerm` finds the next one (R176). -/
theorem nextNonPerm_spec {p : PolicyState} {limit k : Nat} (h : ∃ x, 1 ≤ x ∧ x ≤ limit ∧ p.isPerm x = false) :
    IsNextNonPerm p limit k (p.nextNonPerm limit k) := by
  obtain ⟨y, hy1, hy2, hy3⟩ := h
  have mem1 : ∀ x, x ∈ List.range' (k + 1) (limit - k) ↔ k < x ∧ x ≤ limit := by
    intro x
    simp only [List.mem_range'_1]
    omega
  have mem2 : ∀ x, x ∈ List.range' 1 limit ↔ 1 ≤ x ∧ x ≤ limit := by
    intro x
    simp only [List.mem_range'_1]
    omega
  unfold PolicyState.nextNonPerm
  rw [List.find?_append]
  cases h1 : (List.range' (k + 1) (limit - k)).find? fun x => !p.isPerm x with
  | some x =>
    simp only [Option.some_or, Option.getD_some]
    have hm := (mem1 x).1 (List.mem_of_find?_eq_some h1)
    have hx := List.find?_some h1
    obtain ⟨_, as, bs, heq, has⟩ := List.find?_eq_some_iff_append.1 h1
    refine ⟨by omega, hm.2, by simpa using hx, fun _ z hz1 hz2 => ?_, fun hc => by omega⟩
    have hz : z ∈ as := by
      have hzm : z ∈ List.range' (k + 1) (limit - k) := (mem1 z).2 ⟨hz1, by omega⟩
      rw [heq] at hzm
      rcases List.mem_append.1 hzm with hz | hz
      · exact hz
      · exfalso
        have hs : (as ++ x :: bs).Pairwise (· < ·) := heq ▸ List.pairwise_lt_range' _
        have := (List.pairwise_append.1 hs).2.1
        rcases List.mem_cons.1 hz with rfl | hz
        · omega
        · have := (List.pairwise_cons.1 this).1 z hz
          omega
    simpa using has z hz
  | none =>
    have hnone : ∀ z, k < z → z ≤ limit → p.isPerm z = true := by
      intro z hz1 hz2
      have := List.find?_eq_none.1 h1 z ((mem1 z).2 ⟨hz1, hz2⟩)
      simpa using this
    simp only [Option.none_or]
    cases h2 : (List.range' 1 limit).find? fun x => !p.isPerm x with
    | none =>
      have := List.find?_eq_none.1 h2 y ((mem2 y).2 ⟨hy1, hy2⟩)
      simp [hy3] at this
    | some x =>
      simp only [Option.getD_some]
      have hm := (mem2 x).1 (List.mem_of_find?_eq_some h2)
      have hx := List.find?_some h2
      have hx : p.isPerm x = false := by simpa using hx
      obtain ⟨_, as, bs, heq, has⟩ := List.find?_eq_some_iff_append.1 h2
      refine ⟨hm.1, hm.2, hx, fun hc => ?_, fun _ => ⟨hnone, fun z hz1 hz2 => ?_⟩⟩
      · rw [hnone x hc hm.2] at hx
        cases hx
      · have hz : z ∈ as := by
          have hzm : z ∈ List.range' 1 limit := (mem2 z).2 ⟨hz1, by omega⟩
          rw [heq] at hzm
          rcases List.mem_append.1 hzm with hz | hz
          · exact hz
          · exfalso
            have hs : (as ++ x :: bs).Pairwise (· < ·) := heq ▸ List.pairwise_lt_range' _
            have := (List.pairwise_append.1 hs).2.1
            rcases List.mem_cons.1 hz with rfl | hz
            · omega
            · have := (List.pairwise_cons.1 this).1 z hz
              omega
        simpa using has z hz

/-! ### Ancestor chains -/

theorem chain_of {p : PolicyState} {x : Nat} {xs : List Nat} (h : ChainOf p x xs) {fuel : Nat} (hf : xs.length ≤ fuel) :
    p.chain fuel x = (xs, true) := by
  induction xs generalizing x fuel with
  | nil =>
    have h : p.isPerm x = true := h
    cases fuel <;> simp [PolicyState.chain, h]
  | cons y ys ih =>
    obtain ⟨rfl, hx, h⟩ := h
    cases fuel with
    | zero => simp at hf
    | succ fuel =>
      simp only [List.length_cons, Nat.add_le_add_iff_right] at hf
      simp [PolicyState.chain, hx, ih h hf]

/-- The members of a chain are not permanent. -/
theorem ChainOf.nonperm {p : PolicyState} {x : Nat} {xs : List Nat} (h : ChainOf p x xs) :
    ∀ y ∈ xs, p.isPerm y = false := by
  induction xs generalizing x with
  | nil => simp
  | cons y ys ih =>
    obtain ⟨rfl, hx, h⟩ := h
    intro z hz
    rcases List.mem_cons.1 hz with rfl | hz
    · exact hx
    · exact ih h z hz

theorem ChainOf.unique {p : PolicyState} {x : Nat} {xs ys : List Nat} (h : ChainOf p x xs) (k : ChainOf p x ys) :
    xs = ys := by
  have h1 := chain_of h (Nat.le_max_left xs.length ys.length)
  have h2 := chain_of k (Nat.le_max_right xs.length ys.length)
  rw [h1] at h2
  exact (Prod.mk.inj h2).1

/-- From any member of a chain on, the chain is the rest of it. -/
theorem ChainOf.suffix {p : PolicyState} {x : Nat} {xs : List Nat} (h : ChainOf p x xs) {y : Nat} (hy : y ∈ xs) :
    ∃ as bs, xs = as ++ y :: bs ∧ ChainOf p y (y :: bs) := by
  induction xs generalizing x with
  | nil => simp at hy
  | cons z zs ih =>
    have h' := h
    obtain ⟨rfl, hx, h⟩ := h
    rcases List.mem_cons.1 hy with rfl | hy
    · exact ⟨[], zs, rfl, h'⟩
    · obtain ⟨as, bs, rfl, hc⟩ := ih h hy
      exact ⟨z :: as, bs, rfl, hc⟩

/-- A chain that ends meets no number twice. -/
theorem ChainOf.nodup {p : PolicyState} {x : Nat} {xs : List Nat} (h : ChainOf p x xs) : xs.Nodup := by
  induction xs generalizing x with
  | nil => exact .nil
  | cons y ys ih =>
    have h' := h
    obtain ⟨rfl, hx, h⟩ := h
    refine List.nodup_cons.2 ⟨fun hm => ?_, ih h⟩
    obtain ⟨as, bs, rfl, hc⟩ := h.suffix hm
    have := congrArg List.length (h'.unique hc)
    simp at this
    omega

/-- A chain of numbers up to `limit`, 0 being permanent, is no longer than `limit`. -/
theorem ChainOf.length_le {p : PolicyState} {x limit : Nat} {xs : List Nat} (h : ChainOf p x xs)
    (hl : ∀ y ∈ xs, y ≤ limit) : xs.length ≤ limit + 1 := by
  have : xs.length ≤ (List.range (limit + 1)).length :=
    (h.nodup.subperm fun y hy => List.mem_range.2 (by have := hl y hy; omega)).length_le
  simpa using this

/-- Moving a list of queued numbers to the front, one after the other, leaves them there in reverse (R174). -/
theorem foldl_moveFront {xs q : List Nat} (hx : xs.Nodup) (hm : ∀ x ∈ xs, x ∈ q) (hq : q.Nodup) :
    xs.foldl (fun q x => moveFront x q) q = xs.reverse ++ q.filter fun y => decide (y ∉ xs) := by
  induction xs generalizing q with
  | nil => simp
  | cons x xs ih =>
    have hxq : x ∈ q := hm x List.mem_cons_self
    obtain ⟨hx1, hx2⟩ := List.nodup_cons.1 hx
    have hmf : moveFront x q = x :: q.erase x := by rw [moveFront, if_pos hxq]
    have hn : (x :: q.erase x).Nodup := (List.perm_cons_erase hxq).nodup_iff.1 hq
    rw [List.foldl_cons, hmf, ih hx2 (fun y hy => ?_) hn]
    · have h1 : (x :: q.erase x).filter (fun y => decide (y ∉ xs)) = x :: (q.erase x).filter fun y => decide (y ∉ xs) := by
        rw [List.filter_cons_of_pos (by simpa using hx1)]
      rw [h1, List.reverse_cons, List.append_assoc, List.singleton_append, hq.erase_eq_filter, List.filter_filter]
      congr 2
      refine List.filter_congr fun y _ => ?_
      by_cases h1 : y = x <;> by_cases h2 : y ∈ xs <;> simp [h1, h2]
    · exact (List.perm_cons_erase hxq).mem_iff.1 (hm y (List.mem_cons_of_mem _ hy))

theorem insertAfter_append {i j : Nat} {as bs : List Nat} (h : i ∉ as) :
    insertAfter i j (as ++ i :: bs) = as ++ i :: j :: bs := by
  induction as with
  | nil => simp [insertAfter]
  | cons a as ih =>
    simp only [List.mem_cons, not_or] at h
    rw [List.cons_append, insertAfter, if_neg (Ne.symm h.1), ih h.2, List.cons_append]

/-! ### The invariants of the policy -/

/-- `queueOk` without its booleans. -/
structure QueueOk (s : State) : Prop where
  nodup : s.pol.q.Nodup
  range : ∀ k ∈ s.pol.q, 1 ≤ k ∧ k ≤ s.size
  size : s.size ≤ s.setup.limit
  zero : 0 ∈ s.pol.perm
  mra : s.setup.policy = .mra → s.pol.q = []
  full : s.setup.policy ≠ .mra → ∀ k, 1 ≤ k → k ≤ s.size → k ∉ s.pol.perm → k ∈ s.pol.q

theorem queueOk_iff (s : State) : s.queueOk = true ↔ QueueOk s := by
  simp only [State.queueOk, Bool.and_eq_true, decide_eq_true_eq, List.all_eq_true, isPerm_iff]
  constructor
  · rintro ⟨⟨⟨⟨h1, h2⟩, h3⟩, h4⟩, h5⟩
    refine ⟨h1, h2, h3, h4, fun hm => ?_, fun hm k hk1 hk2 hk3 => ?_⟩
    · rw [if_pos hm] at h5
      simpa using h5
    · rw [if_neg hm, List.all_eq_true] at h5
      have := h5 k (List.mem_range'_1.2 (by omega))
      simpa [PolicyState.isPerm, hk3] using this
  · rintro ⟨h1, h2, h3, h4, h5, h6⟩
    refine ⟨⟨⟨⟨h1, h2⟩, h3⟩, h4⟩, ?_⟩
    split
    · rename_i hm
      simp [h5 hm]
    · rename_i hm
      rw [List.all_eq_true]
      intro k hk
      have hk := List.mem_range'_1.1 hk
      by_cases hp : k ∈ s.pol.perm
      · simp [PolicyState.isPerm, hp]
      · simp [h6 hm k (by omega) (by omega) hp]

/-- `cursorOk` without its booleans. -/
structure CursorOk (s : State) : Prop where
  range : s.configured = true → 1 ≤ s.pol.cur ∧ s.pol.cur ≤ s.setup.limit
  free : s.configured = true → ∃ x, 1 ≤ x ∧ x ≤ s.setup.limit ∧ s.pol.isPerm x = false
  mra : s.configured = true → s.setup.policy = .mra → s.pol.isPerm s.pol.cur = false

theorem cursorOk_iff (s : State) : s.cursorOk = true ↔ CursorOk s := by
  simp only [State.cursorOk, Bool.or_eq_true, Bool.and_eq_true, decide_eq_true_eq, List.any_eq_true, Bool.not_eq_true']
  constructor
  · intro h
    have h' : s.configured = true → _ := fun hc => h.resolve_left (by simp [hc])
    refine ⟨fun hc => (h' hc).1.1, fun hc => ?_, fun hc hm => (h' hc).2.resolve_left (by simp [hm])⟩
    obtain ⟨x, hx, hp⟩ := (h' hc).1.2
    have hx := List.mem_range'_1.1 hx
    exact ⟨x, by omega, by omega, hp⟩
  · intro h
    by_cases hc : s.configured = true
    · obtain ⟨x, h1, h2, h3⟩ := h.free hc
      refine .inr ⟨⟨h.range hc, x, List.mem_range'_1.2 (by omega), h3⟩, ?_⟩
      by_cases hm : s.setup.policy = .mra
      · exact .inr (h.mra hc hm)
      · exact .inl (by simpa using hm)
    · exact .inl (by simpa using hc)

theorem QueueOk.congr {s t : State} (h : QueueOk s) (hp : t.pol = s.pol) (hs : t.size = s.size)
    (hu : t.setup = s.setup) : QueueOk t := by
  obtain ⟨h1, h2, h3, h4, h5, h6⟩ := h
  exact ⟨hp ▸ h1, by rw [hp, hs]; exact h2, by rw [hs, hu]; exact h3, hp ▸ h4, by rw [hp, hu]; exact h5, by
    rw [hp, hs, hu]; exact h6⟩

theorem CursorOk.congr {s t : State} (h : CursorOk s) (hp : t.pol = s.pol) (hc : t.configured = s.configured)
    (hu : t.setup = s.setup) : CursorOk t := by
  obtain ⟨h1, h2, h3⟩ := h
  exact ⟨by rw [hp, hc, hu]; exact h1, by rw [hp, hc, hu]; exact h2, by rw [hp, hc, hu]; exact h3⟩

/-- The number the PMATCH rule assigns (R171, R172): 0 or in `1..SIZE`, never `i`, and after a reclaim not a number above
the old SIZE. -/
theorem matchPolicy_number {i j : Nat} {s t : State} (hq : QueueOk s) (hc : CursorOk s)
    (h : matchPolicy i s = .ok (t, j)) :
    (j = 0 ∧ t = s) ∨ (1 ≤ j ∧ j ≤ t.size ∧ j ≠ i ∧ t.size ≤ s.setup.limit ∧ t.pol.perm = s.pol.perm
      ∧ t.pol.parent = Table.putNum s.pol.parent j i
      ∧ ((s.size < s.setup.limit ∧ j = s.size + 1 ∧ t.size = s.size + 1)
        ∨ (s.size = s.setup.limit ∧ t.size = s.size
          ∧ (if s.setup.policy = .mra then j = s.pol.cur else j ∈ s.pol.q)))) := by
  obtain ⟨⟨hconf, -, hi, -⟩, hj, ht⟩ := matchPolicy_ok h
  have hsz := hq.size
  rcases select_cases s.pol s.setup.policy s.setup.limit s.size s.freeCount i with
    ⟨h1, -⟩ | ⟨h1, h2, h3, h4, -, h5, -⟩ | ⟨h1, h2, h3, h4, h5, h6, -, h7, -⟩ | ⟨h1, h2, h3, h4, h5, h6, -, h7, -⟩
  · rw [h1] at hj ht
    exact .inl ⟨hj, ht⟩
  · refine .inr ?_
    rw [ht]
    dsimp only
    rw [h3, h4, h5, ← hj]
    rw [h2] at hj
    exact ⟨by omega, by omega, by omega, by omega, rfl, rfl, .inl ⟨h1, hj, rfl⟩⟩
  · refine .inr ?_
    rw [ht]
    dsimp only
    rw [h5, h6, h7, ← hj]
    rw [← hj] at h3 h4
    have := hq.range j h3
    exact ⟨this.1, this.2, h4, hq.size, rfl, rfl, .inr ⟨by omega, rfl, by rw [if_neg h2]; exact h3⟩⟩
  · refine .inr ?_
    rw [ht]
    dsimp only
    rw [h5, h6, h7, ← hj]
    rw [← hj] at h3
    have := hc.range hconf
    exact ⟨by omega, by omega, by omega, hq.size, rfl, rfl, .inr ⟨by omega, rfl, by rw [if_pos h2]; exact h3⟩⟩

/-- The PMATCH rule keeps the policy's invariants. -/
theorem matchPolicy_queueOk {i j : Nat} {s t : State} (hq : QueueOk s) (h : matchPolicy i s = .ok (t, j)) : QueueOk t := by
  obtain ⟨-, hj, ht⟩ := matchPolicy_ok h
  have hsz := hq.size
  rcases select_cases s.pol s.setup.policy s.setup.limit s.size s.freeCount i with
    ⟨h1, -⟩ | ⟨h1, -, h3, h4, -, -, h6⟩ | ⟨h1, h2, -, -, h5, h6, -, -, h8⟩ | ⟨h1, h2, -, -, h5, h6, -, -, h8⟩
  · rw [h1] at ht
    rw [ht]
    exact hq
  · rw [ht]
    constructor <;> dsimp only
    · split at h6
      · rw [h6]
        exact hq.nodup
      · rw [h6.nodup_iff]
        exact List.nodup_cons.2 ⟨fun hm => by have := hq.range _ hm; omega, hq.nodup⟩
    · intro k hk
      rw [h3]
      split at h6
      · rw [h6] at hk
        have := hq.range k hk
        omega
      · rcases List.mem_cons.1 (h6.mem_iff.1 hk) with rfl | hk
        · omega
        · have := hq.range k hk
          omega
    · rw [h3]
      omega
    · rw [h4]
      exact hq.zero
    · intro hm
      rw [if_pos hm] at h6
      rw [h6]
      exact hq.mra hm
    · intro hm k hk1 hk2 hk3
      rw [if_neg hm] at h6
      rw [h3] at hk2
      rw [h4] at hk3
      rw [h6.mem_iff]
      by_cases hk : k = s.size + 1
      · rw [hk]
        exact List.mem_cons_self
      · exact List.mem_cons_of_mem _ (hq.full hm k hk1 (by omega) hk3)
  · rw [ht]
    constructor <;> dsimp only
    · rw [h8.nodup_iff]
      exact hq.nodup
    · intro k hk
      rw [h5]
      exact hq.range k (h8.mem_iff.1 hk)
    · rw [h5]
      exact hq.size
    · rw [h6]
      exact hq.zero
    · intro hm
      exact absurd hm h2
    · intro hm k hk1 hk2 hk3
      rw [h5] at hk2
      rw [h6] at hk3
      rw [h8.mem_iff]
      exact hq.full hm k hk1 hk2 hk3
  · rw [ht]
    constructor <;> dsimp only
    · rw [h8]
      exact hq.nodup
    · rw [h8, h5]
      exact hq.range
    · rw [h5]
      exact hq.size
    · rw [h6]
      exact hq.zero
    · rw [h8]
      exact hq.mra
    · intro hm
      exact absurd h2 hm

theorem matchPolicy_cursorOk {i j : Nat} {s t : State} (hc : CursorOk s) (h : matchPolicy i s = .ok (t, j)) :
    CursorOk t := by
  obtain ⟨⟨hconf, -⟩, hj, ht⟩ := matchPolicy_ok h
  have keep : ∀ {p : PolicyState} {n : Nat}, p.perm = s.pol.perm → p.cur = s.pol.cur →
      CursorOk { s with pol := p, size := n } := by
    intro p n hp hcur
    have hperm : ∀ x, p.isPerm x = s.pol.isPerm x := fun x => by simp [PolicyState.isPerm, hp]
    refine ⟨fun h => ?_, fun h => ?_, fun h hm => ?_⟩
    · rw [hcur]
      exact hc.range h
    · obtain ⟨x, h1, h2, h3⟩ := hc.free h
      exact ⟨x, h1, h2, (hperm x).trans h3⟩
    · dsimp only
      rw [hperm, hcur]
      exact hc.mra h hm
  rcases select_cases s.pol s.setup.policy s.setup.limit s.size s.freeCount i with
    ⟨h1, -⟩ | ⟨-, -, -, h4, h5, -⟩ | ⟨-, -, -, -, -, h4, h5, -⟩ | ⟨-, -, -, -, -, h4, h5, -⟩
  · rw [h1] at ht
    rw [ht]
    exact hc
  · rw [ht]
    exact keep h4 h5
  · rw [ht]
    exact keep h4 h5
  · rw [ht]
    have hn := nextNonPerm_spec (k := s.pol.cur) (hc.free hconf)
    have hperm : ∀ x, (s.pol.select s.setup.policy s.setup.limit s.size s.freeCount i).pol.isPerm x = s.pol.isPerm x :=
      fun x => by simp [PolicyState.isPerm, h4]
    refine ⟨fun h => ?_, fun h => ?_, fun h hm => ?_⟩ <;> dsimp only
    · rw [h5]
      exact ⟨hn.1, hn.2.1⟩
    · obtain ⟨x, h1, h2, h3⟩ := hc.free h
      exact ⟨x, h1, h2, (hperm x).trans h3⟩
    · rw [hperm, h5]
      exact hn.2.2.1

end Sys2Proof.Machine
end

