-- ==== Sys2Proof/Laws/Links.lean ====
section
/-! SUPPORT. The links of the trie (10_state.md R47, R48): what each arena operation does to them, slot by slot. -/

namespace Sys2Proof.Machine

/-! ### Slots and characters -/

/-- The node in a slot, if any. -/
abbrev State.slot (s : State) (h : Nat) : Option Node := Table.get s.arena h

/-- `NodeChar` of a node (R132). -/
def charOfNode (s : State) (nd : Node) (k : Nat) : Byte :=
  if nd.start = Config.seed then BitVec.ofNat 8 (nd.codewordNo - 1) else s.charAt .src (nd.start + k)

theorem node_of_slot {s : State} {h : Nat} {nd : Node} (hs : s.slot h = some nd) : s.node h = nd := by
  simp only [State.slot] at hs
  simp [State.node, hs]

theorem occupied_iff (s : State) (h : Nat) : s.occupied h = true ↔ ∃ nd, s.slot h = some nd :=
  Option.isSome_iff_exists

theorem occupied_false (s : State) (h : Nat) : s.occupied h = false ↔ s.slot h = none := by
  simp [State.occupied, State.slot]

theorem nodeChar_of_slot {s : State} {h : Nat} {nd : Node} (hs : s.slot h = some nd) (k : Nat) :
    s.nodeChar h k = charOfNode s nd k := by
  unfold State.nodeChar charOfNode
  rw [node_of_slot hs]

theorem child_of_slot {s : State} {h : Nat} {nd : Node} (hs : s.slot h = some nd) (c : Byte) :
    s.child h c = Table.get nd.children c.toNat := by
  unfold State.child
  rw [node_of_slot hs]

theorem activeAt_iff (s : State) (h : Nat) : s.activeAt h = true ↔ ∃ nd, s.slot h = some nd ∧ nd.active = true := by
  unfold State.activeAt
  rw [Bool.and_eq_true, occupied_iff]
  constructor
  · rintro ⟨⟨nd, hs⟩, ha⟩
    exact ⟨nd, hs, by rwa [node_of_slot hs] at ha⟩
  · rintro ⟨nd, hs, ha⟩
    exact ⟨⟨nd, hs⟩, by rwa [node_of_slot hs]⟩

theorem charAt_congr {s t : State} (hm : t.mem = s.mem) (hf : t.freeCount = s.freeCount) (b : Buf) (k : Nat) :
    t.charAt b k = s.charAt b k := by
  simp [State.charAt, State.buf_congr hm, hf]

theorem charOfNode_congr {s t : State} (hm : t.mem = s.mem) (hf : t.freeCount = s.freeCount) (nd : Node) (k : Nat) :
    charOfNode t nd k = charOfNode s nd k := by
  unfold charOfNode
  rw [charAt_congr hm hf]

theorem TrieFrame.charOfNode {s t : State} (h : TrieFrame s t) (nd : Node) (k : Nat) :
    charOfNode t nd k = Machine.charOfNode s nd k := charOfNode_congr h.mem (by rw [h]) nd k

/-! ### Slots after each update -/

theorem slot_updNode (s : State) (h y : Nat) (f : Node → Node) :
    (s.updNode h f).slot y = if y = h then (s.slot y).map f else s.slot y := Table.get_modify s.arena h y f

theorem slot_putNode (s : State) (h y : Nat) (x : Node) : (s.putNode h x).slot y = if y = h then some x else s.slot y := by
  by_cases hy : y = h
  · rw [if_pos hy, hy]
    exact Table.get_put_same _ _ _
  · rw [if_neg hy]
    exact Table.get_put_other _ _ hy

theorem slot_freeNode (s : State) (h y : Nat) : (s.freeNode h).slot y = if y = h then none else s.slot y := by
  by_cases hy : y = h
  · rw [if_pos hy, hy]
    exact Table.get_del_same _ _
  · rw [if_neg hy]
    exact Table.get_del_other _ hy

theorem slot_setParents (l : Table Nat) (p : Nat) (s : State) (y : Nat) :
    (l.foldl (fun u e => u.setParent e.2 p) s).slot y
      = if y ∈ l.map Prod.snd then (s.slot y).map (fun nd => { nd with parent := p }) else s.slot y := by
  induction l generalizing s with
  | nil => rfl
  | cons e l ih =>
    rw [List.foldl_cons, ih]
    unfold State.setParent
    rw [slot_updNode]
    by_cases h1 : y = e.2
    · rw [if_pos h1, if_pos (c := y ∈ (e :: l).map Prod.snd) (by rw [h1]; exact List.mem_cons_self)]
      split <;> simp [Option.map_map, Function.comp_def]
    · rw [if_neg h1]
      simp only [List.map_cons, List.mem_cons, h1, false_or]

/-! ### The links -/

/-- R48 (3) to (5) and R74, whatever the active flags are: a child is deeper, is keyed by its own character, extends the
string of its parent and points back; every node but the root is its parent's child; a node's characters are written. -/
structure Links (s : State) : Prop where
  keys : Table.wf s.arena = true
  maps : ∀ {h nd}, s.slot h = some nd → Table.wf nd.children = true
  root : ∃ r, s.slot 0 = some r ∧ r.length = 0 ∧ r.parent = 0
  chars : ∀ {h nd}, s.slot h = some nd →
    if nd.start = Config.seed then nd.length = 1 else nd.start + nd.length ≤ (s.buf .src).nchars
  down : ∀ {h nd c x}, s.slot h = some nd → Table.get nd.children c = some x →
    ∃ xd, s.slot x = some xd ∧ xd.parent = h ∧ nd.length < xd.length ∧ c = (charOfNode s xd nd.length).toNat
      ∧ ∀ k, k < nd.length → charOfNode s xd k = charOfNode s nd k
  up : ∀ {x xd}, s.slot x = some xd → x ≠ 0 →
    ∃ pd, s.slot xd.parent = some pd ∧ Table.get pd.children (charOfNode s xd pd.length).toNat = some x

theorem mem_children {s : State} (hl : Links s) {h c x : Nat} {nd : Node} (hs : s.slot h = some nd)
    (hm : (c, x) ∈ nd.children) : Table.get nd.children c = some x := Table.get_of_mem (hl.maps hs) hm

/-- The root is nobody's child. -/
theorem Links.child_ne_root {s : State} (hl : Links s) {h c x : Nat} {nd : Node} (hs : s.slot h = some nd)
    (hc : Table.get nd.children c = some x) : x ≠ 0 := by
  rintro rfl
  obtain ⟨xd, hx, -, hlen, -⟩ := hl.down hs hc
  obtain ⟨r, hr, h0, -⟩ := hl.root
  rw [hr] at hx
  cases hx
  omega

/-- A node is not its own parent. -/
theorem Links.parent_ne {s : State} (hl : Links s) {x : Nat} {xd : Node} (hs : s.slot x = some xd) (h0 : x ≠ 0) :
    xd.parent ≠ x := by
  intro hp
  obtain ⟨pd, hpd, hc⟩ := hl.up hs h0
  obtain ⟨yd, hy, -, hlen, -⟩ := hl.down hpd hc
  rw [hp, hs] at hpd
  rw [hs] at hy
  cases hpd
  cases hy
  omega

/-- A parent's string is shorter. -/
theorem Links.parent_length {s : State} (hl : Links s) {x : Nat} {xd pd : Node} (hs : s.slot x = some xd) (h0 : x ≠ 0)
    (hp : s.slot xd.parent = some pd) : pd.length < xd.length := by
  obtain ⟨pd', hpd, hc⟩ := hl.up hs h0
  obtain ⟨yd, hy, -, hlen, -⟩ := hl.down hpd hc
  rw [hp] at hpd
  rw [hs] at hy
  cases hpd
  cases hy
  exact hlen

/-- A node's string extends its parent's. -/
theorem Links.parent_string {s : State} (hl : Links s) {x : Nat} {xd pd : Node} (hs : s.slot x = some xd) (h0 : x ≠ 0)
    (hp : s.slot xd.parent = some pd) {k : Nat} (hk : k < pd.length) : charOfNode s xd k = charOfNode s pd k := by
  obtain ⟨pd', hpd, hc⟩ := hl.up hs h0
  obtain ⟨yd, hy, -, -, -, hstr⟩ := hl.down hpd hc
  rw [hp] at hpd
  rw [hs] at hy
  cases hpd
  cases hy
  exact hstr k hk

/-- Only a node's parent lists it, and only under its own key. -/
theorem Links.listed {s : State} (hl : Links s) {h c x : Nat} {nd xd : Node} (hs : s.slot h = some nd)
    (hx : s.slot x = some xd) (hc : Table.get nd.children c = some x) :
    xd.parent = h ∧ c = (charOfNode s xd nd.length).toNat := by
  obtain ⟨yd, hy, hp, -, hk, -⟩ := hl.down hs hc
  rw [hx] at hy
  cases hy
  exact ⟨hp, hk⟩

/-! ### Relocation renames a handle -/

/-- A node with its handles renamed. -/
def Node.renamed (h t : Nat) (nd : Node) : Node :=
  { nd with parent := rename h t nd.parent, children := nd.children.map fun e => (e.1, rename h t e.2) }

theorem rename_same (h t : Nat) : rename h t h = t := by simp [rename]

theorem rename_other {h t x : Nat} (hx : x ≠ h) : rename h t x = x := by simp [rename, hx]

theorem map_rename_id {h t : Nat} {l : Table Nat} (hl : ∀ c, (c, h) ∉ l) : (l.map fun e => (e.1, rename h t e.2)) = l := by
  induction l with
  | nil => rfl
  | cons e l ih =>
    have he : e.2 ≠ h := fun hc => hl e.1 (by rw [← hc]; exact List.mem_cons_self)
    rw [List.map_cons, ih fun c hc => hl c (List.mem_cons_of_mem _ hc), rename_other he]

theorem get_map_rename (h t : Nat) (l : Table Nat) (c : Nat) :
    Table.get (l.map fun e => (e.1, rename h t e.2)) c = (Table.get l c).map (rename h t) := by
  induction l with
  | nil => rfl
  | cons e l ih =>
    obtain ⟨k, v⟩ := e
    simp only [List.map_cons, Table.get]
    split
    · rfl
    · exact ih

/-- Moving the node in slot `h` to the empty slot `t` renames `h` to `t` everywhere (R134). -/
theorem slot_relocate {s : State} (hl : Links s) {h t : Nat} {nd : Node} (hs : s.slot h = some nd) (h0 : h ≠ 0)
    (ht : s.slot t = none) (y : Nat) :
    (relocate h t s).slot y
      = if y = t then some (nd.renamed h t) else if y = h then none else (s.slot y).map (Node.renamed h t) := by
  have hth : t ≠ h := fun hc => by rw [hc, hs] at ht; cases ht
  have hph : nd.parent ≠ h := hl.parent_ne hs h0
  have hpt : nd.parent ≠ t := fun hc => by
    obtain ⟨pd, hpd, -⟩ := hl.up hs h0
    rw [hc, ht] at hpd
    cases hpd
  have hself : ∀ c, (c, h) ∉ nd.children := fun c hc => hph (hl.listed hs hs (mem_children hl hs hc)).1
  have htc : ∀ c, (c, t) ∉ nd.children := fun c hc => by
    obtain ⟨xd, hx, -⟩ := hl.down hs (mem_children hl hs hc)
    rw [ht] at hx
    cases hx
  have hslot : (relocate h t s).slot y
      = (nd.children.foldl (fun u e => u.setParent e.2 t) (((s.freeNode h).putNode t nd).updNode nd.parent fun p =>
          { p with children := p.children.map fun e => (e.1, rename h t e.2) })).slot y := by
    have hs' : Table.get s.arena h = some nd := hs
    unfold relocate
    rw [hs']
  rw [hslot, slot_setParents]
  simp only [slot_updNode, slot_putNode, slot_freeNode]
  by_cases hyt : y = t
  · subst hyt
    have hn : y ∉ nd.children.map Prod.snd := fun hc => let ⟨c, hc⟩ := Table.mem_snd.1 hc; htc c hc
    rw [if_neg hn, if_neg (Ne.symm hpt), if_pos rfl, if_pos rfl]
    unfold Node.renamed
    rw [rename_other hph, map_rename_id hself]
  · rw [if_neg hyt]
    by_cases hyh : y = h
    · subst hyh
      have hn : y ∉ nd.children.map Prod.snd := fun hc => let ⟨c, hc⟩ := Table.mem_snd.1 hc; hself c hc
      rw [if_neg hn, if_neg (Ne.symm hph), if_neg hyt, if_pos rfl, if_pos rfl]
    · rw [if_neg hyh, if_neg hyt, if_neg hyh]
      cases hy : s.slot y with
      | none => simp
      | some yd =>
        have hpar : y ∈ nd.children.map Prod.snd ↔ yd.parent = h := by
          rw [Table.mem_snd]
          constructor
          · rintro ⟨c, hc⟩
            exact (hl.listed hs hy (mem_children hl hs hc)).1
          · intro hp
            by_cases hy0 : y = 0
            · obtain ⟨r, hr, -, hrp⟩ := hl.root
              rw [hy0, hr] at hy
              cases hy
              exact absurd (hp.symm.trans hrp) h0
            · obtain ⟨pd, hpd, hc⟩ := hl.up hy hy0
              rw [hp, hs] at hpd
              cases hpd
              exact ⟨_, Table.mem_of_get hc⟩
        have hch : y ≠ nd.parent → ∀ c, (c, h) ∉ yd.children := fun hne c hc =>
          hne (hl.listed hy hs (mem_children hl hy hc)).1.symm
        by_cases hp : yd.parent = h
        · rw [if_pos (hpar.2 hp)]
          have hyp : y ≠ nd.parent := by
            intro hc
            obtain ⟨pd, hpd, -⟩ := hl.up hs h0
            have h1 := hl.parent_length hs h0 hpd
            rw [← hc, hy] at hpd
            cases hpd
            have hy0 : y ≠ 0 := by
              rintro rfl
              obtain ⟨r, hr, -, hrp⟩ := hl.root
              rw [hr] at hy
              cases hy
              exact h0 (hp.symm.trans hrp)
            have h2 := hl.parent_length hy hy0 (by rw [hp]; exact hs)
            omega
          rw [if_neg hyp]
          simp only [Option.map_some]
          unfold Node.renamed
          rw [hp, rename_same, map_rename_id (hch hyp)]
        · rw [if_neg (fun hc => hp (hpar.1 hc))]
          by_cases hyp : y = nd.parent
          · rw [if_pos hyp]
            simp only [Option.map_some]
            unfold Node.renamed
            rw [rename_other hp]
          · rw [if_neg hyp]
            simp only [Option.map_some]
            unfold Node.renamed
            rw [rename_other hp, map_rename_id (hch hyp)]

@[simp] theorem renamed_length (h t : Nat) (nd : Node) : (nd.renamed h t).length = nd.length := rfl
@[simp] theorem renamed_start (h t : Nat) (nd : Node) : (nd.renamed h t).start = nd.start := rfl
@[simp] theorem renamed_active (h t : Nat) (nd : Node) : (nd.renamed h t).active = nd.active := rfl
@[simp] theorem renamed_codewordNo (h t : Nat) (nd : Node) : (nd.renamed h t).codewordNo = nd.codewordNo := rfl
@[simp] theorem renamed_parent (h t : Nat) (nd : Node) : (nd.renamed h t).parent = rename h t nd.parent := rfl
@[simp] theorem charOfNode_renamed (s : State) (h t : Nat) (nd : Node) (k : Nat) :
    charOfNode s (nd.renamed h t) k = charOfNode s nd k := rfl

/-- Relocation, by the old handle. -/
theorem slot_relocate_rename {s : State} (hl : Links s) {h t : Nat} {nd : Node} (hs : s.slot h = some nd) (h0 : h ≠ 0)
    (ht : s.slot t = none) {y : Nat} {yd : Node} (hy : s.slot y = some yd) :
    (relocate h t s).slot (rename h t y) = some (yd.renamed h t) := by
  rw [slot_relocate hl hs h0 ht]
  by_cases hyh : y = h
  · subst hyh
    rw [rename_same, if_pos rfl]
    rw [hs] at hy
    cases hy
    rfl
  · rw [rename_other hyh]
    have hyt : y ≠ t := fun hc => by rw [hc, ht] at hy; cases hy
    rw [if_neg hyt, if_neg hyh, hy]
    rfl

/-- Every slot occupied after a relocation comes from one occupied before. -/
theorem slot_relocate_inv {s : State} (hl : Links s) {h t : Nat} {nd : Node} (hs : s.slot h = some nd) (h0 : h ≠ 0)
    (ht : s.slot t = none) {y : Nat} {yd : Node} (hy : (relocate h t s).slot y = some yd) :
    ∃ x xd, s.slot x = some xd ∧ y = rename h t x ∧ yd = xd.renamed h t := by
  rw [slot_relocate hl hs h0 ht] at hy
  split at hy
  · rename_i hyt
    cases hy
    exact ⟨h, nd, hs, by rw [hyt, rename_same], rfl⟩
  · split at hy
    · cases hy
    · rename_i hyh
      cases hx : s.slot y with
      | none =>
        rw [hx] at hy
        cases hy
      | some xd =>
        rw [hx] at hy
        cases hy
        exact ⟨y, xd, hx, (rename_other hyh).symm, rfl⟩

theorem relocate_keeps_frame {s : State} (h t : Nat) : (relocate h t s).mem = s.mem ∧ (relocate h t s).freeCount = s.freeCount :=
  ⟨(relocate_frame h t s).mem, by rw [relocate_frame h t s]⟩

theorem Links.relocate {s : State} (hl : Links s) {h t : Nat} {nd : Node} (hs : s.slot h = some nd) (h0 : h ≠ 0)
    (ht : s.slot t = none) : Links (relocate h t s) := by
  have hfr := relocate_frame h t s
  have hchar : ∀ nd k, charOfNode (Machine.relocate h t s) nd k = charOfNode s nd k := hfr.charOfNode
  have inv : ∀ {y yd}, (Machine.relocate h t s).slot y = some yd → _ := fun hy => slot_relocate_inv hl hs h0 ht hy
  have fwd : ∀ {y yd}, s.slot y = some yd → _ := fun hy => slot_relocate_rename hl hs h0 ht hy
  have hmaps : ∀ {x xd}, s.slot x = some xd → Table.wf (xd.renamed h t).children = true :=
    fun hx => Table.wf_map_entries (hl.maps hx) _
  refine ⟨(ArenaWf.relocate ⟨hl.keys, fun e he => hl.maps (Table.get_of_mem hl.keys he)⟩ h t).keys, ?_, ?_, ?_, ?_, ?_⟩
  · intro y yd hy
    obtain ⟨x, xd, hx, -, rfl⟩ := inv hy
    exact hmaps hx
  · obtain ⟨r, hr, hr0, hrp⟩ := hl.root
    have := fwd hr
    rw [rename_other (Ne.symm h0)] at this
    exact ⟨_, this, hr0, by rw [renamed_parent, hrp, rename_other (Ne.symm h0)]⟩
  · intro y yd hy
    obtain ⟨x, xd, hx, -, rfl⟩ := inv hy
    have := hl.chars hx
    rw [hfr.buf]
    exact this
  · intro y yd c z hy hc
    obtain ⟨x, xd, hx, rfl, rfl⟩ := inv hy
    have hc : (Table.get xd.children c).map (rename h t) = some z := by
      rw [← get_map_rename]
      exact hc
    obtain ⟨w, hw, rfl⟩ := Option.map_eq_some_iff.1 hc
    obtain ⟨wd, hwd, hwp, hlen, hkey, hstr⟩ := hl.down hx hw
    refine ⟨_, fwd hwd, by rw [renamed_parent, hwp], hlen, ?_, fun k hk => ?_⟩
    · rw [hchar]
      exact hkey
    · rw [hchar, hchar]
      exact hstr k hk
  · intro y yd hy hy0
    obtain ⟨x, xd, hx, rfl, rfl⟩ := inv hy
    have hx0 : x ≠ 0 := by
      rintro rfl
      rw [rename_other (Ne.symm h0)] at hy0
      exact hy0 rfl
    obtain ⟨pd, hpd, hc⟩ := hl.up hx hx0
    refine ⟨_, fwd hpd, ?_⟩
    rw [hchar, charOfNode_renamed, renamed_length]
    have := get_map_rename h t pd.children (charOfNode s xd pd.length).toNat
    rw [hc] at this
    exact this

/-! ### Changes that keep every link -/

/-- A change of nodes that keeps lengths, links and strings keeps the links. -/
theorem Links.of_map {s t : State} (hl : Links s) (hfr : TrieFrame s t) (hk : Table.wf t.arena = true)
    (f : Nat → Node → Node) (hs : ∀ y, t.slot y = (s.slot y).map (f y))
    (hlen : ∀ {y nd}, s.slot y = some nd → (f y nd).length = nd.length ∧ (f y nd).parent = nd.parent
      ∧ (f y nd).children = nd.children)
    (hchar : ∀ {y nd}, s.slot y = some nd → ∀ k, k < nd.length → charOfNode s (f y nd) k = charOfNode s nd k)
    (hw : ∀ {y nd}, s.slot y = some nd →
      if (f y nd).start = Config.seed then nd.length = 1 else (f y nd).start + nd.length ≤ (s.buf .src).nchars) :
    Links t := by
  have inv : ∀ {y yd}, t.slot y = some yd → ∃ nd, s.slot y = some nd ∧ yd = f y nd := by
    intro y yd hy
    rw [hs] at hy
    obtain ⟨nd, h1, h2⟩ := Option.map_eq_some_iff.1 hy
    exact ⟨nd, h1, h2.symm⟩
  have fwd : ∀ {y nd}, s.slot y = some nd → t.slot y = some (f y nd) := by
    intro y nd hy
    rw [hs, hy]
    rfl
  have hc : ∀ nd k, charOfNode t nd k = charOfNode s nd k := hfr.charOfNode
  refine ⟨hk, ?_, ?_, ?_, ?_, ?_⟩
  · intro y yd hy
    obtain ⟨nd, h1, rfl⟩ := inv hy
    rw [(hlen h1).2.2]
    exact hl.maps h1
  · obtain ⟨r, hr, h0, hp⟩ := hl.root
    exact ⟨_, fwd hr, (hlen hr).1.trans h0, (hlen hr).2.1.trans hp⟩
  · intro y yd hy
    obtain ⟨nd, h1, rfl⟩ := inv hy
    rw [hfr.buf, (hlen h1).1]
    exact hw h1
  · intro y yd c x hy hcx
    obtain ⟨nd, h1, rfl⟩ := inv hy
    rw [(hlen h1).2.2] at hcx
    obtain ⟨xd, h2, h3, h4, h5, h6⟩ := hl.down h1 hcx
    refine ⟨_, fwd h2, (hlen h2).2.1.trans h3, ?_, ?_, fun k hk => ?_⟩
    · rw [(hlen h1).1, (hlen h2).1]
      exact h4
    · rw [hc, (hlen h1).1, hchar h2 _ h4]
      exact h5
    · rw [(hlen h1).1] at hk
      rw [hc, hc, hchar h2 k (by omega), hchar h1 k hk]
      exact h6 k hk
  · intro x xd hx h0
    obtain ⟨nd, h1, rfl⟩ := inv hx
    obtain ⟨pd, h2, h3⟩ := hl.up h1 h0
    rw [(hlen h1).2.1]
    refine ⟨_, fwd h2, ?_⟩
    rw [(hlen h2).2.2, (hlen h2).1, hc, hchar h1 _ (hl.parent_length h1 h0 h2)]
    exact h3

theorem Links.setActive {s : State} (hl : Links s) (x : Nat) (v : Bool) : Links (s.setActive x v) := by
  refine hl.of_map (t := s.setActive x v) rfl
    (Table.wf_modify hl.keys x fun nd => { nd with active := v }) (fun y nd => if y = x then { nd with active := v } else nd)
    (fun y => ?_) (fun {y nd} _ => ?_) (fun {y nd} _ k _ => ?_) (fun {y nd} hy => ?_)
  · unfold State.setActive
    rw [slot_updNode]
    split
    · rfl
    · simp
  · split <;> exact ⟨rfl, rfl, rfl⟩
  · split <;> rfl
  · have := hl.chars hy
    by_cases hyx : y = x
    · rw [if_pos hyx]
      exact this
    · rw [if_neg hyx]
      exact this

theorem slot_setActive (s : State) (x : Nat) (v : Bool) (y : Nat) :
    (s.setActive x v).slot y = if y = x then (s.slot y).map (fun nd => { nd with active := v }) else s.slot y :=
  slot_updNode s x y _

/-- The links do not look at anything but the arena, SRC and the draw. -/
theorem Links.congr {s t : State} (hl : Links s) (ha : t.arena = s.arena) (hm : t.mem = s.mem)
    (hf : t.freeCount = s.freeCount) : Links t := by
  have hs : ∀ y, t.slot y = s.slot y := fun y => by simp only [State.slot, ha]
  have hc : ∀ nd k, charOfNode t nd k = charOfNode s nd k := charOfNode_congr hm hf
  refine ⟨ha ▸ hl.keys, fun hy => hl.maps (hs _ ▸ hy), ?_, fun hy => ?_, fun hy hcx => ?_, fun hy h0 => ?_⟩
  · obtain ⟨r, hr, h⟩ := hl.root
    exact ⟨r, (hs 0).trans hr, h⟩
  · rw [State.buf_congr hm]
    exact hl.chars (hs _ ▸ hy)
  · obtain ⟨xd, h1, h2, h3, h4, h5⟩ := hl.down (hs _ ▸ hy) hcx
    exact ⟨xd, (hs _).trans h1, h2, h3, by rw [hc]; exact h4, fun k hk => by rw [hc, hc]; exact h5 k hk⟩
  · obtain ⟨pd, h1, h2⟩ := hl.up (hs _ ▸ hy) h0
    exact ⟨pd, (hs _).trans h1, by rw [hc]; exact h2⟩

/-- SRC grew: every character a node refers to stays (R74). -/
theorem Links.src_grown {s t : State} (hl : Links s) (ha : t.arena = s.arena)
    (hb : ∃ l, (t.buf .src).bits = (s.buf .src).bits ++ l) : Links t := by
  obtain ⟨l, hb⟩ := hb
  have hs : ∀ y, t.slot y = s.slot y := fun y => by simp only [State.slot, ha]
  have hlen : (t.buf .src).len = (s.buf .src).len + l.length := by simp [Buffer.len, hb]
  have hn : (s.buf .src).nchars ≤ (t.buf .src).nchars := by
    unfold Buffer.nchars
    omega
  have hchar : ∀ {y nd}, s.slot y = some nd → ∀ k, k < nd.length → charOfNode t nd k = charOfNode s nd k := by
    intro y nd hy k hk
    have hw := hl.chars hy
    unfold charOfNode
    split
    · rfl
    · rename_i hseed
      rw [if_neg hseed] at hw
      have h8 : 8 * (nd.start + k) + 8 ≤ (s.buf .src).len := by
        have := Buffer.nchars_le_len (s.buf .src)
        omega
      unfold State.charAt
      rw [if_pos h8, if_pos (by omega), Buffer.read_append_bits hb (by omega)]
  refine ⟨ha ▸ hl.keys, fun hy => hl.maps (hs _ ▸ hy), ?_, fun hy => ?_, fun hy hcx => ?_, fun hy h0 => ?_⟩
  · obtain ⟨r, hr, h⟩ := hl.root
    exact ⟨r, (hs 0).trans hr, h⟩
  · have := hl.chars (hs _ ▸ hy)
    split at this
    · rename_i h1
      rw [if_pos h1]
      exact this
    · rename_i h1
      rw [if_neg h1]
      omega
  · have hy := hs _ ▸ hy
    obtain ⟨xd, h1, h2, h3, h4, h5⟩ := hl.down hy hcx
    exact ⟨xd, (hs _).trans h1, h2, h3, by rw [hchar h1 _ h3]; exact h4, fun k hk => by
      rw [hchar h1 k (by omega), hchar hy k hk]
      exact h5 k hk⟩
  · have hy := hs _ ▸ hy
    obtain ⟨pd, h1, h2⟩ := hl.up hy h0
    exact ⟨pd, (hs _).trans h1, by rw [hchar hy _ (hl.parent_length hy h0 h1)]; exact h2⟩

/-! ### Unlinking a leaf -/

theorem key_of_slot {s : State} (hl : Links s) {x : Nat} {xd : Node} (hs : s.slot x = some xd) (h0 : x ≠ 0) :
    ∃ pd, s.slot xd.parent = some pd ∧ s.key x = charOfNode s xd pd.length
      ∧ Table.get pd.children (s.key x).toNat = some x := by
  obtain ⟨pd, hp, hc⟩ := hl.up hs h0
  have : s.key x = charOfNode s xd pd.length := by
    unfold State.key
    rw [nodeChar_of_slot hs, node_of_slot hs, node_of_slot hp]
  exact ⟨pd, hp, this, by rw [this]; exact hc⟩

/-- A leaf out of its parent's child map, its slot emptied (R137). -/
def unlink (x : Nat) (s : State) : State :=
  (s.updNode (s.node x).parent fun nd => { nd with children := Table.del nd.children (s.key x).toNat }).freeNode x

theorem slot_unlink {s : State} {x : Nat} {xd : Node} (hs : s.slot x = some xd) {pd : Node}
    (hp : s.slot xd.parent = some pd) (y : Nat) :
    (unlink x s).slot y
      = if y = x then none
        else if y = xd.parent then some { pd with children := Table.del pd.children (s.key x).toNat } else s.slot y := by
  unfold unlink
  rw [slot_freeNode, slot_updNode, node_of_slot hs]
  split
  · rfl
  · split
    · rename_i hy
      rw [hy, hp]
      rfl
    · rfl

theorem unlink_frame (x : Nat) (s : State) : TrieFrame s (unlink x s) := rfl

theorem Links.unlink {s : State} (hl : Links s) {x : Nat} {xd : Node} (hs : s.slot x = some xd) (h0 : x ≠ 0)
    (hleaf : xd.children = []) : Links (unlink x s) := by
  obtain ⟨pd, hp, hkey, hget⟩ := key_of_slot hl hs h0
  have hslot := slot_unlink hs hp
  have hpx : xd.parent ≠ x := hl.parent_ne hs h0
  have hc : ∀ nd k, charOfNode (Machine.unlink x s) nd k = charOfNode s nd k := (unlink_frame x s).charOfNode
  -- every remaining node, and what became of it
  have inv : ∀ {y yd}, (Machine.unlink x s).slot y = some yd → y ≠ x ∧ ∃ od, s.slot y = some od
      ∧ yd = { od with children := yd.children }
      ∧ (∀ c z, Table.get yd.children c = some z → z ≠ x ∧ Table.get od.children c = some z)
      ∧ Table.wf yd.children = true := by
    intro y yd hy
    rw [hslot] at hy
    split at hy
    · cases hy
    · rename_i hyx
      split at hy
      · rename_i hyp
        cases hy
        refine ⟨hyx, pd, hyp ▸ hp, rfl, fun c z hz => ?_, Table.wf_del (hl.maps hp) _⟩
        by_cases hck : c = (s.key x).toNat
        · rw [hck, Table.get_del_same] at hz
          cases hz
        · rw [Table.get_del_other _ hck] at hz
          refine ⟨fun hzx => ?_, hz⟩
          rw [hzx] at hz
          have := (hl.listed hp hs hz).2
          rw [← hkey] at this
          exact hck this
      · rename_i hyp
        refine ⟨hyx, yd, hy, rfl, fun c z hz => ⟨fun hzx => ?_, hz⟩, hl.maps hy⟩
        rw [hzx] at hz
        exact hyp (hl.listed hy hs hz).1.symm
  have fwd : ∀ {y od}, s.slot y = some od → y ≠ x → ∃ ch, (Machine.unlink x s).slot y = some { od with children := ch }
      ∧ ∀ c z, z ≠ x → Table.get od.children c = some z → Table.get ch c = some z := by
    intro y od hy hyx
    rw [hslot, if_neg hyx]
    by_cases hyp : y = xd.parent
    · rw [if_pos hyp]
      rw [hyp, hp] at hy
      cases hy
      refine ⟨_, rfl, fun c z hzx hz => ?_⟩
      have hck : c ≠ (s.key x).toNat := fun hc => by
        rw [hc, hget] at hz
        exact hzx (Option.some.inj hz).symm
      rw [Table.get_del_other _ hck]
      exact hz
    · rw [if_neg hyp]
      exact ⟨od.children, hy, fun _ _ _ hz => hz⟩
  refine ⟨?_, fun hy => ?_, ?_, fun hy => ?_, fun hy hcz => ?_, fun hy hy0 => ?_⟩
  · exact (ArenaWf.freeNode (ArenaWf.updNode ⟨hl.keys, fun e he => hl.maps (Table.get_of_mem hl.keys he)⟩
      fun nd h => Table.wf_del h _) x).keys
  · obtain ⟨-, od, -, -, -, hw⟩ := inv hy
    exact hw
  · obtain ⟨r, hr, h1, h2⟩ := hl.root
    obtain ⟨ch, h3, -⟩ := fwd hr (Ne.symm h0)
    exact ⟨_, h3, h1, h2⟩
  · obtain ⟨-, od, ho, he, -⟩ := inv hy
    have := hl.chars ho
    rw [he]
    exact this
  · obtain ⟨-, od, ho, he, hch, -⟩ := inv hy
    obtain ⟨hzx, hz⟩ := hch _ _ hcz
    obtain ⟨zd, h1, h2, h3, h4, h5⟩ := hl.down ho hz
    obtain ⟨ch, h6, -⟩ := fwd h1 hzx
    refine ⟨_, h6, h2, by rw [he]; exact h3, by rw [hc, he]; exact h4, fun k hk => ?_⟩
    rw [he] at hk
    rw [hc, hc, he]
    exact h5 k hk
  · obtain ⟨hyx, od, ho, he, -, -⟩ := inv hy
    obtain ⟨qd, h1, h2⟩ := hl.up ho hy0
    have hqx : od.parent ≠ x := fun hq => by
      rw [hq, hs] at h1
      cases h1
      rw [hleaf] at h2
      simp [Table.get] at h2
    obtain ⟨ch, h3, h4⟩ := fwd h1 hqx
    refine ⟨_, by rw [he]; exact h3, ?_⟩
    rw [hc, he]
    exact h4 _ _ hyx h2

/-! ### Splicing out a node with one child -/

theorem slot_splice {s : State} (hl : Links s) {x c y : Nat} {xd pd yd : Node} (hs : s.slot x = some xd) (h0 : x ≠ 0)
    (hch : xd.children = [(c, y)]) (hp : s.slot xd.parent = some pd) (hy : s.slot y = some yd) (z : Nat) :
    (splice x s).slot z
      = if z = x then none
        else if z = xd.parent then some { pd with children := Table.put pd.children (s.key x).toNat y }
        else if z = y then some { yd with parent := xd.parent } else s.slot z := by
  have hxy : Table.get xd.children c = some y := by rw [hch]; simp [Table.get]
  obtain ⟨yd', hy', hyp, hlen, -⟩ := hl.down hs hxy
  rw [hy] at hy'
  cases hy'
  have hlp := hl.parent_length hs h0 hp
  have hpy : xd.parent ≠ y := fun hc => by
    rw [hc, hy] at hp
    cases hp
    omega
  unfold splice
  rw [node_of_slot hs, hch]
  dsimp only
  unfold State.setChild State.setParent
  rw [slot_freeNode, slot_updNode, slot_updNode]
  split
  · rfl
  · by_cases hzp : z = xd.parent
    · rw [if_pos hzp, if_pos hzp, if_neg (by rw [hzp]; exact hpy), hzp, hp]
      rfl
    · rw [if_neg hzp, if_neg hzp]
      split
      · rename_i hzy
        rw [hzy, hy]
        rfl
      · rfl

theorem Links.splice {s : State} (hl : Links s) {x c y : Nat} {xd : Node} (hs : s.slot x = some xd) (h0 : x ≠ 0)
    (hch : xd.children = [(c, y)]) : Links (splice x s) := by
  obtain ⟨pd, hp, hkey, hget⟩ := key_of_slot hl hs h0
  have hxy : Table.get xd.children c = some y := by rw [hch]; simp [Table.get]
  obtain ⟨yd, hy, hyp, hlen, hykey, hystr⟩ := hl.down hs hxy
  have hslot := slot_splice hl hs h0 hch hp hy
  have hc : ∀ nd k, charOfNode (Machine.splice x s) nd k = charOfNode s nd k := (splice_frame x s).charOfNode
  have hlp := hl.parent_length hs h0 hp
  have hpx : xd.parent ≠ x := hl.parent_ne hs h0
  have hyx : y ≠ x := fun hc => by
    rw [hc, hs] at hy
    cases hy
    omega
  have hy0 : y ≠ 0 := hl.child_ne_root hs hxy
  have hpy : xd.parent ≠ y := fun hc => by
    rw [hc, hy] at hp
    cases hp
    omega
  -- the string of `y` extends that of `p`, and starts below it with the key of `x`
  have hstrp : ∀ k, k < pd.length → charOfNode s yd k = charOfNode s pd k := fun k hk => by
    rw [hystr k (by omega), hl.parent_string hs h0 hp hk]
  have hkeyy : charOfNode s yd pd.length = s.key x := by rw [hystr _ hlp, hkey]
  have hslotp : (Machine.splice x s).slot xd.parent = some { pd with children := Table.put pd.children (s.key x).toNat y } := by
    rw [hslot, if_neg hpx, if_pos rfl]
  have hsloty : (Machine.splice x s).slot y = some { yd with parent := xd.parent } := by
    rw [hslot, if_neg hyx, if_neg (Ne.symm hpy), if_pos rfl]
  have hother : ∀ {z}, z ≠ x → z ≠ xd.parent → z ≠ y → (Machine.splice x s).slot z = s.slot z := fun h1 h2 h3 => by
    rw [hslot, if_neg h1, if_neg h2, if_neg h3]
  have hxnone : (Machine.splice x s).slot x = none := by rw [hslot, if_pos rfl]
  have hwf : Table.wf (Machine.splice x s).arena = true :=
    (ArenaWf.splice ⟨hl.keys, fun e he => hl.maps (Table.get_of_mem hl.keys he)⟩ x).keys
  -- every node but `x` keeps its body
  have fwd : ∀ {z zd}, s.slot z = some zd → z ≠ x →
      ∃ zd', (Machine.splice x s).slot z = some zd' ∧ zd'.length = zd.length ∧ zd'.start = zd.start
        ∧ zd'.codewordNo = zd.codewordNo ∧ (z ≠ y → zd'.parent = zd.parent) := by
    intro z zd hz hzx
    by_cases h1 : z = xd.parent
    · rw [h1, hp] at hz
      cases hz
      exact ⟨_, (congrArg _ h1).trans hslotp, rfl, rfl, rfl, fun _ => rfl⟩
    · by_cases h2 : z = y
      · rw [h2, hy] at hz
        cases hz
        exact ⟨_, (congrArg _ h2).trans hsloty, rfl, rfl, rfl, fun hc => absurd h2 hc⟩
      · exact ⟨zd, (hother hzx h1 h2).trans hz, rfl, rfl, rfl, fun _ => rfl⟩
  have hcn : ∀ {nd nd' : Node}, nd'.start = nd.start → nd'.codewordNo = nd.codewordNo → ∀ k,
      charOfNode s nd' k = charOfNode s nd k := by
    intro nd nd' h1 h2 k
    unfold charOfNode
    rw [h1, h2]
  refine ⟨hwf, fun {z zd} hz => ?_, ?_, fun {z zd} hz => ?_, fun {z zd c' w} hz hw => ?_, fun {z zd} hz hz0 => ?_⟩
  · rw [hslot] at hz
    split at hz
    · cases hz
    split at hz
    · cases hz
      exact Table.wf_put (hl.maps hp) _ _
    split at hz
    · cases hz
      exact (hl.maps hy :)
    · exact hl.maps hz
  · obtain ⟨r, hr, h1, h2⟩ := hl.root
    obtain ⟨r', h3, h4, -, -, h5⟩ := fwd hr (Ne.symm h0)
    exact ⟨r', h3, h4.trans h1, (h5 (Ne.symm hy0)).trans h2⟩
  · rw [(splice_frame x s).buf]
    rw [hslot] at hz
    split at hz
    · cases hz
    split at hz
    · cases hz
      exact (hl.chars hp :)
    split at hz
    · cases hz
      exact (hl.chars hy :)
    · exact hl.chars hz
  · -- a child of a remaining node
    have old : ∀ {zd0}, s.slot z = some zd0 → z ≠ x → Table.get zd0.children c' = some w → w ≠ x → w ≠ y →
        ∃ wd, (Machine.splice x s).slot w = some wd ∧ wd.parent = z ∧ zd0.length < wd.length
          ∧ c' = (charOfNode s wd zd0.length).toNat ∧ ∀ k, k < zd0.length → charOfNode s wd k = charOfNode s zd0 k := by
      intro zd0 hz0 hzx hw hwx hwy
      obtain ⟨wd, h1, h2, h3, h4, h5⟩ := hl.down hz0 hw
      obtain ⟨wd', h6, h7, h8, h9, h10⟩ := fwd h1 hwx
      exact ⟨wd', h6, (h10 hwy).trans h2, by omega, by rw [hcn h8 h9]; exact h4, fun k hk => by
        rw [hcn h8 h9]
        exact h5 k hk⟩
    have hzx : z ≠ x := fun hc => by
      rw [hc, hxnone] at hz
      cases hz
    by_cases h1 : z = xd.parent
    · subst h1
      rw [hslotp] at hz
      cases hz
      by_cases h2 : c' = (s.key x).toNat
      · rw [h2, Table.get_put_same] at hw
        cases hw
        refine ⟨_, hsloty, rfl, by dsimp only; omega, ?_, fun k hk => ?_⟩
        · rw [hc, h2]
          dsimp only
          rw [hcn (nd := yd) (nd' := { yd with parent := xd.parent }) rfl rfl, hkeyy]
        · rw [hc, hc]
          exact hstrp k hk
      · dsimp only at hw
        rw [Table.get_put_other _ _ h2] at hw
        have hwx : w ≠ x := fun hc => by
          rw [hc] at hw
          have := (hl.listed hp hs hw).2
          rw [← hkey] at this
          exact h2 this
        have hwy : w ≠ y := fun hc => by
          rw [hc] at hw
          exact hpx ((hl.listed hp hy hw).1.symm.trans hyp)
        obtain ⟨wd, h3, h4, h5, h6, h7⟩ := old hp hpx hw hwx hwy
        exact ⟨wd, h3, h4, h5, by rw [hc]; exact h6, fun k hk => by rw [hc, hc]; exact h7 k hk⟩
    · have hz' : ∃ zd0, s.slot z = some zd0 ∧ zd0.children = zd.children ∧ zd0.length = zd.length
          ∧ zd0.start = zd.start ∧ zd0.codewordNo = zd.codewordNo := by
        by_cases h2 : z = y
        · rw [h2, hsloty] at hz
          cases hz
          exact ⟨yd, h2 ▸ hy, rfl, rfl, rfl, rfl⟩
        · rw [hother hzx h1 h2] at hz
          exact ⟨zd, hz, rfl, rfl, rfl, rfl⟩
      obtain ⟨zd0, hz0, e1, e2, e3, e4⟩ := hz'
      rw [← e1] at hw
      have hwx : w ≠ x := fun hc => by
        rw [hc] at hw
        exact h1 (hl.listed hz0 hs hw).1.symm
      have hwy : w ≠ y := fun hc => by
        rw [hc] at hw
        exact hzx ((hl.listed hz0 hy hw).1.symm.trans hyp)
      obtain ⟨wd, h3, h4, h5, h6, h7⟩ := old hz0 hzx hw hwx hwy
      refine ⟨wd, h3, h4, by omega, by rw [hc, ← e2]; exact h6, fun k hk => ?_⟩
      rw [hc, hc, hcn e3.symm e4.symm]
      exact h7 k (by omega)
  · have hzx : z ≠ x := fun hc => by
      rw [hc, hxnone] at hz
      cases hz
    by_cases h2 : z = y
    · subst h2
      rw [hsloty] at hz
      cases hz
      refine ⟨_, hslotp, ?_⟩
      dsimp only
      rw [hc, hcn (nd := yd) (nd' := { yd with parent := xd.parent }) rfl rfl, hkeyy, Table.get_put_same]
    · have hz' : ∃ zd0, s.slot z = some zd0 ∧ zd0.parent = zd.parent ∧ zd0.start = zd.start
          ∧ zd0.codewordNo = zd.codewordNo := by
        by_cases h1 : z = xd.parent
        · rw [h1, hslotp] at hz
          cases hz
          exact ⟨pd, h1 ▸ hp, rfl, rfl, rfl⟩
        · rw [hother hzx h1 h2] at hz
          exact ⟨zd, hz, rfl, rfl, rfl⟩
      obtain ⟨zd0, hz0', e1, e2, e3⟩ := hz'
      obtain ⟨qd, h3, h4⟩ := hl.up hz0' hz0
      rw [e1] at h3
      have hqx : zd.parent ≠ x := fun hq => by
        rw [hq, hs] at h3
        cases h3
        rw [hch] at h4
        simp only [Table.get] at h4
        split at h4
        · exact h2 (Option.some.inj h4).symm
        · cases h4
      by_cases h1 : zd.parent = xd.parent
      · rw [h1, hp] at h3
        cases h3
        refine ⟨_, (congrArg _ h1).trans hslotp, ?_⟩
        dsimp only
        rw [hc, ← hcn e2 e3]
        rw [Table.get_put_other]
        · exact h4
        · intro hck
          rw [hck, hget] at h4
          exact hzx (Option.some.inj h4).symm
      · obtain ⟨qd', h5, h6, h7, h8, -⟩ := fwd h3 hqx
        refine ⟨qd', h5, ?_⟩
        have hqc : qd'.children = qd.children := by
          rw [hslot, if_neg hqx, if_neg h1] at h5
          split at h5
          · rename_i hqy
            rw [hqy, hy] at h3
            cases h5
            cases h3
            rfl
          · rw [h3] at h5
            cases h5
            rfl
        rw [hc, h6, hqc, ← hcn e2 e3]
        exact h4

end Sys2Proof.Machine
end

