-- ==== Sys2Proof/Laws/Extend.lean ====
section
/-! SUPPORT. What TEXTEND's three steps and RemoveNode do to the trie (41_trie.md R133 to R137): links, layout, branching
and strings. -/

namespace Sys2Proof.Machine

/-! ### Inserting a node below `i` (cases 1 and 2) -/

/-- The child map of a node inserted above the old child, if there is one (R135). -/
def insertedChildren (s : State) (depth : Nat) : Option Nat → Table Nat
  | none => []
  | some h => [((s.nodeChar h depth).toNat, h)]

theorem slot_insert {s : State} {i j : Nat} {c : Byte} {id nd : Node} (hi : s.slot i = some id) (hij : i ≠ j)
    {H : Option Nat} (hji : ∀ h, H = some h → h ≠ i ∧ h ≠ j) (z : Nat) :
    (match H with
      | none => (s.putNode j nd).setChild i c j
      | some h => ((s.putNode j nd).setChild i c j).setParent h j).slot z
      = if z = j then some nd
        else if z = i then some { id with children := Table.put id.children c.toNat j }
        else if H = some z then (s.slot z).map (fun m => { m with parent := j }) else s.slot z := by
  cases H with
  | none =>
    unfold State.setChild
    rw [slot_updNode, slot_putNode]
    by_cases hz : z = j
    · rw [if_pos hz, if_pos hz, if_neg (by rw [hz]; exact Ne.symm hij)]
    · rw [if_neg hz, if_neg hz]
      split
      · rename_i hzi
        rw [hzi, hi]
        rfl
      · rfl
  | some h =>
    obtain ⟨h1, h2⟩ := hji h rfl
    unfold State.setParent State.setChild
    rw [slot_updNode, slot_updNode, slot_putNode]
    by_cases hz : z = j
    · rw [if_pos hz, if_pos hz, if_neg (by rw [hz]; exact Ne.symm h2), if_neg (by rw [hz]; exact Ne.symm hij)]
    · rw [if_neg hz, if_neg hz]
      by_cases hzi : z = i
      · rw [if_pos hzi, if_pos hzi, if_neg (by rw [hzi]; exact Ne.symm h1), hzi, hi]
        rfl
      · rw [if_neg hzi, if_neg hzi]
        by_cases hzh : z = h
        · rw [if_pos hzh, if_pos (by rw [hzh])]
        · rw [if_neg hzh, if_neg (fun hc => hzh (Option.some.inj hc).symm)]

/-- Inserting a node that spells `STR(i) ++ c` below `i`, above the old child on `c` if there is a longer one. -/
theorem Links.insert {s t : State} (hl : Links s) (hfr : TrieFrame s t) (hk : Table.wf t.arena = true) {i j : Nat} {c : Byte}
    {id nd : Node} (hi : s.slot i = some id) (hj : s.slot j = none) {H : Option Nat}
    (hH : Table.get id.children c.toNat = H) (hlong : ∀ h hd, H = some h → s.slot h = some hd → id.length + 1 < hd.length)
    (hslot : ∀ z, t.slot z = if z = j then some nd
        else if z = i then some { id with children := Table.put id.children c.toNat j }
        else if H = some z then (s.slot z).map (fun m => { m with parent := j }) else s.slot z)
    (hlen : nd.length = id.length + 1) (hpar : nd.parent = i) (hseed : nd.start ≠ Config.seed)
    (hch : nd.children = insertedChildren s (id.length + 1) H)
    (hin : nd.start + nd.length ≤ (s.buf .src).nchars)
    (hsp : ∀ k, k < id.length → s.charAt .src (nd.start + k) = charOfNode s id k)
    (hc : c = s.charAt .src (nd.start + id.length)) : Links t := by
  have hij : i ≠ j := fun h => by rw [h, hj] at hi; cases hi
  have hcn : ∀ nd k, charOfNode t nd k = charOfNode s nd k := hfr.charOfNode
  have hj0 : j ≠ 0 := by
    rintro rfl
    obtain ⟨r, hr, -⟩ := hl.root
    rw [hj] at hr
    cases hr
  have hndc : ∀ k, charOfNode s nd k = s.charAt .src (nd.start + k) := fun k => by
    unfold charOfNode
    rw [if_neg hseed]
  have hslotj : t.slot j = some nd := by rw [hslot, if_pos rfl]
  have hsloti : t.slot i = some { id with children := Table.put id.children c.toNat j } := by
    rw [hslot, if_neg hij, if_pos rfl]
  -- the old child on `c`
  have old : ∀ h, H = some h → ∃ hd, s.slot h = some hd ∧ hd.parent = i ∧ id.length + 1 < hd.length
      ∧ (∀ k, k < id.length → charOfNode s hd k = charOfNode s id k) ∧ charOfNode s hd id.length = c := by
    intro h hh
    rw [hh] at hH
    obtain ⟨hd, h1, h2, -, h4, h5⟩ := hl.down hi hH
    exact ⟨hd, h1, h2, hlong h hd hh h1, h5, (BitVec.toNat_inj.1 h4).symm⟩
  have hne : ∀ h, H = some h → h ≠ i ∧ h ≠ j ∧ h ≠ 0 := by
    intro h hh
    obtain ⟨hd, h1, -, h3, -⟩ := old h hh
    refine ⟨fun hc => ?_, fun hc => ?_, ?_⟩
    · rw [hc, hi] at h1
      cases h1
      omega
    · rw [hc, hj] at h1
      cases h1
    · rw [hh] at hH
      exact hl.child_ne_root hi hH
  -- every old node keeps its body
  have fwd : ∀ {z zd}, s.slot z = some zd → ∃ zd', t.slot z = some zd' ∧ zd'.length = zd.length ∧ zd'.start = zd.start
      ∧ zd'.codewordNo = zd.codewordNo ∧ (H ≠ some z → zd'.parent = zd.parent) ∧ (H = some z → zd'.parent = j)
      ∧ (z ≠ i → zd'.children = zd.children) := by
    intro z zd hz
    have hzj : z ≠ j := fun h => by rw [h, hj] at hz; cases hz
    by_cases hzi : z = i
    · rw [hzi, hi] at hz
      cases hz
      exact ⟨_, (congrArg _ hzi).trans hsloti, rfl, rfl, rfl, fun _ => rfl, fun hh => absurd hzi (hne z hh).1,
        fun hc => absurd hzi hc⟩
    · rw [hslot, if_neg hzj, if_neg hzi]
      by_cases hzh : H = some z
      · rw [if_pos hzh, hz]
        exact ⟨_, rfl, rfl, rfl, rfl, fun h => absurd hzh h, fun _ => rfl, fun _ => rfl⟩
      · rw [if_neg hzh]
        exact ⟨zd, hz, rfl, rfl, rfl, fun _ => rfl, fun h => absurd h hzh, fun _ => rfl⟩
  have bwd : ∀ {z zd'}, t.slot z = some zd' → z ≠ j → ∃ zd, s.slot z = some zd := by
    intro z zd' hz hzj
    rw [hslot, if_neg hzj] at hz
    split at hz
    · rename_i hzi
      exact ⟨id, hzi ▸ hi⟩
    · split at hz
      · obtain ⟨zd, h1, -⟩ := Option.map_eq_some_iff.1 hz
        exact ⟨zd, h1⟩
      · exact ⟨zd', hz⟩
  have hbody : ∀ {nd nd' : Node}, nd'.start = nd.start → nd'.codewordNo = nd.codewordNo → ∀ k,
      charOfNode s nd' k = charOfNode s nd k := by
    intro nd nd' h1 h2 k
    unfold charOfNode
    rw [h1, h2]
  refine ⟨hk, fun {z zd} hz => ?_, ?_, fun {z zd} hz => ?_, fun {z zd c' w} hz hw => ?_, fun {z zd} hz hz0 => ?_⟩
  · rw [hslot] at hz
    split at hz
    · cases hz
      rw [hch]
      cases H <;> simp [insertedChildren, Table.wf]
    split at hz
    · cases hz
      exact Table.wf_put (hl.maps hi) _ _
    split at hz
    · obtain ⟨od, h1, rfl⟩ := Option.map_eq_some_iff.1 hz
      exact (hl.maps h1 :)
    · exact hl.maps hz
  · obtain ⟨r, hr, h1, h2⟩ := hl.root
    obtain ⟨r', h3, h4, -, -, h5, -⟩ := fwd hr
    exact ⟨r', h3, h4.trans h1, (h5 fun hh => (hne 0 hh).2.2 rfl).trans h2⟩
  · rw [hfr.buf]
    rw [hslot] at hz
    split at hz
    · cases hz
      rw [if_neg hseed]
      exact hin
    split at hz
    · cases hz
      exact (hl.chars hi :)
    split at hz
    · obtain ⟨od, h1, rfl⟩ := Option.map_eq_some_iff.1 hz
      exact (hl.chars h1 :)
    · exact hl.chars hz
  · by_cases hzj : z = j
    · -- the new node's only child is the old child on `c`
      rw [hzj, hslotj] at hz
      cases hz
      rw [hch] at hw
      cases hHh : H with
      | none =>
        rw [hHh] at hw
        simp [insertedChildren, Table.get] at hw
      | some h =>
        rw [hHh] at hw
        simp only [insertedChildren, Table.get] at hw
        split at hw
        · rename_i hck
          cases hw
          obtain ⟨hd, h1, h2, h3, h4, h5⟩ := old w hHh
          obtain ⟨hd', h6, h7, h8, h9, -, h10, -⟩ := fwd h1
          refine ⟨hd', h6, (h10 hHh).trans hzj.symm, by omega, ?_, fun k hk => ?_⟩
          · rw [hck, hcn, hbody h8 h9, nodeChar_of_slot h1, hlen]
          · rw [hcn, hcn, hbody h8 h9, hndc]
            by_cases hk' : k < id.length
            · rw [h4 k hk', hsp k hk']
            · have : k = id.length := by omega
              rw [this, h5, hc]
        · cases hw
    · obtain ⟨zd0, hz0⟩ := bwd hz hzj
      obtain ⟨zd', h1, h2, h3, h4, -, -, h7⟩ := fwd hz0
      rw [h1] at hz
      cases hz
      -- a child the new node did not take over
      have keep : Table.get zd0.children c' = some w → H ≠ some w →
          ∃ wd, t.slot w = some wd ∧ wd.parent = z ∧ zd.length < wd.length
            ∧ c' = (charOfNode t wd zd.length).toNat ∧ ∀ k, k < zd.length → charOfNode t wd k = charOfNode t zd k := by
        intro hw hwH
        obtain ⟨wd, g1, g2, g3, g4, g5⟩ := hl.down hz0 hw
        obtain ⟨wd', g6, g7, g8, g9, g10, -⟩ := fwd g1
        refine ⟨wd', g6, (g10 hwH).trans g2, by omega, by rw [hcn, h2, hbody g8 g9]; exact g4, fun k hk => ?_⟩
        rw [hcn, hcn, hbody g8 g9, hbody h3 h4]
        exact g5 k (by omega)
      by_cases hzi : z = i
      · rw [hzi, hi] at hz0
        cases hz0
        rw [hzi, hsloti] at h1
        cases h1
        by_cases hcc : c' = c.toNat
        · rw [hcc, Table.get_put_same] at hw
          cases hw
          refine ⟨nd, hslotj, by rw [hpar, hzi], by dsimp only; omega, ?_, fun k hk => ?_⟩
          · rw [hcc, hcn, hndc, hc]
          · rw [hcn, hcn, hndc]
            exact hsp k hk
        · dsimp only at hw
          rw [Table.get_put_other _ _ hcc] at hw
          refine keep hw fun hwH => hcc ?_
          rw [hwH] at hH
          obtain ⟨wd, g1, -⟩ := hl.down hi hw
          exact (hl.listed hi g1 hw).2.trans (hl.listed hi g1 hH).2.symm
      · rw [h7 hzi] at hw
        refine keep hw fun hwH => ?_
        obtain ⟨wd, g1, g2, -⟩ := hl.down hz0 hw
        obtain ⟨hd, e1, e2, -⟩ := old w hwH
        rw [g1] at e1
        cases e1
        exact hzi (g2.symm.trans e2)
  · by_cases hzj : z = j
    · rw [hzj, hslotj] at hz
      cases hz
      refine ⟨_, by rw [hpar]; exact hsloti, ?_⟩
      dsimp only
      rw [hcn, hndc, ← hc, Table.get_put_same, hzj]
    · obtain ⟨zd0, hz0s⟩ := bwd hz hzj
      obtain ⟨zd', h1, h2, h3, h4, h5, h6, -⟩ := fwd hz0s
      rw [h1] at hz
      cases hz
      by_cases hzH : H = some z
      · obtain ⟨hd, g1, -, -, -, -⟩ := old z hzH
        rw [hz0s] at g1
        cases g1
        refine ⟨nd, by rw [h6 hzH]; exact hslotj, ?_⟩
        rw [hch, hzH, hcn, hbody h3 h4, hlen]
        simp only [insertedChildren, Table.get]
        rw [nodeChar_of_slot hz0s, if_pos rfl]
      · obtain ⟨pd, g1, g2⟩ := hl.up hz0s hz0
        obtain ⟨pd', g3, g4, -, -, -, -, g5⟩ := fwd g1
        refine ⟨pd', by rw [h5 hzH]; exact g3, ?_⟩
        rw [hcn, hbody h3 h4, g4]
        by_cases hpi : zd0.parent = i
        · rw [hpi, hi] at g1
          cases g1
          rw [hpi, hsloti] at g3
          cases g3
          dsimp only
          rw [Table.get_put_other]
          · exact g2
          · intro hck
            rw [hck, hH] at g2
            exact hzH g2
        · rw [g5 hpi]
          exact g2

end Sys2Proof.Machine
end

