-- ==== Sys2Proof/Laws/Codewords.lean ====
section
/-! SUPPORT. Laws of codewords of the arena: a node's string, the slots a string operation leaves, and what links are kept. -/

namespace Sys2Proof.Machine

/-! ### Bodies: what a codeword is, whatever its links -/

/-- The body of the active node in a slot: `begin`, length and codeword number. -/
def State.body (s : State) (h : Nat) : Option (Nat × Nat × Nat) :=
  (s.slot h).bind fun nd => if nd.active = true then some (nd.start, nd.length, nd.codewordNo) else none

theorem body_of_slot {s : State} {h : Nat} {nd : Node} (hs : s.slot h = some nd) :
    s.body h = if nd.active = true then some (nd.start, nd.length, nd.codewordNo) else none := by
  rw [State.body, hs]
  rfl

theorem body_none {s : State} {h : Nat} (hs : s.slot h = none) : s.body h = none := by
  rw [State.body, hs]
  rfl

theorem body_congr {s t : State} {h k : Nat} (hs : t.slot h = s.slot k) : t.body h = s.body k := by
  rw [State.body, hs]
  rfl

theorem body_some {s : State} {h b n k : Nat} (hb : s.body h = some (b, n, k)) :
    ∃ nd, s.slot h = some nd ∧ nd.active = true ∧ nd.start = b ∧ nd.length = n ∧ nd.codewordNo = k := by
  unfold State.body at hb
  obtain ⟨nd, h1, h2⟩ := Option.bind_eq_some_iff.1 hb
  split at h2
  · rename_i h3
    cases h2
    exact ⟨nd, h1, h3, rfl, rfl, rfl⟩
  · cases h2

theorem activeAt_body (s : State) (h : Nat) : s.activeAt h = (s.body h).isSome := by
  rw [Bool.eq_iff_iff, activeAt_iff, Option.isSome_iff_exists]
  constructor
  · rintro ⟨nd, h1, h2⟩
    exact ⟨_, by rw [body_of_slot h1, if_pos h2]⟩
  · rintro ⟨⟨b, n, k⟩, hb⟩
    obtain ⟨nd, h1, h2, -⟩ := body_some hb
    exact ⟨nd, h1, h2⟩

theorem activeAt_congr {s t : State} {h : Nat} (hb : t.body h = s.body h) : t.activeAt h = s.activeAt h := by
  rw [activeAt_body, activeAt_body, hb]

/-- A codeword with the same body, over the same input, spells the same string (R50). -/
theorem nodeString_congr {s t : State} {h : Nat} (hb : t.body h = s.body h) (ha : s.activeAt h = true)
    (hm : t.mem = s.mem) (hf : t.freeCount = s.freeCount) : t.nodeString h = s.nodeString h := by
  rw [activeAt_body, Option.isSome_iff_exists] at ha
  obtain ⟨⟨b, n, k⟩, hs⟩ := ha
  obtain ⟨nd, h1, -, h2, h3, h4⟩ := body_some hs
  obtain ⟨nd', g1, -, g2, g3, g4⟩ := body_some (hb.trans hs)
  unfold State.nodeString
  rw [node_of_slot h1, node_of_slot g1, g3, h3]
  refine List.map_congr_left fun x _ => ?_
  rw [nodeChar_of_slot g1, nodeChar_of_slot h1, charOfNode_congr hm hf]
  unfold charOfNode
  rw [g2, h2, g4, h4]

/-- A change of a node that keeps its body. -/
def Node.SameBody (a b : Node) : Prop :=
  b.active = a.active ∧ b.start = a.start ∧ b.length = a.length ∧ b.codewordNo = a.codewordNo

theorem body_of_map {s t : State} {h : Nat} {f : Node → Node} (hs : t.slot h = (s.slot h).map f)
    (hf : ∀ nd, s.slot h = some nd → nd.SameBody (f nd)) : t.body h = s.body h := by
  cases hh : s.slot h with
  | none =>
    rw [hh] at hs
    rw [body_none hh, body_none hs]
  | some nd =>
    rw [hh] at hs
    obtain ⟨h1, h2, h3, h4⟩ := hf nd hh
    rw [body_of_slot hh, body_of_slot (nd := f nd) hs, h1, h2, h3, h4]

/-! ### The trie: links, layout, branching, seeds -/

/-- R47, R48 (2) to (5): the trie, with one node `x` that may break the layout and the branching rule while it is being
removed. -/
structure TrieBut (x : Option Nat) (s : State) : Prop where
  links : Links s
  low : ∀ {h nd}, s.slot h = some nd → h ≤ s.setup.limit → x ≠ some h → nd.active = true ∧ nd.codewordNo = h
  high : ∀ {h nd}, s.slot h = some nd → s.setup.limit < h → nd.active = false ∧ h ≤ 2 * s.setup.limit + 1
  branch : ∀ {h nd}, s.slot h = some nd → nd.active = false → x ≠ some h → 2 ≤ nd.children.length
  seeds : ∀ {h nd}, s.slot h = some nd → nd.start = Config.seed → 1 ≤ h ∧ h ≤ s.nseed
  room : s.nseed ≤ s.setup.limit

theorem TrieBut.weaken {s : State} (h : TrieBut none s) (x : Option Nat) : TrieBut x s :=
  ⟨h.links, fun hs hl _ => h.low hs hl nofun, h.high, fun hs ha _ => h.branch hs ha nofun, h.seeds, h.room⟩

/-- With nothing in the exempted slot, nothing is exempted. -/
theorem TrieBut.of_empty {s : State} {x : Nat} (h : TrieBut (some x) s) (hx : s.slot x = none) : TrieBut none s := by
  have ne : ∀ {y nd}, s.slot y = some nd → some x ≠ some y := by
    rintro y nd hy hc
    cases hc
    rw [hx] at hy
    cases hy
  exact ⟨h.links, fun hs hl _ => h.low hs hl (ne hs), h.high, fun hs ha _ => h.branch hs ha (ne hs), h.seeds, h.room⟩

/-- What an operation on the trie keeps: the rest of the state, and the codewords but `x`'s. -/
structure KeepsWords (x : Option Nat) (s t : State) : Prop where
  frame : TrieFrame s t
  body : ∀ h, x ≠ some h → t.body h = s.body h

theorem KeepsWords.trans {x : Option Nat} {s t u : State} (h : KeepsWords x s t) (k : KeepsWords x t u) :
    KeepsWords x s u := ⟨h.frame.trans k.frame, fun y hy => (k.body y hy).trans (h.body y hy)⟩

theorem KeepsWords.weaken {s t : State} (h : KeepsWords none s t) (x : Option Nat) : KeepsWords x s t :=
  ⟨h.frame, fun y _ => h.body y nofun⟩

theorem KeepsWords.refl (x : Option Nat) (s : State) : KeepsWords x s s := ⟨rfl, fun _ _ => rfl⟩

/-! ### Retiring a node -/

theorem TrieBut.setInactive {s : State} {x : Nat} (h : TrieBut (some x) s) : TrieBut (some x) (s.setActive x false) := by
  have inv : ∀ {y yd}, (s.setActive x false).slot y = some yd → ∃ od, s.slot y = some od
      ∧ yd = if y = x then { od with active := false } else od := by
    intro y yd hy
    rw [slot_setActive] at hy
    split at hy
    · rename_i hyx
      obtain ⟨od, h1, rfl⟩ := Option.map_eq_some_iff.1 hy
      exact ⟨od, h1, by rw [if_pos hyx]⟩
    · rename_i hyx
      exact ⟨yd, hy, by rw [if_neg hyx]⟩
  refine ⟨h.links.setActive x false, fun {y yd} hy hl hx => ?_, fun {y yd} hy hl => ?_, fun {y yd} hy ha hx => ?_,
    fun {y yd} hy hs => ?_, h.room⟩ <;> obtain ⟨od, h1, h2⟩ := inv hy
  · rw [if_neg (fun hc => hx (by rw [hc]))] at h2
    rw [h2]
    exact h.low h1 hl hx
  · have h3 := h.high h1 hl
    refine ⟨?_, h3.2⟩
    rw [h2]
    split
    · rfl
    · exact h3.1
  · rw [if_neg (fun hc => hx (by rw [hc]))] at h2
    rw [h2] at ha ⊢
    exact h.branch h1 ha hx
  · refine h.seeds h1 ?_
    rw [h2] at hs
    split at hs <;> exact hs

theorem setInactive_body (s : State) (x h : Nat) :
    (s.setActive x false).body h = if h = x then none else s.body h := by
  by_cases hx : h = x
  · rw [if_pos hx]
    cases hs : s.slot h with
    | none => exact body_none (by rw [slot_setActive, if_pos hx, hs]; rfl)
    | some nd =>
      have : (s.setActive x false).slot h = some { nd with active := false } := by
        rw [slot_setActive, if_pos hx, hs]
        rfl
      rw [body_of_slot this]
      rfl
  · rw [if_neg hx]
    exact body_congr (by rw [slot_setActive, if_neg hx])

/-- Emptying a slot that holds no active node keeps every codeword, if the other nodes keep their bodies. -/
theorem body_of_freed {s t : State} {x : Nat} (hx : t.slot x = none) (hb : s.body x = none)
    (h : ∀ y, y ≠ x → t.body y = s.body y) (y : Nat) : t.body y = s.body y := by
  by_cases hy : y = x
  · rw [hy, hb, body_none hx]
  · exact h y hy

theorem unlink_body {s : State} {x : Nat} {xd pd : Node} (hs : s.slot x = some xd) (hp : s.slot xd.parent = some pd)
    (hb : s.body x = none) (y : Nat) : (unlink x s).body y = s.body y := by
  refine body_of_freed (x := x) (by rw [slot_unlink hs hp, if_pos rfl]) hb (fun y hy => ?_) y
  refine body_of_map (f := fun nd => if y = xd.parent then { nd with children := Table.del nd.children (s.key x).toNat } else nd)
    ?_ (fun nd _ => by split <;> exact ⟨rfl, rfl, rfl, rfl⟩)
  rw [slot_unlink hs hp, if_neg hy]
  split
  · rename_i h
    rw [h, hp]
    rfl
  · simp

theorem splice_body {s : State} (hl : Links s) {x c y : Nat} {xd : Node} (hs : s.slot x = some xd) (h0 : x ≠ 0)
    (hch : xd.children = [(c, y)]) (hb : s.body x = none) (z : Nat) : (splice x s).body z = s.body z := by
  obtain ⟨pd, hp, -⟩ := hl.up hs h0
  have hxy : Table.get xd.children c = some y := by rw [hch]; simp [Table.get]
  obtain ⟨yd, hy, -⟩ := hl.down hs hxy
  have hslot := slot_splice hl hs h0 hch hp hy
  refine body_of_freed (x := x) (by rw [hslot, if_pos rfl]) hb (fun z hz => ?_) z
  refine body_of_map (f := fun nd =>
      if z = xd.parent then { nd with children := Table.put nd.children (s.key x).toNat y }
      else if z = y then { nd with parent := xd.parent } else nd)
    ?_ (fun nd _ => by split; exact ⟨rfl, rfl, rfl, rfl⟩; split <;> exact ⟨rfl, rfl, rfl, rfl⟩)
  rw [hslot, if_neg hz]
  split
  · rename_i h
    rw [h, hp]
    rfl
  · split
    · rename_i h
      rw [h, hy]
      rfl
    · simp

theorem relocate_body {s : State} (hl : Links s) {h t : Nat} {nd : Node} (hs : s.slot h = some nd) (h0 : h ≠ 0)
    (ht : s.slot t = none) (y : Nat) : (relocate h t s).body y = if y = t then s.body h else if y = h then none else s.body y := by
  have hslot := slot_relocate hl hs h0 ht y
  split
  · rename_i hy
    rw [if_pos hy] at hslot
    rw [body_of_slot hslot, body_of_slot hs]
    rfl
  · rename_i hy
    rw [if_neg hy] at hslot
    split
    · rename_i hyh
      rw [if_pos hyh] at hslot
      exact body_none hslot
    · rename_i hyh
      rw [if_neg hyh] at hslot
      exact body_of_map hslot fun nd _ => ⟨rfl, rfl, rfl, rfl⟩

/-- Splicing out the exempted node, or a node left with one child, restores the trie. -/
theorem TrieBut.splice {s : State} {x c y : Nat} {xd : Node} (h : TrieBut (some x) s) (hs : s.slot x = some xd)
    (h0 : x ≠ 0) (ha : xd.active = false) (hch : xd.children = [(c, y)]) :
    TrieBut none (Machine.splice x s) ∧ KeepsWords none s (Machine.splice x s) ∧ (Machine.splice x s).slot x = none := by
  obtain ⟨pd, hp, -, hget⟩ := key_of_slot h.links hs h0
  have hxy : Table.get xd.children c = some y := by rw [hch]; simp [Table.get]
  obtain ⟨yd, hy, -⟩ := h.links.down hs hxy
  have hslot := slot_splice h.links hs h0 hch hp hy
  have hb : s.body x = none := by rw [body_of_slot hs, ha]; rfl
  have inv : ∀ {z zd}, (Machine.splice x s).slot z = some zd → z ≠ x ∧ ∃ od, s.slot z = some od ∧ zd.active = od.active
      ∧ zd.codewordNo = od.codewordNo ∧ zd.start = od.start ∧ od.children.length ≤ zd.children.length := by
    intro z zd hz
    rw [hslot] at hz
    split at hz
    · cases hz
    rename_i hzx
    refine ⟨hzx, ?_⟩
    split at hz
    · rename_i hzp
      cases hz
      exact ⟨pd, hzp ▸ hp, rfl, rfl, rfl, Table.length_put_le _ _ _⟩
    split at hz
    · rename_i hzy
      cases hz
      exact ⟨yd, hzy ▸ hy, rfl, rfl, rfl, Nat.le_refl _⟩
    · exact ⟨zd, hz, rfl, rfl, rfl, Nat.le_refl _⟩
  have hfr := splice_frame x s
  refine ⟨⟨h.links.splice hs h0 hch, fun {z zd} hz hl _ => ?_, fun {z zd} hz hl => ?_, fun {z zd} hz hza _ => ?_,
    fun {z zd} hz hseed => ?_, ?_⟩, ⟨hfr, fun z _ => splice_body h.links hs h0 hch hb z⟩, by rw [hslot, if_pos rfl]⟩
  · obtain ⟨hzx, od, h1, h2, h3, -⟩ := inv hz
    rw [hfr.setup] at hl
    rw [h2, h3]
    exact h.low h1 hl fun hc => hzx (Option.some.inj hc).symm
  · obtain ⟨hzx, od, h1, h2, -⟩ := inv hz
    rw [hfr.setup] at hl ⊢
    rw [h2]
    exact h.high h1 hl
  · obtain ⟨hzx, od, h1, h2, -, -, h3⟩ := inv hz
    rw [h2] at hza
    exact Nat.le_trans (h.branch h1 hza fun hc => hzx (Option.some.inj hc).symm) h3
  · obtain ⟨hzx, od, h1, -, -, h2, -⟩ := inv hz
    rw [h2] at hseed
    have := h.seeds h1 hseed
    unfold State.nseed at this ⊢
    rw [hfr.setup]
    exact this
  · have := h.room
    unfold State.nseed at this ⊢
    rw [hfr.setup]
    exact this

/-- Unlinking a leaf, the exempted node, moves the exemption to its parent. -/
theorem TrieBut.unlink {s : State} {x : Nat} {xd : Node} (h : TrieBut (some x) s) (hs : s.slot x = some xd)
    (h0 : x ≠ 0) (ha : xd.active = false) (hch : xd.children = []) :
    TrieBut (some xd.parent) (Machine.unlink x s) ∧ KeepsWords none s (Machine.unlink x s)
      ∧ (Machine.unlink x s).slot x = none
      ∧ ∃ pd, s.slot xd.parent = some pd ∧ xd.parent ≠ x
        ∧ ∃ pd', (Machine.unlink x s).slot xd.parent = some pd' ∧ pd'.active = pd.active ∧ pd'.codewordNo = pd.codewordNo
          ∧ pd'.children.length + 1 = pd.children.length := by
  obtain ⟨pd, hp, -, hget⟩ := key_of_slot h.links hs h0
  have hslot := slot_unlink hs hp
  have hpx := h.links.parent_ne hs h0
  have hb : s.body x = none := by rw [body_of_slot hs, ha]; rfl
  have inv : ∀ {z zd}, (Machine.unlink x s).slot z = some zd → z ≠ x ∧ ∃ od, s.slot z = some od ∧ zd.active = od.active
      ∧ zd.codewordNo = od.codewordNo ∧ zd.start = od.start ∧ (z ≠ xd.parent → zd = od) := by
    intro z zd hz
    rw [hslot] at hz
    split at hz
    · cases hz
    rename_i hzx
    refine ⟨hzx, ?_⟩
    split at hz
    · rename_i hzp
      cases hz
      exact ⟨pd, hzp ▸ hp, rfl, rfl, rfl, fun hc => absurd hzp hc⟩
    · exact ⟨zd, hz, rfl, rfl, rfl, fun _ => rfl⟩
  have hp' : (Machine.unlink x s).slot xd.parent = some { pd with children := Table.del pd.children (s.key x).toNat } := by
    rw [hslot, if_neg hpx, if_pos rfl]
  refine ⟨⟨h.links.unlink hs h0 hch, fun {z zd} hz hl hzp => ?_, fun {z zd} hz hl => ?_, fun {z zd} hz hza hzp => ?_,
    fun {z zd} hz hseed => ?_, h.room⟩, ⟨rfl, fun z _ => unlink_body hs hp hb z⟩, by rw [hslot, if_pos rfl], pd, hp, hpx,
    _, hp', rfl, rfl, Table.length_del (h.links.maps hp) hget⟩
  · obtain ⟨hzx, od, h1, h2, h3, -⟩ := inv hz
    rw [h2, h3]
    exact h.low h1 hl fun hc => hzx (Option.some.inj hc).symm
  · obtain ⟨hzx, od, h1, h2, -⟩ := inv hz
    rw [h2]
    exact h.high h1 hl
  · obtain ⟨hzx, od, h1, h2, -, -, h3⟩ := inv hz
    rw [h2] at hza
    rw [h3 fun hc => hzp (by rw [hc])]
    exact h.branch h1 hza fun hc => hzx (Option.some.inj hc).symm
  · obtain ⟨hzx, od, h1, -, -, h2, -⟩ := inv hz
    rw [h2] at hseed
    exact h.seeds h1 hseed

/-- Relocating the exempted node, inactive and branching, into an inactive slot restores the trie. -/
theorem TrieBut.relocateOut {s : State} {x t : Nat} {xd : Node} (h : TrieBut (some x) s) (hs : s.slot x = some xd)
    (hx : s.nseed < x) (hb : s.body x = none) (ht : s.slot t = none) (h1 : s.setup.limit < t) (h2 : t ≤ 2 * s.setup.limit + 1)
    (hch : 2 ≤ xd.children.length) :
    TrieBut none (relocate x t s) ∧ KeepsWords none s (relocate x t s) ∧ (relocate x t s).slot x = none := by
  have h0 : x ≠ 0 := by omega
  have hxt : x ≠ t := fun hc => by rw [hc, ht] at hs; cases hs
  have hslot := slot_relocate h.links hs h0 ht
  have hfr := relocate_frame x t s
  have ha : xd.active = false := by
    rw [body_of_slot hs] at hb
    by_contra hc
    rw [if_pos (by simpa using hc)] at hb
    cases hb
  have inv : ∀ {z zd}, (relocate x t s).slot z = some zd → z ≠ x ∧ ((z = t ∧ zd = xd.renamed x t)
      ∨ ∃ od, s.slot z = some od ∧ zd = od.renamed x t) := by
    intro z zd hz
    rw [hslot] at hz
    split at hz
    · rename_i hzt
      cases hz
      exact ⟨fun hc => hxt (hc ▸ hzt), .inl ⟨hzt, rfl⟩⟩
    split at hz
    · cases hz
    rename_i hzx
    obtain ⟨od, g1, rfl⟩ := Option.map_eq_some_iff.1 hz
    exact ⟨hzx, .inr ⟨od, g1, rfl⟩⟩
  have hlen : ∀ nd : Node, (nd.renamed x t).children.length = nd.children.length := fun nd => by simp [Node.renamed]
  refine ⟨⟨h.links.relocate hs h0 ht, fun {z zd} hz hl _ => ?_, fun {z zd} hz hl => ?_, fun {z zd} hz hza _ => ?_,
    fun {z zd} hz hseed => ?_, ?_⟩, ⟨hfr, fun z _ => ?_⟩, ?_⟩
  · rw [hfr.setup] at hl
    obtain ⟨hzx, ⟨rfl, -⟩ | ⟨od, g1, rfl⟩⟩ := inv hz
    · omega
    · exact (h.low g1 hl fun hc => hzx (Option.some.inj hc).symm :)
  · rw [hfr.setup] at hl ⊢
    obtain ⟨hzx, ⟨rfl, rfl⟩ | ⟨od, g1, rfl⟩⟩ := inv hz
    · exact ⟨ha, h2⟩
    · exact (h.high g1 hl :)
  · obtain ⟨hzx, ⟨rfl, rfl⟩ | ⟨od, g1, rfl⟩⟩ := inv hz
    · rw [hlen]
      exact hch
    · rw [hlen]
      exact h.branch g1 hza fun hc => hzx (Option.some.inj hc).symm
  · have hn : (relocate x t s).nseed = s.nseed := by unfold State.nseed; rw [hfr.setup]
    rw [hn]
    obtain ⟨hzx, ⟨rfl, rfl⟩ | ⟨od, g1, rfl⟩⟩ := inv hz
    · have := h.seeds hs hseed
      omega
    · exact h.seeds g1 hseed
  · have := h.room
    unfold State.nseed at this ⊢
    rw [hfr.setup]
    exact this
  · rw [relocate_body h.links hs h0 ht]
    split
    · rename_i hz
      rw [hb, hz, body_none ht]
    · split
      · rename_i hz
        rw [hz, hb]
      · rfl
  · rw [hslot, if_neg hxt, if_pos rfl]

/-- R137: RemoveNode on the exempted node restores the trie, keeps every other codeword, and leaves no node in a low
slot. -/
theorem TrieBut.removeNode {s t : State} {x : Nat} (h : TrieBut (some x) s) (hx : s.nseed < x)
    (hr : removeNode x s = .ok t) :
    TrieBut none t ∧ KeepsWords (some x) s t ∧ t.body x = none ∧ (x ≤ s.setup.limit → t.slot x = none) := by
  unfold Machine.removeNode at hr
  split at hr
  · rename_i ho
    cases hr
    have ho := (occupied_false s x).1 ho
    exact ⟨h.of_empty ho, .refl _ _, body_none ho, fun _ => ho⟩
  rename_i ho
  have ho : s.occupied x = true := by simpa using ho
  obtain ⟨od, hs⟩ := (occupied_iff s x).1 ho
  have hu := h.setInactive
  have hsu : (s.setActive x false).slot x = some { od with active := false } := by
    rw [slot_setActive, if_pos rfl, hs]
    rfl
  have hkeep : KeepsWords (some x) s (s.setActive x false) :=
    ⟨rfl, fun y hy => by rw [setInactive_body, if_neg (fun hc => hy (by rw [hc]))]⟩
  have hbx : (s.setActive x false).body x = none := by rw [setInactive_body, if_pos rfl]
  have h0 : x ≠ 0 := by omega
  have hset : (s.setActive x false).setup = s.setup := rfl
  have hns : (s.setActive x false).nseed = s.nseed := rfl
  dsimp only at hr
  rw [node_of_slot hsu] at hr
  have done : ∀ {v : State}, TrieBut none v → KeepsWords none (s.setActive x false) v → v.slot x = none →
      TrieBut none v ∧ KeepsWords (some x) s v ∧ v.body x = none ∧ (x ≤ s.setup.limit → v.slot x = none) :=
    fun h1 h2 h3 => ⟨h1, hkeep.trans (h2.weaken _), body_none h3, fun _ => h3⟩
  split at hr
  · -- a leaf
    rename_i hch
    cases hr
    obtain ⟨h1, h2, h3, pd, h4, hpx, pd', h5, h6, hpc, h7⟩ := hu.unlink hsu h0 rfl hch
    have hrl : removeLeaf x (s.setActive x false)
        = if od.parent ≠ 0 ∧ pd'.active = false ∧ pd'.children.length = 1 then Machine.splice od.parent (Machine.unlink x (s.setActive x false))
          else Machine.unlink x (s.setActive x false) := by
      unfold removeLeaf
      dsimp only
      rw [show ((s.setActive x false).node x).parent = od.parent by rw [node_of_slot hsu]]
      have hun : ((s.setActive x false).updNode od.parent fun nd =>
          { nd with children := Table.del nd.children ((s.setActive x false).key x).toNat }).freeNode x
            = Machine.unlink x (s.setActive x false) := by
        unfold Machine.unlink
        rw [node_of_slot hsu]
      rw [hun, node_of_slot h5]
    rw [hrl]
    split
    · rename_i hc
      obtain ⟨⟨c, y⟩, hcy⟩ := List.length_eq_one_iff.1 hc.2.2
      obtain ⟨g1, g2, g3⟩ := h1.splice h5 hc.1 hc.2.1 hcy
      refine done g1 (h2.trans g2) ?_
      have := g2.frame
      -- slot `x` stays empty
      obtain ⟨qd, hq, -⟩ := h1.links.up h5 hc.1
      have hxy : Table.get pd'.children c = some y := by rw [hcy]; simp [Table.get]
      obtain ⟨yd, hy, -⟩ := h1.links.down h5 hxy
      rw [slot_splice h1.links h5 hc.1 hcy hq hy]
      split
      · rfl
      split
      · rename_i hxq
        rw [← hxq, h3] at hq
        cases hq
      split
      · rename_i hxy
        rw [← hxy, h3] at hy
        cases hy
      · exact h3
    · rename_i hc
      refine done ⟨h1.links, fun {z zd} hz hl _ => ?_, h1.high, fun {z zd} hz hza _ => ?_, h1.seeds, h1.room⟩ h2 h3
      · by_cases hzp : z = od.parent
        · subst hzp
          rw [h5] at hz
          cases hz
          have := hu.low h4 hl fun hc => hpx (Option.some.inj hc).symm
          rw [h6, hpc]
          exact this
        · exact h1.low hz hl fun hc => hzp (Option.some.inj hc).symm
      · by_cases hzp : z = od.parent
        · subst hzp
          rw [h5] at hz
          cases hz
          have hpa : pd.active = false := h6 ▸ hza
          have := hu.branch h4 hpa fun hc => hpx (Option.some.inj hc).symm
          have hp0 : od.parent ≠ 0 := fun hc0 => by
            have := hu.low h4 (by rw [hc0]; exact Nat.zero_le _) fun hc => hpx (Option.some.inj hc).symm
            rw [this.1] at hpa
            cases hpa
          have : pd'.children.length ≠ 1 := fun hc1 => hc ⟨hp0, hza, hc1⟩
          omega
        · exact h1.branch hz hza fun hc => hzp (Option.some.inj hc).symm
  · -- one child
    rename_i e hch
    cases hr
    obtain ⟨g1, g2, g3⟩ := hu.splice hsu h0 rfl hch
    exact done g1 g2 g3
  · -- it branches
    rename_i a b l hch
    have hlen : 2 ≤ ({ od with active := false } : Node).children.length := by
      rw [hch]
      simp
    split at hr
    · rename_i hlow
      split at hr
      · cases hr
      rename_i y hy
      cases hr
      obtain ⟨h1, h2, h3⟩ := freeInactiveSlot_ok hy
      obtain ⟨g1, g2, g3⟩ := hu.relocateOut hsu hx hbx ((occupied_false _ _).1 h3) h1 h2 hlen
      exact done g1 g2 g3
    · rename_i hlow
      cases hr
      refine ⟨⟨hu.links, fun {z zd} hz hl _ => ?_, hu.high, fun {z zd} hz hza _ => ?_, hu.seeds, hu.room⟩, hkeep, hbx,
        fun hc => absurd hc hlow⟩
      · exact hu.low hz hl fun hc => hlow (by rw [Option.some.inj hc]; exact hl)
      · by_cases hzx : z = x
        · subst hzx
          rw [hsu] at hz
          cases hz
          exact hlen
        · exact hu.branch hz hza fun hc => hzx (Option.some.inj hc).symm

end Sys2Proof.Machine
end

