-- ==== Sys2Proof/Laws/Wire.lean ====
section
/-! SUPPORT. Laws of the wiring of a new codeword: the slots and links a wire leaves, and when extending completes. -/

namespace Sys2Proof.Machine

/-- Step 1 of TEXTEND (R135): slot `j` is empty, its old node waits inactive in slot `old`, every other codeword is as it
was, and every child link follows the node. -/
theorem TrieBut.vacate {s u : State} {j : Nat} {old : Option Nat} (h : TrieBut none s) (hj : s.nseed < j)
    (hlow : j ≤ s.setup.limit) (hv : vacate j s = .ok (u, old)) :
    TrieBut old u ∧ KeepsWords (some j) s u ∧ u.slot j = none ∧ (∀ x, old = some x → s.setup.limit < x)
      ∧ ((s.slot j = none ∧ old = none ∧ u = s)
        ∨ ∃ t jd, s.slot j = some jd ∧ old = some t ∧ s.slot t = none ∧ s.setup.limit < t
            ∧ u.slot t = some { jd with active := false }
            ∧ ∀ {i id}, s.slot i = some id → i ≠ j → u.slot i = some (id.renamed j t)) := by
  unfold Machine.vacate at hv
  split at hv
  · rename_i ho
    cases hv
    have ho := (occupied_false s j).1 ho
    exact ⟨h, .refl _ _, ho, nofun, .inl ⟨ho, rfl, rfl⟩⟩
  rename_i ho
  obtain ⟨jd, hs⟩ := (occupied_iff s j).1 (by simpa using ho)
  split at hv
  · cases hv
  rename_i t ht
  cases hv
  obtain ⟨h1, h2, h3⟩ := freeInactiveSlot_ok ht
  have h3 := (occupied_false _ _).1 h3
  have h0 : j ≠ 0 := by omega
  have hjt : j ≠ t := by omega
  have hslot := slot_relocate h.links hs h0 h3
  have hfr := relocate_frame j t s
  have hlen : ∀ nd : Node, (nd.renamed j t).children.length = nd.children.length := fun nd => by simp [Node.renamed]
  have hset : (relocate j t s).setup = s.setup := hfr.setup
  have hjd : jd.renamed j t = jd := by
    have hp : jd.parent ≠ j := h.links.parent_ne hs h0
    have hself : ∀ c, (c, j) ∉ jd.children := fun c hc => hp (h.links.listed hs hs (mem_children h.links hs hc)).1
    unfold Node.renamed
    rw [rename_other hp, map_rename_id hself]
  have hst : ((relocate j t s).setActive t false).slot t = some { jd with active := false } := by
    rw [slot_setActive, if_pos rfl, hslot, if_pos rfl, hjd]
    rfl
  have hsj : ((relocate j t s).setActive t false).slot j = none := by
    rw [slot_setActive, if_neg hjt, hslot, if_neg hjt, if_pos rfl]
  have hother : ∀ {i id}, s.slot i = some id → i ≠ j →
      ((relocate j t s).setActive t false).slot i = some (id.renamed j t) := by
    intro i id hi hij
    have hit : i ≠ t := fun hc => by rw [hc, h3] at hi; cases hi
    rw [slot_setActive, if_neg hit, hslot, if_neg hit, if_neg hij, hi]
    rfl
  have inv : ∀ {z zd}, ((relocate j t s).setActive t false).slot z = some zd →
      (z = t ∧ zd = { jd with active := false }) ∨ z ≠ t ∧ z ≠ j ∧ ∃ od, s.slot z = some od ∧ zd = od.renamed j t := by
    intro z zd hz
    by_cases hzt : z = t
    · rw [hzt, hst] at hz
      cases hz
      exact .inl ⟨hzt, rfl⟩
    · refine .inr ⟨hzt, fun hc => ?_, ?_⟩
      · rw [hc, hsj] at hz
        cases hz
      · rw [slot_setActive, if_neg hzt, hslot, if_neg hzt] at hz
        split at hz
        · cases hz
        obtain ⟨od, g1, rfl⟩ := Option.map_eq_some_iff.1 hz
        exact ⟨od, g1, rfl⟩
  have hsetup : ((relocate j t s).setActive t false).setup = s.setup := hset
  have hns : ((relocate j t s).setActive t false).nseed = s.nseed := by unfold State.nseed; rw [hsetup]
  refine ⟨⟨(h.links.relocate hs h0 h3).setActive t false, fun {z zd} hz hl _ => ?_, fun {z zd} hz hl => ?_,
    fun {z zd} hz hza hzt => ?_, fun {z zd} hz hseed => ?_, ?_⟩, ⟨hfr.trans rfl, fun z hz => ?_⟩, hsj,
    fun x hx => (Option.some.inj hx) ▸ h1, .inr ⟨t, jd, hs, rfl, h3, h1, hst, fun hi hij => hother hi hij⟩⟩
  · rw [hsetup] at hl
    rcases inv hz with ⟨rfl, -⟩ | ⟨-, -, od, g1, rfl⟩
    · omega
    · exact (h.low g1 hl nofun :)
  · rw [hsetup] at hl ⊢
    rcases inv hz with ⟨rfl, rfl⟩ | ⟨-, -, od, g1, rfl⟩
    · exact ⟨rfl, h2⟩
    · exact (h.high g1 hl :)
  · rcases inv hz with ⟨rfl, rfl⟩ | ⟨-, -, od, g1, rfl⟩
    · exact absurd rfl hzt
    · rw [hlen]
      exact h.branch g1 hza nofun
  · rw [hns]
    rcases inv hz with ⟨rfl, rfl⟩ | ⟨-, -, od, g1, rfl⟩
    · have := h.seeds hs hseed
      omega
    · exact h.seeds g1 hseed
  · rw [hns, hsetup]
    exact h.room
  · have hzj : z ≠ j := fun hc => hz (by rw [hc])
    by_cases hzt : z = t
    · rw [hzt, body_of_slot hst, body_none h3]
      rfl
    · rw [setInactive_body, if_neg hzt, relocate_body h.links hs h0 h3, if_neg hzt, if_neg hzj]

/-- What codeword `j` is after TEXTEND (R135). -/
structure Wired (s t : State) (i start j : Nat) (c : Byte) (depth : Nat) : Prop where
  codeword : t.body j = some (start, depth, j)
  parent : ∃ jd, t.slot j = some jd ∧ jd.parent = i
  child : ∃ id, t.slot i = some id ∧ Table.get id.children c.toNat = some j

/-- Step 2 of TEXTEND (R135): the new codeword is in the trie, every other codeword is as it was. -/
theorem TrieBut.wire {s : State} {old : Option Nat} (h : TrieBut old s) {i start j : Nat} {c : Byte} {id : Node}
    (hi : s.slot i = some id) (hj : s.slot j = none)
    (hjs : s.nseed < j) (hlow : j ≤ s.setup.limit) (hin : start + id.length + 1 ≤ (s.buf .src).nchars)
    (hsmall : start ≠ Config.seed) (hsp : ∀ k, k < id.length → s.charAt .src (start + k) = charOfNode s id k)
    (hc : c = s.charAt .src (start + id.length))
    (hH : ∀ h hd, Table.get id.children c.toNat = some h → s.slot h = some hd → hd.length = id.length + 1 →
      hd.active = false ∧ old ≠ some h) :
    TrieBut old (wire i start j c s).1 ∧ KeepsWords (some j) s (wire i start j c s).1
      ∧ Wired s (wire i start j c s).1 i start j c (id.length + 1) := by
  have hij : i ≠ j := fun hc => by rw [hc, hj] at hi; cases hi
  have hfr := wire_frame i start j c s
  have hns : (Machine.wire i start j c s).1.nseed = s.nseed := by unfold State.nseed; rw [hfr.setup]
  have hj0 : j ≠ 0 := by omega
  have hbj : s.body j = none := body_none hj
  -- cases 1 and 2
  have insert : ∀ (H : Option Nat) (nd : Node), Table.get id.children c.toNat = H →
      (∀ h hd, H = some h → s.slot h = some hd → id.length + 1 < hd.length) →
      nd = { active := true, codewordNo := j, start := start, length := id.length + 1, parent := i,
             children := insertedChildren s (id.length + 1) H } →
      (Machine.wire i start j c s).1 = (match H with
        | none => (s.putNode j nd).setChild i c j
        | some h => ((s.putNode j nd).setChild i c j).setParent h j) →
      TrieBut old (Machine.wire i start j c s).1 ∧ KeepsWords (some j) s (Machine.wire i start j c s).1
        ∧ Wired s (Machine.wire i start j c s).1 i start j c (id.length + 1) := by
    intro H nd hget hlong hnd hw
    have hne : ∀ h, H = some h → h ≠ i ∧ h ≠ j := by
      intro h0 hh
      rw [hh] at hget
      obtain ⟨hd, g1, g2, g3, -⟩ := h.links.down hi hget
      refine ⟨fun e => ?_, fun e => ?_⟩
      · rw [e, hi] at g1
        cases g1
        omega
      · rw [e, hj] at g1
        cases g1
    have hslot : ∀ z, (Machine.wire i start j c s).1.slot z = if z = j then some nd
        else if z = i then some { id with children := Table.put id.children c.toNat j }
        else if H = some z then (s.slot z).map (fun m => { m with parent := j }) else s.slot z := by
      intro z
      rw [hw]
      exact slot_insert hi hij hne z
    have hwf : Table.wf (Machine.wire i start j c s).1.arena = true :=
      (ArenaWf.wire ⟨h.links.keys, fun e he => h.links.maps (Table.get_of_mem h.links.keys he)⟩ i start j c).keys
    have hl' : Links (Machine.wire i start j c s).1 :=
      h.links.insert hfr hwf (nd := nd) hi hj hget hlong hslot (by rw [hnd]) (by rw [hnd]) (by rw [hnd]; exact hsmall)
        (by rw [hnd]) (by rw [hnd]; dsimp only; omega) (by rw [hnd]; exact hsp) (by rw [hnd]; exact hc)
    have hsj : (Machine.wire i start j c s).1.slot j = some nd := by rw [hslot, if_pos rfl]
    have hsi : (Machine.wire i start j c s).1.slot i = some { id with children := Table.put id.children c.toNat j } := by
      rw [hslot, if_neg hij, if_pos rfl]
    have inv : ∀ {z zd}, (Machine.wire i start j c s).1.slot z = some zd → (z = j ∧ zd = nd)
        ∨ z ≠ j ∧ ∃ od, s.slot z = some od ∧ od.SameBody zd ∧ od.children.length ≤ zd.children.length := by
      intro z zd hz
      rw [hslot] at hz
      split at hz
      · rename_i hzj
        cases hz
        exact .inl ⟨hzj, rfl⟩
      rename_i hzj
      refine .inr ⟨hzj, ?_⟩
      split at hz
      · rename_i hzi
        cases hz
        exact ⟨id, hzi ▸ hi, ⟨rfl, rfl, rfl, rfl⟩, Table.length_put_le _ _ _⟩
      split at hz
      · obtain ⟨od, g1, rfl⟩ := Option.map_eq_some_iff.1 hz
        exact ⟨od, g1, ⟨rfl, rfl, rfl, rfl⟩, Nat.le_refl _⟩
      · exact ⟨zd, hz, ⟨rfl, rfl, rfl, rfl⟩, Nat.le_refl _⟩
    refine ⟨⟨hl', fun {z zd} hz hl hzo => ?_, fun {z zd} hz hl => ?_, fun {z zd} hz hza hzo => ?_, fun {z zd} hz hseed => ?_,
      ?_⟩, ⟨hfr, fun z hz => ?_⟩, ⟨?_, ⟨nd, hsj, by rw [hnd]⟩, ⟨_, hsi, Table.get_put_same _ _ _⟩⟩⟩
    · rw [hfr.setup] at hl
      rcases inv hz with ⟨rfl, rfl⟩ | ⟨-, od, g1, ⟨g2, -, -, g3⟩, -⟩
      · rw [hnd]
        exact ⟨rfl, rfl⟩
      · rw [g2, g3]
        exact h.low g1 hl hzo
    · rw [hfr.setup] at hl ⊢
      rcases inv hz with ⟨rfl, -⟩ | ⟨-, od, g1, ⟨g2, -, -, g3⟩, -⟩
      · omega
      · rw [g2]
        exact h.high g1 hl
    · rcases inv hz with ⟨rfl, rfl⟩ | ⟨-, od, g1, ⟨g2, -, -, g3⟩, g4⟩
      · rw [hnd] at hza
        cases hza
      · rw [g2] at hza
        exact Nat.le_trans (h.branch g1 hza hzo) g4
    · rw [hns]
      rcases inv hz with ⟨rfl, rfl⟩ | ⟨-, od, g1, ⟨-, g2, -⟩, -⟩
      · rw [hnd] at hseed
        exact absurd hseed hsmall
      · exact h.seeds g1 (g2 ▸ hseed)
    · rw [hns, hfr.setup]
      exact h.room
    · have hzj : z ≠ j := fun e => hz (by rw [e])
      refine body_of_map (f := fun m => if z = i then { m with children := Table.put id.children c.toNat j }
        else if H = some z then { m with parent := j } else m) ?_
        (fun m _ => by split; exact ⟨rfl, rfl, rfl, rfl⟩; split <;> exact ⟨rfl, rfl, rfl, rfl⟩)
      rw [hslot, if_neg hzj]
      split
      · rename_i hzi
        rw [hzi, hi]
        rfl
      · split
        · rfl
        · simp
    · rw [body_of_slot hsj, hnd]
      rfl
  have hchild : s.child i c = Table.get id.children c.toNat := child_of_slot hi c
  have hlen : (s.node i).length = id.length := by rw [node_of_slot hi]
  cases hg : Table.get id.children c.toNat with
  | none =>
    refine insert none _ hg nofun rfl ?_
    unfold Machine.wire
    rw [hchild, hg, hlen]
    rfl
  | some m =>
    obtain ⟨hd, hm, hmp, hml, hmk, hms⟩ := h.links.down hi hg
    by_cases hlong : id.length + 1 < hd.length
    · refine insert (some m) _ hg (fun m' hd' e1 e2 => ?_) rfl ?_
      · cases e1
        rw [hm] at e2
        cases e2
        exact hlong
      · unfold Machine.wire
        rw [hchild, hg, hlen]
        dsimp only
        rw [node_of_slot hm, if_pos hlong]
        rfl
    · -- case 3: the child on `c` spells the new codeword: it moves into slot `j`
      have hml : hd.length = id.length + 1 := by omega
      obtain ⟨hma, hmo⟩ := hH m hd hg hm hml
      have hw : (Machine.wire i start j c s).1
          = (Machine.relocate m j s).updNode j fun nd => { nd with active := true, codewordNo := j, start := start } := by
        unfold Machine.wire
        rw [hchild, hg, hlen]
        dsimp only
        rw [node_of_slot hm, if_neg hlong]
      have hm0 : m ≠ 0 := h.links.child_ne_root hi hg
      have hmhigh : s.setup.limit < m := by
        by_contra hc
        have := (h.low hm (by omega) hmo).1
        rw [hma] at this
        cases this
      have hmj : m ≠ j := by omega
      have him : i ≠ m := fun e => by
        rw [e, hm] at hi
        cases hi
        omega
      have hmseed : hd.start ≠ Config.seed := fun hc => by
        have := h.seeds hm hc
        have := h.room
        omega
      have hslot := slot_relocate h.links hm hm0 hj
      have hrl := h.links.relocate hm hm0 hj
      have hrf := relocate_frame m j s
      have hnsl : ∀ z, (Machine.wire i start j c s).1.slot z = ((Machine.relocate m j s).slot z).map
          (fun nd => if z = j then { nd with active := true, codewordNo := j, start := start } else nd) := by
        intro z
        rw [hw, slot_updNode]
        split
        · rfl
        · simp
      have hrj : (Machine.relocate m j s).slot j = some (hd.renamed m j) := by rw [hslot, if_pos rfl]
      have hwf : Table.wf (Machine.wire i start j c s).1.arena = true :=
        (ArenaWf.wire ⟨h.links.keys, fun e he => h.links.maps (Table.get_of_mem h.links.keys he)⟩ i start j c).keys
      have hframe2 : TrieFrame (Machine.relocate m j s) (Machine.wire i start j c s).1 := by rw [hw]; rfl
      have hl' : Links (Machine.wire i start j c s).1 := by
        refine hrl.of_map hframe2 hwf _ hnsl (fun {y nd} hy => ?_) (fun {y nd} hy k hk => ?_) (fun {y nd} hy => ?_)
        · split <;> exact ⟨rfl, rfl, rfl⟩
        · split
          · rename_i hyj
            rw [hyj, hrj] at hy
            cases hy
            rw [hrf.charOfNode, hrf.charOfNode]
            have hk : k < id.length + 1 := hml ▸ hk
            rw [charOfNode_renamed]
            have h1 : charOfNode s { hd.renamed m j with active := true, codewordNo := j, start := start } k
                = s.charAt .src (start + k) := by
              unfold charOfNode
              rw [if_neg hsmall]
            rw [h1]
            by_cases hk' : k < id.length
            · rw [hsp k hk', hms k hk']
            · have : k = id.length := by omega
              rw [this, ← hc]
              exact BitVec.toNat_inj.1 hmk
          · rfl
        · rw [hrf.buf]
          have := hrl.chars hy
          rw [hrf.buf] at this
          split
          · rename_i hyj
            rw [hyj, hrj] at hy
            cases hy
            show start + hd.length ≤ _
            omega
          · exact this
      have hsj : (Machine.wire i start j c s).1.slot j
          = some { hd.renamed m j with active := true, codewordNo := j, start := start } := by
        rw [hnsl, hrj, Option.map_some, if_pos rfl]
      have hsm : (Machine.wire i start j c s).1.slot m = none := by
        rw [hnsl, hslot, if_neg hmj, if_pos rfl]
        rfl
      have hsz : ∀ {z}, z ≠ j → z ≠ m → (Machine.wire i start j c s).1.slot z = (s.slot z).map (Node.renamed m j) := by
        intro z hzj hzm
        rw [hnsl, hslot, if_neg hzj, if_neg hzm]
        simp only [if_neg hzj, Option.map_id']
      have inv : ∀ {z zd}, (Machine.wire i start j c s).1.slot z = some zd →
          (z = j ∧ zd = { hd.renamed m j with active := true, codewordNo := j, start := start })
          ∨ z ≠ j ∧ z ≠ m ∧ ∃ od, s.slot z = some od ∧ zd = od.renamed m j := by
        intro z zd hz
        by_cases hzj : z = j
        · rw [hzj, hsj] at hz
          cases hz
          exact .inl ⟨hzj, rfl⟩
        · by_cases hzm : z = m
          · rw [hzm, hsm] at hz
            cases hz
          · rw [hsz hzj hzm] at hz
            obtain ⟨od, g1, rfl⟩ := Option.map_eq_some_iff.1 hz
            exact .inr ⟨hzj, hzm, od, g1, rfl⟩
      have hlen : ∀ nd : Node, (nd.renamed m j).children.length = nd.children.length := fun nd => by simp [Node.renamed]
      refine ⟨⟨hl', fun {z zd} hz hl hzo => ?_, fun {z zd} hz hl => ?_, fun {z zd} hz hza hzo => ?_, fun {z zd} hz hseed => ?_,
        ?_⟩, ⟨hfr, fun z hz => ?_⟩, ⟨?_, ⟨_, hsj, ?_⟩, ?_⟩⟩
      · rw [hfr.setup] at hl
        rcases inv hz with ⟨rfl, rfl⟩ | ⟨-, -, od, g1, rfl⟩
        · exact ⟨rfl, rfl⟩
        · exact (h.low g1 hl hzo :)
      · rw [hfr.setup] at hl ⊢
        rcases inv hz with ⟨rfl, -⟩ | ⟨-, -, od, g1, rfl⟩
        · omega
        · exact (h.high g1 hl :)
      · rcases inv hz with ⟨rfl, rfl⟩ | ⟨-, -, od, g1, rfl⟩
        · cases hza
        · rw [hlen]
          exact h.branch g1 hza hzo
      · rw [hns]
        rcases inv hz with ⟨rfl, rfl⟩ | ⟨-, -, od, g1, rfl⟩
        · exact absurd hseed hsmall
        · exact h.seeds g1 hseed
      · rw [hns, hfr.setup]
        exact h.room
      · have hzj : z ≠ j := fun e => hz (by rw [e])
        by_cases hzm : z = m
        · rw [hzm, body_none hsm, body_of_slot hm, hma]
          rfl
        · exact body_of_map (f := Node.renamed m j) (hsz hzj hzm) fun m _ => ⟨rfl, rfl, rfl, rfl⟩
      · rw [body_of_slot hsj, if_pos rfl]
        show some (start, hd.length, j) = _
        rw [hml]
      · show rename m j hd.parent = i
        rw [hmp, rename_other him]
      · have h1 : (Machine.relocate m j s).slot i = some (id.renamed m j) := by
          rw [hslot, if_neg hij, if_neg him, hi]
          rfl
        refine ⟨id.renamed m j, by rw [hnsl, h1, Option.map_some, if_neg hij], ?_⟩
        show Table.get (id.children.map fun e => (e.1, rename m j e.2)) _ = _
        rw [get_map_rename, hg, Option.map_some, rename_same]

theorem spelledAt_iff {s : State} {i start : Nat} {id : Node} (hi : s.slot i = some id) :
    s.spelledAt i start = true ↔ ∀ k, k < id.length → s.charAt .src (start + k) = charOfNode s id k := by
  unfold State.spelledAt
  rw [node_of_slot hi, List.all_eq_true]
  constructor
  · intro h k hk
    have := h k (List.mem_range.2 hk)
    rw [nodeChar_of_slot hi] at this
    simpa using this
  · intro h k hk
    rw [nodeChar_of_slot hi]
    simpa using h k (List.mem_range.1 hk)

theorem alreadyLive_none {s : State} {i : Nat} {c : Byte} {id : Node} (hi : s.slot i = some id) :
    s.alreadyLive i c = none ↔ ∀ h hd, Table.get id.children c.toNat = some h → s.node h = hd →
      hd.length = id.length + 1 → hd.active = false := by
  unfold State.alreadyLive
  rw [child_of_slot hi, node_of_slot hi]
  cases hg : Table.get id.children c.toNat with
  | none => simp
  | some h =>
    simp only [Option.some.injEq]
    constructor
    · intro hn h' hd rfl hd' hl
      subst hd'
      split at hn
      · cases hn
      · rename_i hc
        by_contra ha
        exact hc ⟨hl, by simpa using ha⟩
    · intro hall
      rw [if_neg]
      rintro ⟨h1, h2⟩
      rw [hall h _ rfl rfl h1] at h2
      cases h2

/-- The checks of TEXTEND, on the node `id` it extends (R135). -/
structure Extendable (s : State) (i start j : Nat) (c : Byte) (id : Node) : Prop where
  node : s.slot i = some id
  active : id.active = true
  free : s.nseed < j ∧ j ≤ s.setup.limit ∧ j ≠ i
  inside : start + id.length + 1 ≤ (s.buf .src).nchars
  small : start ≠ Config.seed
  spelled : ∀ k, k < id.length → s.charAt .src (start + k) = charOfNode s id k
  char : c = s.charAt .src (start + id.length)
  fresh : ∀ h hd, Table.get id.children c.toNat = some h → s.node h = hd → hd.length = id.length + 1 → hd.active = false

/-- Steps 1 and 2 of TEXTEND (R135). -/
theorem TrieBut.vacateWire {s u : State} {i start j : Nat} {c : Byte} {id : Node} {old : Option Nat} (h : TrieBut none s)
    (e : Extendable s i start j c id) (hv : Machine.vacate j s = .ok (u, old)) :
    TrieBut old (Machine.wire i start j c u).1 ∧ KeepsWords (some j) s (Machine.wire i start j c u).1
      ∧ Wired s (Machine.wire i start j c u).1 i start j c (id.length + 1) ∧ ∀ x, old = some x → s.setup.limit < x := by
  obtain ⟨hi, hia, ⟨hj, hlow, hji⟩, h8, hsmall, h9, h10, h11⟩ := e
  obtain ⟨g1, g2, g3, g4, g5⟩ := h.vacate hj hlow hv
  have hset : u.setup = s.setup := g2.frame.setup
  have hns : u.nseed = s.nseed := by unfold State.nseed; rw [hset]
  -- `i` in `u`
  have hiu : ∃ id', u.slot i = some id' ∧ id'.length = id.length ∧ (∀ k, charOfNode u id' k = charOfNode s id k)
      ∧ ∀ h hd, Table.get id'.children c.toNat = some h → u.slot h = some hd → hd.length = id.length + 1 →
          hd.active = false ∧ old ≠ some h := by
    rcases g5 with ⟨-, rfl, rfl⟩ | ⟨t, jd, e1, rfl, e3, e4, e5, e6⟩
    · exact ⟨id, hi, rfl, fun _ => rfl, fun h hd ha hb hc => ⟨h11 h hd ha (node_of_slot hb) hc, nofun⟩⟩
    · refine ⟨_, e6 hi (Ne.symm hji), rfl, fun k => g2.frame.charOfNode _ _, fun m md ha hb hc => ?_⟩
      have ha : Table.get (id.children.map fun e => (e.1, rename j t e.2)) c.toNat = some m := ha
      rw [get_map_rename] at ha
      obtain ⟨m', hm', rfl⟩ := Option.map_eq_some_iff.1 ha
      obtain ⟨md', hmd, -⟩ := h.links.down hi hm'
      by_cases hmj : m' = j
      · rw [hmj, rename_same, e5] at hb
        cases hb
        rw [hmj, e1] at hmd
        cases hmd
        have := h11 m' jd hm' (by rw [hmj]; exact node_of_slot e1) hc
        have h' := (h.low e1 hlow nofun).1
        rw [this] at h'
        cases h'
      · rw [rename_other hmj] at hb ⊢
        rw [e6 hmd hmj] at hb
        cases hb
        exact ⟨h11 m' md' hm' (node_of_slot hmd) hc, fun hc => by
          rw [Option.some.inj hc] at e3
          rw [e3] at hmd
          cases hmd⟩
  obtain ⟨id', hiu, hil, hic, hiH⟩ := hiu
  obtain ⟨w1, w2, w3⟩ := g1.wire (start := start) (c := c) hiu g3 (by rw [hns]; exact hj) (by rw [hset]; exact hlow)
    (by rw [hil, g2.frame.buf]; omega) hsmall
    (fun k hk => by rw [hic, g2.frame.charAt]; exact h9 k (hil ▸ hk)) (by rw [hil, g2.frame.charAt]; exact h10)
    (fun h hd ha hb hc => hiH h hd ha hb (hil ▸ hc))
  rw [hil] at w3
  exact ⟨w1, g2.trans w2, ⟨w3.codeword, w3.parent, w3.child⟩, g4⟩

/-- The trie does not look at the matcher. -/
theorem TrieBut.congr {x : Option Nat} {s t : State} (h : TrieBut x s) (ha : t.arena = s.arena) (hf : TrieFrame s t) :
    TrieBut x t := by
  have hs : ∀ y, t.slot y = s.slot y := fun y => by simp only [State.slot, ha]
  have hns : t.nseed = s.nseed := by unfold State.nseed; rw [hf.setup]
  refine ⟨h.links.congr ha hf.mem (by rw [hf]), fun hy hl hx => ?_, fun hy hl => ?_, fun hy ha hx => ?_, fun hy hseed => ?_, ?_⟩
  · exact h.low (hs _ ▸ hy) (hf.setup ▸ hl) hx
  · rw [hf.setup]
    exact h.high (hs _ ▸ hy) (hf.setup ▸ hl)
  · exact h.branch (hs _ ▸ hy) ha hx
  · rw [hns]
    exact h.seeds (hs _ ▸ hy) hseed
  · rw [hns, hf.setup]
    exact h.room

theorem KeepsWords.of_arena {s t : State} (ha : t.arena = s.arena) (hf : TrieFrame s t) : KeepsWords none s t :=
  ⟨hf, fun y _ => body_congr (by simp only [State.slot, ha])⟩

/-- Step 3 of TEXTEND (R135). -/
theorem TrieBut.evict {s v : State} {old : Option Nat} (h : TrieBut old s) (hold : ∀ x, old = some x → s.setup.limit < x)
    (hr : removeEvicted old s = .ok v) : TrieBut none v ∧ KeepsWords none s v := by
  cases old with
  | none =>
    cases hr
    exact ⟨h, .refl _ _⟩
  | some x =>
    have hr : Machine.removeNode x s = .ok v := hr
    have hx := hold x rfl
    have hroom := h.room
    obtain ⟨r1, r2, r3, -⟩ := h.removeNode (by omega) hr
    have hxs : s.body x = none := by
      cases hb : s.slot x with
      | none => exact body_none hb
      | some nd =>
        rw [body_of_slot hb, (h.high hb hx).1]
        rfl
    refine ⟨r1, r2.frame, fun z _ => ?_⟩
    by_cases hzx : z = x
    · rw [hzx, r3, hxs]
    · exact r2.body z fun hc => hzx (Option.some.inj hc).symm

/-- The checks of TEXTEND's rule give what its steps need. -/
theorem extendable {s t : State} {i start j k : Nat} {c : Byte} (hj : s.nseed < j) (hsize : s.size ≤ s.setup.limit)
    (hsmall : start ≠ Config.seed) (he : extendTrie i start j s = .ok (t, c, k)) :
    ∃ id, Extendable s i start j c id := by
  obtain ⟨h1, h2, h3, h4, h5, h6, h7, h8, h9, h10, h11, -⟩ := extendTrie_ok he
  obtain ⟨id, hi, hia⟩ := (activeAt_iff s i).1 h2
  rw [node_of_slot hi] at h8 h10
  exact ⟨id, hi, hia, ⟨hj, by omega, h5⟩, h8, hsmall, (spelledAt_iff hi).1 h9, h10, (alreadyLive_none hi).1 h11⟩

/-- R135: TEXTEND makes `j` the codeword `STR(i) ++ c`, keeps every other codeword, and keeps the trie. -/
theorem TrieBut.extend {s t : State} {i start j k : Nat} {c : Byte} (h : TrieBut none s) (hj : s.nseed < j)
    (hsize : s.size ≤ s.setup.limit) (hsmall : start ≠ Config.seed) (he : extendTrie i start j s = .ok (t, c, k)) :
    TrieBut none t ∧ KeepsWords (some j) s t ∧ t.body j = some (start, (s.node i).length + 1, j) := by
  obtain ⟨id, e⟩ := extendable hj hsize hsmall he
  obtain ⟨-, -, -, -, -, -, -, -, -, -, -, u, old, v, hv, hr, rfl, rfl⟩ := extendTrie_ok he
  obtain ⟨w1, w2, w3, w4⟩ := h.vacateWire e hv
  obtain ⟨r1, r2⟩ := w1.evict (by rw [w2.frame.setup]; exact w4) hr
  have hab := abandonMatch_arena v
  have hf := abandonMatch_frame v
  have hk := (w2.trans (r2.weaken _)).trans ((KeepsWords.of_arena hab hf).weaken _)
  refine ⟨r1.congr hab hf, hk, ?_⟩
  rw [(KeepsWords.of_arena hab hf).body j nofun, r2.body j nofun, w3.codeword, node_of_slot e.node]

/-! ### Counting (R133): an inactive slot is free whenever one is needed -/

/-- Every child link, as a pair of its child and its parent. -/
def State.kids (s : State) : List Nat := s.arena.flatMap fun e => e.2.children.map Prod.snd

theorem mem_kids {s : State} (h : Links s) {y : Nat} (hy : y ∈ s.kids) :
    ∃ p c nd yd, s.slot p = some nd ∧ Table.get nd.children c = some y ∧ s.slot y = some yd := by
  obtain ⟨e, he, hm⟩ := List.mem_flatMap.1 hy
  have hs : s.slot e.1 = some e.2 := Table.get_of_mem h.keys he
  obtain ⟨c, hc⟩ := Table.mem_snd.1 hm
  have hg := mem_children h hs hc
  obtain ⟨yd, hyd, -⟩ := h.down hs hg
  exact ⟨e.1, c, e.2, yd, hs, hg, hyd⟩

/-- No node is listed twice. -/
theorem kids_nodup {s : State} (h : Links s) : s.kids.Nodup := by
  have hmem : ∀ e ∈ s.arena, s.slot e.1 = some e.2 := fun e he => Table.get_of_mem h.keys he
  have hpar : ∀ e ∈ s.arena, ∀ c y, (c, y) ∈ e.2.children → ∃ yd, s.slot y = some yd ∧ yd.parent = e.1
      ∧ c = (charOfNode s yd e.2.length).toNat := by
    intro e he c y hc
    obtain ⟨yd, h1, h2, -, h3, -⟩ := h.down (hmem e he) (mem_children h (hmem e he) hc)
    exact ⟨yd, h1, h2, h3⟩
  unfold State.kids
  rw [List.nodup_flatMap]
  refine ⟨fun e he => ?_, ?_⟩
  · have hw := h.maps (hmem e he)
    rw [Table.wf_iff] at hw
    refine List.pairwise_map.2 (hw.imp_of_mem fun {a b} ha hb hab hc => ?_)
    obtain ⟨yd, h1, -, h2⟩ := hpar e he a.1 a.2 ha
    obtain ⟨zd, h3, -, h4⟩ := hpar e he b.1 b.2 hb
    rw [hc, h3] at h1
    cases h1
    omega
  · have hk := h.keys
    rw [Table.wf_iff] at hk
    refine hk.imp_of_mem fun {a b} ha hb hab => ?_
    intro y hy1 hy2
    obtain ⟨c, hc⟩ := Table.mem_snd.1 hy1
    obtain ⟨d, hd⟩ := Table.mem_snd.1 hy2
    obtain ⟨yd, h1, h2, -⟩ := hpar a ha c y hc
    obtain ⟨zd, h3, h4, -⟩ := hpar b hb d y hd
    rw [h1] at h3
    cases h3
    omega

theorem keys_nodup {α : Type} {t : Table α} (h : Table.wf t = true) : (t.map Prod.fst).Nodup := by
  rw [Table.wf_iff] at h
  exact List.pairwise_map.2 (h.imp fun h => by omega)

theorem kids_length {s : State} (h : Links s) : s.kids.length + 1 ≤ s.arena.length := by
  have h0 : (0 :: s.kids).Nodup := by
    refine List.nodup_cons.2 ⟨fun hm => ?_, kids_nodup h⟩
    obtain ⟨p, c, nd, yd, h1, h2, -⟩ := mem_kids h hm
    exact h.child_ne_root h1 h2 rfl
  have hsub : ∀ y ∈ 0 :: s.kids, y ∈ s.arena.map Prod.fst := by
    intro y hy
    rcases List.mem_cons.1 hy with rfl | hy
    · obtain ⟨r, hr, -⟩ := h.root
      exact List.mem_map.2 ⟨_, Table.mem_of_get hr, rfl⟩
    · obtain ⟨p, c, nd, yd, -, -, h3⟩ := mem_kids h hy
      exact List.mem_map.2 ⟨_, Table.mem_of_get h3, rfl⟩
  simpa using (h0.subperm hsub).length_le

theorem two_le_flatMap {P : Nat × Node → Bool} {l : Table Node} (h : ∀ e ∈ l, P e = true → 2 ≤ e.2.children.length) :
    2 * (l.filter P).length ≤ (l.flatMap fun e => e.2.children.map Prod.snd).length := by
  induction l with
  | nil => simp
  | cons e l ih =>
    have ih := ih fun d hd => h d (List.mem_cons_of_mem _ hd)
    rw [List.flatMap_cons, List.length_append, List.length_map, List.filter_cons]
    split
    · rename_i hp
      have := h e List.mem_cons_self hp
      rw [List.length_cons]
      omega
    · omega

/-- Where every inactive slot in use branches, one inactive slot is free. -/
theorem freeInactiveSlot_finds {s : State} {x : Option Nat} (h : TrieBut x s) (hx : ∀ y, x = some y → y ≤ s.setup.limit) :
    ∃ t, freeInactiveSlot s = .ok t := by
  by_contra hno
  have hall : ∀ y, s.setup.limit < y → y ≤ 2 * s.setup.limit + 1 → s.occupied y = true := by
    intro y h1 h2
    by_contra hc
    exact hno (freeInactiveSlot_of_room h1 h2 (by simpa using hc))
  have hmem : ∀ e ∈ s.arena, s.slot e.1 = some e.2 := fun e he => Table.get_of_mem h.links.keys he
  let P : Nat × Node → Bool := fun e => decide (s.setup.limit < e.1)
  have hhigh := two_le_flatMap (P := P) (l := s.arena) fun e he hp => by
    have hp : s.setup.limit < e.1 := of_decide_eq_true hp
    refine h.branch (hmem e he) (h.high (hmem e he) hp).1 fun hc => ?_
    have := hx _ hc
    omega
  have hkids : s.kids.length + 1 ≤ s.arena.length := kids_length h.links
  have hsplit : s.arena.length = (s.arena.filter P).length + (s.arena.filter fun e => !P e).length := by
    simpa using List.length_eq_length_filter_add P (l := s.arena)
  have hsub : ∀ Q : Nat × Node → Bool, ((s.arena.filter Q).map Prod.fst).Nodup := fun Q =>
    (keys_nodup h.links.keys).sublist (List.filter_sublist.map _)
  have hlow : (s.arena.filter fun e => !P e).length ≤ s.setup.limit + 1 := by
    have : ((s.arena.filter fun e => !P e).map Prod.fst).length ≤ (List.range (s.setup.limit + 1)).length := by
      refine ((hsub _).subperm fun y hy => ?_).length_le
      obtain ⟨e, he, rfl⟩ := List.mem_map.1 hy
      have := (List.mem_filter.1 he).2
      simp only [P, Bool.not_eq_true', decide_eq_false_iff_not, not_lt] at this
      exact List.mem_range.2 (by omega)
    simpa using this
  have hfull : s.setup.limit + 1 ≤ (s.arena.filter P).length := by
    have : (List.range' (s.setup.limit + 1) (s.setup.limit + 1)).length ≤ ((s.arena.filter P).map Prod.fst).length := by
      refine (List.Nodup.subperm (List.nodup_range' ..) fun y hy => ?_).length_le
      have hy := List.mem_range'_1.1 hy
      obtain ⟨nd, hnd⟩ := (occupied_iff s y).1 (hall y (by omega) (by omega))
      exact List.mem_map.2 ⟨(y, nd), List.mem_filter.2 ⟨Table.mem_of_get hnd, decide_eq_true (by omega)⟩, rfl⟩
    simpa using this
  unfold State.kids at hkids
  omega

/-- RemoveNode always completes (R133, R137). -/
theorem removeNode_completes {s : State} {x : Nat} (h : TrieBut (some x) s) : ∃ t, removeNode x s = .ok t := by
  unfold removeNode
  split
  · exact ⟨_, rfl⟩
  · dsimp only
    split
    · exact ⟨_, rfl⟩
    · exact ⟨_, rfl⟩
    · split
      · rename_i hx
        obtain ⟨t, ht⟩ := freeInactiveSlot_finds h.setInactive fun y hy => (Option.some.inj hy) ▸ hx
        rw [ht]
        exact ⟨_, rfl⟩
      · exact ⟨_, rfl⟩

/-- Vacating a slot always completes (R133, R135). -/
theorem vacate_completes {s : State} {j : Nat} (h : TrieBut none s) : ∃ u old, vacate j s = .ok (u, old) := by
  unfold vacate
  split
  · exact ⟨_, _, rfl⟩
  · obtain ⟨t, ht⟩ := freeInactiveSlot_finds h nofun
    rw [ht]
    exact ⟨_, _, rfl⟩

/-- Once its checks pass, TEXTEND's rule completes (R133, R135). -/
theorem extendTrie_completes {s : State} {i start j : Nat} (h : TrieBut none s) (hj : s.nseed < j)
    (hsize : s.size ≤ s.setup.limit) (hsmall : start ≠ Config.seed) (ha : ExtendAllowed s i start j) :
    ∃ t k, extendTrie i start j s = .ok (t, s.charAt .src (start + (s.node i).length), k) := by
  obtain ⟨h1, h2, h3, h4, h5, h6, h7, h8, h9, h10⟩ := ha
  obtain ⟨id, hi, hia⟩ := (activeAt_iff s i).1 h2
  have hsp : s.spelledAt i start = true := by
    rw [spelledAt_iff hi]
    intro k hk
    rw [← nodeChar_of_slot hi]
    exact h9 k (by rw [node_of_slot hi]; exact hk)
  have hal : s.alreadyLive i (s.charAt .src (start + (s.node i).length)) = none := by
    rw [alreadyLive_none hi]
    rintro m md hm rfl hl
    exact h10 m (by rw [child_of_slot hi]; exact hm) (by rw [hl, node_of_slot hi])
  have e : Extendable s i start j (s.charAt .src (start + (s.node i).length)) id := by
    refine ⟨hi, hia, ⟨hj, by omega, h5⟩, by rw [node_of_slot hi] at h8; exact h8, hsmall, (spelledAt_iff hi).1 hsp,
      by rw [node_of_slot hi], (alreadyLive_none hi).1 hal⟩
  obtain ⟨u, old, hv⟩ := vacate_completes (j := j) h
  obtain ⟨w1, w2, w3, w4⟩ := h.vacateWire e hv
  have hr : ∃ v, removeEvicted old (Machine.wire i start j (s.charAt .src (start + (s.node i).length)) u).1 = .ok v := by
    cases old with
    | none => exact ⟨_, rfl⟩
    | some x => exact removeNode_completes w1
  obtain ⟨v, hr⟩ := hr
  have hperm : s.pol.perm.contains j = false := by
    rw [isPerm_false] at h6
    simpa using h6
  refine ⟨v.abandonMatch, (Machine.wire i start j (s.charAt .src (start + (s.node i).length)) u).2, ?_⟩
  unfold extendTrie
  rw [if_neg (by rw [h2]; simp; omega), if_neg (by rw [hperm]; simp; omega), if_neg (by omega), if_neg (by omega),
    if_neg (by rw [hsp]; simp)]
  dsimp only
  rw [hal]
  dsimp only
  rw [hv]
  dsimp only
  rw [hr]

end Sys2Proof.Machine
end

