-- ==== Sys2Proof/Laws/Dictionary.lean ====
section
/-! SUPPORT. Laws of the dictionary of the encoder as one invariant, and its parts. -/

namespace Sys2Proof.Machine

/-- `linksOk` without its booleans. -/
theorem linksOk_iff {s : State} (hk : Table.wf s.arena = true) (hm : ∀ {h nd}, s.slot h = some nd → Table.wf nd.children = true)
    (h0 : ∃ r, s.slot 0 = some r ∧ r.length = 0 ∧ r.parent = 0) :
    s.linksOk = true ↔ Links s ∧ ∀ {h nd}, s.slot h = some nd → nd.active = false → 2 ≤ nd.children.length := by
  have hget : ∀ {e : Nat × Node}, e ∈ s.arena → s.slot e.1 = some e.2 := fun he => Table.get_of_mem hk he
  unfold State.linksOk
  rw [List.all_eq_true]
  constructor
  · intro h
    have h' : ∀ {y yd}, s.slot y = some yd → _ := fun {y yd} hy => h (y, yd) (Table.mem_of_get hy)
    simp only [Bool.and_eq_true, Bool.or_eq_true, decide_eq_true_eq, List.all_eq_true, beq_iff_eq] at h'
    refine ⟨⟨hk, hm, h0, fun {y yd} hy => ?_, fun {y yd c x} hy hc => ?_, fun {x xd} hx hx0 => ?_⟩, fun {y yd} hy ha => ?_⟩
    · have := (h' hy).1.1.2
      split at this <;> rename_i hs <;> simp only [decide_eq_true_eq] at this
      · rw [if_pos hs]
        exact this
      · rw [if_neg hs]
        exact this
    · obtain ⟨⟨⟨⟨h1, h2⟩, h3⟩, h4⟩, h5⟩ := (h' hy).1.2 (c, x) (Table.mem_of_get hc)
      obtain ⟨xd, hx⟩ := (occupied_iff s x).1 h1
      rw [node_of_slot hx] at h2 h3
      refine ⟨xd, hx, h2, h3, ?_, fun k hk => ?_⟩
      · have h4 : (s.key x).toNat = c := h4
        rw [← h4]
        unfold State.key
        rw [nodeChar_of_slot hx, node_of_slot hx, h2, node_of_slot hy]
      · have := h5 k (List.mem_range.2 hk)
        rwa [nodeChar_of_slot hx, nodeChar_of_slot hy] at this
    · have := (h' hx).2.resolve_left hx0
      unfold State.child at this
      cases hp : s.slot xd.parent with
      | none =>
        have hn : (s.node xd.parent).children = [] := by
          unfold State.node
          rw [show Table.get s.arena xd.parent = none from hp]
          rfl
        rw [hn] at this
        simp [Table.get] at this
      | some pd =>
        refine ⟨pd, rfl, ?_⟩
        unfold State.key at this
        rwa [nodeChar_of_slot hx, node_of_slot hx, node_of_slot hp] at this
    · exact (h' hy).1.1.1.resolve_left (by simp [ha])
  · rintro ⟨hl, hb⟩ e he
    have hs := hget he
    simp only [Bool.and_eq_true, Bool.or_eq_true, decide_eq_true_eq, List.all_eq_true, beq_iff_eq]
    refine ⟨⟨⟨?_, ?_⟩, fun c hc => ?_⟩, ?_⟩
    · by_cases ha : e.2.active = true
      · exact .inl ha
      · exact .inr (hb hs (by simpa using ha))
    · have := hl.chars hs
      split <;> rename_i h1
      · rw [if_pos h1] at this
        simpa using this
      · rw [if_neg h1] at this
        simpa using this
    · obtain ⟨xd, h1, h2, h3, h4, h5⟩ := hl.down hs (mem_children hl hs (c := c.1) (x := c.2) hc)
      refine ⟨⟨⟨⟨(occupied_iff s _).2 ⟨xd, h1⟩, ?_⟩, ?_⟩, ?_⟩, fun k hk => ?_⟩
      · rw [node_of_slot h1]
        exact h2
      · rw [node_of_slot h1]
        exact h3
      · rw [h4]
        unfold State.key
        rw [nodeChar_of_slot h1, node_of_slot h1, h2, node_of_slot hs]
      · rw [nodeChar_of_slot h1, nodeChar_of_slot hs]
        exact h5 k (List.mem_range.1 hk)
    · by_cases hz : e.1 = 0
      · exact .inl hz
      · obtain ⟨pd, h1, h2⟩ := hl.up hs hz
        refine .inr ?_
        unfold State.key
        rw [child_of_slot h1, nodeChar_of_slot hs, node_of_slot hs, node_of_slot h1]
        exact h2

/-- An encode dictionary: the trie, its root and seeds, every codeword's number assigned. -/
structure EncDict (s : State) : Prop where
  trie : TrieBut none s
  assigned : ∀ h, s.body h ≠ none → h ≤ s.size
  root : s.body 0 = some (0, 0, 0)
  seeds : ∀ k, 1 ≤ k → k ≤ s.nseed → s.body k = some (Config.seed, 1, k)

/-- `inv` without its booleans. -/
structure Inv (s : State) : Prop where
  build : buildOk s.build = true
  mem : s.memOk = true
  arena : ArenaWf s
  tab : Table.wf s.tab = true
  parent : Table.wfNum s.pol.parent = true
  perm : setWf s.pol.perm = true
  queue : QueueOk s
  cursor : CursorOk s
  phase : s.phaseOk = true
  fault : s.faultOk = true
  setup : s.setupOk = true
  fixed : ∀ k, k ≤ s.nseed → k ∈ s.pol.perm
  grown : s.nseed ≤ s.size
  free : ∀ k ∈ s.pol.q, s.nseed < k
  dict : s.configured = true → s.setup.mode = .enc → EncDict s
  bare : ¬(s.configured = true ∧ s.setup.mode = .enc) → s.arena = [(0, Node.root)]

theorem bareRoot_slot {s : State} (h : s.arena = [(0, Node.root)]) {y : Nat} {nd : Node} (hy : s.slot y = some nd) :
    y = 0 ∧ nd = Node.root := by
  simp only [State.slot, h, Table.get] at hy
  split at hy
  · rename_i h0
    exact ⟨h0, (Option.some.inj hy).symm⟩
  · cases hy

theorem bareRoot_links {s : State} (h : s.arena = [(0, Node.root)]) : Links s := by
  have hs : s.slot 0 = some Node.root := by simp [State.slot, h, Table.get]
  refine ⟨by rw [h]; simp [Table.wf], fun hy => ?_, ⟨_, hs, rfl, rfl⟩, fun hy => ?_, fun hy hc => ?_, fun hy h0 => ?_⟩ <;>
    obtain ⟨rfl, rfl⟩ := bareRoot_slot h hy
  · rfl
  · rw [if_neg (by decide)]
    exact Nat.zero_le _
  · simp [Node.root, Table.get] at hc
  · exact absurd rfl h0

theorem tablesOk_iff (s : State) : s.tablesOk = true ↔ ArenaWf s ∧ Table.wf s.tab = true ∧ Table.wfNum s.pol.parent = true
    ∧ setWf s.pol.perm = true := by
  simp only [State.tablesOk, Bool.and_eq_true, List.all_eq_true]
  constructor
  · rintro ⟨⟨⟨⟨h1, h2⟩, h3⟩, h4⟩, h5⟩
    exact ⟨⟨h1, h2⟩, h3, h4, h5⟩
  · rintro ⟨⟨h1, h2⟩, h3, h4, h5⟩
    exact ⟨⟨⟨⟨h1, h2⟩, h3⟩, h4⟩, h5⟩

theorem layoutOk_iff {s : State} (hk : Table.wf s.arena = true) : s.layoutOk = true ↔ ∀ h nd, s.slot h = some nd →
    (h ≤ s.setup.limit → nd.active = true ∧ nd.codewordNo = h)
      ∧ (s.setup.limit < h → nd.active = false ∧ h ≤ 2 * s.setup.limit + 1) := by
  unfold State.layoutOk
  rw [List.all_eq_true]
  constructor
  · intro h y yd hy
    have := h _ (Table.mem_of_get hy)
    dsimp only at this
    constructor
    · intro hl
      rw [if_pos hl] at this
      simpa using this
    · intro hl
      rw [if_neg (by omega)] at this
      simpa using this
  · intro h e he
    obtain ⟨h1, h2⟩ := h e.1 e.2 (Table.get_of_mem hk he)
    split
    · rename_i hl
      simpa using h1 hl
    · rename_i hl
      simpa using h2 (by omega)

theorem inv_iff (s : State) : s.inv = true ↔ Inv s := by
  constructor
  · intro h
    simp only [State.inv, Bool.and_eq_true] at h
    obtain ⟨⟨⟨⟨⟨⟨⟨⟨⟨⟨h1, h2⟩, h3⟩, h4⟩, h5⟩, h6⟩, h7⟩, h8⟩, h9⟩, h10⟩, h11⟩ := h
    obtain ⟨t1, t2, t3, t4⟩ := (tablesOk_iff s).1 h3
    have hq := (queueOk_iff s).1 h5
    have hlay := (layoutOk_iff t1.keys).1 h4
    simp only [State.dictionaryOk, Bool.and_eq_true, List.all_eq_true, List.mem_range, decide_eq_true_eq, isPerm_iff] at h10
    obtain ⟨⟨⟨d1, d2⟩, d3⟩, d4⟩ := h10
    refine ⟨h1, h2, t1, t2, t3, t4, hq, (cursorOk_iff s).1 h6, h7, h8, h9, fun k hk => d1 k (by omega), d2, d3, fun hc hm => ?_,
      fun hn => ?_⟩
    · rw [if_pos ⟨hc, hm⟩] at d4
      simp only [Bool.and_eq_true, List.all_eq_true, decide_eq_true_eq, List.mem_range'_1] at d4
      obtain ⟨⟨e1, e2⟩, e3⟩ := d4
      obtain ⟨r, hr⟩ := (occupied_iff s 0).1 e2.1
      rw [node_of_slot hr] at e2
      obtain ⟨l1, l2⟩ := (linksOk_iff t1.keys (fun hy => t1.node hy) ⟨r, hr, e2.2.2⟩).1 h11
      have hsz := hq.size
      have e1' : ∀ {y yd}, s.slot y = some yd → _ := fun {y yd} hy => e1 (y, yd) (Table.mem_of_get hy)
      refine ⟨⟨l1, fun hy hl _ => (hlay _ _ hy).1 hl, fun hy hl => (hlay _ _ hy).2 hl, fun hy ha _ => l2 hy ha,
        fun hy hs => (e1' hy).2 hs, by omega⟩, fun y hy => ?_, ?_, fun k hk1 hk2 => ?_⟩
      · cases hb : s.body y with
        | none => exact absurd hb hy
        | some x =>
          obtain ⟨nd, g1, g2, -⟩ := body_some (b := x.1) (n := x.2.1) (k := x.2.2) hb
          by_contra hc
          have := (e1' g1).1
          have := (hlay _ _ g1).2 (by omega)
          rw [g2] at this
          cases this.1
      · have := (hlay _ _ hr).1 (Nat.zero_le _)
        rw [body_of_slot hr, this.1, this.2, e2.2.1, e2.2.2.1]
        rfl
      · obtain ⟨f1, f2, f3, f4⟩ := e3 k (by omega)
        obtain ⟨kd, hkd⟩ := (occupied_iff s k).1 f1
        rw [node_of_slot hkd] at f2 f3
        have := (hlay _ _ hkd).1 (by omega)
        rw [body_of_slot hkd, this.1, this.2, f2, f3]
        rfl
    · rw [if_neg hn] at d4
      simpa using d4
  · intro h
    have hq := h.queue.size
    have hg := h.grown
    simp only [State.inv, Bool.and_eq_true]
    have hfix : s.dictionaryOk = true := by
      simp only [State.dictionaryOk, Bool.and_eq_true, List.all_eq_true, List.mem_range, decide_eq_true_eq, isPerm_iff]
      refine ⟨⟨⟨fun k hk => h.fixed k (by omega), hg⟩, h.free⟩, ?_⟩
      split
      · rename_i hc
        have d := h.dict hc.1 hc.2
        simp only [Bool.and_eq_true, List.all_eq_true, decide_eq_true_eq, List.mem_range'_1]
        obtain ⟨r, r1, r2, r3, r4, -⟩ := body_some d.root
        obtain ⟨r', s1, -, s2⟩ := d.trie.links.root
        rw [r1] at s1
        cases s1
        refine ⟨⟨fun e he => ?_, (occupied_iff s 0).2 ⟨r, r1⟩, by rw [node_of_slot r1]; exact ⟨r3, r4, s2⟩⟩, fun k hk => ?_⟩
        · have hs : s.slot e.1 = some e.2 := Table.get_of_mem h.arena.keys he
          refine ⟨?_, fun hseed => d.trie.seeds hs hseed⟩
          by_cases hl : s.setup.limit < e.1
          · exact .inl hl
          · refine .inr (d.assigned _ ?_)
            rw [body_of_slot hs, (d.trie.low hs (by omega) nofun).1]
            nofun
        · obtain ⟨kd, k1, -, k2, k3, -⟩ := body_some (d.seeds k (by omega) (by omega))
          refine ⟨(occupied_iff s k).2 ⟨kd, k1⟩, ?_⟩
          rw [node_of_slot k1]
          refine ⟨k2, k3, ?_⟩
          by_contra hp
          obtain ⟨pd, p1, -⟩ := d.trie.links.up k1 (by omega)
          have l1 := d.trie.links.parent_length k1 (by omega) p1
          obtain ⟨qd, q1, -⟩ := d.trie.links.up p1 hp
          have l2 := d.trie.links.parent_length p1 hp q1
          omega
      · rename_i hc
        simpa using h.bare hc
    refine ⟨⟨⟨⟨⟨⟨⟨⟨⟨⟨h.build, h.mem⟩, (tablesOk_iff s).2 ⟨h.arena, h.tab, h.parent, h.perm⟩⟩, ?_⟩, (queueOk_iff s).2 h.queue⟩,
      (cursorOk_iff s).2 h.cursor⟩, h.phase⟩, h.fault⟩, h.setup⟩, hfix⟩, ?_⟩
    · rw [layoutOk_iff h.arena.keys]
      intro y yd hy
      by_cases hc : s.configured = true ∧ s.setup.mode = .enc
      · have d := h.dict hc.1 hc.2
        exact ⟨fun hl => d.trie.low hy hl nofun, fun hl => d.trie.high hy hl⟩
      · obtain ⟨rfl, rfl⟩ := bareRoot_slot (h.bare hc) hy
        exact ⟨fun _ => ⟨rfl, rfl⟩, fun hl => absurd hl (by omega)⟩
    · by_cases hc : s.configured = true ∧ s.setup.mode = .enc
      · have d := h.dict hc.1 hc.2
        exact (linksOk_iff h.arena.keys (fun hy => h.arena.node hy) d.trie.links.root).2
          ⟨d.trie.links, fun hy ha => d.trie.branch hy ha nofun⟩
      · have l := bareRoot_links (h.bare hc)
        refine (linksOk_iff h.arena.keys (fun hy => h.arena.node hy) l.root).2 ⟨l, fun hy ha => ?_⟩
        obtain ⟨rfl, rfl⟩ := bareRoot_slot (h.bare hc) hy
        cases ha

end Sys2Proof.Machine
end

