-- ==== Sys2Proof/Laws/Kept.lean ====
section
/-! SUPPORT. Laws of what each command keeps of buffers, policy, phase, fault registers and tables; a step by cases. -/

namespace Sys2Proof.Machine

/-- The host registers, the draw and the results differ; nothing else does. -/
def HostFrame (s t : State) : Prop :=
  t = { s with
    host := t.host, freeCount := t.freeCount, rdata := t.rdata, a0 := t.a0, a1 := t.a1, a2 := t.a2, flags := t.flags, r0 := t.r0,
    r1 := t.r1, r2 := t.r2, r3 := t.r3 }

/-- Everything one step can do. -/
theorem step_cases {s t : State} (h : step s = .next t) :
    t = s ∨ ∃ u, HostFrame s u ∧ (HostFrame u t ∨ t = u.srst
      ∨ (u.fault = false ∧ ((∃ e w, t = u.latch (decodeFault e) w ∧ decode w = .error e)
          ∨ ∃ i, (∃ e, workOf i u.begin = .error e ∧ t = u.latch e (encode i)) ∨ workOf i u.begin = .ok t))) := by
  unfold step takeAccess at h
  cases hh : s.host with
  | nil =>
    rw [hh] at h
    cases h
    exact .inl rfl
  | cons x rest =>
    rw [hh] at h
    refine .inr ⟨{ s with host := rest, freeCount := s.freeCount + 1 }, rfl, ?_⟩
    dsimp only at h
    generalize hu : ({ s with host := rest, freeCount := s.freeCount + 1 } : State) = u at h ⊢
    cases x with
    | read off size =>
      simp only [perform] at h
      cases h
      exact .inl rfl
    | resetInput =>
      simp only [perform] at h
      cases h
      exact .inr (.inl rfl)
    | write off size v =>
      simp only [perform] at h
      split at h
      · unfold writeReg at h
        split at h
        · unfold issueCommand at h
          split at h
          · cases h
            exact .inl rfl
          · rename_i hf
            have hf : u.fault = false := by simpa using hf
            split at h
            · rename_i e he
              cases h
              exact .inr (.inr ⟨hf, .inl ⟨e, v, rfl, he⟩⟩)
            · rename_i i hi
              rcases exec_cases h with ⟨h1, -⟩ | ⟨-, hw⟩ | ⟨-, e, he, rfl⟩
              · rw [hf] at h1
                cases h1
              · exact .inr (.inr ⟨hf, .inr ⟨i, .inr hw⟩⟩)
              · exact .inr (.inr ⟨hf, .inr ⟨i, .inl ⟨e, he, rfl⟩⟩⟩)
        · cases h; exact .inl rfl
        · cases h; exact .inl rfl
        · cases h; exact .inl rfl
        · cases h
          split
          · exact .inr (.inl rfl)
          · exact .inl rfl
        · cases h; exact .inl rfl
      · cases h
        exact .inl rfl

/-- A property that looks neither at the host registers and the results nor at the fault registers is kept by a step if
reset and every command's work keep it. -/
theorem step_keeps {P : State → Prop} (regs : ∀ {s t}, P s → HostFrame s t → P t)
    (latch : ∀ {s e w}, P s → P (State.latch s e w)) (srst : ∀ {s}, P s → P (State.srst s))
    (work : ∀ {i s t}, P s → workOf i s = .ok t → P t) {s t : State} (hs : P s) (h : step s = .next t) : P t := by
  rcases step_cases h with rfl | ⟨u, hu, h⟩
  · exact hs
  have hu := regs hs hu
  rcases h with h | rfl | ⟨-, ⟨e, w, rfl, -⟩ | ⟨i, ⟨e, -, rfl⟩ | hw⟩⟩
  · exact regs hu h
  · exact srst hu
  · exact latch hu
  · exact latch hu
  · exact work (regs (t := u.begin) hu rfl) hw

/-! ### buffers -/

theorem memOk_of_buf {s : State} : s.memOk = true ↔ ∀ b, (s.buf b).wf s.capBits = true := Memory.wf_iff _ _

theorem memOk_congr {s t : State} (h : s.memOk = true) (hm : t.mem = s.mem) (hb : t.build = s.build) : t.memOk = true := by
  unfold State.memOk State.capBits at *
  rw [hm, hb]
  exact h

theorem memOk_setBuf {s : State} (h : s.memOk = true) {b : Buf} {x : Buffer} (hx : x.wf s.capBits = true) : (s.setBuf b x).memOk = true :=
  Memory.wf_set h b hx

theorem memOk_bump {s u : State} (h : u.memOk = true) : (bumpEpochs s u).memOk = true := by
  have hb : (bumpEpochs s u).build = u.build := by rw [bumpEpochs_frame]
  rw [memOk_of_buf] at h ⊢
  intro b
  have := h b
  unfold State.capBits at *
  rw [bumpEpochs_buf, hb]
  split
  · exact Buffer.wf_bump this
  · exact this

theorem memOk_encode {s t : State} (h : s.memOk = true) (hb : t.build = s.build) (ha : AppendsTo .cw s t) : t.memOk = true := by
  rw [memOk_of_buf] at h ⊢
  intro b
  have hcap : t.capBits = s.capBits := by unfold State.capBits; rw [hb]
  rw [hcap]
  by_cases hc : b = .cw
  · subst hc
    have h0 := (Buffer.wf_iff _ _).1 (h .cw)
    obtain ⟨l, hl⟩ := ha.bits
    rw [Buffer.wf_iff]
    have : (t.buf .cw).rc = (s.buf .cw).rc := by rw [hl]
    have := ha.grown.len_le .cw
    rcases ha.cap with h1 | h1 <;> omega
  · rw [ha.other b hc]
    exact h b

theorem memOk_decode {s t : State} (h : s.memOk = true) (hb : t.build = s.build) (ha : DecodeMem s t) : t.memOk = true := by
  rw [memOk_of_buf] at h ⊢
  intro b
  have hcap : t.capBits = s.capBits := by unfold State.capBits; rw [hb]
  rw [hcap]
  have hb := (Buffer.wf_iff _ _).1 (h b)
  rw [Buffer.wf_iff]
  cases b
  · rw [ha.src]; exact hb
  · obtain ⟨p, hp, hq⟩ := ha.cw
    have := ha.cursor
    have hl : (t.buf .cw).len = (s.buf .cw).len := by rw [hq]; rfl
    omega
  · obtain ⟨l, hl⟩ := ha.out
    have : (t.buf .out).rc = (s.buf .out).rc := by rw [hl]
    have := ha.grown.len_le .out
    rcases ha.cap with h1 | h1 <;> omega

theorem work_memOk {i : Instr} {s t : State} (h : s.memOk = true) (hw : workOf i s = .ok t) : t.memOk = true := by
  have hf := workFrame hw
  have hu := hf.untouched
  have hb := memOk_of_buf.1 h
  cases i <;> dsimp only [workOf] at hw <;> dsimp only [WorkFrame] at hf
  case bput b n =>
    obtain ⟨-, hc, rfl⟩ := bputWork_ok hw
    refine memOk_setBuf h ?_
    split
    · exact Buffer.wf_append (hb b) hc
    · exact Buffer.wf_bump (Buffer.wf_append (hb b) hc)
  case bget b n =>
    obtain ⟨hc, rfl⟩ := getBits_ok (bgetWork_ok hw).2
    exact memOk_congr (memOk_setBuf (x := (s.buf b).setRc ((s.buf b).rc + n.toNat)) h (Buffer.wf_setRc (hb b) hc)) rfl rfl
  case bputc b =>
    obtain ⟨hc, rfl⟩ := bputcWork_ok hw
    exact memOk_setBuf h (Buffer.wf_bump (Buffer.wf_append (hb b) hc))
  case bgetc b =>
    obtain ⟨hc, rfl⟩ := getBits_ok hw
    exact memOk_congr (memOk_setBuf (x := (s.buf b).setRc ((s.buf b).rc + 8)) h (Buffer.wf_setRc (hb b) hc)) rfl rfl
  case bcopy d =>
    obtain ⟨-, hc, ⟨-, rfl⟩ | ⟨-, rfl⟩⟩ := bcopyWork_ok hw
    · exact memOk_congr h rfl rfl
    · refine memOk_congr (memOk_setBuf (x := ((s.buf d).appendChars (s.charsAt s.sv.buf s.sv.start s.sv.len)).bump) h ?_) rfl rfl
      exact Buffer.wf_bump (Buffer.wf_appendChars (hb d) _ (by rw [length_charsAt]; exact hc))
  case bclr b =>
    obtain ⟨-, rfl⟩ := bclrWork_ok hw
    exact memOk_setBuf h (Buffer.wf_empty _ _)
  case bseek b =>
    obtain ⟨hc, rfl⟩ := bseekWork_ok hw
    exact memOk_setBuf h (Buffer.wf_setRc (hb b) hc)
  case estep =>
    obtain ⟨⟨u, r⟩, hx, rfl⟩ := estepWork_ok hw
    have hx := encodeStep_frame hx
    refine memOk_bump (memOk_congr (memOk_encode h (by rw [hx.1]) hx.2.1) ?_ ?_) <;> rw [reportRecord_frame]
  case dstep =>
    obtain ⟨⟨u, r⟩, hx, rfl⟩ := dstepWork_ok hw
    have hx := decodeStep_frame hx
    refine memOk_bump (memOk_congr (memOk_decode h (by rw [hx.1]) hx.2.1) ?_ ?_) <;> rw [reportRecord_frame]
  case erun =>
    obtain ⟨-, -, -, u, n, hx, rfl⟩ := erunWork_ok hw
    have hx := encodeRun_frame hx
    exact memOk_bump (memOk_congr (memOk_encode h (by rw [hx.1]) hx.2.1) rfl rfl)
  case drun =>
    obtain ⟨-, -, -, u, n, hx, rfl⟩ := drunWork_ok hw
    have hx := decodeRun_frame hx
    exact memOk_bump (memOk_congr (memOk_decode h (by rw [hx.1]) hx.2.1) rfl rfl)
  all_goals exact memOk_congr h (by rw [hf]) hu.build

/-! ### policy -/

theorem nseed_le (v : Variant) : v.nseed ≤ 256 := by cases v <;> decide

theorem configure_policy {s t : State} (hb : buildOk s.build = true) (h : econfigWork s = .ok t) :
    QueueOk t ∧ CursorOk t ∧ t.nseed + 3 ≤ t.setup.limit ∧ t.size = t.nseed ∧ t.pol.q = [] ∧ t.pol.perm = List.range (t.nseed + 1) := by
  obtain ⟨-, hl, rfl⟩ := econfigWork_ok h
  have hlim : (variantField s.a0).nseed + 3 ≤ configLimit s.maxUnbounded (variantField s.a0).nseed s.opA1 := by
    unfold configLimit
    split
    · have := nseed_le (variantField s.a0)
      simp only [buildOk, decide_eq_true_eq] at hb
      have : 2 ^ 9 ≤ s.maxUnbounded := Nat.pow_le_pow_right (by decide) hb.1
      omega
    · omega
  have hmem : ∀ k, k ∈ List.range ((variantField s.a0).nseed + 1) ↔ k ≤ (variantField s.a0).nseed := fun k => by
    rw [List.mem_range]; omega
  refine ⟨⟨List.nodup_nil, fun k hk => ?_, ?_, ?_, fun _ => rfl, fun _ k hk1 hk2 hk3 => ?_⟩,
    ⟨fun _ => ⟨?_, ?_⟩, fun _ => ⟨(variantField s.a0).nseed + 1, by omega, ?_, ?_⟩, fun _ _ => ?_⟩, hlim, rfl, rfl, rfl⟩
  · simp [State.configure, initialPolicy, State.results] at hk
  · show (variantField s.a0).nseed ≤ configLimit _ _ _
    omega
  · exact (hmem 0).2 (Nat.zero_le _)
  · exact absurd ((hmem k).2 hk2) hk3
  · show 1 ≤ (variantField s.a0).nseed + 1
    omega
  · show (variantField s.a0).nseed + 1 ≤ configLimit _ _ _
    omega
  · show (variantField s.a0).nseed + 1 ≤ configLimit _ _ _
    omega
  · rw [isPerm_false]
    exact fun hc => absurd ((hmem _).1 hc) (by omega)
  · rw [isPerm_false]
    exact fun hc => absurd ((hmem ((variantField s.a0).nseed + 1)).1 hc) (by omega)

theorem mem_foldl_setInsert {S l : List Nat} {k : Nat} : k ∈ S.foldl (fun l x => setInsert x l) l ↔ k ∈ S ∨ k ∈ l := by
  induction S generalizing l with
  | nil => simp
  | cons x S ih =>
    rw [List.foldl_cons, ih, mem_setInsert, List.mem_cons]
    tauto

theorem leavesNone_false {p : PolicyState} {limit : Nat} {S : List Nat} :
    p.leavesNone limit S = false ↔ ∃ x, 1 ≤ x ∧ x ≤ limit ∧ x ∉ S ∧ x ∉ p.perm := by
  rw [← Bool.not_eq_true, PolicyState.leavesNone, List.all_eq_true]
  simp only [List.mem_range'_1, Bool.or_eq_true, decide_eq_true_eq, isPerm_iff, not_forall, not_or]
  constructor
  · rintro ⟨x, hx, h1, h2⟩
    exact ⟨x, hx.1, by omega, h1, h2⟩
  · rintro ⟨x, hx, hl, h1, h2⟩
    exact ⟨x, ⟨hx, by omega⟩, h1, h2⟩

/-- What PPERM leaves. -/
theorem afterPerm_spec {p : PolicyState} {policy : Policy} {limit : Nat} {S : List Nat} (h : p.leavesNone limit S = false) :
    (∀ k, k ∈ (p.afterPerm policy limit S).perm ↔ k ∈ S ∨ k ∈ p.perm)
      ∧ (p.afterPerm policy limit S).q = p.q.filter (fun x => decide (x ∉ S)) ∧ (p.afterPerm policy limit S).parent = p.parent
      ∧ (policy = .mra ∧ (p.cur ∈ S ∨ p.cur ∈ p.perm) → IsNextNonPerm (p.makePerm S) limit p.cur (p.afterPerm policy limit S).cur)
      ∧ (¬(policy = .mra ∧ (p.cur ∈ S ∨ p.cur ∈ p.perm)) → (p.afterPerm policy limit S).cur = p.cur) := by
  have hp : ∀ k, k ∈ (p.makePerm S).perm ↔ k ∈ S ∨ k ∈ p.perm := fun k => mem_foldl_setInsert
  obtain ⟨x, x1, x2, x3, x4⟩ := leavesNone_false.1 h
  have hn := nextNonPerm_spec (p := p.makePerm S) (limit := limit) (k := p.cur)
    ⟨x, x1, x2, (isPerm_false _ _).2 fun hc => ((hp x).1 hc).elim x3 x4⟩
  have hc : (p.makePerm S).isPerm (p.makePerm S).cur = true ↔ p.cur ∈ S ∨ p.cur ∈ p.perm := by
    rw [isPerm_iff]
    exact hp p.cur
  unfold PolicyState.afterPerm
  split
  · rename_i h1
    rw [hc] at h1
    exact ⟨hp, rfl, rfl, fun _ => hn, fun h2 => absurd h1 h2⟩
  · rename_i h1
    rw [hc] at h1
    exact ⟨hp, rfl, rfl, fun h2 => absurd h2 h1, fun _ => rfl⟩

theorem pperm_policy {s t : State} (hq : QueueOk s) (hc : CursorOk s) (h : ppermWork s = .ok t) :
    QueueOk t ∧ CursorOk t ∧ (∀ k ∈ s.pol.perm, k ∈ t.pol.perm) ∧ (∀ k ∈ t.pol.q, k ∈ s.pol.q)
      ∧ t.pol.parent = s.pol.parent := by
  obtain ⟨h1, -, -, -, h2, rfl⟩ := ppermWork_ok h
  generalize hS : s.pol.permSet s.setup.policy s.setup.limit s.opA0 = S at *
  obtain ⟨a1, a2, a3, a4, a5⟩ := afterPerm_spec (policy := s.setup.policy) h2
  obtain ⟨x, x1, x2, x3, x4⟩ := leavesNone_false.1 h2
  have hsub : ∀ k ∈ (s.pol.afterPerm s.setup.policy s.setup.limit S).q, k ∈ s.pol.q := by
    rw [a2]
    exact fun k hk => (List.mem_filter.1 hk).1
  refine ⟨⟨?_, fun k hk => hq.range k (hsub k hk), hq.size, (a1 0).2 (.inr hq.zero), fun hm => ?_, fun hm k k1 k2 k3 => ?_⟩,
    ⟨fun _ => ?_, fun _ => ⟨x, x1, x2, ?_⟩, fun _ hm => ?_⟩, fun k hk => (a1 k).2 (.inr hk), hsub, a3⟩
  · show (s.pol.afterPerm _ _ _).q.Nodup
    rw [a2]
    exact hq.nodup.filter _
  · show (s.pol.afterPerm _ _ _).q = []
    rw [a2, hq.mra hm]
    rfl
  · show k ∈ (s.pol.afterPerm _ _ _).q
    have k3 : k ∉ (s.pol.afterPerm s.setup.policy s.setup.limit S).perm := k3
    rw [a1, not_or] at k3
    rw [a2, List.mem_filter]
    exact ⟨hq.full hm k k1 k2 k3.2, by simpa using k3.1⟩
  · show 1 ≤ (s.pol.afterPerm _ _ _).cur ∧ (s.pol.afterPerm _ _ _).cur ≤ _
    by_cases hcase : s.setup.policy = .mra ∧ (s.pol.cur ∈ S ∨ s.pol.cur ∈ s.pol.perm)
    · have := a4 hcase
      exact ⟨this.1, this.2.1⟩
    · rw [a5 hcase]
      exact hc.range h1
  · rw [isPerm_false]
    exact fun hk => ((a1 x).1 hk).elim x3 x4
  · show (s.pol.afterPerm _ _ _).isPerm (s.pol.afterPerm _ _ _).cur = false
    have hm : s.setup.policy = .mra := hm
    by_cases hcase : s.setup.policy = .mra ∧ (s.pol.cur ∈ S ∨ s.pol.cur ∈ s.pol.perm)
    · have := (a4 hcase).2.2.1
      rw [isPerm_false] at this ⊢
      rw [a1]
      rwa [show (s.pol.makePerm S).perm = S.foldl (fun l x => setInsert x l) s.pol.perm from rfl, mem_foldl_setInsert] at this
    · rw [a5 hcase, isPerm_false, a1]
      exact fun hk => hcase ⟨hm, hk⟩

theorem dropNumber_policy {s : State} (hq : QueueOk s) (hc : CursorOk s) (h0 : 1 ≤ s.size) :
    QueueOk (s.dropNumber s.size) ∧ CursorOk (s.dropNumber s.size) := by
  refine ⟨⟨hq.nodup.erase _, fun k hk => ?_, ?_, hq.zero, fun hm => ?_, fun hm k k1 k2 k3 => ?_⟩, ⟨hc.range, hc.free, hc.mra⟩⟩
  · have hk : k ∈ s.pol.q.erase s.size := hk
    have h1 := hq.range k (List.mem_of_mem_erase hk)
    have h2 : k ≠ s.size := fun e => by
      rw [e] at hk
      exact hq.nodup.not_mem_erase hk
    show 1 ≤ k ∧ k ≤ s.size - 1
    omega
  · show s.size - 1 ≤ s.setup.limit
    have := hq.size
    omega
  · show s.pol.q.erase s.size = []
    rw [hq.mra hm]
    rfl
  · have k2 : k ≤ s.size - 1 := k2
    exact (List.mem_erase_of_ne (by omega)).2 (hq.full hm k k1 (by omega) k3)

/-- The policy's part of a state. -/
structure PolicyOk (s : State) : Prop where
  queue : QueueOk s
  cursor : CursorOk s

theorem PolicyOk.congr {s t : State} (h : PolicyOk s) (hp : t.pol = s.pol) (hz : t.size = s.size) (hc : t.configured = s.configured)
    (hu : t.setup = s.setup) : PolicyOk t := ⟨h.queue.congr hp hz hu, h.cursor.congr hp hc hu⟩

theorem PolicyOk.matchPolicy {s t : State} {i j : Nat} (h : PolicyOk s) (hm : matchPolicy i s = .ok (t, j)) : PolicyOk t :=
  ⟨matchPolicy_queueOk h.queue hm, matchPolicy_cursorOk h.cursor hm⟩

theorem PolicyOk.encodeStep {s t : State} {r : Option Record} (h : PolicyOk s) (he : encodeStep s = .ok (t, r)) : PolicyOk t := by
  obtain ⟨-, -, -, -, u, x, hu, he⟩ := encodeStep_ok he
  have hm := (longestMatch_ok hu).2.2
  have hu : PolicyOk u := h.congr (by rw [hm]) (by rw [hm]) (by rw [hm]) (by rw [hm])
  rcases he with ⟨has, c, r', -, -, hf⟩ | ⟨-, -, rfl⟩
  · obtain ⟨e, p, v, j, h1, h2, h3, rfl, -⟩ := finishRecord_ok hf
    have he : PolicyOk e := by
      obtain ⟨-, rfl⟩ := emitRecord_ok h1
      exact hu.congr rfl rfl rfl rfl
    have hp := he.matchPolicy h2
    obtain ⟨g1, g2, g3, g4⟩ := growDictionary_encode h3
    have hv : PolicyOk v := hp.congr g3 g4 (by rw [g1]) (by rw [g1])
    exact hv.congr rfl rfl rfl rfl
  · exact hu.congr rfl rfl rfl rfl

theorem PolicyOk.addExtension {s t : State} {i pos len j : Nat} (h : PolicyOk s) (he : addExtension i pos len s = .ok (t, j)) :
    PolicyOk t := by
  obtain ⟨u, h1, h2⟩ := addExtension_ok he
  have hu := h.matchPolicy h1
  subst h2
  split
  · exact hu
  · exact hu.congr rfl rfl rfl rfl

theorem PolicyOk.decodeStep {s t : State} {r : Option Record} (h : PolicyOk s) (he : decodeStep s = .ok (t, r)) : PolicyOk t := by
  obtain ⟨-, -, -, -, h1⟩ := decodeStep_ok he
  rcases h1 with ⟨-, -, rfl⟩ | ⟨h0, hw, e, r', -, -, hd⟩
  · exact h.congr rfl rfl rfl rfl
  · obtain ⟨a, b, c, final, v, j, ha, hb, hv, rfl, -⟩ := decodeRecord_ok hd
    obtain ⟨ha, -⟩ := copyOut_append ha
    obtain ⟨hb, -⟩ := decodeChar_frame hb
    have h1 : PolicyOk (advanceCw s.setup.width s) := h.congr rfl rfl rfl rfl
    have h2 : PolicyOk a := h1.congr (by rw [ha]) (by rw [ha]) (by rw [ha]) (by rw [ha])
    have h3 : PolicyOk b := h2.congr (by rw [hb]) (by rw [hb]) (by rw [hb]) (by rw [hb])
    exact (h3.addExtension hv).congr rfl rfl rfl rfl

theorem work_policy {i : Instr} {s t : State} (hb : buildOk s.build = true) (h : PolicyOk s) (hw : workOf i s = .ok t) :
    PolicyOk t := by
  have hf := workFrame hw
  cases i <;> dsimp only [workOf] at hw <;> dsimp only [WorkFrame] at hf
  case tremove =>
    obtain ⟨-, h1, h2, -, u, hu, rfl⟩ := tremoveWork_ok hw
    have hu := removeNode_frame hu
    have hu' : PolicyOk u := h.congr hu.pol hu.size (by rw [hu]) hu.setup
    have hd : PolicyOk (u.dropNumber s.opA0) := by
      rw [h2, ← hu.size]
      have := dropNumber_policy hu'.queue hu'.cursor (by rw [hu.size]; omega)
      exact ⟨this.1, this.2⟩
    have ha := abandonMatch_frame (u.dropNumber s.opA0)
    exact hd.congr ha.pol ha.size (by rw [ha]) ha.setup
  case pmatch =>
    obtain ⟨u, j, hu, rfl⟩ := pmatchWork_ok hw
    exact (h.matchPolicy hu).congr rfl rfl rfl rfl
  case pperm =>
    have := pperm_policy h.queue h.cursor hw
    exact ⟨this.1, this.2.1⟩
  case econfig =>
    have := configure_policy hb hw
    exact ⟨this.1, this.2.1⟩
  case estep =>
    obtain ⟨⟨u, r⟩, hx, rfl⟩ := estepWork_ok hw
    refine (h.encodeStep hx).congr ?_ ?_ ?_ ?_ <;> rw [bumpEpochs_frame, reportRecord_frame]
  case dstep =>
    obtain ⟨⟨u, r⟩, hx, rfl⟩ := dstepWork_ok hw
    refine (h.decodeStep hx).congr ?_ ?_ ?_ ?_ <;> rw [bumpEpochs_frame, reportRecord_frame]
  case erun =>
    obtain ⟨-, -, -, u, n, hx, rfl⟩ := erunWork_ok hw
    have := runSteps_keeps (R := fun s t => PolicyOk s → PolicyOk t) (fun _ h => h) (fun h k x => k (h x))
      (fun h x => x.encodeStep h) hx
    refine (this h).congr ?_ ?_ ?_ ?_ <;> rw [bumpEpochs_frame] <;> rfl
  case drun =>
    obtain ⟨-, -, -, u, n, hx, rfl⟩ := drunWork_ok hw
    have := runSteps_keeps (R := fun s t => PolicyOk s → PolicyOk t) (fun _ h => h) (fun h k x => k (h x))
      (fun h x => x.decodeStep h) hx
    refine (this h).congr ?_ ?_ ?_ ?_ <;> rw [bumpEpochs_frame] <;> rfl
  case eaddext =>
    obtain ⟨-, -, -, -, e, u, j, -, -, hx, rfl⟩ := eaddextWork_ok hw
    exact (h.addExtension hx).congr rfl rfl rfl rfl
  all_goals exact h.congr (by rw [hf]) (by rw [hf]) (by rw [hf]) (by rw [hf])

theorem srst_policy (s : State) : PolicyOk s.srst :=
  ⟨(queueOk_iff _).1 (show State.reset.queueOk = true by decide), (cursorOk_iff _).1 (show State.reset.cursorOk = true by decide)⟩

/-! ### phase and fault -/

theorem phase_congr {s t : State} (h : s.phaseOk = true) (h1 : t.estate = s.estate) (h2 : t.configured = s.configured) :
    t.phaseOk = true := by
  unfold State.phaseOk at *
  rw [h1, h2]
  exact h

theorem work_phase {i : Instr} {s t : State} (h : s.phaseOk = true) (hw : workOf i s = .ok t) : t.phaseOk = true := by
  have hf := workFrame hw
  have done : ∀ {u : State}, s.configured = true → s.estate = .ready → u.configured = s.configured →
      (u.estate = s.estate ∨ u.estate = .done) → u.phaseOk = true := by
    intro u h1 h2 h3 h4
    unfold State.phaseOk
    rw [h3, h1]
    rcases h4 with h4 | h4 <;> rw [h4]
    · rw [h2]; rfl
    · rfl
  cases i <;> dsimp only [workOf] at hw <;> dsimp only [WorkFrame] at hf
  case econfig => rw [(econfigWork_ok hw).2.2]; rfl
  case estep =>
    obtain ⟨⟨u, r⟩, hx, rfl⟩ := estepWork_ok hw
    obtain ⟨h1, -, h2, -⟩ := encodeStep_ok hx
    have hx := encodeStep_frame hx
    refine done h1 h2 (by rw [bumpEpochs_frame, reportRecord_frame]; rw [hx.1]) ?_
    rw [bumpEpochs_frame, reportRecord_frame]
    exact or_iff_not_imp_left.2 hx.2.2
  case dstep =>
    obtain ⟨⟨u, r⟩, hx, rfl⟩ := dstepWork_ok hw
    obtain ⟨h1, -, h2, -⟩ := decodeStep_ok hx
    have hx := decodeStep_frame hx
    refine done h1 h2 (by rw [bumpEpochs_frame, reportRecord_frame]; rw [hx.1]) ?_
    rw [bumpEpochs_frame, reportRecord_frame]
    exact hx.2.2
  case erun =>
    obtain ⟨h1, -, h2, u, n, hx, rfl⟩ := erunWork_ok hw
    have hx := encodeRun_frame hx
    refine done h1 h2 (by rw [bumpEpochs_frame]; show u.configured = _; rw [hx.1]) ?_
    rw [bumpEpochs_frame]
    exact hx.2.2
  case drun =>
    obtain ⟨h1, -, h2, u, n, hx, rfl⟩ := drunWork_ok hw
    have hx := decodeRun_frame hx
    refine done h1 h2 (by rw [bumpEpochs_frame]; show u.configured = _; rw [hx.1]) ?_
    rw [bumpEpochs_frame]
    exact hx.2.2
  all_goals exact phase_congr h (by rw [hf]) (by rw [hf])

theorem fault_congr {s t : State} (h : s.faultOk = true) (h1 : t.fault = s.fault) (h2 : t.faultInfo = s.faultInfo)
    (h3 : t.faultCmd = s.faultCmd) : t.faultOk = true := by
  unfold State.faultOk at *
  rw [h1, h2, h3]
  exact h

theorem faultInfo_nat' (e : Raise) (w : Word) :
    (faultInfoWord e w).toNat = e.code.num + (w.toNat / 2 ^ 24) * 2 ^ 8 + (e.info % 2 ^ 16) * 2 ^ 16 := by
  have h1 : (opcField w).toNat = w.toNat / 2 ^ 24 := by
    unfold opcField
    rw [BitVec.extractLsb'_toNat, Nat.shiftRight_eq_div_pow]
    have := w.isLt
    omega
  unfold faultInfoWord toWord
  rw [BitVec.toNat_ofNat, h1]
  have := w.isLt
  have : e.code.num ≤ 0x11 := by cases e.code <;> decide
  rw [Nat.mod_eq_of_lt]
  omega

theorem latch_faultOk (s : State) (e : Raise) (w : Word) : (s.latch e w).faultOk = true := by
  have hn := faultInfo_nat' e w
  have hc : 1 ≤ e.code.num ∧ e.code.num ≤ 0x11 := by cases e.code <;> decide
  have hw := w.isLt
  unfold State.faultOk State.latch
  dsimp only
  rw [if_pos rfl]
  rw [decide_eq_true_eq]
  have h8 : ((faultInfoWord e w).extractLsb' 0 8).toNat = e.code.num := by
    rw [BitVec.extractLsb'_toNat, Nat.shiftRight_eq_div_pow, hn]
    omega
  refine ⟨by omega, by omega, BitVec.eq_of_toNat_eq ?_⟩
  rw [BitVec.extractLsb'_toNat, BitVec.extractLsb'_toNat, Nat.shiftRight_eq_div_pow, Nat.shiftRight_eq_div_pow, hn]
  omega

/-- The sparse tables of a state are in canonical form. -/
structure TablesOk (s : State) : Prop where
  arena : ArenaWf s
  tab : Table.wf s.tab = true
  parent : Table.wfNum s.pol.parent = true
  perm : setWf s.pol.perm = true

theorem TablesOk.congr {s t : State} (h : TablesOk s) (ha : t.arena = s.arena) (ht : t.tab = s.tab) (hp : t.pol = s.pol) : TablesOk t :=
  ⟨h.arena.congr ha, ht ▸ h.tab, by rw [hp]; exact h.parent, by rw [hp]; exact h.perm⟩

theorem TablesOk.matchPolicy {s t : State} {i j : Nat} (h : TablesOk s) (hm : matchPolicy i s = .ok (t, j)) : TablesOk t := by
  obtain ⟨-, -, rfl⟩ := matchPolicy_ok hm
  have key : Table.wfNum (s.pol.select s.setup.policy s.setup.limit s.size s.freeCount i).pol.parent = true
      ∧ setWf (s.pol.select s.setup.policy s.setup.limit s.size s.freeCount i).pol.perm = true := by
    rcases select_cases s.pol s.setup.policy s.setup.limit s.size s.freeCount i with
      ⟨h1, -⟩ | ⟨-, -, -, h4, -, h5, -⟩ | ⟨-, -, -, -, -, h4, -, h5, -⟩ | ⟨-, -, -, -, -, h4, -, h5, -⟩
    · rw [h1]
      exact ⟨h.parent, h.perm⟩
    all_goals
      rw [h4, h5]
      exact ⟨Table.wfNum_putNum h.parent _ _, h.perm⟩
  exact ⟨h.arena.congr rfl, h.tab, key.1, key.2⟩

theorem TablesOk.growDictionary {i j : Nat} {has : Bool} {s t : State} (h : TablesOk s) (hg : growDictionary i has j s = .ok t) :
    TablesOk t := by
  rcases growDictionary_ok hg with ⟨-, rfl⟩ | ⟨-, -, c, k, hu⟩ | ⟨-, -, u, hu, rfl⟩
  · exact h
  · have hf := extendTrie_frame hu
    exact ⟨h.arena.extendTrie hu, by rw [hf]; exact h.tab, by rw [hf]; exact h.parent, by rw [hf]; exact h.perm⟩
  · have hf := removeNode_frame hu
    exact ⟨(h.arena.removeNode hu).congr rfl, by dsimp only; rw [hf]; exact h.tab, by dsimp only; rw [hf]; exact h.parent,
      by dsimp only; rw [hf]; exact h.perm⟩

theorem TablesOk.encodeStep {s t : State} {r : Option Record} (h : TablesOk s) (he : encodeStep s = .ok (t, r)) : TablesOk t := by
  obtain ⟨-, -, -, -, u, x, hu, he⟩ := encodeStep_ok he
  have hm := (longestMatch_ok hu).2.2
  have hu : TablesOk u := h.congr (by rw [hm]) (by rw [hm]) (by rw [hm])
  rcases he with ⟨has, c, r', -, -, hf⟩ | ⟨-, -, rfl⟩
  · obtain ⟨e, p, v, j, h1, h2, h3, rfl, -⟩ := finishRecord_ok hf
    have he : TablesOk e := by
      obtain ⟨-, rfl⟩ := emitRecord_ok h1
      exact hu.congr rfl rfl rfl
    exact ((he.matchPolicy h2).growDictionary h3).congr rfl rfl rfl
  · exact hu.congr rfl rfl rfl

theorem TablesOk.addExtension {s t : State} {i pos len j : Nat} (h : TablesOk s) (he : addExtension i pos len s = .ok (t, j)) :
    TablesOk t := by
  obtain ⟨u, h1, h2⟩ := addExtension_ok he
  have hu := h.matchPolicy h1
  subst h2
  split
  · exact hu
  · exact ⟨hu.arena.congr rfl, Table.wf_put hu.tab _ _, hu.parent, hu.perm⟩

theorem TablesOk.decodeStep {s t : State} {r : Option Record} (h : TablesOk s) (he : decodeStep s = .ok (t, r)) : TablesOk t := by
  obtain ⟨-, -, -, -, h1⟩ := decodeStep_ok he
  rcases h1 with ⟨-, -, rfl⟩ | ⟨h0, hw, e, r', -, -, hd⟩
  · exact h.congr rfl rfl rfl
  · obtain ⟨a, b, c, final, v, j, ha, hb, hv, rfl, -⟩ := decodeRecord_ok hd
    obtain ⟨ha, -⟩ := copyOut_append ha
    obtain ⟨hb, -⟩ := decodeChar_frame hb
    have h1 : TablesOk (advanceCw s.setup.width s) := h.congr rfl rfl rfl
    have h2 : TablesOk a := h1.congr (by rw [ha]) (by rw [ha]) (by rw [ha])
    have h3 : TablesOk b := h2.congr (by rw [hb]) (by rw [hb]) (by rw [hb])
    exact (h3.addExtension hv).congr rfl rfl rfl

theorem setWf_foldl {S l : List Nat} (h : setWf l = true) : setWf (S.foldl (fun l x => setInsert x l) l) = true := by
  induction S generalizing l with
  | nil => exact h
  | cons x S ih => exact ih (setWf_setInsert h x)

theorem wf_seeds {α : Type} (n : Nat) (g : Nat → α) (z : α) : Table.wf ((0, z) :: (List.range n).map fun c => (c + 1, g c)) = true := by
  rw [Table.wf_iff, List.pairwise_cons]
  refine ⟨fun e he => ?_, List.pairwise_map.2 (List.pairwise_lt_range.imp fun h => by dsimp only; omega)⟩
  obtain ⟨c, -, rfl⟩ := List.mem_map.1 he
  exact Nat.succ_pos c

theorem initialArena_wf (v : Variant) (m : Mode) :
    Table.wf (initialArena v m) = true ∧ ∀ e ∈ initialArena v m, Table.wf e.2.children = true := by
  have bare : Table.wf [(0, Node.root)] = true ∧ ∀ e ∈ [(0, Node.root)], Table.wf e.2.children = true :=
    ⟨by decide, by decide⟩
  cases v <;> cases m
  · exact bare
  · exact bare
  rotate_left
  · exact bare
  refine ⟨wf_seeds 256 (fun c => seedNode (c + 1)) _, fun e he => ?_⟩
  rcases List.mem_cons.1 he with rfl | he
  · rw [Table.wf_iff]
    exact List.pairwise_map.2 (List.pairwise_lt_range.imp fun h => h)
  · obtain ⟨c, -, rfl⟩ := List.mem_map.1 he
    rfl

theorem initialTab_wf (v : Variant) : Table.wf (initialTab v) = true := by
  cases v
  · decide
  · exact wf_seeds 256 _ _

theorem work_tables {i : Instr} {s t : State} (h : TablesOk s) (hw : workOf i s = .ok t) : TablesOk t := by
  have hf := workFrame hw
  cases i <;> dsimp only [workOf] at hw <;> dsimp only [WorkFrame] at hf
  case textend =>
    obtain ⟨-, u, c, k, hu, rfl⟩ := textendWork_ok hw
    have hf := extendTrie_frame hu
    exact ⟨(h.arena.extendTrie hu).congr rfl, by rw [State.results, hf]; exact h.tab, by rw [State.results, hf]; exact h.parent,
      by rw [State.results, hf]; exact h.perm⟩
  case tremove =>
    obtain ⟨-, -, -, -, u, hu, rfl⟩ := tremoveWork_ok hw
    have hf := removeNode_frame hu
    have hd : TablesOk (u.dropNumber s.opA0) :=
      ⟨(h.arena.removeNode hu).congr rfl, by show Table.wf u.tab = true; rw [hf]; exact h.tab,
        by show Table.wfNum (Table.putNum u.pol.parent _ 0) = true; rw [hf.pol]; exact Table.wfNum_putNum h.parent _ _,
        by show setWf u.pol.perm = true; rw [hf.pol]; exact h.perm⟩
    have ha := abandonMatch_frame (u.dropNumber s.opA0)
    exact hd.congr (abandonMatch_arena _) (by rw [ha]) ha.pol
  case pmatch =>
    obtain ⟨u, j, hu, rfl⟩ := pmatchWork_ok hw
    exact (h.matchPolicy hu).congr rfl rfl rfl
  case pperm =>
    obtain ⟨h1, -, -, -, h2, rfl⟩ := ppermWork_ok hw
    refine ⟨h.arena.congr rfl, h.tab, ?_, ?_⟩ <;> dsimp only <;> unfold PolicyState.afterPerm <;> split
    · exact h.parent
    · exact h.parent
    · exact setWf_foldl h.perm
    · exact setWf_foldl h.perm
  case econfig =>
    rw [(econfigWork_ok hw).2.2]
    have := initialArena_wf (latchedSetup s.maxUnbounded s.a0 s.opA1).variant (latchedSetup s.maxUnbounded s.a0 s.opA1).mode
    refine ⟨⟨this.1, this.2⟩, initialTab_wf _, rfl, ?_⟩
    show setWf (List.range _) = true
    rw [setWf, decide_eq_true_eq]
    exact List.pairwise_lt_range
  case estep =>
    obtain ⟨⟨u, r⟩, hx, rfl⟩ := estepWork_ok hw
    refine (h.encodeStep hx).congr ?_ ?_ ?_ <;> rw [bumpEpochs_frame, reportRecord_frame]
  case dstep =>
    obtain ⟨⟨u, r⟩, hx, rfl⟩ := dstepWork_ok hw
    refine (h.decodeStep hx).congr ?_ ?_ ?_ <;> rw [bumpEpochs_frame, reportRecord_frame]
  case erun =>
    obtain ⟨-, -, -, u, n, hx, rfl⟩ := erunWork_ok hw
    have := runSteps_keeps (R := fun s t => TablesOk s → TablesOk t) (fun _ h => h) (fun h k x => k (h x))
      (fun h x => x.encodeStep h) hx
    refine (this h).congr ?_ ?_ ?_ <;> rw [bumpEpochs_frame] <;> rfl
  case drun =>
    obtain ⟨-, -, -, u, n, hx, rfl⟩ := drunWork_ok hw
    have := runSteps_keeps (R := fun s t => TablesOk s → TablesOk t) (fun _ h => h) (fun h k x => k (h x))
      (fun h x => x.decodeStep h) hx
    refine (this h).congr ?_ ?_ ?_ <;> rw [bumpEpochs_frame] <;> rfl
  case eaddext =>
    obtain ⟨-, -, -, -, e, u, j, -, -, hx, rfl⟩ := eaddextWork_ok hw
    exact (h.addExtension hx).congr rfl rfl rfl
  all_goals exact h.congr (by rw [hf]) (by rw [hf]) (by rw [hf])

theorem tablesOk_iff' (s : State) : s.tablesOk = true ↔ TablesOk s := by
  rw [tablesOk_iff]
  exact ⟨fun h => ⟨h.1, h.2.1, h.2.2.1, h.2.2.2⟩, fun h => ⟨h.arena, h.tab, h.parent, h.perm⟩⟩

end Sys2Proof.Machine
end

