-- ==== Sys2Proof/Laws/Layout.lean ====
section
/-! SUPPORT. Laws of what each command keeps of the arena's layout. -/

namespace Sys2Proof.Machine

/-- R47, of one node. -/
def Lay (limit h : Nat) (nd : Node) : Prop :=
  (h ≤ limit → nd.active = true ∧ nd.codewordNo = h) ∧ (limit < h → nd.active = false ∧ h ≤ 2 * limit + 1)

theorem Lay.linkFree (limit : Nat) : LinkFree (Lay limit) := ⟨fun _ _ _ h => h, fun _ _ _ h => h⟩

theorem Lay.removeNode {s t : State} {x : Nat} (h : AllNodes (Lay s.setup.limit) s) (hr : removeNode x s = .ok t) :
    AllNodes (Lay s.setup.limit) t := by
  have hL := Lay.linkFree s.setup.limit
  -- `x` aside, everything keeps the layout; `x` leaves if it is low
  let Q : Nat → Node → Prop := fun h nd => h ≠ x → Lay s.setup.limit h nd
  have hQ : LinkFree Q := ⟨fun _ _ _ h => h, fun _ _ _ h => h⟩
  unfold Machine.removeNode at hr
  split at hr
  · cases hr
    exact h
  have hu : AllNodes Q (s.setActive x false) := by
    exact AllNodes.updNode (P := Q) (s := s) (fun e he _ => h e he) fun nd _ hne => absurd rfl hne
  have hx : s.setup.limit < x → AllNodes (Lay s.setup.limit) (s.setActive x false) := by
    intro hx
    refine h.updNode fun nd hn => ⟨fun hc => absurd hc (by omega), fun _ => ⟨rfl, (hn.2 hx).2⟩⟩
  have gone : ∀ {v : State}, AllNodes Q v → (∀ e ∈ v.arena, e.1 ≠ x) → AllNodes (Lay s.setup.limit) v :=
    fun h1 h2 e he => h1 e he (h2 e he)
  have keysUpd : ∀ {v : State} {y : Nat} {f : Node → Node}, (∀ e ∈ v.arena, e.1 ≠ x) → ∀ e ∈ (v.updNode y f).arena, e.1 ≠ x := by
    intro v y f hv e he
    obtain ⟨d, hd, h1, -⟩ := Table.mem_modify he
    rw [← h1]
    exact hv d hd
  have keysFree : ∀ {v : State} {y : Nat}, (∀ e ∈ v.arena, e.1 ≠ x) → ∀ e ∈ (v.freeNode y).arena, e.1 ≠ x :=
    fun hv e he => hv e (Table.mem_del he).1
  have keysSelf : ∀ {v : State}, ∀ e ∈ (v.freeNode x).arena, e.1 ≠ x := fun e he => (Table.mem_del he).2
  have keysSplice : ∀ {v : State} {y : Nat}, (∀ e ∈ v.arena, e.1 ≠ x) → ∀ e ∈ (splice y v).arena, e.1 ≠ x := by
    intro v y hv
    unfold splice
    split
    · exact keysFree (keysUpd (keysUpd hv))
    · exact hv
  dsimp only at hr
  split at hr
  · cases hr
    refine gone (hu.removeLeaf hQ x) ?_
    unfold removeLeaf
    dsimp only
    split
    · exact keysSplice keysSelf
    · exact keysSelf
  · rename_i e hch
    cases hr
    refine gone (hu.splice hQ x) ?_
    unfold splice
    rw [hch]
    exact keysSelf
  · rename_i a b l hch
    split at hr
    · rename_i hlow
      split at hr
      · cases hr
      rename_i y hy
      cases hr
      obtain ⟨h1, h2, -⟩ := freeInactiveSlot_ok hy
      have h1 : s.setup.limit < y := h1
      have h2 : y ≤ 2 * s.setup.limit + 1 := h2
      have hxy : y ≠ x := by omega
      cases hg : Table.get (s.setActive x false).arena x with
      | none =>
        exfalso
        have : (s.setActive x false).node x = (none : Option Node).getD _ := congrArg (Option.getD · _) hg
        rw [this] at hch
        cases hch
      | some nd =>
        have hna : nd.active = false := by
          have := slot_setActive s x false x
          rw [State.slot, hg, if_pos rfl] at this
          obtain ⟨nd', -, h3⟩ := Option.map_eq_some_iff.1 this.symm
          rw [← h3]
        refine gone (hu.relocate hQ fun nd' hg' _ => ?_) ?_
        · rw [hg] at hg'
          cases hg'
          exact ⟨fun hc => absurd hc (by omega), fun _ => ⟨hna, h2⟩⟩
        · unfold relocate
          rw [hg]
          have key : ∀ (l : Table Nat) (v : State), (∀ e ∈ v.arena, e.1 ≠ x) →
              ∀ e ∈ (l.foldl (fun u e => u.setParent e.2 y) v).arena, e.1 ≠ x := by
            intro l
            induction l with
            | nil => exact fun _ hv => hv
            | cons e l ih => exact fun v hv => ih _ (keysUpd hv)
          refine key _ _ (keysUpd fun e he => ?_)
          rcases Table.mem_put he with rfl | he
          · exact hxy
          · exact (Table.mem_del he).2
    · rename_i hlow
      cases hr
      exact hx (by omega)

theorem Lay.extend {s t : State} {i start j k : Nat} {c : Byte} (h : AllNodes (Lay s.setup.limit) s) (hs : s.size ≤ s.setup.limit)
    (he : extendTrie i start j s = .ok (t, c, k)) : AllNodes (Lay s.setup.limit) t := by
  obtain ⟨-, -, -, hj, -, -, -, -, -, -, -, u, old, v, hv, hr, rfl, -⟩ := extendTrie_ok he
  have hL := Lay.linkFree s.setup.limit
  have hu : AllNodes (Lay s.setup.limit) u := by
    unfold vacate at hv
    split at hv
    · cases hv
      exact h
    split at hv
    · cases hv
    rename_i y hy
    cases hv
    obtain ⟨h1, h2, -⟩ := freeInactiveSlot_ok hy
    let Q : Nat → Node → Prop := fun h nd => h ≠ y → Lay s.setup.limit h nd
    have hQ : LinkFree Q := ⟨fun _ _ _ h => h, fun _ _ _ h => h⟩
    have hr : AllNodes Q (relocate j y s) := AllNodes.relocate hQ (fun e he _ => h e he) fun nd _ hne => absurd rfl hne
    intro e he
    have he : e ∈ Table.modify (relocate j y s).arena y fun nd => { nd with active := false } := he
    obtain ⟨d, hd, e1, e2⟩ := Table.mem_modify he
    rw [← e1, e2]
    split
    · rename_i hdy
      rw [hdy]
      exact ⟨fun hc => absurd hc (by omega), fun _ => ⟨rfl, h2⟩⟩
    · rename_i hdy
      exact hr d hd hdy
  have hjl : j ≤ s.setup.limit := by omega
  have hw : AllNodes (Lay s.setup.limit) (wire i start j c u).1 := by
    unfold wire
    dsimp only
    have fresh : ∀ ch, Lay s.setup.limit j { active := true, codewordNo := j, start := start, length := (u.node i).length + 1, parent := i, children := ch } :=
      fun _ => ⟨fun _ => ⟨rfl, rfl⟩, fun hc => absurd hc (by omega)⟩
    split
    · exact (hu.putNode (fresh _)).setChild hL _ _ _
    · rename_i m hm
      split
      · exact ((hu.putNode (fresh _)).setChild hL _ _ _).setParent hL _ _
      · let Q : Nat → Node → Prop := fun h nd => h ≠ j → Lay s.setup.limit h nd
        have hQ : LinkFree Q := ⟨fun _ _ _ h => h, fun _ _ _ h => h⟩
        have hr : AllNodes Q (relocate m j u) := AllNodes.relocate hQ (fun e he _ => hu e he) fun nd _ hne => absurd rfl hne
        intro e he
        have he : e ∈ Table.modify (relocate m j u).arena j fun nd => { nd with active := true, codewordNo := j, start := start } := he
        obtain ⟨d, hd, e1, e2⟩ := Table.mem_modify he
        rw [← e1, e2]
        split
        · rename_i hdy
          rw [hdy]
          exact ⟨fun _ => ⟨rfl, rfl⟩, fun hc => absurd hc (by omega)⟩
        · rename_i hdy
          exact hr d hd hdy
  have hv' : AllNodes (Lay s.setup.limit) v := by
    cases old with
    | none =>
      cases hr
      exact hw
    | some x =>
      have hr : Machine.removeNode x _ = .ok v := hr
      have hset : (wire i start j c u).1.setup = s.setup := ((vacate_frame hv).trans (wire_frame _ _ _ _ _)).setup
      rw [← hset]
      exact Lay.removeNode (by rw [hset]; exact hw) hr
  intro e he
  rw [abandonMatch_arena] at he
  exact hv' e he

/-- R47 with the bound it needs. -/
structure LayoutOk (s : State) : Prop where
  build : buildOk s.build = true
  size : s.size ≤ s.setup.limit
  nodes : AllNodes (Lay s.setup.limit) s

theorem LayoutOk.congr {s t : State} (h : LayoutOk s) (hb : t.build = s.build) (hz : t.size = s.size) (hu : t.setup = s.setup)
    (ha : t.arena = s.arena) : LayoutOk t :=
  ⟨hb ▸ h.build, by rw [hz, hu]; exact h.size, by unfold AllNodes; rw [hu, ha]; exact h.nodes⟩

theorem LayoutOk.matchPolicy {s t : State} {i j : Nat} (h : LayoutOk s) (hm : matchPolicy i s = .ok (t, j)) : LayoutOk t := by
  obtain ⟨-, -, rfl⟩ := matchPolicy_ok hm
  refine ⟨h.build, ?_, h.nodes⟩
  have := h.size
  show (s.pol.select s.setup.policy s.setup.limit s.size s.freeCount i).size ≤ s.setup.limit
  rcases select_cases s.pol s.setup.policy s.setup.limit s.size s.freeCount i with
    ⟨h1, -⟩ | ⟨h1, -, h2, -⟩ | ⟨-, -, -, -, h1, -⟩ | ⟨-, -, -, -, h1, -⟩
  · rw [h1]
    exact this
  · omega
  · omega
  · omega

theorem LayoutOk.encodeStep {s t : State} {r : Option Record} (h : LayoutOk s) (he : encodeStep s = .ok (t, r)) : LayoutOk t := by
  obtain ⟨-, -, -, -, u, x, hu, he⟩ := encodeStep_ok he
  have hm := (longestMatch_ok hu).2.2
  have hu : LayoutOk u := h.congr (by rw [hm]) (by rw [hm]) (by rw [hm]) (by rw [hm])
  rcases he with ⟨has, c, r', -, -, hf⟩ | ⟨-, -, rfl⟩
  · obtain ⟨e, p, v, j, h1, h2, h3, rfl, -⟩ := finishRecord_ok hf
    have he : LayoutOk e := by
      obtain ⟨-, rfl⟩ := emitRecord_ok h1
      exact hu.congr rfl rfl rfl rfl
    have hp := he.matchPolicy h2
    have hv : LayoutOk v := by
      rcases growDictionary_ok h3 with ⟨-, rfl⟩ | ⟨-, -, c, k, hu⟩ | ⟨-, -, u, hu, rfl⟩
      · exact hp
      · have hf := extendTrie_frame hu
        exact ⟨by rw [hf]; exact hp.build, by rw [hf.size, hf.setup]; exact hp.size, by
          rw [hf.setup]; exact Lay.extend hp.nodes hp.size hu⟩
      · have hf := removeNode_frame hu
        refine ⟨by dsimp only; rw [hf]; exact hp.build, by dsimp only; rw [hf.size, hf.setup]; exact hp.size, ?_⟩
        show AllNodes (Lay u.setup.limit) u
        rw [hf.setup]
        exact Lay.removeNode hp.nodes hu
    exact hv.congr rfl rfl rfl rfl
  · exact hu.congr rfl rfl rfl rfl

theorem LayoutOk.addExtension {s t : State} {i pos len j : Nat} (h : LayoutOk s) (he : addExtension i pos len s = .ok (t, j)) :
    LayoutOk t := by
  obtain ⟨u, h1, h2⟩ := addExtension_ok he
  have hu := h.matchPolicy h1
  subst h2
  split
  · exact hu
  · exact hu.congr rfl rfl rfl rfl

theorem LayoutOk.decodeStep {s t : State} {r : Option Record} (h : LayoutOk s) (he : decodeStep s = .ok (t, r)) : LayoutOk t := by
  obtain ⟨-, -, -, -, h1⟩ := decodeStep_ok he
  rcases h1 with ⟨-, -, rfl⟩ | ⟨h0, hw, e, r', -, -, hd⟩
  · exact h.congr rfl rfl rfl rfl
  · obtain ⟨a, b, c, final, v, j, ha, hb, hv, rfl, -⟩ := decodeRecord_ok hd
    obtain ⟨ha, -⟩ := copyOut_append ha
    obtain ⟨hb, -⟩ := decodeChar_frame hb
    have h1 : LayoutOk (advanceCw s.setup.width s) := h.congr rfl rfl rfl rfl
    have h2 : LayoutOk a := h1.congr (by rw [ha]) (by rw [ha]) (by rw [ha]) (by rw [ha])
    have h3 : LayoutOk b := h2.congr (by rw [hb]) (by rw [hb]) (by rw [hb]) (by rw [hb])
    exact (h3.addExtension hv).congr rfl rfl rfl rfl

theorem initialArena_lay (v : Variant) (m : Mode) {limit : Nat} (hl : v.nseed ≤ limit) :
    ∀ e ∈ initialArena v m, Lay limit e.1 e.2 := by
  have bare : ∀ e ∈ [(0, Node.root)], Lay limit e.1 e.2 := by
    intro e he
    simp only [List.mem_singleton] at he
    subst he
    exact ⟨fun _ => ⟨rfl, rfl⟩, fun hc => absurd hc (Nat.not_lt_zero _)⟩
  cases v <;> cases m
  · exact bare
  · exact bare
  rotate_left
  · exact bare
  intro e he
  have hl : 256 ≤ limit := hl
  rcases List.mem_cons.1 he with rfl | he
  · exact ⟨fun _ => ⟨rfl, rfl⟩, fun hc => absurd hc (Nat.not_lt_zero _)⟩
  · obtain ⟨c, hc, rfl⟩ := List.mem_map.1 he
    have hc := List.mem_range.1 hc
    exact ⟨fun _ => ⟨rfl, rfl⟩, fun hx => absurd hx (by dsimp only; omega)⟩

theorem work_layout {i : Instr} {s t : State} (h : LayoutOk s) (hw : workOf i s = .ok t) : LayoutOk t := by
  have hf := workFrame hw
  cases i <;> dsimp only [workOf] at hw <;> dsimp only [WorkFrame] at hf
  case textend =>
    obtain ⟨-, u, c, k, hu, rfl⟩ := textendWork_ok hw
    have hf := extendTrie_frame hu
    have hu' : LayoutOk u := ⟨by rw [hf]; exact h.build, by rw [hf.size, hf.setup]; exact h.size, by
      rw [hf.setup]; exact Lay.extend h.nodes h.size hu⟩
    exact hu'.congr rfl rfl rfl rfl
  case tremove =>
    obtain ⟨-, -, -, -, u, hu, rfl⟩ := tremoveWork_ok hw
    have hf := removeNode_frame hu
    have hd : LayoutOk (u.dropNumber s.opA0) := by
      refine ⟨by show buildOk u.build = true; rw [hf]; exact h.build, ?_, ?_⟩
      · show u.size - 1 ≤ u.setup.limit
        rw [hf.size, hf.setup]
        have := h.size
        omega
      · show AllNodes (Lay u.setup.limit) u
        rw [hf.setup]
        exact Lay.removeNode h.nodes hu
    have ha := abandonMatch_frame (u.dropNumber s.opA0)
    exact hd.congr (by rw [ha]) ha.size ha.setup (abandonMatch_arena _)
  case pmatch =>
    obtain ⟨u, j, hu, rfl⟩ := pmatchWork_ok hw
    exact (h.matchPolicy hu).congr rfl rfl rfl rfl
  case econfig =>
    have hc := configure_policy h.build hw
    refine ⟨by rw [hf]; exact h.build, by omega, ?_⟩
    have e := (econfigWork_ok hw).2.2
    have : t.arena = initialArena t.setup.variant t.setup.mode := by rw [e]; rfl
    unfold AllNodes
    rw [this]
    exact initialArena_lay _ _ (by have := hc.2.2.1; unfold State.nseed at this; omega)
  case estep =>
    obtain ⟨⟨u, r⟩, hx, rfl⟩ := estepWork_ok hw
    refine (h.encodeStep hx).congr ?_ ?_ ?_ ?_ <;> rw [bumpEpochs_frame, reportRecord_frame]
  case dstep =>
    obtain ⟨⟨u, r⟩, hx, rfl⟩ := dstepWork_ok hw
    refine (h.decodeStep hx).congr ?_ ?_ ?_ ?_ <;> rw [bumpEpochs_frame, reportRecord_frame]
  case erun =>
    obtain ⟨-, -, -, u, n, hx, rfl⟩ := erunWork_ok hw
    have := runSteps_keeps (R := fun s t => LayoutOk s → LayoutOk t) (fun _ h => h) (fun h k x => k (h x))
      (fun h x => x.encodeStep h) hx
    refine (this h).congr ?_ ?_ ?_ ?_ <;> rw [bumpEpochs_frame] <;> rfl
  case drun =>
    obtain ⟨-, -, -, u, n, hx, rfl⟩ := drunWork_ok hw
    have := runSteps_keeps (R := fun s t => LayoutOk s → LayoutOk t) (fun _ h => h) (fun h k x => k (h x))
      (fun h x => x.decodeStep h) hx
    refine (this h).congr ?_ ?_ ?_ ?_ <;> rw [bumpEpochs_frame] <;> rfl
  case eaddext =>
    obtain ⟨-, -, -, -, e, u, j, -, -, hx, rfl⟩ := eaddextWork_ok hw
    exact (h.addExtension hx).congr rfl rfl rfl rfl
  all_goals exact h.congr (by rw [hf]) (by rw [hf]) (by rw [hf]) (by rw [hf])

theorem layoutOk_all (s : State) : s.layoutOk = true ↔ AllNodes (Lay s.setup.limit) s := by
  unfold State.layoutOk AllNodes Lay
  rw [List.all_eq_true]
  refine forall₂_congr fun e he => ?_
  by_cases hl : e.1 ≤ s.setup.limit
  · rw [if_pos hl]
    simp [hl, show ¬ s.setup.limit < e.1 by omega]
  · rw [if_neg hl]
    simp [hl, show s.setup.limit < e.1 by omega]

end Sys2Proof.Machine
end

