-- ==== Sys2Proof/Laws/DictionaryKept.lean ====
section
/-! SUPPORT. Laws of what each command keeps of the dictionary. -/

namespace Sys2Proof.Machine

theorem ceilLog2_spec {x : Nat} (h : 2 ≤ x) : x ≤ 2 ^ ceilLog2 x ∧ 2 ^ (ceilLog2 x - 1) < x ∧ 1 ≤ ceilLog2 x := by
  unfold ceilLog2
  rw [if_neg (by omega)]
  have h1 := Nat.lt_log2_self (n := x - 1)
  have h2 := Nat.log2_self_le (n := x - 1) (by omega)
  refine ⟨by omega, ?_, by omega⟩
  rw [Nat.add_sub_cancel]
  omega

theorem econfig_setup {s t : State} (hb : buildOk s.build = true) (hw : econfigWork s = .ok t) : t.setupOk = true := by
  have hp := configure_policy hb hw
  obtain ⟨-, hl, rfl⟩ := econfigWork_ok hw
  have hlim : configLimit s.maxUnbounded (variantField s.a0).nseed s.opA1 ≤ 2 ^ 30 := by
    simp only [buildOk, decide_eq_true_eq] at hb
    unfold configLimit
    split
    · exact Nat.pow_le_pow_right (by decide) hb.2.1
    · have : s.maxLimit ≤ 2 ^ 30 := Nat.pow_le_pow_right (by decide) hb.2.2.1
      omega
  have hlow : (variantField s.a0).nseed + 3 ≤ configLimit s.maxUnbounded (variantField s.a0).nseed s.opA1 := hp.2.2.1
  unfold State.setupOk
  rw [Bool.or_eq_true, decide_eq_true_eq]
  right
  show 2 ≤ configWidth s.opA1 (configLimit s.maxUnbounded (variantField s.a0).nseed s.opA1)
    ∧ configWidth s.opA1 (configLimit s.maxUnbounded (variantField s.a0).nseed s.opA1) ≤ 32
    ∧ configLimit s.maxUnbounded (variantField s.a0).nseed s.opA1
        < 2 ^ configWidth s.opA1 (configLimit s.maxUnbounded (variantField s.a0).nseed s.opA1)
    ∧ configLimit s.maxUnbounded (variantField s.a0).nseed s.opA1 < 2 ^ 31
  generalize configLimit s.maxUnbounded (variantField s.a0).nseed s.opA1 = n at *
  unfold configWidth
  split
  · unfold Config.wordBits
    omega
  · obtain ⟨h1, h2, h3⟩ := ceilLog2_spec (x := n + 1) (by omega)
    have h4 : ceilLog2 (n + 1) - 1 < 31 := (Nat.pow_lt_pow_iff_right (a := 2) (by decide)).1 (by omega)
    have h5 : 2 ≤ ceilLog2 (n + 1) := by
      by_contra hc
      have : ceilLog2 (n + 1) = 1 := by omega
      rw [this] at h1
      omega
    omega

theorem setup_congr {s t : State} (h : s.setupOk = true) (hc : t.configured = s.configured) (hu : t.setup = s.setup) : t.setupOk = true := by
  unfold State.setupOk at *
  rw [hc, hu]
  exact h

theorem work_setup {i : Instr} {s t : State} (hb : buildOk s.build = true) (h : s.setupOk = true) (hw : workOf i s = .ok t) : t.setupOk = true := by
  have hf := workFrame hw
  by_cases hi : i = .econfig
  · subst hi
    exact econfig_setup hb hw
  · cases i <;> dsimp only [WorkFrame] at hf
    case econfig => exact absurd rfl hi
    all_goals exact setup_congr h (by rw [hf]) (by rw [hf])

/-! ### the dictionary -/

theorem TrieBut.srcGrown {x : Option Nat} {s t : State} (h : TrieBut x s) (ha : t.arena = s.arena) (hu : t.setup = s.setup)
    (hb : ∃ l, (t.buf .src).bits = (s.buf .src).bits ++ l) : TrieBut x t := by
  have hs : ∀ y, t.slot y = s.slot y := fun y => by simp only [State.slot, ha]
  have hns : t.nseed = s.nseed := by unfold State.nseed; rw [hu]
  refine ⟨h.links.src_grown ha hb, fun hy hl hx => ?_, fun hy hl => ?_, fun hy ha hx => ?_, fun hy hseed => ?_, ?_⟩
  · exact h.low (hs _ ▸ hy) (hu ▸ hl) hx
  · rw [hu]
    exact h.high (hs _ ▸ hy) (hu ▸ hl)
  · exact h.branch (hs _ ▸ hy) ha hx
  · rw [hns]
    exact h.seeds (hs _ ▸ hy) hseed
  · rw [hns, hu]
    exact h.room

theorem EncDict.congr {s t : State} (h : EncDict s) (ha : t.arena = s.arena) (hu : t.setup = s.setup) (hz : s.size ≤ t.size)
    (hb : ∃ l, (t.buf .src).bits = (s.buf .src).bits ++ l) : EncDict t := by
  have hbody : ∀ y, t.body y = s.body y := fun y => body_congr (by simp only [State.slot, ha])
  have hns : t.nseed = s.nseed := by unfold State.nseed; rw [hu]
  refine ⟨h.trie.srcGrown ha hu hb, fun y hy => ?_, (hbody 0).trans h.root, fun k k1 k2 => ?_⟩
  · rw [hbody] at hy
    exact Nat.le_trans (h.assigned y hy) hz
  · rw [hbody]
    exact h.seeds k k1 (hns ▸ k2)

theorem sameSrc {s t : State} (h : t.mem = s.mem) : ∃ l, (t.buf .src).bits = (s.buf .src).bits ++ l :=
  ⟨[], by rw [State.buf_congr h]; simp⟩

/-- An operation on the trie that keeps every codeword but `x`, itself above the seeds, keeps the dictionary. -/
theorem EncDict.keep {s t : State} {x : Nat} (h : EncDict s) (ht : TrieBut none t) (hk : KeepsWords (some x) s t) (hx : s.nseed < x)
    (hz : t.body x = none ∨ x ≤ s.size) : EncDict t := by
  have hns : t.nseed = s.nseed := by unfold State.nseed; rw [hk.frame.setup]
  have hb : ∀ y, y ≠ x → t.body y = s.body y := fun y hy => hk.body y fun hc => hy (Option.some.inj hc).symm
  refine ⟨ht, fun y hy => ?_, (hb 0 (by omega)).trans h.root, fun k k1 k2 => ?_⟩
  · rw [hk.frame.size]
    by_cases hyx : y = x
    · rw [hyx] at hy ⊢
      rcases hz with hz | hz
      · exact absurd hz hy
      · exact hz
    · rw [hb y hyx] at hy
      exact h.assigned y hy
  · rw [hns] at k2
    rw [hb k (by omega)]
    exact h.seeds k k1 k2

/-- With only the seeds assigned there is no inactive node. -/
theorem EncDict.no_high {s : State} (h : EncDict s) (hz : s.size = s.nseed) {y : Nat} {yd : Node} (hy : s.slot y = some yd) :
    y ≤ s.setup.limit := by
  by_contra hc
  have key : ∀ n, ∀ y yd, s.slot y = some yd → s.setup.limit < y → (s.buf .src).nchars - yd.length < n → False := by
    intro n
    induction n with
    | zero => exact fun _ _ _ _ h => absurd h (Nat.not_lt_zero _)
    | succ n ih =>
      intro y yd hy hl hn
      have hr := h.trie.room
      have hb := h.trie.branch hy (h.trie.high hy hl).1 nofun
      obtain ⟨⟨c, x⟩, l, hcl⟩ := List.exists_cons_of_ne_nil (l := yd.children) (fun hc => by simp [hc] at hb)
      have hg : Table.get yd.children c = some x := by rw [hcl]; simp [Table.get]
      obtain ⟨xd, hx, -, hlen, -⟩ := h.trie.links.down hy hg
      have hx0 := h.trie.links.child_ne_root hy hg
      obtain ⟨pd, hp, -⟩ := h.trie.links.up hy (by omega)
      have hpl := h.trie.links.parent_length hy (by omega) hp
      by_cases hxl : x ≤ s.setup.limit
      · have ha := h.trie.low hx hxl nofun
        have hbx := body_of_slot hx
        rw [if_pos ha.1] at hbx
        have := h.assigned x (by rw [hbx]; nofun)
        rw [h.seeds x (by omega) (by omega)] at hbx
        simp only [Option.some.injEq, Prod.mk.injEq] at hbx
        omega
      · have hch := h.trie.links.chars hx
        split at hch
        · omega
        · exact ih x xd hx (by omega) (by omega)
  exact key _ y yd hy (by omega) (Nat.lt_succ_self _)

/-- With only the seeds assigned, no node reads SRC: it may be cleared (R64, R108). -/
theorem EncDict.cleared {s t : State} (h : EncDict s) (hz : s.size = s.nseed) (ha : t.arena = s.arena) (hu : t.setup = s.setup)
    (hzt : t.size = s.size) : EncDict t := by
  have hs : ∀ y, t.slot y = s.slot y := fun y => by simp only [State.slot, ha]
  have hns : t.nseed = s.nseed := by unfold State.nseed; rw [hu]
  have hbody : ∀ y, t.body y = s.body y := fun y => body_congr (hs y)
  have seed : ∀ {y yd}, s.slot y = some yd → y ≠ 0 → yd.start = Config.seed ∧ yd.length = 1 := by
    intro y yd hy h0
    have hl := h.no_high hz hy
    have hact := h.trie.low hy hl nofun
    have hbx := body_of_slot hy
    rw [if_pos hact.1] at hbx
    have := h.assigned y (by rw [hbx]; nofun)
    rw [h.seeds y (by omega) (by omega)] at hbx
    simp only [Option.some.injEq, Prod.mk.injEq] at hbx
    exact ⟨hbx.1.symm, hbx.2.1.symm⟩
  have root : ∀ {yd}, s.slot 0 = some yd → yd.start = 0 ∧ yd.length = 0 := by
    intro yd hy
    obtain ⟨nd, h1, -, h2, h3, -⟩ := body_some h.root
    rw [hy] at h1
    cases h1
    exact ⟨h2, h3⟩
  have hc : ∀ {y yd}, s.slot y = some yd → y ≠ 0 → ∀ k, charOfNode t yd k = charOfNode s yd k := by
    intro y yd hy h0 k
    unfold charOfNode
    rw [if_pos (seed hy h0).1, if_pos (seed hy h0).1]
  have hlen : ∀ {y yd}, s.slot y = some yd → yd.length ≤ 1 := by
    intro y yd hy
    by_cases h0 : y = 0
    · rw [h0] at hy
      have := (root hy).2
      omega
    · have := (seed hy h0).2
      omega
  have hl : Links t := by
    refine ⟨ha ▸ h.trie.links.keys, fun hy => h.trie.links.maps (hs _ ▸ hy), ?_, fun {y yd} hy => ?_, fun {y yd c x} hy hcx => ?_,
      fun {x xd} hx h0 => ?_⟩
    · obtain ⟨r, hr, hh⟩ := h.trie.links.root
      exact ⟨r, (hs 0).trans hr, hh⟩
    · rw [hs] at hy
      by_cases h0 : y = 0
      · rw [h0] at hy
        have := root hy
        rw [if_neg (by rw [this.1]; decide), this.1, this.2]
        exact Nat.zero_le _
      · rw [if_pos (seed hy h0).1]
        exact (seed hy h0).2
    · rw [hs] at hy
      obtain ⟨xd, h1, h2, h3, h4, h5⟩ := h.trie.links.down hy hcx
      have hx0 := h.trie.links.child_ne_root hy hcx
      have := hlen h1
      refine ⟨xd, (hs x).trans h1, h2, h3, by rw [hc h1 hx0]; exact h4, fun k hk => absurd hk (by omega)⟩
    · rw [hs] at hx
      obtain ⟨pd, h1, h2⟩ := h.trie.links.up hx h0
      exact ⟨pd, (hs _).trans h1, by rw [hc hx h0]; exact h2⟩
  refine ⟨⟨hl, fun hy hl hx => ?_, fun hy hl => ?_, fun hy ha hx => ?_, fun hy hseed => ?_, ?_⟩, fun y hy => ?_,
    (hbody 0).trans h.root, fun k k1 k2 => ?_⟩
  · exact h.trie.low (hs _ ▸ hy) (hu ▸ hl) hx
  · rw [hu]
    exact h.trie.high (hs _ ▸ hy) (hu ▸ hl)
  · exact h.trie.branch (hs _ ▸ hy) ha hx
  · rw [hns]
    exact h.trie.seeds (hs _ ▸ hy) hseed
  · rw [hns, hu]
    exact h.trie.room
  · rw [hbody] at hy
    rw [hzt]
    exact h.assigned y hy
  · rw [hbody]
    exact h.seeds k k1 (hns ▸ k2)

/-- The dictionary's part of the invariant. -/
structure DictInv (s : State) : Prop where
  fixed : ∀ k, k ≤ s.nseed → k ∈ s.pol.perm
  grown : s.nseed ≤ s.size
  free : ∀ k ∈ s.pol.q, s.nseed < k
  dict : s.configured = true → s.setup.mode = .enc → EncDict s
  bare : ¬(s.configured = true ∧ s.setup.mode = .enc) → s.arena = [(0, Node.root)]

theorem Inv.toDict {s : State} (h : Inv s) : DictInv s := ⟨h.fixed, h.grown, h.free, h.dict, h.bare⟩

theorem DictInv.congr {s t : State} (h : DictInv s) (hp : t.pol = s.pol) (hz : t.size = s.size) (hc : t.configured = s.configured)
    (hu : t.setup = s.setup) (ha : t.arena = s.arena) (hb : ∃ l, (t.buf .src).bits = (s.buf .src).bits ++ l) : DictInv t := by
  have hns : t.nseed = s.nseed := by unfold State.nseed; rw [hu]
  refine ⟨by rw [hns, hp]; exact h.fixed, by rw [hns, hz]; exact h.grown, by rw [hns, hp]; exact h.free, fun h1 h2 => ?_, fun h1 => ?_⟩
  · exact (h.dict (hc ▸ h1) (hu ▸ h2)).congr ha hu (by rw [hz]) hb
  · rw [ha]
    exact h.bare (by rw [← hc, ← hu]; exact h1)

/-- The number the PMATCH rule assigns is above the seeds. -/
theorem matchPolicy_above {i j : Nat} {s t : State} (hp : PolicyOk s) (hd : DictInv s) (h : matchPolicy i s = .ok (t, j)) :
    j = 0 ∨ s.nseed < j := by
  have hconf := (matchPolicy_ok h).1.1
  rcases matchPolicy_number hp.queue hp.cursor h with ⟨h1, -⟩ | ⟨h1, -, -, -, -, -, ⟨-, h2, -⟩ | ⟨-, -, h2⟩⟩
  · exact .inl h1
  · have := hd.grown
    exact .inr (by omega)
  · refine .inr ?_
    split at h2
    · rename_i hm
      have := hp.cursor.mra hconf hm
      rw [isPerm_false, ← h2] at this
      by_contra hc
      exact this (hd.fixed j (by omega))
    · exact hd.free j h2

theorem DictInv.matchPolicy {s t : State} {i j : Nat} (hp : PolicyOk s) (h : DictInv s) (hm : matchPolicy i s = .ok (t, j)) : DictInv t := by
  obtain ⟨-, -, rfl⟩ := matchPolicy_ok hm
  have hg := h.grown
  have hsz := hp.queue.size
  have key : (s.pol.select s.setup.policy s.setup.limit s.size s.freeCount i).pol.perm = s.pol.perm
      ∧ s.size ≤ (s.pol.select s.setup.policy s.setup.limit s.size s.freeCount i).size
      ∧ ∀ k ∈ (s.pol.select s.setup.policy s.setup.limit s.size s.freeCount i).pol.q, s.nseed < k := by
    rcases select_cases s.pol s.setup.policy s.setup.limit s.size s.freeCount i with
      ⟨h1, -⟩ | ⟨h1, -, h2, h3, -, -, h4⟩ | ⟨-, -, -, -, h1, h2, -, -, h4⟩ | ⟨-, -, -, -, h1, h2, -, -, h4⟩
    · rw [h1]
      exact ⟨rfl, Nat.le_refl _, h.free⟩
    · refine ⟨h3, by omega, fun k hk => ?_⟩
      split at h4
      · exact h.free k (h4 ▸ hk)
      · rcases List.mem_cons.1 (h4.mem_iff.1 hk) with rfl | hk
        · omega
        · exact h.free k hk
    · exact ⟨h2, by omega, fun k hk => h.free k (h4.mem_iff.1 hk)⟩
    · exact ⟨h2, by omega, fun k hk => h.free k (h4 ▸ hk)⟩
  refine ⟨?_, Nat.le_trans hg key.2.1, key.2.2, fun h1 h2 => (h.dict h1 h2).congr rfl rfl key.2.1 (sameSrc rfl), h.bare⟩
  show ∀ k, k ≤ s.nseed → k ∈ (s.pol.select s.setup.policy s.setup.limit s.size s.freeCount i).pol.perm
  rw [key.1]
  exact h.fixed

theorem DictInv.addExtension {s t : State} {i pos len j : Nat} (hp : PolicyOk s) (h : DictInv s) (he : addExtension i pos len s = .ok (t, j)) :
    DictInv t := by
  obtain ⟨u, h1, h2⟩ := addExtension_ok he
  have hu := h.matchPolicy hp h1
  subst h2
  split
  · exact hu
  · exact hu.congr rfl rfl rfl rfl rfl (sameSrc rfl)

/-- Characters of SRC are at numbers a register holds. -/
theorem small_of_inside {s : State} (hb : buildOk s.build = true) (hm : s.memOk = true) {start n : Nat}
    (h : start + n + 1 ≤ (s.buf .src).nchars) : start ≠ Config.seed := by
  have h1 := ((Buffer.wf_iff _ _).1 (memOk_of_buf.1 hm .src)).2
  have h2 := Buffer.nchars_le_len (s.buf .src)
  simp only [buildOk, decide_eq_true_eq] at hb
  have : s.capBits ≤ 2 ^ 31 := Nat.pow_le_pow_right (by decide) hb.2.2.2
  unfold Config.seed
  omega

theorem DictInv.extendTrie {s t : State} {i start j k : Nat} {c : Byte} (hb : buildOk s.build = true) (hm : s.memOk = true)
    (hq : s.size ≤ s.setup.limit) (h : DictInv s) (hc : s.configured = true) (hmode : s.setup.mode = .enc)
    (he : extendTrie i start j s = .ok (t, c, k)) : DictInv t := by
  have d := h.dict hc hmode
  obtain ⟨-, -, h1, h2, -, h3, -, h4, -⟩ := extendTrie_ok he
  have hj : s.nseed < j := by
    by_contra hn
    exact h3 (h.fixed j (by omega))
  obtain ⟨g1, g2, g3⟩ := d.trie.extend hj hq (small_of_inside hb hm h4) he
  have hf := g2.frame
  have hns : t.nseed = s.nseed := by unfold State.nseed; rw [hf.setup]
  refine ⟨by rw [hns, hf.pol]; exact h.fixed, by rw [hns, hf.size]; exact h.grown, by rw [hns, hf.pol]; exact h.free, fun _ _ => ?_,
    fun hn => absurd ⟨by rw [hf]; exact hc, by rw [hf.setup]; exact hmode⟩ hn⟩
  exact d.keep g1 g2 hj (.inr h2)

theorem DictInv.removeNode {s t : State} {x : Nat} (h : DictInv s) (hc : s.configured = true) (hmode : s.setup.mode = .enc)
    (hx : s.nseed < x) (hr : removeNode x s = .ok t) : DictInv t ∧ t.body x = none ∧ (x ≤ s.setup.limit → t.slot x = none)
      ∧ KeepsWords (some x) s t := by
  have d := h.dict hc hmode
  obtain ⟨g1, g2, g3, g4⟩ := (d.trie.weaken (some x)).removeNode hx hr
  have hf := g2.frame
  have hns : t.nseed = s.nseed := by unfold State.nseed; rw [hf.setup]
  refine ⟨⟨by rw [hns, hf.pol]; exact h.fixed, by rw [hns, hf.size]; exact h.grown, by rw [hns, hf.pol]; exact h.free, fun _ _ => ?_,
    fun hn => absurd ⟨by rw [hf]; exact hc, by rw [hf.setup]; exact hmode⟩ hn⟩, g3, g4, g2⟩
  exact d.keep g1 g2 hx (.inl g3)

/-- Everything an encode step keeps. -/
structure EncOk (s : State) : Prop where
  build : buildOk s.build = true
  mem : s.memOk = true
  policy : PolicyOk s
  dict : DictInv s
  configured : s.configured = true
  mode : s.setup.mode = .enc

theorem EncOk.congr {s t : State} (h : EncOk s) (hb : t.build = s.build) (hm : t.memOk = true) (hp : t.pol = s.pol) (hz : t.size = s.size)
    (hc : t.configured = s.configured) (hu : t.setup = s.setup) (ha : t.arena = s.arena)
    (hl : ∃ l, (t.buf .src).bits = (s.buf .src).bits ++ l) : EncOk t :=
  ⟨hb ▸ h.build, hm, h.policy.congr hp hz hc hu, h.dict.congr hp hz hc hu ha hl, hc.trans h.configured, by rw [hu]; exact h.mode⟩

theorem EncOk.matchPolicy {s t : State} {i j : Nat} (h : EncOk s) (hm : matchPolicy i s = .ok (t, j)) : EncOk t := by
  have hf := matchPolicy_frame hm
  refine ⟨by rw [hf]; exact h.build, memOk_congr h.mem (by rw [hf]) (by rw [hf]), h.policy.matchPolicy hm, h.dict.matchPolicy h.policy hm,
    by rw [hf]; exact h.configured, by rw [hf]; exact h.mode⟩

theorem EncOk.growDictionary {s t : State} {i j : Nat} {has : Bool} (h : EncOk s) (hj : j = 0 ∨ s.nseed < j)
    (hg : growDictionary i has j s = .ok t) : EncOk t := by
  obtain ⟨g1, g2, g3, g4⟩ := growDictionary_encode hg
  have hb : t.build = s.build := by rw [g1]
  have hc : t.configured = s.configured := by rw [g1]
  have hu : t.setup = s.setup := by rw [g1]
  refine ⟨hb ▸ h.build, memOk_congr h.mem g2 hb, h.policy.congr g3 g4 hc hu, ?_, hc.trans h.configured, by rw [hu]; exact h.mode⟩
  rcases growDictionary_ok hg with ⟨-, rfl⟩ | ⟨-, -, c, k, hx⟩ | ⟨h0, -, u, hx, rfl⟩
  · exact h.dict
  · exact h.dict.extendTrie h.build h.mem h.policy.queue.size h.configured h.mode hx
  · exact (h.dict.removeNode h.configured h.mode (hj.resolve_left h0) hx).1.congr rfl rfl rfl rfl rfl (sameSrc rfl)

theorem EncOk.encodeStep {s t : State} {r : Option Record} (h : EncOk s) (he : encodeStep s = .ok (t, r)) : EncOk t := by
  have hfr := encodeStep_frame he
  obtain ⟨-, -, -, -, u, x, hu, he⟩ := encodeStep_ok he
  have hm := (longestMatch_ok hu).2.2
  have hum : u.mem = s.mem := by rw [hm]
  have hu : EncOk u := h.congr (by rw [hm]) (memOk_congr h.mem hum (by rw [hm])) (by rw [hm]) (by rw [hm]) (by rw [hm]) (by rw [hm]) (by rw [hm]) (sameSrc hum)
  rcases he with ⟨has, c, r', -, -, hf⟩ | ⟨-, -, rfl⟩
  · obtain ⟨e, p, v, j, h1, h2, h3, rfl, -⟩ := finishRecord_ok hf
    have he : EncOk e := by
      obtain ⟨hcap, rfl⟩ := emitRecord_ok h1
      refine hu.congr rfl (memOk_setBuf hu.mem ?_) rfl rfl rfl rfl rfl ⟨[], by rw [State.buf_setBuf_other u _ (by decide)]; simp⟩
      have := (Buffer.wf_iff _ _).1 (memOk_of_buf.1 hu.mem .cw)
      rw [Buffer.wf_iff]
      simp only [Buffer.len, List.length_append] at this hcap ⊢
      omega
    have hj := matchPolicy_above he.policy he.dict h2
    have hp := he.matchPolicy h2
    have hns : p.nseed = e.nseed := by unfold State.nseed; rw [matchPolicy_frame h2]
    have hv := hp.growDictionary (by rw [hns]; exact hj) h3
    exact hv.congr rfl (memOk_congr hv.mem rfl rfl) rfl rfl rfl rfl rfl (sameSrc rfl)
  · exact hu.congr rfl (memOk_congr hu.mem rfl rfl) rfl rfl rfl rfl rfl (sameSrc rfl)

/-- The policy's and the dictionary's part of a decode configuration. -/
structure DecOk (s : State) : Prop where
  policy : PolicyOk s
  dict : DictInv s
  mode : s.setup.mode = .dec

theorem DecOk.congr {s t : State} (h : DecOk s) (hp : t.pol = s.pol) (hz : t.size = s.size)
    (hc : t.configured = s.configured) (hu : t.setup = s.setup) (ha : t.arena = s.arena) : DecOk t := by
  have hns : t.nseed = s.nseed := by unfold State.nseed; rw [hu]
  have hne : ¬ (s.configured = true ∧ s.setup.mode = .enc) := fun hc => by rw [h.mode] at hc; cases hc.2
  refine ⟨h.policy.congr hp hz hc hu, ⟨by rw [hns, hp]; exact h.dict.fixed, by rw [hns, hz]; exact h.dict.grown, by rw [hns, hp]; exact h.dict.free,
    fun _ h2 => ?_, fun _ => by rw [ha]; exact h.dict.bare hne⟩, by rw [hu]; exact h.mode⟩
  rw [hu, h.mode] at h2
  cases h2

theorem DecOk.addExtension {s t : State} {i pos len j : Nat} (h : DecOk s) (he : addExtension i pos len s = .ok (t, j)) : DecOk t := by
  have hf := addExtension_frame he
  exact ⟨h.policy.addExtension he, h.dict.addExtension h.policy he, by rw [hf]; exact h.mode⟩

theorem DecOk.decodeStep {s t : State} {r : Option Record} (h : DecOk s) (he : decodeStep s = .ok (t, r)) : DecOk t := by
  obtain ⟨-, -, -, -, h1⟩ := decodeStep_ok he
  rcases h1 with ⟨-, -, rfl⟩ | ⟨h0, hw, e, r', -, -, hd⟩
  · exact h.congr rfl rfl rfl rfl rfl
  · obtain ⟨a, b, c, final, v, j, ha, hb, hv, rfl, -⟩ := decodeRecord_ok hd
    obtain ⟨ha, -⟩ := copyOut_append ha
    obtain ⟨hb, -⟩ := decodeChar_frame hb
    have h1 : DecOk (advanceCw s.setup.width s) := h.congr rfl rfl rfl rfl rfl
    have h2 : DecOk a := h1.congr (by rw [ha]) (by rw [ha]) (by rw [ha]) (by rw [ha]) (by rw [ha])
    have h3 : DecOk b := h2.congr (by rw [hb]) (by rw [hb]) (by rw [hb]) (by rw [hb]) (by rw [hb])
    exact (h3.addExtension hv).congr rfl rfl rfl rfl rfl

theorem get_seeds {α : Type} (n : Nat) (g : Nat → α) (z : α) (k : Nat) :
    Table.get ((0, z) :: (List.range n).map fun c => (c + 1, g c)) k = if k = 0 then some z else if k ≤ n then some (g (k - 1)) else none := by
  have hw := wf_seeds n g z
  by_cases h0 : k = 0
  · rw [if_pos h0, h0]
    rfl
  · rw [if_neg h0]
    split
    · rename_i hk
      refine Table.get_of_mem hw (List.mem_cons_of_mem _ (List.mem_map.2 ⟨k - 1, List.mem_range.2 (by omega), ?_⟩))
      rw [show k - 1 + 1 = k by omega]
    · rename_i hk
      cases hg : Table.get ((0, z) :: (List.range n).map fun c => (c + 1, g c)) k with
      | none => rfl
      | some v =>
        rcases List.mem_cons.1 (Table.mem_of_get hg) with he | he
        · cases he
          exact absurd rfl h0
        · obtain ⟨c, hc, he⟩ := List.mem_map.1 he
          cases he
          have := List.mem_range.1 hc
          omega

theorem get_range (n k : Nat) : Table.get ((List.range n).map fun c => (c, c + 1)) k = if k < n then some (k + 1) else none := by
  have hw : Table.wf ((List.range n).map fun c => (c, c + 1)) = true := by
    rw [Table.wf_iff]
    exact List.pairwise_map.2 (List.pairwise_lt_range.imp fun h => h)
  split
  · rename_i hk
    exact Table.get_of_mem hw (List.mem_map.2 ⟨k, List.mem_range.2 hk, rfl⟩)
  · rename_i hk
    cases hg : Table.get ((List.range n).map fun c => (c, c + 1)) k with
    | none => rfl
    | some v =>
      obtain ⟨c, hc, he⟩ := List.mem_map.1 (Table.mem_of_get hg)
      cases he
      exact absurd (List.mem_range.1 hc) hk

/-- The dictionary ECONFIG leaves (R131, R201). -/
theorem initial_encDict {s : State} (ha : s.arena = initialArena s.setup.variant .enc) (hz : s.size = s.nseed)
    (hl : s.nseed ≤ s.setup.limit) : EncDict s := by
  have hn : s.nseed = s.setup.variant.nseed := rfl
  rw [hn] at hz hl
  cases hv : s.setup.variant with
  | lz78 =>
    rw [hv] at ha hz hl hn
    have ha : s.arena = [(0, Node.root)] := ha
    have hslot : s.slot 0 = some Node.root := by simp [State.slot, ha, Table.get]
    refine ⟨⟨bareRoot_links ha, fun hy hl hx => ?_, fun hy hl => ?_, fun hy ha' hx => ?_, fun hy hs => ?_, by rw [hn]; exact hl⟩, fun y hy => ?_,
      ?_, fun k k1 k2 => ?_⟩
    · obtain ⟨rfl, rfl⟩ := bareRoot_slot ha hy
      exact ⟨rfl, rfl⟩
    · obtain ⟨rfl, rfl⟩ := bareRoot_slot ha hy
      omega
    · obtain ⟨rfl, rfl⟩ := bareRoot_slot ha hy
      cases ha'
    · obtain ⟨rfl, rfl⟩ := bareRoot_slot ha hy
      cases hs
    · cases hs : s.slot y with
      | none => exact absurd (body_none hs) hy
      | some yd =>
        obtain ⟨rfl, rfl⟩ := bareRoot_slot ha hs
        exact Nat.zero_le _
    · rw [body_of_slot hslot]
      rfl
    · rw [hn] at k2
      have : k ≤ 0 := k2
      omega
  | lzw =>
    rw [hv] at ha hz hl hn
    have hn : s.nseed = 256 := hn
    have hz : s.size = 256 := hz
    have hl : 256 ≤ s.setup.limit := hl
    have hslot : ∀ k, s.slot k = if k = 0 then some { Node.root with children := (List.range 256).map fun c => (c, c + 1) }
        else if k ≤ 256 then some (seedNode k) else none := by
      intro k
      rw [State.slot, ha]
      unfold initialArena
      rw [get_seeds 256 (fun c => seedNode (c + 1))]
      by_cases h0 : k = 0
      · rw [if_pos h0, if_pos h0]
      · rw [if_neg h0, if_neg h0, show k - 1 + 1 = k by omega]
    have inv : ∀ {y yd}, s.slot y = some yd → (y = 0 ∧ yd = { Node.root with children := (List.range 256).map fun c => (c, c + 1) })
        ∨ (1 ≤ y ∧ y ≤ 256 ∧ yd = seedNode y) := by
      intro y yd hy
      rw [hslot] at hy
      split at hy
      · rename_i h0
        exact .inl ⟨h0, (Option.some.inj hy).symm⟩
      · split at hy
        · rename_i h0 h1
          exact .inr ⟨by omega, h1, (Option.some.inj hy).symm⟩
        · cases hy
    have h0 : s.slot 0 = some { Node.root with children := (List.range 256).map fun c => (c, c + 1) } := by rw [hslot]; rfl
    have hs : ∀ k, 1 ≤ k → k ≤ 256 → s.slot k = some (seedNode k) := fun k k1 k2 => by rw [hslot, if_neg (by omega), if_pos k2]
    have hw := initialArena_wf .lzw .enc
    have hchar : ∀ k n, charOfNode s (seedNode k) n = BitVec.ofNat 8 (k - 1) := fun k n => by
      unfold charOfNode seedNode
      rw [if_pos rfl]
    have hlinks : Links s := by
      refine ⟨ha ▸ hw.1, fun hy => ?_, ⟨_, h0, rfl, rfl⟩, fun {y yd} hy => ?_, fun {y yd c x} hy hc => ?_, fun {x xd} hx hx0 => ?_⟩
      · exact hw.2 _ (ha ▸ Table.mem_of_get hy)
      · rcases inv hy with ⟨rfl, rfl⟩ | ⟨-, -, rfl⟩
        · rw [if_neg (by decide)]
          exact Nat.zero_le _
        · rw [if_pos (by rfl)]
          rfl
      · rcases inv hy with ⟨rfl, rfl⟩ | ⟨-, -, rfl⟩
        · have hc : Table.get ((List.range 256).map fun c => (c, c + 1)) c = some x := hc
          rw [get_range] at hc
          split at hc
          · rename_i hlt
            cases hc
            refine ⟨_, hs (c + 1) (by omega) (by omega), rfl, Nat.zero_lt_one, ?_, fun k hk => absurd hk (Nat.not_lt_zero _)⟩
            rw [hchar, BitVec.toNat_ofNat]
            omega
          · cases hc
        · simp [seedNode, Table.get] at hc
      · rcases inv hx with ⟨rfl, -⟩ | ⟨h1, h2, rfl⟩
        · exact absurd rfl hx0
        · refine ⟨_, h0, ?_⟩
          rw [hchar, BitVec.toNat_ofNat]
          show Table.get ((List.range 256).map fun c => (c, c + 1)) _ = _
          rw [get_range, if_pos (by omega)]
          congr 1
          omega
    refine ⟨⟨hlinks, fun {y yd} hy hl' hx => ?_, fun {y yd} hy hl' => ?_, fun {y yd} hy ha' hx => ?_, fun {y yd} hy hs => ?_, by rw [hn]; exact hl⟩,
      fun y hy => ?_, ?_, fun k k1 k2 => ?_⟩
    · rcases inv hy with ⟨rfl, rfl⟩ | ⟨-, -, rfl⟩ <;> exact ⟨rfl, rfl⟩
    · rcases inv hy with ⟨rfl, rfl⟩ | ⟨-, h2, rfl⟩ <;> omega
    · rcases inv hy with ⟨rfl, rfl⟩ | ⟨-, -, rfl⟩ <;> cases ha'
    · rcases inv hy with ⟨rfl, rfl⟩ | ⟨h1, h2, rfl⟩
      · cases hs
      · rw [hn]
        exact ⟨h1, h2⟩
    · cases hsy : s.slot y with
      | none => exact absurd (body_none hsy) hy
      | some yd =>
        rcases inv hsy with ⟨rfl, rfl⟩ | ⟨-, h2, -⟩ <;> omega
    · rw [body_of_slot h0]
      rfl
    · rw [hn] at k2
      rw [body_of_slot (hs k k1 k2)]
      rfl

theorem work_dict {i : Instr} {s t : State} (hI : Inv s) (hw : workOf i s = .ok t) : DictInv t := by
  have hf := workFrame hw
  have h := hI.toDict
  have hp : PolicyOk s := ⟨hI.queue, hI.cursor⟩
  have buf : ∀ {t : State}, t = { s with mem := t.mem, r0 := t.r0, r1 := t.r1, r2 := t.r2, r3 := t.r3 } →
      (∃ l, (t.buf .src).bits = (s.buf .src).bits ++ l) → DictInv t := fun ht hl =>
    h.congr (by rw [ht]) (by rw [ht]) (by rw [ht]) (by rw [ht]) (by rw [ht]) hl
  have enc : s.configured = true → s.setup.mode = .enc → EncOk s := fun h1 h2 => ⟨hI.build, hI.mem, hp, h, h1, h2⟩
  cases i
  case textend =>
    obtain ⟨⟨h1, h2, -⟩, u, c, k, hu, rfl⟩ := textendWork_ok hw
    exact (h.extendTrie hI.build hI.mem hI.queue.size h1 h2 hu).congr rfl rfl rfl rfl rfl (sameSrc rfl)
  case tremove =>
    obtain ⟨⟨h1, h2, -⟩, h0, hz, hperm, u, hu, rfl⟩ := tremoveWork_ok hw
    have hx : s.nseed < s.opA0 := by
      by_contra hn
      exact hperm (h.fixed _ (by omega))
    obtain ⟨g1, g2, -, g3⟩ := h.removeNode h1 h2 hx hu
    have hfu := g3.frame
    have hns : u.nseed = s.nseed := by unfold State.nseed; rw [hfu.setup]
    have hd : DictInv (u.dropNumber s.opA0) := by
      refine ⟨g1.fixed, ?_, fun k hk => g1.free k (List.mem_of_mem_erase hk), fun c1 c2 => ?_, g1.bare⟩
      · show u.nseed ≤ u.size - 1
        rw [hns, hfu.size]
        omega
      · have d := g1.dict c1 c2
        have hbody : ∀ y, (u.dropNumber s.opA0).body y = u.body y := fun y => rfl
        refine ⟨d.trie.srcGrown rfl rfl (sameSrc rfl), fun y hy => ?_, d.root, d.seeds⟩
        rw [hbody] at hy
        have h3 := d.assigned y hy
        have h4 : y ≠ s.opA0 := fun hc => hy (by rw [hc]; exact g2)
        show y ≤ u.size - 1
        rw [hfu.size] at h3 ⊢
        omega
    have hab := abandonMatch_frame (u.dropNumber s.opA0)
    exact hd.congr hab.pol hab.size (by rw [hab]) hab.setup (abandonMatch_arena _) (sameSrc hab.mem)
  case pmatch =>
    obtain ⟨u, j, hu, rfl⟩ := pmatchWork_ok hw
    exact (h.matchPolicy hp hu).congr rfl rfl rfl rfl rfl (sameSrc rfl)
  case pperm =>
    have hpp := pperm_policy hI.queue hI.cursor hw
    dsimp only [WorkFrame] at hf
    have hns : t.nseed = s.nseed := by unfold State.nseed; rw [hf]
    refine ⟨fun k hk => hpp.2.2.1 k (h.fixed k (hns ▸ hk)), by rw [hns, hf]; exact h.grown, fun k hk => by
      rw [hns]; exact h.free k (hpp.2.2.2.1 k hk), fun h1 h2 => ?_, fun h1 => ?_⟩
    · rw [hf] at h1 h2
      exact (h.dict h1 h2).congr (by rw [hf]) (by rw [hf]) (by rw [hf]) (sameSrc (by rw [hf]))
    · rw [hf] at h1 ⊢
      exact h.bare h1
  case econfig =>
    have hc := configure_policy hI.build hw
    have e := (econfigWork_ok hw).2.2
    have harena : t.arena = initialArena t.setup.variant t.setup.mode := by rw [e]; rfl
    have hroom : t.nseed ≤ t.setup.limit := by have := hc.2.2.1; omega
    refine ⟨fun k hk => by rw [hc.2.2.2.2.2, List.mem_range]; omega, by rw [hc.2.2.2.1], by rw [hc.2.2.2.2.1]; nofun,
      fun _ h2 => initial_encDict (by rw [← h2]; exact harena) hc.2.2.2.1 hroom, fun h1 => ?_⟩
    have hconf : t.configured = true := by rw [e]; rfl
    rw [harena]
    cases hm : t.setup.mode with
    | enc => exact absurd ⟨hconf, hm⟩ h1
    | dec => cases t.setup.variant <;> rfl
  case estep =>
    obtain ⟨⟨u, r⟩, hx, rfl⟩ := estepWork_ok hw
    obtain ⟨h1, h2, -⟩ := encodeStep_ok hx
    have hd := ((enc h1 h2).encodeStep hx).dict
    refine hd.congr ?_ ?_ ?_ ?_ ?_ ⟨[], ?_⟩
    · rw [bumpEpochs_frame, reportRecord_frame]
    · rw [bumpEpochs_frame, reportRecord_frame]
    · rw [bumpEpochs_frame, reportRecord_frame]
    · rw [bumpEpochs_frame, reportRecord_frame]
    · rw [bumpEpochs_frame, reportRecord_frame]
    · rw [bumpEpochs_buf, if_neg (fun hc => hc.1 rfl), reportRecord_frame]
      simp [State.buf]
  case erun =>
    obtain ⟨h1, h2, -, u, n, hx, rfl⟩ := erunWork_ok hw
    have := runSteps_keeps (R := fun s t => EncOk s → EncOk t) (fun _ h => h) (fun h k x => k (h x)) (fun h x => x.encodeStep h) hx
    have hd := (this (enc h1 h2)).dict
    refine hd.congr ?_ ?_ ?_ ?_ ?_ ⟨[], ?_⟩
    · rw [bumpEpochs_frame]; rfl
    · rw [bumpEpochs_frame]; rfl
    · rw [bumpEpochs_frame]; rfl
    · rw [bumpEpochs_frame]; rfl
    · rw [bumpEpochs_frame]; rfl
    · rw [bumpEpochs_buf, if_neg (fun hc => hc.1 rfl)]
      simp [State.buf, State.results]
  case dstep =>
    obtain ⟨⟨u, r⟩, hx, rfl⟩ := dstepWork_ok hw
    obtain ⟨h1, h2, -⟩ := decodeStep_ok hx
    have hd := DecOk.decodeStep (⟨hp, h, h2⟩ : DecOk s) hx
    refine (hd.congr ?_ ?_ ?_ ?_ ?_).dict <;> rw [bumpEpochs_frame, reportRecord_frame]
  case drun =>
    obtain ⟨h1, h2, -, u, n, hx, rfl⟩ := drunWork_ok hw
    have := runSteps_keeps (R := fun s t => DecOk s → DecOk t) (fun _ h => h) (fun h k x => k (h x)) (fun h x => x.decodeStep h) hx
    refine ((this ⟨hp, h, h2⟩).congr ?_ ?_ ?_ ?_ ?_).dict <;> rw [bumpEpochs_frame] <;> rfl
  case eaddext =>
    obtain ⟨-, h2, -, -, e, u, j, -, -, hx, rfl⟩ := eaddextWork_ok hw
    exact ((DecOk.addExtension (⟨hp, h, h2⟩ : DecOk s) hx).congr (t := (u.results j 0 0 0).rejectFlag (decide (j = 0)))
      rfl rfl rfl rfl rfl).dict
  case bclr b =>
    obtain ⟨hn, rfl⟩ := bclrWork_ok hw
    by_cases hb : b = .src
    · subst hb
      refine ⟨h.fixed, h.grown, h.free, fun h1 h2 => ?_, h.bare⟩
      refine (h.dict h1 h2).cleared ?_ rfl rfl rfl
      by_contra hc
      refine hn ⟨h1, hc, ?_⟩
      have h2 : s.setup.mode = .enc := h2
      rw [h2]
      rfl
    · exact buf rfl ⟨[], by rw [State.buf_setBuf_other s _ (Ne.symm hb)]; simp⟩
  all_goals
    have hw' := work_buffers hw .src
    rcases hw' with ⟨hc, -⟩ | ⟨-, l, hl, -⟩
    · cases hc
    · exact h.congr (by rw [hf]) (by rw [hf]) (by rw [hf]) (by rw [hf]) (by rw [hf]) ⟨l, hl⟩

theorem Inv.work {i : Instr} {s t : State} (h : Inv s) (hw : workOf i s = .ok t) : Inv t := by
  have hu := (workFrame hw).untouched
  have hp := work_policy h.build ⟨h.queue, h.cursor⟩ hw
  have ht := work_tables ⟨h.arena, h.tab, h.parent, h.perm⟩ hw
  have hd := work_dict h hw
  exact ⟨by rw [hu.build]; exact h.build, work_memOk h.mem hw, ht.arena, ht.tab, ht.parent, ht.perm, hp.queue, hp.cursor,
    work_phase h.phase hw, fault_congr h.fault hu.fault hu.faultInfo hu.faultCmd, work_setup h.build h.setup hw, hd.fixed, hd.grown, hd.free,
    hd.dict, hd.bare⟩

theorem Inv.congr {s t : State} (h : Inv s) (hf : t = { s with
    host := t.host, freeCount := t.freeCount, rdata := t.rdata, a0 := t.a0, a1 := t.a1, a2 := t.a2, flags := t.flags, r0 := t.r0,
    r1 := t.r1, r2 := t.r2, r3 := t.r3, fault := t.fault, faultInfo := t.faultInfo, faultCmd := t.faultCmd })
    (hfault : t.faultOk = true) : Inv t := by
  have hd := h.toDict.congr (t := t) (by rw [hf]) (by rw [hf]) (by rw [hf]) (by rw [hf]) (by rw [hf]) (sameSrc (by rw [hf]))
  have hp := PolicyOk.congr (t := t) ⟨h.queue, h.cursor⟩ (by rw [hf]) (by rw [hf]) (by rw [hf]) (by rw [hf])
  exact ⟨by rw [hf]; exact h.build, memOk_congr h.mem (by rw [hf]) (by rw [hf]), h.arena.congr (by rw [hf]), by rw [hf]; exact h.tab,
    by rw [hf]; exact h.parent, by rw [hf]; exact h.perm, hp.queue, hp.cursor, phase_congr h.phase (by rw [hf]) (by rw [hf]), hfault,
    setup_congr h.setup (by rw [hf]) (by rw [hf]), hd.fixed, hd.grown, hd.free, hd.dict, hd.bare⟩

theorem Inv.srst {s : State} (h : Inv s) : Inv s.srst := by
  have hr : Inv State.reset := (inv_iff _).1 (by decide : State.reset.inv = true)
  have hm : s.srst.memOk = true := by
    rw [memOk_of_buf]
    intro b
    cases b <;> exact Buffer.wf_empty _ _
  exact ⟨h.build, hm, hr.arena.congr rfl, hr.tab, hr.parent, hr.perm, (srst_policy s).queue, (srst_policy s).cursor, rfl, rfl, rfl, hr.fixed,
    hr.grown, hr.free, fun hc => Bool.noConfusion hc, fun _ => rfl⟩

end Sys2Proof.Machine
end

