-- ==== Sys2Proof/Laws/Matching.lean ====
section
/-! SUPPORT. Laws of the matcher against the dictionary: what it has consumed, what a step does, the longest match. -/

namespace Sys2Proof.Machine

theorem latched (s : State) (e : Raise) (w : Word) : Latched s (s.latch e w) e.code.num e.info w :=
  ⟨rfl, faultInfo_nat' e w⟩

theorem fault_of {i : Instr} {s : State} (c : FaultCode) (n : Nat) (hf : s.fault = false) (h : workOf i s.begin = .error ⟨c, n⟩) :
    Faults i s c.num n := ⟨_, exec_of_raise hf h, latched s ⟨c, n⟩ _⟩

theorem ready_of {s : State} (h : ReadyIn .enc s) : TrieReady s.begin := ⟨h.2.1, h.2.2.1, h.2.2.2⟩

theorem textend_work {s : State} (h : ReadyIn .enc s) : workOf .textend s.begin
    = match extendTrie s.a0.toNat s.a1.toNat s.a2.toNat s.begin with
      | .error e => .error e
      | .ok (t, c, kind) => .ok (t.results c.toNat kind 0 0) := trieGuards_of_ready (ready_of h) _

theorem contains_iff (s : State) (j : Nat) : s.pol.perm.contains j = true ↔ s.pol.isPerm j = true := by
  rw [isPerm_iff, List.contains_iff_mem]

/-- The invariant does not look at flags and results. -/
theorem Inv.begin {s : State} (h : Inv s) : Inv s.begin := h.congr rfl (fault_congr h.fault rfl rfl rfl)

theorem ready_dict {s : State} (h : Inv s) (hr : ReadyIn .enc s) : EncDict s := h.dict hr.2.1 hr.2.2.1

theorem nodeString_eq {s : State} {h : Nat} {nd : Node} (hs : s.slot h = some nd) :
    s.nodeString h = (List.range nd.length).map fun k => charOfNode s nd k := by
  unfold State.nodeString
  rw [node_of_slot hs]
  exact List.map_congr_left fun k _ => nodeChar_of_slot hs k

theorem allowed_above {s : State} {i start j : Nat} (h : Inv s) (ha : ExtendAllowed s i start j) : s.nseed < j := by
  have := ha.2.2.2.2.2.1
  rw [isPerm_false] at this
  by_contra hn
  exact this (h.fixed j (by omega))

theorem wire_kind (i start j : Nat) (c : Byte) (s : State) : 1 ≤ (wire i start j c s).2 ∧ (wire i start j c s).2 ≤ 3 := by
  unfold wire
  dsimp only
  split
  · dsimp only; omega
  · split <;> dsimp only <;> omega

/-- `STR(j) = STR(i) ++ c` from the body of `j` (R50, R135). -/
theorem wired_string {s t : State} {i start j : Nat} {id : Node} (hi : s.slot i = some id) (hf : TrieFrame s t)
    (hb : t.body j = some (start, id.length + 1, j)) (hsmall : start ≠ Config.seed)
    (hsp : ∀ k, k < id.length → s.charAt .src (start + k) = charOfNode s id k) :
    t.nodeString j = s.nodeString i ++ [s.charAt .src (start + id.length)] := by
  obtain ⟨jd, h1, -, h2, h3, -⟩ := body_some hb
  rw [nodeString_eq h1, nodeString_eq hi, h3, List.range_succ, List.map_append]
  have hc : ∀ k, charOfNode t jd k = s.charAt .src (start + k) := fun k => by
    unfold charOfNode
    rw [h2, if_neg hsmall, hf.charAt]
  congr 1
  · refine List.map_congr_left fun k hk => ?_
    rw [hc, hsp k (List.mem_range.1 hk)]
  · simp [hc]

/-- The matcher keeps all but its handles. -/
def MatKept (s t : State) : Prop := t.mat = { s.mat with mnode := t.mat.mnode, medge := t.mat.medge }

theorem MatKept.trans {s t u : State} (h : MatKept s t) (k : MatKept t u) : MatKept s u := by
  unfold MatKept at *
  rw [k, h]

theorem foldl_setParent_mat (l : Table Nat) (p : Nat) (s : State) : (l.foldl (fun u e => u.setParent e.2 p) s).mat = s.mat := by
  induction l generalizing s with
  | nil => rfl
  | cons e l ih => exact ih _

theorem relocate_mat (h t : Nat) (s : State) : MatKept s (relocate h t s) := by
  unfold relocate
  split <;> rfl

theorem splice_mat (x : Nat) (s : State) : (splice x s).mat = s.mat := by
  unfold splice
  split <;> rfl

theorem removeLeaf_mat (x : Nat) (s : State) : (removeLeaf x s).mat = s.mat := by
  unfold removeLeaf
  dsimp only
  split
  · rw [splice_mat]; rfl
  · rfl

theorem removeNode_mat {x : Nat} {s t : State} (h : removeNode x s = .ok t) : MatKept s t := by
  have of_eq : ∀ {u : State}, u.mat = s.mat → MatKept s u := fun h => by unfold MatKept; rw [h]
  unfold removeNode at h
  split at h
  · cases h; rfl
  · dsimp only at h
    split at h
    · cases h; exact of_eq (removeLeaf_mat _ _)
    · cases h; exact of_eq (splice_mat _ _)
    · split at h
      · split at h
        · cases h
        · cases h; exact relocate_mat _ _ (s.setActive x false)
      · cases h; rfl

theorem vacate_mat {j : Nat} {s t : State} {old : Option Nat} (h : vacate j s = .ok (t, old)) : MatKept s t := by
  unfold vacate at h
  split at h
  · cases h; rfl
  · split at h
    · cases h
    · cases h; exact relocate_mat _ _ s

theorem wire_mat (i start j : Nat) (c : Byte) (s : State) : MatKept s (wire i start j c s).1 := by
  unfold wire
  dsimp only
  split
  · rfl
  · split
    · rfl
    · exact relocate_mat _ _ s

theorem removeEvicted_mat {old : Option Nat} {s t : State} (h : removeEvicted old s = .ok t) : MatKept s t := by
  unfold removeEvicted at h
  split at h
  · cases h; rfl
  · exact removeNode_mat h

theorem extendTrie_mat {i start j : Nat} {s t : State} {c : Byte} {k : Nat} (h : extendTrie i start j s = .ok (t, c, k)) :
    ∃ v, MatKept s v ∧ t = v.abandonMatch := by
  obtain ⟨-, -, -, -, -, -, -, -, -, -, -, u, old, v, hv, hr, rfl, -⟩ := extendTrie_ok h
  exact ⟨v, ((vacate_mat hv).trans (wire_mat _ _ _ _ _)).trans (removeEvicted_mat hr), rfl⟩

theorem reserved_zero (w : Word) : configReserved w = 0 ↔ w.toNat < 16 := by
  unfold configReserved
  rw [← BitVec.toNat_inj, BitVec.extractLsb'_toNat, Nat.shiftRight_eq_div_pow]
  have := w.isLt
  show w.toNat / 2 ^ 4 % 2 ^ 28 = 0 ↔ _
  omega

theorem low_words {w : Word} (h : w.toNat < 16) : w = 0 ∨ w = 1 ∨ w = 2 ∨ w = 3 ∨ w = 4 ∨ w = 5 ∨ w = 6 ∨ w = 7 ∨ w = 8 ∨ w = 9 ∨ w = 10 ∨ w = 11
    ∨ w = 12 ∨ w = 13 ∨ w = 14 ∨ w = 15 := by
  have : w = BitVec.ofNat 32 w.toNat := by simp
  generalize w.toNat = n at h this
  subst this
  interval_cases n <;> decide

theorem variant_nseed (w : Word) : (variantField w).nseed = if w.getLsbD 0 = true then 256 else 0 := by
  unfold variantField
  split <;> rfl

theorem econfig_of_good {s : State} (h : s.a0.toNat < 16)
    (hl : s.a1.toNat = 0 ∨ (3 ≤ s.a1.toNat ∧ s.a1.toNat + (variantField s.a0).nseed ≤ s.maxLimit)) :
    workOf .econfig s.begin = .ok ((s.begin.configure (latchedSetup s.maxUnbounded s.a0 s.opA1)).results
          (latchedSetup s.maxUnbounded s.a0 s.opA1).limit (latchedSetup s.maxUnbounded s.a0 s.opA1).width
          (variantField s.a0).nseed 0) := by
  simp only [workOf, econfigWork]
  rw [if_neg (show ¬configReserved s.begin.a0 ≠ 0 from not_not.2 ((reserved_zero s.a0).2 h)), if_neg, if_neg]
  · rfl
  · rintro ⟨h1, h2⟩
    have h1 : s.a1.toNat ≠ 0 := h1
    have h2 : s.maxLimit < s.a1.toNat + (variantField s.a0).nseed := h2
    omega
  · rintro (h1 | h1)
    · have h1 : s.a1.toNat = 1 := h1
      omega
    · have h1 : s.a1.toNat = 2 := h1
      omega

theorem mode_enc (w : Word) : w.getLsbD 3 = false ↔ modeField w = .enc := by
  unfold modeField
  cases w.getLsbD 3 <;> simp

theorem variant_lzw (w : Word) : w.getLsbD 0 = true ↔ variantField w = .lzw := by
  unfold variantField
  cases w.getLsbD 0 <;> simp

/-- The slots of the arena ECONFIG leaves. -/
theorem initialArena_get (v : Variant) (m : Mode) (k : Nat) : Table.get (initialArena v m) k =
    if k = 0 then some { Node.root with children := if v = .lzw ∧ m = .enc then (List.range 256).map fun c => (c, c + 1) else [] }
    else if m = .enc ∧ k ≤ v.nseed then some (seedNode k) else none := by
  by_cases h : v = .lzw ∧ m = .enc
  · obtain ⟨rfl, rfl⟩ := h
    unfold initialArena
    dsimp only
    rw [get_seeds 256 (fun c => seedNode (c + 1))]
    by_cases h0 : k = 0
    · simp [h0]
    · rw [if_neg h0, if_neg h0]
      by_cases hk : k ≤ 256
      · rw [if_pos hk, if_pos ⟨rfl, hk⟩]
        rw [show k - 1 + 1 = k by omega]
      · rw [if_neg hk, if_neg (fun hh => hk hh.2)]
  · have he : initialArena v m = [(0, Node.root)] := by
      unfold initialArena
      cases v <;> cases m <;> simp at h ⊢
    rw [he, if_neg h]
    by_cases h0 : k = 0
    · subst h0; rfl
    · rw [if_neg h0, if_neg]
      · simp [Table.get, h0]
      · rintro ⟨hm, hk⟩
        cases v
        · have : k ≤ 0 := hk
          omega
        · exact h ⟨rfl, hm⟩

theorem initialTab_get (v : Variant) (k : Nat) : Table.get (initialTab v) k = if k = 0 then some { start := 0, length := 0 }
    else if k ≤ v.nseed then some { start := Config.seed, length := 1 } else none := by
  cases v
  · by_cases h0 : k = 0
    · subst h0; rfl
    · rw [if_neg h0, if_neg (show ¬ k ≤ Variant.lz78.nseed from fun h => h0 (Nat.le_zero.1 h))]
      simp [initialTab, Table.get, h0]
  · unfold initialTab
    dsimp only
    rw [get_seeds 256 (fun _ => ({ start := Config.seed, length := 1 } : Entry))]
    rfl

theorem bumpEpochs_same {s t : State} (h : t.mem = s.mem) : bumpEpochs s t = t := by
  have hb := State.buf_congr h
  unfold bumpEpochs
  rw [show bumpIfGrown .cw s t = t by unfold bumpIfGrown; rw [if_pos (by rw [hb])]]
  unfold bumpIfGrown
  rw [if_pos (by rw [hb])]

theorem matchStep_end {s : State} (h : s.mat.mstart + s.mat.mcons = (s.buf .src).nchars) :
    matchStep s = ({ s with mat := { s.mat with mstate := .maximal } },
      if s.mat.mcons = 0 then .endOfInput
      else if s.mat.mldepth < s.mat.mcons then .maximal true s.extendingChar
      else .maximal false 0) := by
  unfold matchStep
  dsimp only
  rw [if_pos h]

theorem matchStep_none {s : State} (h : s.mat.mstart + s.mat.mcons ≠ (s.buf .src).nchars)
    (he : s.edgeFor (s.charAt .src (s.mat.mstart + s.mat.mcons)) = none) : matchStep s = s.mismatch := by
  unfold matchStep
  dsimp only
  rw [if_neg h, he]

theorem matchStep_edge {s : State} {x off : Nat} (h : s.mat.mstart + s.mat.mcons ≠ (s.buf .src).nchars)
    (he : s.edgeFor (s.charAt .src (s.mat.mstart + s.mat.mcons)) = some (x, off)) :
    matchStep s = if s.nodeChar x ((s.node s.mat.mnode).length + off) = s.charAt .src (s.mat.mstart + s.mat.mcons) then
        ({ s with mat := s.mat.consume x off (s.node s.mat.mnode).length (s.node x) }, .progress)
      else ({ s with mat := { s.mat with mstate := .maximal, medge := some x, moff := off } }, .maximal true s.extendingChar) := by
  unfold matchStep
  dsimp only
  rw [if_neg h, he]
  dsimp only
  split <;> rfl

theorem encodeStep_end {s : State} (h : TrieReady s) (ha : (s.buf .src).len % 8 = 0) (he : s.epos = (s.buf .src).nchars) :
    encodeStep s = .ok ({ s with mat := { Matcher.at s.epos with mstate := .maximal }, estate := .done }, none) := by
  have hl : longestMatch s = .ok ({ s with mat := { Matcher.at s.epos with mstate := .maximal } }, .endOfInput) := by
    unfold longestMatch
    rw [if_neg (by omega), show (s.buf .src).nchars - s.epos + 1 = 0 + 1 by omega]
    unfold matchLoop
    have : matchStep { s with mat := Matcher.at s.epos } = ({ s with mat := { Matcher.at s.epos with mstate := .maximal } }, .endOfInput) := by
      rw [matchStep_end (s := { s with mat := Matcher.at s.epos }) he, if_pos (show (Matcher.at s.epos).mcons = 0 from rfl)]
    rw [this]
  unfold encodeStep
  rw [if_neg (by simp [h.1]), if_neg (by rintro (hx | hx); exacts [hx h.2.1, hx h.2.2]), if_neg (by omega), hl]

theorem decodeStep_end {s : State} (hc : s.configured = true) (hm : s.setup.mode = .dec) (hr : s.estate = .ready)
    (ha : (s.buf .out).len % 8 = 0) (he : s.remaining = 0) : decodeStep s = .ok ({ s with estate := .done }, none) := by
  unfold decodeStep
  rw [if_neg (by simp [hc]), if_neg (by rintro (hx | hx); exacts [hx hm, hx hr]), if_neg (by omega), if_pos he]

theorem runSteps_done {step : State → Work (State × Option Record)} {fuel n : Nat} {s : State} (h : s.estate ≠ .ready) :
    runSteps step fuel n s = .ok (s, n) := by
  cases fuel with
  | zero => rfl
  | succ f => rw [runSteps, if_neg h]

/-! ### Descent -/

/-- `x` is `m` or below it. -/
inductive Below (s : State) (m : Nat) : Nat → Prop where
  | refl : Below s m m
  | child {x : Nat} {xd : Node} (hx : s.slot x = some xd) (h0 : x ≠ 0) (hp : Below s m xd.parent) : Below s m x

theorem Below.string {s : State} (hl : Links s) {m x : Nat} (h : Below s m x) {md xd : Node} (hm : s.slot m = some md)
    (hx : s.slot x = some xd) : md.length ≤ xd.length ∧ (m ≠ x → md.length < xd.length)
      ∧ ∀ k, k < md.length → charOfNode s xd k = charOfNode s md k := by
  induction h generalizing xd with
  | refl =>
    rw [hm] at hx
    cases hx
    exact ⟨Nat.le_refl _, fun h => absurd rfl h, fun _ _ => rfl⟩
  | child hx' h0 hp ih =>
    rw [hx'] at hx
    cases hx
    obtain ⟨pd, hpd, -⟩ := hl.up hx' h0
    obtain ⟨i1, -, i3⟩ := ih hpd
    have hlen := hl.parent_length hx' h0 hpd
    exact ⟨by omega, fun _ => by omega, fun k hk => (hl.parent_string hx' h0 hpd (by omega)).trans (i3 k hk)⟩

theorem Below.next {s : State} (hl : Links s) {m x : Nat} (h : Below s m x) {md xd : Node} (hm : s.slot m = some md)
    (hx : s.slot x = some xd) (hne : m ≠ x) : ∃ y, Table.get md.children (charOfNode s xd md.length).toNat = some y ∧ Below s y x := by
  induction h generalizing xd with
  | refl => exact absurd rfl hne
  | @child x xd' hx' h0 hp ih =>
    rw [hx'] at hx
    obtain rfl := Option.some.inj hx
    obtain ⟨pd, hpd, hc⟩ := hl.up hx' h0
    by_cases he : m = xd'.parent
    · rw [← he, hm] at hpd
      cases hpd
      exact ⟨x, hc, .refl⟩
    · obtain ⟨y, hy, hb⟩ := ih hpd he
      have hlen := (hp.string hl hm hpd).2.1 he
      rw [hl.parent_string hx' h0 hpd hlen]
      exact ⟨y, hy, .child hx' h0 hb⟩

theorem below_root {s : State} (hl : Links s) {x : Nat} {xd : Node} (hx : s.slot x = some xd) : Below s 0 x := by
  generalize hn : xd.length = n
  induction n using Nat.strongRecOn generalizing x xd with
  | ind n ih =>
    by_cases h0 : x = 0
    · rw [h0]; exact .refl
    · obtain ⟨pd, hpd, -⟩ := hl.up hx h0
      have := hl.parent_length hx h0 hpd
      exact .child hx h0 (ih _ (by omega) hpd rfl)

/-- A trie has one place for a string. -/
theorem below_of_prefix {s : State} (hl : Links s) {m x : Nat} {md xd : Node} (hm : s.slot m = some md) (hx : s.slot x = some xd)
    (hle : md.length ≤ xd.length) (hp : ∀ k, k < md.length → charOfNode s xd k = charOfNode s md k) : Below s m x := by
  generalize hn : md.length = n
  induction n using Nat.strongRecOn generalizing m md with
  | ind n ih =>
    by_cases h0 : m = 0
    · rw [h0]; exact below_root hl hx
    · obtain ⟨pd, hpd, hc⟩ := hl.up hm h0
      have hlen := hl.parent_length hm h0 hpd
      have hb := ih _ (by omega) hpd (by omega) (fun k hk => (hp k (by omega)).trans (hl.parent_string hm h0 hpd hk)) rfl
      obtain ⟨y, hy, hby⟩ := hb.next hl hpd hx (by
        rintro he
        rw [he, hx] at hpd
        cases hpd
        omega)
      rw [hp _ hlen, hc] at hy
      cases hy
      exact hby

/-! ### The matcher -/

/-- The first `n` characters of a node stand at `p` in the input. -/
def SpellsAt (s : State) (p : Nat) (nd : Node) (n : Nat) : Prop := ∀ k, k < n → s.charAt .src (p + k) = charOfNode s nd k

/-- Where a match in progress stands (R150, R152). -/
structure Matching (s : State) (p : Nat) (m : Matcher) : Prop where
  start : m.mstart = p
  bound : p + m.mcons ≤ (s.buf .src).nchars
  place : ∃ nd, s.slot m.mnode = some nd ∧
    ((m.medge = none ∧ m.mcons = nd.length ∧ SpellsAt s p nd m.mcons)
      ∨ ∃ c x xd, m.medge = some x ∧ Table.get nd.children c = some x ∧ s.slot x = some xd ∧ 0 < m.moff
          ∧ m.mcons = nd.length + m.moff ∧ m.mcons < xd.length ∧ SpellsAt s p xd m.mcons)
  last : ∃ ld, s.slot m.mlast = some ld ∧ ld.active = true ∧ ld.length = m.mldepth ∧ m.mldepth ≤ m.mcons ∧ SpellsAt s p ld m.mldepth
  longest : ∀ {x xd}, s.slot x = some xd → xd.active = true → xd.length ≤ m.mcons → SpellsAt s p xd xd.length → xd.length ≤ m.mldepth

theorem Matching.init {s : State} (h : EncDict s) {p : Nat} (hp : p ≤ (s.buf .src).nchars) : Matching s p (Matcher.at p) := by
  obtain ⟨r, hr, ha, h1, h2, h3⟩ := body_some h.root
  refine ⟨rfl, hp, ⟨r, hr, .inl ⟨rfl, h2.symm, fun k hk => absurd hk (Nat.not_lt_zero k)⟩⟩, ⟨r, hr, ha, h2, Nat.le_refl _, fun k hk => absurd hk (Nat.not_lt_zero k)⟩, fun _ _ h _ => h⟩

/-- The place below which every longer match lies. -/
theorem Matching.below {s : State} {p : Nat} {m : Matcher} (hl : Links s) (h : Matching s p m) {x : Nat} {xd : Node} (hx : s.slot x = some xd)
    (hlen : m.mcons ≤ xd.length) (hs : SpellsAt s p xd m.mcons) : Below s m.mnode x := by
  obtain ⟨nd, hnd, hp⟩ := h.place
  refine below_of_prefix hl hnd hx ?_ ?_
  · rcases hp with ⟨-, hc, -⟩ | ⟨c, y, yd, -, -, -, -, hc, -⟩ <;> omega
  · intro k hk
    rcases hp with ⟨-, hc, hsp⟩ | ⟨c, y, yd, -, hcy, hy, -, hc, -, hsp⟩
    · rw [← hs k (by omega), hsp k (by omega)]
    · rw [← hs k (by omega), hsp k (by omega)]
      obtain ⟨yd', hy', -, -, -, hstr⟩ := hl.down hnd hcy
      rw [hy] at hy'
      cases hy'
      exact hstr k hk

/-- The edge a matcher is on, or takes next on character `c`. -/
structure OnEdge (s : State) (p : Nat) (m : Matcher) (nd : Node) (x off : Nat) (xd : Node) : Prop where
  node : s.slot m.mnode = some nd
  child : Table.get nd.children (charOfNode s xd nd.length).toNat = some x
  slot : s.slot x = some xd
  cons : m.mcons = nd.length + off
  inside : m.mcons < xd.length
  spells : SpellsAt s p xd m.mcons
  key : 0 < off ∨ charOfNode s xd nd.length = s.charAt .src (p + m.mcons)

theorem Matching.edge {s : State} {p : Nat} {m : Matcher} (hl : Links s) (h : Matching s p m) {x off : Nat}
    (he : ({ s with mat := m } : State).edgeFor (s.charAt .src (p + m.mcons)) = some (x, off)) : ∃ nd xd, OnEdge s p m nd x off xd := by
  obtain ⟨nd, hnd, hp⟩ := h.place
  unfold State.edgeFor at he
  dsimp only at he
  rcases hp with ⟨hm, hc, hsp⟩ | ⟨c, y, yd, hm, hcy, hy, h0, hc, hin, hsp⟩
  · rw [hm] at he
    dsimp only at he
    rw [show ({ s with mat := m } : State).child m.mnode (s.charAt .src (p + m.mcons)) = _ from child_of_slot hnd _] at he
    obtain ⟨y, hy, hh⟩ := Option.map_eq_some_iff.1 he
    cases hh
    obtain ⟨yd, hyd, -, hlen, hk, hstr⟩ := hl.down hnd hy
    have hk' : charOfNode s yd nd.length = s.charAt .src (p + m.mcons) := by rw [← BitVec.toNat_inj]; exact hk.symm
    exact ⟨nd, yd, hnd, by rw [hk']; exact hy, hyd, by omega, by omega, fun k hk => (hsp k hk).trans (hstr k (by omega)).symm, .inr hk'⟩
  · rw [hm] at he
    cases he
    obtain ⟨yd', hyd, -, hlen, hk, hstr⟩ := hl.down hnd hcy
    rw [hy] at hyd
    cases hyd
    exact ⟨nd, yd, hnd, by rw [← hk]; exact hcy, hy, hc, hin, hsp, .inl h0⟩

/-- A codeword that matches past the point reached lies below the edge. -/
theorem OnEdge.below {s : State} {p : Nat} {m : Matcher} (hl : Links s) (h : Matching s p m) {nd xd : Node} {x off : Nat}
    (he : OnEdge s p m nd x off xd) {y : Nat} {yd : Node} (hy : s.slot y = some yd) (hlen : m.mcons < yd.length)
    (hs : SpellsAt s p yd yd.length) : Below s x y := by
  have hb := h.below hl hy (by omega) fun k hk => hs k (by omega)
  have hc := he.cons
  obtain ⟨z, hz, hbz⟩ := hb.next hl he.node hy (by
    intro hh
    have := he.node
    rw [hh, hy] at this
    cases this
    omega)
  have : charOfNode s yd nd.length = charOfNode s xd nd.length := by
    rw [← hs _ (by omega)]
    rcases he.key with h0 | hk
    · exact he.spells _ (by omega)
    · by_cases h0 : 0 < off
      · exact he.spells _ (by omega)
      · rw [hk, show p + nd.length = p + m.mcons by omega]
  rw [this, he.child] at hz
  cases hz
  exact hbz

/-- Consuming a character keeps the match. -/
theorem Matching.consume {s : State} {p : Nat} {m : Matcher} (hd : EncDict s) (h : Matching s p m) {nd xd : Node} {x off : Nat}
    (he : OnEdge s p m nd x off xd) (hpos : p + m.mcons ≠ (s.buf .src).nchars)
    (hch : charOfNode s xd m.mcons = s.charAt .src (p + m.mcons)) : Matching s p (m.consume x off nd.length xd) := by
  have hl := hd.trie.links
  have hb := h.bound
  have hc := he.cons
  have hi := he.inside
  have hsp : SpellsAt s p xd (m.mcons + 1) := fun k hk => by
    by_cases hk' : k < m.mcons
    · exact he.spells k hk'
    · rw [show k = m.mcons by omega, hch]
  unfold Matcher.consume
  dsimp only
  by_cases hend : nd.length + off + 1 = xd.length
  · rw [if_pos hend]
    refine ⟨h.start, by show p + (m.mcons + 1) ≤ _; omega, ⟨xd, he.slot, .inl ⟨rfl, by show m.mcons + 1 = _; omega, hsp⟩⟩, ?_, ?_⟩
    · by_cases ha : xd.active = true
      · have hcode : xd.codewordNo = x := by
          refine (hd.trie.low he.slot ?_ nofun).2
          by_contra hh
          have := (hd.trie.high he.slot (by omega)).1
          rw [ha] at this
          cases this
        dsimp only
        rw [if_pos ha, if_pos ha, hcode]
        exact ⟨xd, he.slot, ha, rfl, by omega, fun k hk => hsp k (by omega)⟩
      · dsimp only
        rw [if_neg ha, if_neg ha]
        obtain ⟨ld, h1, h2, h3, h4, h5⟩ := h.last
        exact ⟨ld, h1, h2, h3, by omega, h5⟩
    · intro y yd hy ha hle hs
      dsimp only at hle ⊢
      by_cases hlt : yd.length ≤ m.mcons
      · have := h.longest hy ha hlt hs
        obtain ⟨ld, h1, h2, h3, h4, h5⟩ := h.last
        split <;> omega
      · have hbel := he.below hl h hy (by omega) hs
        obtain ⟨-, hlt', -⟩ := hbel.string hl he.slot hy
        by_cases hxy : x = y
        · subst hxy
          have := he.slot
          rw [hy] at this
          cases this
          rw [if_pos ha]
        · have := hlt' hxy
          omega
  · rw [if_neg hend]
    refine ⟨h.start, by show p + (m.mcons + 1) ≤ _; omega, ⟨nd, he.node, .inr ⟨_, x, xd, rfl, he.child, he.slot, Nat.succ_pos off, ?_, ?_, hsp⟩⟩, ?_, ?_⟩
    · show m.mcons + 1 = nd.length + (off + 1); omega
    · show m.mcons + 1 < _; omega
    · obtain ⟨ld, h1, h2, h3, h4, h5⟩ := h.last
      exact ⟨ld, h1, h2, h3, by show m.mldepth ≤ m.mcons + 1; omega, h5⟩
    · intro y yd hy ha hle hs
      dsimp only at hle ⊢
      by_cases hlt : yd.length ≤ m.mcons
      · exact h.longest hy ha hlt hs
      · have hbel := he.below hl h hy (by omega) hs
        have := (hbel.string hl he.slot hy).1
        omega

/-- What a maximal match reports (R152, R153). -/
structure Longest (s : State) (p i L : Nat) : Prop where
  found : ∃ nd, s.slot i = some nd ∧ nd.active = true ∧ nd.length = L ∧ SpellsAt s p nd L
  bound : p + L ≤ (s.buf .src).nchars
  longest : ∀ {x xd}, s.slot x = some xd → xd.active = true → p + xd.length ≤ (s.buf .src).nchars → SpellsAt s p xd xd.length → xd.length ≤ L

theorem Matching.done {s : State} {p : Nat} {m : Matcher} (h : Matching s p m)
    (hmax : ∀ {x xd}, s.slot x = some xd → xd.active = true → p + xd.length ≤ (s.buf .src).nchars → SpellsAt s p xd xd.length → xd.length ≤ m.mcons) :
    Longest s p m.mlast m.mldepth := by
  obtain ⟨ld, h1, h2, h3, h4, h5⟩ := h.last
  have := h.bound
  exact ⟨⟨ld, h1, h2, h3, h5⟩, by omega, fun hx ha hb hs => h.longest hx ha (hmax hx ha hb hs) hs⟩

/-- One matching step (R152): it goes on, or it reports the longest match. -/
theorem Matching.step {s : State} {p : Nat} {m : Matcher} (hd : EncDict s) (h : Matching s p m) :
    (∃ m', matchStep { s with mat := m } = ({ s with mat := m' }, .progress) ∧ Matching s p m' ∧ m'.mcons = m.mcons + 1 ∧ m'.mstate = .matching)
      ∨ (p = (s.buf .src).nchars ∧ ∃ m', matchStep { s with mat := m } = ({ s with mat := m' }, .endOfInput) ∧ m'.mstate = .maximal ∧ m.mcons = 0)
      ∨ (p < (s.buf .src).nchars ∧ ∃ m', m'.mstate = .maximal ∧ Longest s p m'.mlast m'.mldepth ∧ m'.mlast = m.mlast ∧ m'.mldepth = m.mldepth
          ∧ matchStep { s with mat := m } = ({ s with mat := m' },
            if p + m'.mldepth < (s.buf .src).nchars then .maximal true (s.charAt .src (p + m'.mldepth)) else .maximal false 0)) := by
  have hl := hd.trie.links
  have hb := h.bound
  have hst := h.start
  obtain ⟨ld, l1, l2, l3, l4, l5⟩ := h.last
  by_cases hpos : p + m.mcons = (s.buf .src).nchars
  · have he := matchStep_end (s := { s with mat := m }) (by show m.mstart + m.mcons = _; rw [hst]; exact hpos)
    by_cases h0 : m.mcons = 0
    · refine .inr (.inl ⟨by omega, _, he.trans (by dsimp only; rw [if_pos h0]), rfl, h0⟩)
    · refine .inr (.inr ⟨by omega, { m with mstate := .maximal }, rfl, h.done fun _ _ hh _ => by omega, rfl, rfl, he.trans ?_⟩)
      dsimp only
      rw [if_neg h0]
      by_cases hlt : m.mldepth < m.mcons
      · rw [if_pos hlt, if_pos (by omega)]
        show (_, MatchResult.maximal true (s.charAt .src (m.mstart + m.mldepth))) = _
        rw [hst]
      · rw [if_neg hlt, if_neg (by omega)]
  · have hpos' : m.mstart + m.mcons ≠ (s.buf .src).nchars := by rw [hst]; exact hpos
    cases hed : ({ s with mat := m } : State).edgeFor (s.charAt .src (p + m.mcons)) with
    | none =>
      refine .inr (.inr ⟨by omega, { m with mstate := .maximal }, rfl, h.done ?_, rfl, rfl, ?_⟩)
      · intro x xd hx ha hbx hs
        by_contra hlt
        have hbel := h.below hl hx (by omega) fun k hk => hs k (by omega)
        obtain ⟨nd, hnd, hp⟩ := h.place
        unfold State.edgeFor at hed
        dsimp only at hed
        rcases hp with ⟨hm, hc, hsp⟩ | ⟨c, y, yd, hm, -⟩
        · rw [hm] at hed
          dsimp only at hed
          rw [show ({ s with mat := m } : State).child m.mnode (s.charAt .src (p + m.mcons)) = _ from child_of_slot hnd _] at hed
          obtain ⟨z, hz, -⟩ := hbel.next hl hnd hx (by
            intro hh
            rw [hh, hx] at hnd
            cases hnd
            omega)
          rw [← hs _ (by omega), ← hc] at hz
          rw [hz] at hed
          cases hed
        · rw [hm] at hed
          cases hed
      · rw [matchStep_none (s := { s with mat := m }) hpos' (by rw [show (({ s with mat := m } : State).mat.mstart) = p from hst]; exact hed)]
        rw [if_pos (show p + m.mldepth < _ by omega)]
        exact congrArg (fun q => (({ s with mat := { m with mstate := .maximal } } : State), MatchResult.maximal true (s.charAt .src (q + m.mldepth)))) hst
    | some e =>
      obtain ⟨x, off⟩ := e
      obtain ⟨nd, xd, he⟩ := h.edge hl hed
      have hc := he.cons
      have hms := matchStep_edge (s := { s with mat := m }) hpos' (by rw [show (({ s with mat := m } : State).mat.mstart) = p from hst]; exact hed)
      rw [show (({ s with mat := m } : State).mat.mstart) = p from hst,
        show ({ s with mat := m } : State).node ({ s with mat := m } : State).mat.mnode = nd from node_of_slot he.node,
        show ({ s with mat := m } : State).nodeChar x (nd.length + off) = charOfNode s xd (nd.length + off) from nodeChar_of_slot he.slot _, ← hc,
        show ({ s with mat := m } : State).node x = xd from node_of_slot he.slot] at hms
      by_cases hch : charOfNode s xd m.mcons = s.charAt .src (p + m.mcons)
      · refine .inl ⟨_, hms.trans (if_pos hch), h.consume hd he hpos hch, ?_⟩
        show (m.consume x off nd.length xd).mcons = m.mcons + 1 ∧ (m.consume x off nd.length xd).mstate = .matching
        unfold Matcher.consume
        dsimp only
        split <;> exact ⟨rfl, rfl⟩
      · refine .inr (.inr ⟨by omega, { m with mstate := .maximal, medge := some x, moff := off }, rfl, h.done ?_, rfl, rfl, ?_⟩)
        · intro y yd hy ha hby hs
          by_contra hlt
          have hbel := he.below hl h hy (by omega) hs
          have hi := he.inside
          obtain ⟨h1, -, h3⟩ := hbel.string hl he.slot hy
          rw [← h3 _ hi, hs _ (by omega)] at hch
          exact hch rfl
        · rw [hms.trans (if_neg hch), if_pos (show p + m.mldepth < _ by omega)]
          exact congrArg (fun q => (({ s with mat := { m with mstate := .maximal, medge := some x, moff := off } } : State), MatchResult.maximal true (s.charAt .src (q + m.mldepth)))) hst

/-- The loop of R210 ends with the longest match, or at the end of the input. -/
theorem Matching.loop {s : State} {p : Nat} (hd : EncDict s) {fuel : Nat} {m : Matcher} (h : Matching s p m)
    (hf : (s.buf .src).nchars - p - m.mcons < fuel) : ∃ m', m'.mstate = .maximal ∧
      ((p = (s.buf .src).nchars ∧ matchLoop fuel { s with mat := m } = ({ s with mat := m' }, .endOfInput))
        ∨ (p < (s.buf .src).nchars ∧ Longest s p m'.mlast m'.mldepth ∧ matchLoop fuel { s with mat := m } = ({ s with mat := m' },
            if p + m'.mldepth < (s.buf .src).nchars then .maximal true (s.charAt .src (p + m'.mldepth)) else .maximal false 0))) := by
  induction fuel generalizing m with
  | zero => omega
  | succ f ih =>
    have hb := h.bound
    unfold matchLoop
    rcases h.step hd with ⟨m', hs, hm, hc, -⟩ | ⟨hp, m', hs, hm, -⟩ | ⟨hp, m', hm, hlong, -, -, hs⟩
    · rw [hs]
      have := hm.bound
      exact ih hm (by omega)
    · rw [hs]
      exact ⟨m', hm, .inl ⟨hp, rfl⟩⟩
    · rw [hs]
      refine ⟨m', hm, .inr ⟨hp, hlong, ?_⟩⟩
      by_cases hlt : p + m'.mldepth < (s.buf .src).nchars
      · rw [if_pos hlt]
      · rw [if_neg hlt]

theorem Longest.isLongest {s : State} {p i L : Nat} (h : Longest s p i L) : IsLongestMatch s p i L := by
  obtain ⟨nd, h1, h2, h3, h4⟩ := h.found
  refine ⟨(activeAt_iff s i).2 ⟨nd, h1, h2⟩, by rw [node_of_slot h1]; exact h3, h.bound, fun k hk => ?_, fun x ha hb hs => ?_⟩
  · rw [nodeChar_of_slot h1]; exact h4 k hk
  · obtain ⟨xd, x1, x2⟩ := (activeAt_iff s x).1 ha
    rw [node_of_slot x1] at hb hs ⊢
    exact h.longest x1 x2 hb fun k hk => by rw [hs k hk, nodeChar_of_slot x1]

theorem tmstep_work {s : State} (h : TrieReady s) (hm : s.mat.mstate ≠ .maximal) (ha : (s.buf .src).len % 8 = 0) :
    workOf .tmstep s = .ok (reportMatch (s.mat.mcons - s.mat.mldepth) (matchStep s)) := by
  simp only [workOf, tmstepWork]
  rw [trieGuards_of_ready h, if_neg hm, if_neg (not_not.2 ha)]

end Sys2Proof.Machine
end

