-- ==== Sys2Proof/Laws/EncodeStep.lean ====
section
/-! SUPPORT. Laws of one encode step: what it does, and when it completes. -/

namespace Sys2Proof.Machine

/-- Where slot `j` is empty, TEXTEND is its wiring step alone (R135). -/
theorem extendTrie_empty {s : State} {i start j : Nat} (h : TrieBut none s) (hj : s.nseed < j)
    (hsize : s.size ≤ s.setup.limit) (hsmall : start ≠ Config.seed) (ha : ExtendAllowed s i start j) (hempty : s.occupied j = false) :
    extendTrie i start j s = .ok ((wire i start j (s.charAt .src (start + (s.node i).length)) s).1.abandonMatch,
      s.charAt .src (start + (s.node i).length), (wire i start j (s.charAt .src (start + (s.node i).length)) s).2) := by
  obtain ⟨t, k, he⟩ := extendTrie_completes h hj hsize hsmall ha
  obtain ⟨-, -, -, -, -, -, -, -, -, -, -, u, old, v, hv, hr, rfl, rfl⟩ := extendTrie_ok he
  unfold vacate at hv
  rw [if_pos hempty] at hv
  cases hv
  cases hr
  exact he

theorem abandon_slot (v : State) (y : Nat) : v.abandonMatch.slot y = v.slot y := by simp only [State.slot, abandonMatch_arena]

theorem matchPolicy_begin {s : State} {i : Nat} (h : MatchAllowed s i) :
    matchPolicy i s.begin = .ok ({ s.begin with
        pol := (s.pol.select s.setup.policy s.setup.limit s.size s.freeCount i).pol,
        size := (s.pol.select s.setup.policy s.setup.limit s.size s.freeCount i).size },
      (s.pol.select s.setup.policy s.setup.limit s.size s.freeCount i).j) :=
  matchPolicy_of_allowed (s := s.begin) h

theorem pmatch_work {s : State} (h : MatchAllowed s s.a0.toNat) {r : Selection}
    (hr : s.pol.select s.setup.policy s.setup.limit s.size s.freeCount s.a0.toNat = r) :
    workOf .pmatch s.begin = .ok ((({ s.begin with pol := r.pol, size := r.size } : State).results r.j 0 0 0).rejectFlag (decide (r.j = 0))) := by
  simp only [workOf, pmatchWork]
  rw [show matchPolicy s.begin.opA0 s.begin = _ from matchPolicy_begin h]
  dsimp only
  rw [show s.pol.select s.setup.policy s.setup.limit s.size s.freeCount s.begin.opA0 = r from hr]

theorem filter_erase {q : List Nat} (hq : q.Nodup) (x : Nat) : q.filter (fun y => decide (y ∉ [x])) = q.erase x := by
  rw [hq.erase_eq_filter]
  refine List.filter_congr fun y _ => ?_
  by_cases h : y = x <;> simp [h]

theorem getLast_filter {q : List Nat} {moved : List Nat} {l : List Nat} {j : Nat}
    (h : q.filter (fun x => decide (x ∉ moved)) = l ++ [j]) : (moved.reverse ++ q.filter fun x => decide (x ∉ moved)).getLast? = some j := by
  rw [h, ← List.append_assoc, List.getLast?_append]
  simp

theorem select_mra {p : PolicyState} {limit size draw i : Nat} : p.select .mra limit size draw i = p.selectMra i limit size := rfl

/-! ### The policy, exactly -/

/-- `policyExact` without its booleans. -/
structure Exact (s : State) : Prop where
  queue : ∀ k ∈ s.pol.q, k ∉ s.pol.perm
  perm : ∀ k ∈ s.pol.perm, k ≤ s.size

theorem exact_iff (s : State) : s.policyExact = true ↔ Exact s := by
  simp only [State.policyExact, Bool.and_eq_true, List.all_eq_true, decide_eq_true_eq, Bool.not_eq_true', isPerm_false]
  exact ⟨fun h => ⟨h.1, h.2⟩, fun h => ⟨h.1, h.2⟩⟩

theorem Exact.congr {s t : State} (h : Exact s) (hp : t.pol = s.pol) (hz : t.size = s.size) : Exact t :=
  ⟨by rw [hp]; exact h.queue, by rw [hp, hz]; exact h.perm⟩

theorem Exact.matchPolicy {s t : State} {i j : Nat} (h : Exact s) (hm : matchPolicy i s = .ok (t, j)) : Exact t := by
  obtain ⟨-, -, rfl⟩ := matchPolicy_ok hm
  rcases select_cases s.pol s.setup.policy s.setup.limit s.size s.freeCount i with
    ⟨h1, -⟩ | ⟨h1, -, h2, h3, -, -, h4⟩ | ⟨-, -, -, -, h1, h2, -, -, h4⟩ | ⟨-, -, -, -, h1, h2, -, -, h4⟩
  · rw [h1]
    exact h
  · refine ⟨fun k hk => ?_, fun k hk => ?_⟩
    · dsimp only at hk ⊢
      rw [h3]
      split at h4
      · exact h.queue k (h4 ▸ hk)
      · rcases List.mem_cons.1 (h4.mem_iff.1 hk) with rfl | hk
        · intro hc
          have := h.perm _ hc
          omega
        · exact h.queue k hk
    · dsimp only at hk ⊢
      rw [h3] at hk
      have := h.perm k hk
      omega
  · refine ⟨fun k hk => ?_, fun k hk => ?_⟩
    · dsimp only at hk ⊢
      rw [h2]
      exact h.queue k (h4.mem_iff.1 hk)
    · dsimp only at hk ⊢
      rw [h2] at hk
      rw [h1]
      exact h.perm k hk
  · refine ⟨fun k hk => ?_, fun k hk => ?_⟩
    · dsimp only at hk ⊢
      rw [h2]
      exact h.queue k (h4 ▸ hk)
    · dsimp only at hk ⊢
      rw [h2] at hk
      rw [h1]
      exact h.perm k hk

/-- The number assigned is reclaimable. -/
theorem matchPolicy_free {s t : State} {i j : Nat} (hp : PolicyOk s) (he : Exact s) (hm : matchPolicy i s = .ok (t, j)) (h0 : j ≠ 0) :
    t.pol.isPerm j = false := by
  have hconf := (matchPolicy_ok hm).1.1
  rcases matchPolicy_number hp.queue hp.cursor hm with ⟨h1, -⟩ | ⟨-, -, -, -, h2, -, ⟨-, h3, -⟩ | ⟨-, -, h3⟩⟩
  · exact absurd h1 h0
  · rw [isPerm_false, h2]
    intro hc
    have := he.perm _ hc
    omega
  · split at h3
    · rename_i hmra
      have := hp.cursor.mra hconf hmra
      rw [h3, isPerm_false, h2, ← isPerm_false]
      exact this
    · rw [isPerm_false, h2]
      exact he.queue _ h3

/-! ### One encode step -/

/-- What one record of the encoder does (R210 to R215). -/
structure EncStep (s t : State) (r : Record) : Prop where
  frame : EncodeFrame s t
  long : Longest s s.epos r.i r.len
  has : r.hasChar = decide (s.epos + r.len < (s.buf .src).nchars)
  char : r.char = if r.hasChar = true then s.charAt .src (s.epos + r.len) else 0
  policy : ∃ p, matchPolicy r.i s = .ok (p, r.j) ∧ t.pol = p.pol ∧ t.size = p.size
  cw : t.buf .cw = { s.buf .cw with bits := (s.buf .cw).bits ++ emitted s r.i r.hasChar r.char }
  other : ∀ d, d ≠ .cw → t.buf d = s.buf d
  epos : t.epos = s.epos + encodeAdvance s.setup.variant r.len r.hasChar
  estate : t.estate = if r.hasChar = true then s.estate else .done
  mstate : t.mat.mstate = .maximal
  rejected : r.j = 0 → t.arena = s.arena ∧ t.nl = s.nl
  kept : r.j ≠ 0 → ∀ k, k ≠ r.j → t.body k = s.body k
  grown : r.j ≠ 0 → r.hasChar = true → t.nl = s.nl ∧ t.body r.j = some (s.epos, r.len + 1, r.j)
  flushed : r.j ≠ 0 → r.hasChar = false → t.nl = r.j ∧ t.slot r.j = none

theorem longestMatch_spec {s : State} (hd : EncDict s) (he : s.epos < (s.buf .src).nchars) : ∃ m', m'.mstate = .maximal ∧
    Longest s s.epos m'.mlast m'.mldepth ∧ longestMatch s = .ok ({ s with mat := m' },
      if s.epos + m'.mldepth < (s.buf .src).nchars then .maximal true (s.charAt .src (s.epos + m'.mldepth)) else .maximal false 0) := by
  obtain ⟨m', h1, h2⟩ := (Matching.init hd (Nat.le_of_lt he)).loop hd (fuel := (s.buf .src).nchars - s.epos + 1) (by omega)
  rcases h2 with ⟨h2, -⟩ | ⟨-, h3, h4⟩
  · omega
  · refine ⟨m', h1, h3, ?_⟩
    unfold longestMatch
    rw [if_neg (by omega), h4]

theorem growDictionary_mstate {i j : Nat} {has : Bool} {s t : State} (h : growDictionary i has j s = .ok t)
    (hm : s.mat.mstate = .maximal) : t.mat.mstate = .maximal := by
  have of : ∀ {v : State}, MatKept s v → v.mat.mstate = .maximal := fun h => by rw [h]; exact hm
  rcases growDictionary_ok h with ⟨-, rfl⟩ | ⟨-, -, c, k, hx⟩ | ⟨-, -, u, hx, rfl⟩
  · exact hm
  · obtain ⟨v, hv, rfl⟩ := extendTrie_mat hx
    unfold State.abandonMatch
    split
    · rfl
    · exact of hv
  · exact of (v := u) (removeNode_mat hx)

theorem emitted_eq (s : State) (i : Nat) (has : Bool) (c : Byte) : emitted s i has c = emitted s i has (if has = true then c else 0) := by
  cases has <;> simp [emitted]

theorem EncOk.encDict {s : State} (h : EncOk s) : EncDict s := h.dict.dict h.configured h.mode

/-- The state in which an encode step consults the policy. -/
def emittedState (s : State) (m : Matcher) (l : Bits) : State :=
  ({ s with mat := m } : State).setBuf .cw { s.buf .cw with bits := (s.buf .cw).bits ++ l }

theorem EncOk.emitted {s : State} (h : EncOk s) (m : Matcher) {l : Bits} (hc : (s.buf .cw).len + l.length ≤ s.capBits) :
    EncOk (emittedState s m l) := by
  refine h.congr rfl (memOk_setBuf (s := { s with mat := m }) h.mem ?_) rfl rfl rfl rfl rfl
    ⟨[], by rw [List.append_nil, emittedState, State.buf_setBuf_other _ _ (by decide)]; rfl⟩
  have := (Buffer.wf_iff _ _).1 (memOk_of_buf.1 h.mem .cw)
  rw [Buffer.wf_iff]
  simp only [Buffer.len, List.length_append] at this hc ⊢
  exact ⟨by omega, hc⟩

theorem encodeStep_sound {s t : State} {x : Option Record} (h : EncOk s) (he : s.epos < (s.buf .src).nchars)
    (hs : encodeStep s = .ok (t, x)) : ∃ r, x = some r ∧ EncStep s t r := by
  obtain ⟨hfr, -, -⟩ := encodeStep_frame hs
  obtain ⟨-, -, hready, -, u, y, hu, hcase⟩ := encodeStep_ok hs
  obtain ⟨m', hm, hlong, hl⟩ := longestMatch_spec h.encDict he
  rw [hl] at hu
  have hu := Except.ok.inj hu
  have hu1 := (Prod.mk.inj hu).1
  have hu2 := (Prod.mk.inj hu).2
  subst hu1
  rcases hcase with ⟨has, c, r, rfl, rfl, hf⟩ | ⟨hx, -⟩
  · refine ⟨r, rfl, ?_⟩
    have hhas : has = decide (s.epos + m'.mldepth < (s.buf .src).nchars)
        ∧ (has = true → c = s.charAt .src (s.epos + m'.mldepth)) := by
      split at hu2
      · rename_i hlt
        injection hu2 with h1 h2
        exact ⟨by simp [← h1, hlt], fun _ => h2.symm⟩
      · rename_i hlt
        injection hu2 with h1 h2
        exact ⟨by simp [← h1, hlt], fun hh => by rw [← h1] at hh; cases hh⟩
    obtain ⟨e, p, v, j, h1, h2, h3, rfl, rfl⟩ := finishRecord_ok hf
    dsimp only at h1 h2 h3
    obtain ⟨hcap, h1⟩ := emitRecord_ok h1
    have hE : EncOk (emittedState s m' (emitted s m'.mlast has c)) := h.emitted m' hcap
    have h1 : e = emittedState s m' (emitted s m'.mlast has c) := h1
    subst h1
    have hj := matchPolicy_above hE.policy hE.dict h2
    obtain ⟨ha, hj1, hp⟩ := matchPolicy_ok h2
    have hP := hE.matchPolicy h2
    have hgm := growDictionary_encode h3
    have hvbuf : ∀ b, v.buf b = (emittedState s m' (emitted s m'.mlast has c)).buf b := fun b =>
      (State.buf_congr hgm.2.1 b).trans (State.buf_congr (by rw [hp]) b)
    have hslot : ∀ k, p.slot k = s.slot k := fun k => by rw [hp]; rfl
    refine ⟨hfr, hlong, hhas.1, ?_, ⟨_, (matchPolicy_of_allowed (s := s) ha).trans (congrArg (fun z => Except.ok (_, z)) hj1.symm), ?_, ?_⟩, ?_, fun d hd => ?_, ?_, ?_,
      ?_, fun h0 => ?_, fun h0 k hk => ?_, fun h0 hh => ?_, fun h0 hh => ?_⟩
    · dsimp only
      split
      · rename_i hh
        exact hhas.2 hh
      · rfl
    · show v.pol = _
      rw [hgm.2.2.1, hp]
      rfl
    · show v.size = _
      rw [hgm.2.2.2, hp]
      rfl
    · dsimp only
      rw [← emitted_eq]
      exact (hvbuf .cw).trans (State.buf_setBuf_same _ _ _)
    · exact (hvbuf d).trans (State.buf_setBuf_other _ _ hd)
    · show v.epos + _ = _
      have : v.epos = s.epos := by
        rcases growDictionary_ok h3 with ⟨-, rfl⟩ | ⟨-, -, c, k, hx⟩ | ⟨-, -, u, hx, rfl⟩
        · rw [hp]; rfl
        · rw [extendTrie_frame hx, hp]; rfl
        · show u.epos = _
          rw [removeNode_frame hx, hp]; rfl
      rw [this]
    · show (if has = true then v.estate else .done) = _
      have : v.estate = s.estate := by
        rcases growDictionary_ok h3 with ⟨-, rfl⟩ | ⟨-, -, c, k, hx⟩ | ⟨-, -, u, hx, rfl⟩
        · rw [hp]; rfl
        · rw [extendTrie_frame hx, hp]; rfl
        · show u.estate = _
          rw [removeNode_frame hx, hp]; rfl
      rw [this]
    · refine growDictionary_mstate (t := v) h3 ?_
      rw [hp]
      exact hm
    · have h0 : j = 0 := h0
      rcases growDictionary_ok h3 with ⟨-, rfl⟩ | ⟨hn, -⟩ | ⟨hn, -⟩
      · rw [hp]; exact ⟨rfl, rfl⟩
      · exact absurd h0 hn
      · exact absurd h0 hn
    all_goals
      have h0 : j ≠ 0 := h0
      have hns : p.nseed < j := by
        have := hj.resolve_left h0
        unfold State.nseed at this ⊢
        rw [hp]
        exact this
      have hbody : ∀ k, p.body k = s.body k := fun k => body_congr (hslot k)
      have hpos : p.epos = s.epos := by rw [hp]; rfl
      have hnl : p.nl = s.nl := by rw [hp]; rfl
      have hnum := matchPolicy_number hE.policy.queue hE.policy.cursor h2
      rcases growDictionary_ok h3 with ⟨hn, -⟩ | ⟨-, hh', c', k', hx⟩ | ⟨-, hh', u, hx, rfl⟩
    · exact absurd hn h0
    · obtain ⟨-, -, -, -, -, -, -, hin, -⟩ := extendTrie_ok hx
      obtain ⟨g1, g2, g3⟩ := hP.encDict.trie.extend hns hP.policy.queue.size (small_of_inside hP.build hP.mem hin) hx
      exact (g2.body k fun hc => hk (Option.some.inj hc).symm).trans (hbody k)
    · obtain ⟨-, -, -, g⟩ := hP.dict.removeNode hP.configured hP.mode hns hx
      exact (g.body k fun hc => hk (Option.some.inj hc).symm).trans (hbody k)
    · exact absurd hn h0
    · obtain ⟨-, -, -, -, -, -, -, hin, -⟩ := extendTrie_ok hx
      obtain ⟨g1, g2, g3⟩ := hP.encDict.trie.extend hns hP.policy.queue.size (small_of_inside hP.build hP.mem hin) hx
      refine ⟨?_, ?_⟩
      · show v.nl = _
        rw [g2.frame, ← hnl]
      · refine (show v.body j = _ from g3).trans ?_
        rw [hpos]
        obtain ⟨nd, hn1, -, hn2, -⟩ := hlong.found
        rw [node_of_slot ((hslot _).trans hn1), hn2]
    · exact absurd (hh.symm.trans hh') (by decide)
    · exact absurd hn h0
    · exact absurd (hh.symm.trans hh') (by decide)
    · obtain ⟨-, -, g, -⟩ := hP.dict.removeNode hP.configured hP.mode hns hx
      refine ⟨rfl, g ?_⟩
      rcases hnum with ⟨hn, -⟩ | ⟨-, n1, -, n2, -⟩
      · exact absurd hn h0
      · have : p.setup.limit = s.setup.limit := by rw [hp]; rfl
        have n2 : p.size ≤ s.setup.limit := n2
        omega
  · split at hu2 <;> rcases hx with rfl | rfl <;> cases hu2

theorem encodeStep_unfold {s : State} (h : TrieReady s) (ha : (s.buf .src).len % 8 = 0) {m' : Matcher} {has : Bool} {c : Byte}
    (hl : longestMatch s = .ok ({ s with mat := m' }, .maximal has c)) :
    encodeStep s = match finishRecord has c { s with mat := m' } with
      | .error e => .error e
      | .ok (u, r) => .ok (u, some r) := by
  unfold encodeStep
  rw [if_neg (by simp [h.1]), if_neg (by rintro (hx | hx); exacts [hx h.2.1, hx h.2.2]), if_neg (by omega), hl] <;> rfl

theorem longestMatch_has {s : State} (hd : EncDict s) (he : s.epos < (s.buf .src).nchars) : ∃ m' has c, Longest s s.epos m'.mlast m'.mldepth ∧
    has = decide (s.epos + m'.mldepth < (s.buf .src).nchars) ∧
    longestMatch s = .ok ({ s with mat := m' }, .maximal has c) := by
  obtain ⟨m', -, h1, h2⟩ := longestMatch_spec hd he
  by_cases hlt : s.epos + m'.mldepth < (s.buf .src).nchars
  · rw [if_pos hlt] at h2
    exact ⟨m', true, _, h1, by simp [hlt], h2⟩
  · rw [if_neg hlt] at h2
    exact ⟨m', false, _, h1, by simp [hlt], h2⟩

theorem growDictionary_completes {s : State} {i L j : Nat} {has : Bool} (h : EncOk s) (hl : Longest s s.epos i L) (hi : i ≤ s.size)
    (ha : (s.buf .src).len % 8 = 0) (hhas : has = decide (s.epos + L < (s.buf .src).nchars))
    (hj : j = 0 ∨ (s.nseed < j ∧ j ≤ s.size ∧ j ≠ i ∧ s.pol.isPerm j = false)) : ∃ t, growDictionary i has j s = .ok t := by
  unfold growDictionary
  by_cases h0 : j = 0
  · rw [if_pos h0]
    exact ⟨_, rfl⟩
  obtain ⟨j1, j2, j3, j4⟩ := hj.resolve_left h0
  rw [if_neg h0]
  by_cases hh : has = true
  · rw [if_pos hh]
    have hlt : s.epos + L < (s.buf .src).nchars := by simpa [hhas] using hh
    obtain ⟨nd, n1, n2, n3, n4⟩ := hl.found
    have hL : (s.node i).length = L := by rw [node_of_slot n1]; exact n3
    have hA : ExtendAllowed s i s.epos j := by
      refine ⟨hi, (activeAt_iff s i).2 ⟨nd, n1, n2⟩, by omega, j2, j3, j4, ha, by omega, fun k hk => ?_, fun x hx hxl => ?_⟩
      · rw [nodeChar_of_slot n1]
        exact n4 k (by omega)
      · rw [child_of_slot n1, hL] at hx
        obtain ⟨xd, x1, -, -, x2, x3⟩ := h.encDict.trie.links.down n1 hx
        rw [node_of_slot x1] at hxl ⊢
        by_contra hact
        have hact : xd.active = true := by simpa using hact
        have := hl.longest x1 hact (by omega) fun k hk => ?_
        · omega
        · by_cases hk' : k < nd.length
          · rw [x3 k hk']
            exact n4 k (by omega)
          · rw [show k = nd.length by omega, n3]
            rw [n3] at x2
            exact BitVec.toNat_inj.1 x2
    have hin := hA.2.2.2.2.2.2.2.1
    obtain ⟨t, k, ht⟩ := extendTrie_completes h.encDict.trie j1 h.policy.queue.size (small_of_inside h.build h.mem hin) hA
    rw [ht]
    exact ⟨_, rfl⟩
  · rw [if_neg hh]
    obtain ⟨t, ht⟩ := removeNode_completes (h.encDict.trie.weaken (some j))
    unfold finalFlush
    rw [ht]
    exact ⟨_, rfl⟩

theorem emitted_length (s : State) (i : Nat) (has : Bool) (c : Byte) :
    (emitted s i has c).length = s.setup.width + if s.setup.variant = .lz78 ∧ has = true then 8 else 0 := by
  unfold emitted
  rw [List.length_append]
  congr 1
  · simp [natBits]
  · split <;> simp [natBits]

/-- The number, or else the character of a record that does not fit in CW (R112, R211). -/
theorem emitRecord_full {i : Nat} {has : Bool} {c : Byte} {s : State} :
    (s.capBits < (s.buf .cw).len + s.setup.width → emitRecord i has c s = .error ⟨.capacity, s.setup.width⟩)
      ∧ ((s.buf .cw).len + s.setup.width ≤ s.capBits → s.capBits < (s.buf .cw).len + (emitted s i has c).length →
          emitRecord i has c s = .error ⟨.capacity, 8⟩) := by
  unfold emitRecord
  refine ⟨fun h => ?_, fun h h8 => ?_⟩
  · rw [show putBits .cw s.setup.width i s = .error ⟨.capacity, s.setup.width⟩ from by unfold putBits; exact if_pos h]
  · rw [emitted_length] at h8
    have hv : s.setup.variant = .lz78 ∧ has = true := by
      by_contra hv
      rw [if_neg hv] at h8
      omega
    rw [if_pos hv] at h8
    rw [putBits_of_room h]
    dsimp only
    rw [if_pos hv]
    unfold putBits
    refine if_pos ?_
    rw [State.buf_setBuf_same]
    show s.capBits < _
    rw [Buffer.append_len]
    omega

/-- What an encode step answers, all cases (R210 to R215). -/
theorem encodeStep_outcome {s : State} (h : EncOk s) (hr : TrieReady s) (ha : (s.buf .src).len % 8 = 0)
    (he : s.epos < (s.buf .src).nchars) : ∃ i L, Longest s s.epos i L ∧
      let full := s.setup.unb = true ∧ s.size = s.setup.limit
      let bits := s.setup.width + if s.setup.variant = .lz78 ∧ decide (s.epos + L < (s.buf .src).nchars) = true then 8 else 0
      (s.capBits < (s.buf .cw).len + s.setup.width → encodeStep s = .error ⟨.capacity, s.setup.width⟩)
        ∧ ((s.buf .cw).len + s.setup.width ≤ s.capBits → s.capBits < (s.buf .cw).len + bits →
            encodeStep s = .error ⟨.capacity, 8⟩)
        ∧ ((s.buf .cw).len + bits ≤ s.capBits → full → encodeStep s = .error ⟨.arenaFull, 0⟩)
        ∧ ((s.buf .cw).len + bits ≤ s.capBits → ¬full → Exact s →
            ∃ t r, encodeStep s = .ok (t, some r) ∧ r.i = i ∧ r.len = L) := by
  obtain ⟨m', has, c, hlong, hhas, hl⟩ := longestMatch_has h.encDict he
  refine ⟨m'.mlast, m'.mldepth, hlong, ?_⟩
  rw [← hhas, ← emitted_length s m'.mlast has c]
  have hE := emitRecord_full (i := m'.mlast) (has := has) (c := c) (s := { s with mat := m' })
  refine ⟨fun hc => ?_, fun hc h8 => ?_, fun hroom hu => ?_, fun hroom hu hx => ?_⟩
  · rw [encodeStep_unfold hr ha hl, finishRecord]
    dsimp only
    rw [hE.1 hc]
  · rw [encodeStep_unfold hr ha hl, finishRecord]
    dsimp only
    rw [hE.2 hc h8]
  all_goals
    rw [encodeStep_unfold hr ha hl]
    have h1 : emitRecord m'.mlast has c { s with mat := m' } = .ok (emittedState s m' (emitted s m'.mlast has c)) :=
      emitRecord_of_room (s := { s with mat := m' }) hroom
  · obtain ⟨nd, n1, n2, -⟩ := hlong.found
    have hi : m'.mlast ≤ s.size := h.encDict.assigned _ (by rw [body_of_slot n1, if_pos n2]; nofun)
    have h2 : matchPolicy m'.mlast (emittedState s m' (emitted s m'.mlast has c)) = .error ⟨.arenaFull, 0⟩ := by
      generalize hT : emittedState s m' (emitted s m'.mlast has c) = T
      have t1 : T.configured = true := by rw [← hT]; exact hr.1
      have t2 : T.estate = .ready := by rw [← hT]; exact hr.2.2
      have t3 : m'.mlast ≤ T.size := by rw [← hT]; exact hi
      have t4 : T.setup.unb = true ∧ T.size = T.setup.limit := by rw [← hT]; exact hu
      unfold matchPolicy
      rw [if_neg (by simp [t1]), if_neg (by rw [t2]; nofun), if_neg (by omega), if_pos t4]
      rfl
    unfold finishRecord
    dsimp only
    rw [h1]
    dsimp only
    rw [h2]
  have hE := h.emitted m' hroom
  have hX : Exact (emittedState s m' (emitted s m'.mlast has c)) := hx.congr rfl rfl
  obtain ⟨nd, n1, n2, n3, n4⟩ := hlong.found
  have hi : m'.mlast ≤ s.size := h.encDict.assigned _ (by rw [body_of_slot n1, if_pos n2]; nofun)
  have hA : MatchAllowed (emittedState s m' (emitted s m'.mlast has c)) m'.mlast :=
    ⟨hr.1, by rw [show (emittedState s m' (emitted s m'.mlast has c)).estate = .ready from hr.2.2]; nofun, hi, hu⟩
  unfold finishRecord
  dsimp only
  rw [h1]
  dsimp only
  cases h2 : matchPolicy m'.mlast (emittedState s m' (emitted s m'.mlast has c)) with
  | error e => rw [matchPolicy_of_allowed hA] at h2; cases h2
  | ok y =>
    obtain ⟨p, j⟩ := y
    dsimp only
    have hP := hE.matchPolicy h2
    have hj := matchPolicy_above hE.policy hE.dict h2
    have hfree := matchPolicy_free hE.policy hX h2
    have hnum := matchPolicy_number hE.policy.queue hE.policy.cursor h2
    have hfr := matchPolicy_frame h2
    have hsz : s.size ≤ p.size := by
      rcases hnum with ⟨-, rfl⟩ | ⟨-, -, -, -, -, -, ⟨-, -, h⟩ | ⟨-, h, -⟩⟩
      · exact Nat.le_refl _
      · rw [h]; exact Nat.le_succ _
      · rw [h]; exact Nat.le_refl _
    have hmem : p.mem = (emittedState s m' (emitted s m'.mlast has c)).mem := by rw [hfr]
    have hsrc : p.buf .src = s.buf .src := (State.buf_congr hmem .src).trans
      (State.buf_setBuf_other (b := .cw) (d := .src) ({ s with mat := m' } : State) _ (by decide))
    have hslot : ∀ k, p.slot k = s.slot k := fun k => by rw [hfr]; rfl
    have hep : p.epos = s.epos := by rw [hfr]; rfl
    have hch : ∀ k, p.charAt .src k = s.charAt .src k := fun k => by
      unfold State.charAt
      rw [hsrc, show p.freeCount = s.freeCount by rw [hfr]; rfl]
    have hcn : ∀ nd k, charOfNode p nd k = charOfNode s nd k := fun nd k => by unfold charOfNode; rw [hch]
    have hlp : Longest p p.epos m'.mlast m'.mldepth := by
      rw [hep]
      refine ⟨⟨nd, (hslot _).trans n1, n2, n3, fun k hk => by rw [hch, hcn]; exact n4 k hk⟩, by rw [hsrc]; exact hlong.bound, fun hy hya hyb hys => ?_⟩
      rw [hslot] at hy
      rw [hsrc] at hyb
      exact hlong.longest hy hya hyb fun k hk => by rw [← hch, ← hcn]; exact hys k hk
    obtain ⟨v, hv⟩ := growDictionary_completes (j := j) (has := has) hP hlp (by omega) (by rw [hsrc]; exact ha) (by rw [hsrc, hep]; exact hhas) (by
      rcases hnum with ⟨h0, -⟩ | ⟨g1, g2, g3, -⟩
      · exact .inl h0
      · refine .inr ⟨?_, g2, g3, hfree (by omega)⟩
        have := hj.resolve_left (by omega)
        unfold State.nseed at this ⊢
        rw [hfr]
        exact this)
    rw [hv]
    exact ⟨_, _, rfl, rfl, rfl⟩

theorem encodeStep_completes {s : State} (h : EncOk s) (hx : Exact s) (hr : TrieReady s) (ha : (s.buf .src).len % 8 = 0)
    (he : s.epos < (s.buf .src).nchars) (hu : ¬(s.setup.unb = true ∧ s.size = s.setup.limit))
    (hc : (s.buf .cw).len + s.setup.width + 8 ≤ s.capBits) : ∃ t x, encodeStep s = .ok (t, x) := by
  obtain ⟨i, L, -, -, -, -, h4⟩ := encodeStep_outcome h hr ha he
  obtain ⟨t, r, ht, -⟩ := h4 (by split <;> omega) hu hx
  exact ⟨t, _, ht⟩

theorem nodeString_src {s t : State} {h : Nat} (hb : t.body h = s.body h) (ha : s.activeAt h = true)
    (hc : ∀ k, t.charAt .src k = s.charAt .src k) : t.nodeString h = s.nodeString h := by
  rw [activeAt_body, Option.isSome_iff_exists] at ha
  obtain ⟨⟨b, n, k⟩, hs⟩ := ha
  obtain ⟨nd, h1, -, h2, h3, h4⟩ := body_some hs
  obtain ⟨nd', g1, -, g2, g3, g4⟩ := body_some (hb.trans hs)
  rw [nodeString_eq h1, nodeString_eq g1, g3, h3]
  refine List.map_congr_left fun x _ => ?_
  unfold charOfNode
  rw [g2, h2, g4, h4, hc]

theorem nodeString_grown {s t : State} {i start j L : Nat} {id : Node} (hi : s.slot i = some id) (hL : id.length = L)
    (hch : ∀ k, t.charAt .src k = s.charAt .src k)
    (hb : t.body j = some (start, L + 1, j)) (hsmall : start ≠ Config.seed)
    (hsp : ∀ k, k < L → s.charAt .src (start + k) = charOfNode s id k) :
    t.nodeString j = s.nodeString i ++ [s.charAt .src (start + L)] := by
  subst hL
  obtain ⟨jd, h1, -, h2, h3, -⟩ := body_some hb
  rw [nodeString_eq h1, nodeString_eq hi, h3, List.range_succ, List.map_append]
  have hc : ∀ k, charOfNode t jd k = s.charAt .src (start + k) := fun k => by
    unfold charOfNode
    rw [h2, if_neg hsmall, hch]
  congr 1
  · refine List.map_congr_left fun k hk => ?_
    rw [hc, hsp k (List.mem_range.1 hk)]
  · simp [hc]

theorem Inv.encOk {s : State} (h : Inv s) (hr : ReadyIn .enc s) : EncOk s :=
  ⟨h.build, h.mem, ⟨h.queue, h.cursor⟩, h.toDict, hr.2.1, hr.2.2.1⟩

theorem EncOk.begin {s : State} (h : EncOk s) : EncOk s.begin := h.congr rfl h.mem rfl rfl rfl rfl rfl (sameSrc rfl)

theorem setup_width {s : State} (h : s.setupOk = true) (hc : s.configured = true) :
    2 ≤ s.setup.width ∧ s.setup.width ≤ 32 ∧ s.setup.limit < 2 ^ s.setup.width ∧ s.setup.limit < 2 ^ 31 := by
  unfold State.setupOk at h
  rw [hc] at h
  simpa using h

theorem toNat_toWord {n : Nat} (h : n < 2 ^ 32) : (toWord n).toNat = n := by
  unfold toWord
  rw [BitVec.toNat_ofNat, Nat.mod_eq_of_lt h]

/-- PMATCH of a number is the policy's rule on it. -/
theorem pmatch_of {s : State} {i j : Nat} {p : State} (hf : s.fault = false) (hi : i < 2 ^ 32) (hm : matchPolicy i s = .ok (p, j)) :
    ∃ q, exec .pmatch { s with a0 := toWord i } = .next q ∧ q.fault = false ∧ q.r0 = toWord j ∧ p.pol = q.pol ∧ p.size = q.size := by
  obtain ⟨ha, rfl, rfl⟩ := matchPolicy_ok hm
  refine ⟨_, exec_of_work (s := { s with a0 := toWord i }) hf (pmatch_work (s := { s with a0 := toWord i })
    (by rw [show (({ s with a0 := toWord i } : State).a0).toNat = i from toNat_toWord hi]; exact ha) rfl), hf, ?_, ?_, ?_⟩
  all_goals rw [show (({ s with a0 := toWord i } : State).a0).toNat = i from toNat_toWord hi]; rfl

end Sys2Proof.Machine
end

