-- ==== Sys2Proof/Laws/Runs.lean ====
section
/-! SUPPORT. Laws of repeated encode and decode steps. -/

namespace Sys2Proof.Machine

theorem EncStep.len_pos {s t : State} {r : Record} (h : EncOk s) (he : s.epos < (s.buf .src).nchars) (hs : EncStep s t r)
    (hv : s.setup.variant = .lzw) : 1 ≤ r.len := by
  have hb := h.encDict.seeds ((s.charAt .src s.epos).toNat + 1) (by omega) (by
    unfold State.nseed
    rw [hv]
    have := (s.charAt .src s.epos).isLt
    show _ ≤ 256
    omega)
  obtain ⟨nd, n1, n2, n3, n4, n5⟩ := body_some hb
  have := hs.long.longest n1 n2 (by omega) fun k hk => ?_
  · omega
  · have hk : k = 0 := by omega
    subst hk
    unfold charOfNode
    rw [n3, if_pos rfl, n5, Nat.add_sub_cancel]
    simp

theorem EncStep.advance {s t : State} {r : Record} (h : EncOk s) (he : s.epos < (s.buf .src).nchars) (hs : EncStep s t r) :
    s.epos < t.epos ∧ t.epos ≤ (s.buf .src).nchars ∧ (r.hasChar = false → t.epos = (s.buf .src).nchars) := by
  have h1 := hs.long.bound
  have h2 := hs.epos
  have h3 := hs.has
  unfold encodeAdvance at h2
  cases hh : r.hasChar
  · have : ¬ s.epos + r.len < (s.buf .src).nchars := by simpa [hh] using h3
    rw [hh, if_neg (by simp)] at h2
    exact ⟨by omega, by omega, fun _ => by omega⟩
  · have : s.epos + r.len < (s.buf .src).nchars := by simpa [hh] using h3
    rw [hh] at h2
    cases hv : s.setup.variant
    · rw [hv, if_pos ⟨rfl, rfl⟩] at h2
      exact ⟨by omega, by omega, nofun⟩
    · have := hs.len_pos h he hv
      rw [hv, if_neg (by simp)] at h2
      exact ⟨by omega, by omega, nofun⟩

theorem matchPolicy_size {s t : State} {i j : Nat} (h : matchPolicy i s = .ok (t, j)) : s.size ≤ t.size ∧ t.size ≤ s.size + 1 := by
  obtain ⟨-, -, rfl⟩ := matchPolicy_ok h
  rcases select_cases s.pol s.setup.policy s.setup.limit s.size s.freeCount i with
    ⟨h1, -⟩ | ⟨h1, -, h2, h3, -, -, h4⟩ | ⟨-, -, -, -, h1, h2, -, -, h4⟩ | ⟨-, -, -, -, h1, h2, -, -, h4⟩
  · rw [h1]; exact ⟨Nat.le_refl _, Nat.le_succ _⟩
  all_goals dsimp only; omega

theorem EncStep.exact {s t : State} {r : Record} (hx : Exact s) (hs : EncStep s t r) : Exact t := by
  obtain ⟨p, hp, h1, h2⟩ := hs.policy
  exact (hx.matchPolicy hp).congr h1 h2

/-! ### The run -/

/-- What a run over the rest of the input does. -/
structure EncRun (s t : State) (m : Nat) : Prop where
  frame : EncodeFrame s t
  done : t.estate = .done
  epos : t.epos = (s.buf .src).nchars
  cw : ∃ l, t.buf .cw = { s.buf .cw with bits := (s.buf .cw).bits ++ l } ∧ m * s.setup.width ≤ l.length ∧ (m = 0 → l = [])
  other : ∀ d, d ≠ .cw → t.buf d = s.buf d
  few : m ≤ (s.buf .src).nchars - s.epos
  some_ : s.epos < (s.buf .src).nchars → 0 < m

theorem encodeRun_completes {fuel n : Nat} {s : State} (h : EncOk s) (hx : Exact s) (hr : s.estate = .ready) (ha : (s.buf .src).len % 8 = 0)
    (he : s.epos ≤ (s.buf .src).nchars) (hf : (s.buf .src).nchars - s.epos < fuel)
    (hu : s.setup.unb = true → s.size + ((s.buf .src).nchars - s.epos) ≤ s.setup.limit)
    (hc : (s.buf .cw).len + ((s.buf .src).nchars - s.epos) * (s.setup.width + 8) ≤ s.capBits) :
    ∃ t m, runSteps encodeStep fuel n s = .ok (t, n + m) ∧ EncRun s t m := by
  induction fuel generalizing n s with
  | zero => omega
  | succ f ih =>
    have hR : TrieReady s := ⟨h.configured, h.mode, hr⟩
    rw [runSteps, if_pos hr]
    by_cases hend : s.epos = (s.buf .src).nchars
    · rw [encodeStep_end hR ha hend]
      dsimp only
      rw [runSteps_done (by nofun)]
      exact ⟨_, 0, rfl, rfl, rfl, hend, ⟨[], by rw [List.append_nil]; rfl, by simp, fun _ => rfl⟩, fun _ _ => rfl, Nat.zero_le _, fun hh => by omega⟩
    have hlt : s.epos < (s.buf .src).nchars := by omega
    generalize hleft : (s.buf .src).nchars - s.epos = left at *
    have hroom1 : (s.buf .cw).len + s.setup.width + 8 ≤ s.capBits := by
      have : 1 * (s.setup.width + 8) ≤ left * (s.setup.width + 8) := Nat.mul_le_mul_right _ (by omega)
      omega
    obtain ⟨t, x, hst⟩ := encodeStep_completes h hx hR ha hlt (fun hh => by have := hu hh.1; omega) hroom1
    obtain ⟨r, rfl, hE⟩ := encodeStep_sound h hlt hst
    obtain ⟨a1, a2, a3⟩ := hE.advance h hlt
    have hbw : t.buf .src = s.buf .src := hE.other _ (by decide)
    have hset : t.setup = s.setup := by rw [hE.frame]
    have hlen : (t.buf .cw).len = (s.buf .cw).len + (emitted s r.i r.hasChar r.char).length := by
      rw [hE.cw]
      simp [Buffer.len]
    have hel := emitted_length s r.i r.hasChar r.char
    rw [hst]
    dsimp only
    cases hh : r.hasChar
    · have hd : t.estate = .done := by rw [hE.estate, hh]; rfl
      rw [runSteps_done (by rw [hd]; nofun)]
      refine ⟨t, 1, rfl, hE.frame, hd, a3 hh, ⟨_, hE.cw, by rw [hel]; omega, nofun⟩, hE.other, by omega, fun _ => Nat.one_pos⟩
    · have hd : t.estate = .ready := by rw [hE.estate, hh]; exact hr
      have hsz : t.size ≤ s.size + 1 := by
        obtain ⟨p, hp, -, h2⟩ := hE.policy
        rw [h2]
        exact (matchPolicy_size hp).2
      obtain ⟨v, m, hv, hrun⟩ := ih (n := n + 1) (s := t) (h.encodeStep hst) (hE.exact hx) hd (by rw [hbw]; exact ha) (by rw [hbw]; exact a2)
        (by rw [hbw]; omega) (by rw [hset, hbw]; intro hun; have := hu hun; omega) (by
          rw [hlen, hset, hbw, show t.capBits = s.capBits by unfold State.capBits; rw [hE.frame]]
          have h1 : ((s.buf .src).nchars - t.epos + 1) * (s.setup.width + 8) ≤ left * (s.setup.width + 8) := Nat.mul_le_mul_right _ (by omega)
          rw [Nat.add_mul] at h1
          have : (emitted s r.i r.hasChar r.char).length ≤ s.setup.width + 8 := by rw [hel]; split <;> omega
          omega)
      refine ⟨v, m + 1, by rw [hv]; congr 2; omega, hE.frame.trans hrun.frame, hrun.done, by rw [hrun.epos, hbw], ?_, fun d hd => (hrun.other d hd).trans (hE.other d hd),
        ?_, fun _ => by omega⟩
      · obtain ⟨l, l1, l2, -⟩ := hrun.cw
        refine ⟨emitted s r.i r.hasChar r.char ++ l, by rw [l1, hE.cw]; simp, ?_, nofun⟩
        rw [hset] at l2
        rw [List.length_append, hel, Nat.add_mul]
        omega
      · have := hrun.few
        rw [hbw] at this
        omega

/-! ### Runs repeat their steps -/

theorem runSteps_of_over {step : State → Work (State × Option Record)} {s t : State} {rs : List (Option Record)} {fuel n : Nat}
    (h : RunsOver step s rs t) (hf : rs.length ≤ fuel) : runSteps step fuel n s = .ok (t, n + (rs.filter Option.isSome).length) := by
  induction rs generalizing s fuel n with
  | nil =>
    obtain ⟨h1, rfl⟩ := h
    exact runSteps_done h1
  | cons r rs ih =>
    obtain ⟨h1, u, h2, h3⟩ := h
    cases fuel with
    | zero => simp at hf
    | succ f =>
      rw [runSteps, if_pos h1, h2]
      have hf' : rs.length ≤ f := by simpa using hf
      cases r with
      | none => exact (ih h3 hf').trans (by simp)
      | some r => exact (ih h3 hf').trans (by simp; omega)

theorem runsOver_done {step : State → Work (State × Option Record)} {s t : State} {rs : List (Option Record)}
    (h : RunsOver step s rs t) (hd : s.estate = .done) : rs = [] := by
  cases rs with
  | nil => rfl
  | cons r rs => rw [h.1] at hd; cases hd

theorem encodeRun_length {s t : State} {rs : List (Option Record)} (h : EncOk s) (hr : RunsOver encodeStep s rs t) :
    rs.length ≤ (s.buf .src).nchars - s.epos + 1 := by
  induction rs generalizing s with
  | nil => exact Nat.zero_le _
  | cons r rs ih =>
    obtain ⟨h1, u, h2, h3⟩ := hr
    obtain ⟨-, -, -, h4, v, x, h5, h6⟩ := encodeStep_ok h2
    have hle := (longestMatch_ok h5).1
    by_cases hend : s.epos = (s.buf .src).nchars
    · rw [encodeStep_end ⟨h.configured, h.mode, h1⟩ h4 hend] at h2
      cases h2
      rw [runsOver_done h3 rfl]
      simp
    · obtain ⟨r', rfl, hE⟩ := encodeStep_sound h (by omega) h2
      obtain ⟨a1, a2, a3⟩ := hE.advance h (by omega)
      cases hh : r'.hasChar
      · rw [runsOver_done h3 (by rw [hE.estate, hh]; rfl)]
        simp
      · have := ih (h.encodeStep h2) h3
        rw [hE.other .src (by decide)] at this
        rw [List.length_cons]
        omega

theorem decodeStep_remaining {s t : State} {r : Record} (h : decodeStep s = .ok (t, some r)) (hw : 0 < s.setup.width) :
    t.remaining < s.remaining := by
  obtain ⟨-, -, -, -, h⟩ := decodeStep_ok h
  rcases h with ⟨-, h, -⟩ | ⟨h0, hw', e, r', -, -, hd⟩
  · cases h
  · obtain ⟨p, hp, hq⟩ := (decodeRecord_frame hd).2.1.cw
    have : (advanceCw s.setup.width s).buf .cw = (s.buf .cw).setRc ((s.buf .cw).rc + s.setup.width) := State.buf_setBuf_same _ _ _
    rw [this] at hp hq
    unfold State.remaining at h0 hw' ⊢
    rw [hq]
    have hp : (s.buf .cw).rc + s.setup.width ≤ p := hp
    show (s.buf .cw).len - p < _
    omega

theorem decodeRun_length {s t : State} {rs : List (Option Record)} (hw : 0 < s.setup.width) (hr : RunsOver decodeStep s rs t) :
    rs.length ≤ s.remaining + 1 := by
  induction rs generalizing s with
  | nil => exact Nat.zero_le _
  | cons r rs ih =>
    obtain ⟨h1, u, h2, h3⟩ := hr
    cases r with
    | none =>
      obtain ⟨-, -, -, -, h⟩ := decodeStep_ok h2
      rcases h with ⟨-, -, rfl⟩ | ⟨-, -, e, r', -, h, -⟩
      · rw [runsOver_done h3 rfl]
        simp
      · cases h
    | some r =>
      have h4 := decodeStep_remaining h2 hw
      have h5 := ih (s := u) (by rw [show u.setup = s.setup by rw [(decodeStep_frame h2).1]]; exact hw) h3
      rw [List.length_cons]
      omega

/-! ### A fault of a step is the run's -/

theorem runSteps_of_into {step : State → Work (State × Option Record)} {s u : State} {rs : List (Option Record)} {e : Raise}
    {fuel n : Nat} (h : RunsInto step s rs u) (he : step u = .error e) (hf : rs.length < fuel) :
    runSteps step fuel n s = .error e := by
  induction rs generalizing s fuel n with
  | nil =>
    obtain ⟨h1, rfl⟩ := h
    cases fuel with
    | zero => simp at hf
    | succ f => rw [runSteps, if_pos h1, he]
  | cons r rs ih =>
    obtain ⟨h1, v, h2, h3⟩ := h
    cases fuel with
    | zero => simp at hf
    | succ f =>
      rw [runSteps, if_pos h1, h2]
      have hf' : rs.length < f := by simpa using hf
      cases r <;> exact ih h3 hf'

theorem runsInto_ready {step : State → Work (State × Option Record)} {s u : State} {rs : List (Option Record)}
    (h : RunsInto step s rs u) : s.estate = .ready := by
  cases rs <;> exact h.1

/-- Every encode step after which the run goes on advances EPOS. -/
theorem encodeInto_length {s u : State} {rs : List (Option Record)} (h : EncOk s) (hr : RunsInto encodeStep s rs u) :
    rs.length ≤ (s.buf .src).nchars - s.epos := by
  induction rs generalizing s with
  | nil => exact Nat.zero_le _
  | cons r rs ih =>
    obtain ⟨h1, v, h2, h3⟩ := hr
    obtain ⟨-, -, -, h4, w, x, h5, -⟩ := encodeStep_ok h2
    have hle := (longestMatch_ok h5).1
    by_cases hend : s.epos = (s.buf .src).nchars
    · rw [encodeStep_end ⟨h.configured, h.mode, h1⟩ h4 hend] at h2
      cases h2
      cases runsInto_ready h3
    · obtain ⟨r', rfl, hE⟩ := encodeStep_sound h (by omega) h2
      obtain ⟨a1, a2, -⟩ := hE.advance h (by omega)
      have := ih (h.encodeStep h2) h3
      rw [hE.other .src (by decide)] at this
      rw [List.length_cons]
      omega

/-- Every decode step after which the run goes on moves the cursor of CW. -/
theorem decodeInto_length {s u : State} {rs : List (Option Record)} (hw : 0 < s.setup.width)
    (hr : RunsInto decodeStep s rs u) : rs.length ≤ s.remaining := by
  induction rs generalizing s with
  | nil => exact Nat.zero_le _
  | cons r rs ih =>
    obtain ⟨h1, v, h2, h3⟩ := hr
    cases r with
    | none =>
      obtain ⟨-, -, -, -, h⟩ := decodeStep_ok h2
      rcases h with ⟨-, -, rfl⟩ | ⟨-, -, e, r', -, h, -⟩
      · cases runsInto_ready h3
      · cases h
    | some r =>
      have h4 := decodeStep_remaining h2 hw
      have h5 := ih (s := v) (by rw [show v.setup = s.setup by rw [(decodeStep_frame h2).1]]; exact hw) h3
      rw [List.length_cons]
      omega

end Sys2Proof.Machine
end

