-- ==== Sys2Proof/Laws/DecodeStep.lean ====
section
/-! SUPPORT. Laws of one decode step: what it reads, what it writes, its dictionary. -/

namespace Sys2Proof.Machine

/-! ### Buffers of whole characters -/

/-- The bits of a string of characters. -/
def bitsOf (cs : List Byte) : Bits := cs.flatMap fun c => natBits 8 c.toNat

theorem bitsOf_append (cs ds : List Byte) : bitsOf (cs ++ ds) = bitsOf cs ++ bitsOf ds := List.flatMap_append

theorem bitsOf_length (cs : List Byte) : (bitsOf cs).length = 8 * cs.length := length_flatMap_natBits cs

theorem bitsOf_single (c : Byte) : bitsOf [c] = natBits 8 c.toNat := by simp [bitsOf]

/-- A buffer that holds these characters. -/
def Holds (x : Buffer) (cs : List Byte) : Prop := x.bits = bitsOf cs

theorem Holds.len {x : Buffer} {cs : List Byte} (h : Holds x cs) : x.len = 8 * cs.length := by
  unfold Buffer.len
  rw [h, bitsOf_length]

theorem Holds.nchars {x : Buffer} {cs : List Byte} (h : Holds x cs) : x.nchars = cs.length := by
  unfold Buffer.nchars
  rw [h.len]
  omega

theorem charAt_bits {s : State} {b : Buf} {k : Nat} (h : k < (s.buf b).nchars) : natBits 8 (s.charAt b k).toNat = ((s.buf b).bits.drop (8*k)).take 8 := by
  unfold State.charAt
  have h2 : 8*k + 8 ≤ (s.buf b).len := by unfold Buffer.nchars at h; omega
  rw [if_pos h2]
  unfold Buffer.read
  have hlen : (((s.buf b).bits.drop (8*k)).take 8).length = 8 := by simp [Buffer.len] at h2 ⊢; omega
  have hlt := bitsNat_lt (((s.buf b).bits.drop (8*k)).take 8)
  rw [hlen] at hlt
  rw [BitVec.toNat_ofNat, Nat.mod_eq_of_lt hlt]
  have := natBits_bitsNat (((s.buf b).bits.drop (8*k)).take 8)
  rwa [hlen] at this

theorem charsAt_bits (s : State) (b : Buf) (k n : Nat) (h : k + n ≤ (s.buf b).nchars) :
    bitsOf (s.charsAt b k n) = ((s.buf b).bits.drop (8*k)).take (8*n) := by
  unfold State.charsAt bitsOf
  induction n with
  | zero => simp
  | succ n ih =>
    rw [List.range_succ, List.map_append, List.flatMap_append, ih (by omega)]
    simp only [List.map_cons, List.map_nil, List.flatMap_cons, List.flatMap_nil, List.append_nil]
    rw [charAt_bits (by omega)]
    have e : 8 * (k+n) = 8*k + 8*n := by omega
    rw [e, ← List.drop_drop, show 8*(n+1) = 8*n+8 by omega, List.take_add]

/-- A buffer of whole characters holds its characters. -/
theorem holds_charsAt {s : State} {b : Buf} (h : (s.buf b).len % 8 = 0) : Holds (s.buf b) (s.charsAt b 0 (s.buf b).nchars) := by
  unfold Holds
  rw [charsAt_bits _ _ _ _ (by omega)]
  have : 8 * (s.buf b).nchars = (s.buf b).bits.length := by unfold Buffer.nchars Buffer.len at *; omega
  rw [this]
  simp

theorem drop_bitsOf (cs : List Byte) (k : Nat) : (bitsOf cs).drop (8 * k) = bitsOf (cs.drop k) := by
  induction k generalizing cs with
  | zero => simp
  | succ k ih =>
    cases cs with
    | nil => simp [bitsOf]
    | cons c cs =>
      rw [List.drop_succ_cons, ← ih]
      have : bitsOf (c :: cs) = natBits 8 c.toNat ++ bitsOf cs := rfl
      rw [this, show 8 * (k+1) = 8 + 8 * k by omega, ← List.drop_drop]
      congr 1

theorem bitsNat_byte (c : Byte) : bitsNat (natBits 8 c.toNat) = c.toNat := by
  rw [bitsNat_natBits]
  exact Nat.mod_eq_of_lt c.isLt

theorem read_holds {x : Buffer} {cs : List Byte} (h : Holds x cs) {k : Nat} {c : Byte} (hk : cs[k]? = some c) : x.read (8 * k) 8 = c.toNat := by
  unfold Buffer.read
  rw [h, drop_bitsOf]
  obtain ⟨hlt, hc⟩ := List.getElem?_eq_some_iff.1 hk
  rw [List.drop_eq_getElem_cons hlt, hc]
  have : bitsOf (c :: cs.drop (k + 1)) = natBits 8 c.toNat ++ bitsOf (cs.drop (k + 1)) := rfl
  rw [this, List.take_append_of_le_length (by simp [natBits]), List.take_of_length_le (by simp [natBits]), bitsNat_byte]

theorem charAt_holds {s : State} {b : Buf} {cs : List Byte} (h : Holds (s.buf b) cs) {k : Nat} {c : Byte} (hk : cs[k]? = some c) :
    s.charAt b k = c := by
  unfold State.charAt
  obtain ⟨hlt, -⟩ := List.getElem?_eq_some_iff.1 hk
  rw [if_pos (by rw [h.len]; omega), read_holds h hk]
  simp

/-! ### Writing characters to OUT -/

/-- OUT with characters appended. -/
def State.emitChars (s : State) (cs : List Byte) : State := s.setBuf .out { s.buf .out with bits := (s.buf .out).bits ++ bitsOf cs }

theorem emitChars_nil (s : State) : s.emitChars [] = s := by
  unfold State.emitChars bitsOf
  ext1 <;> simp [State.setBuf, Memory.set, State.buf, Memory.get]

theorem emitChars_emitChars (s : State) (cs ds : List Byte) : (s.emitChars cs).emitChars ds = s.emitChars (cs ++ ds) := by
  unfold State.emitChars
  rw [State.setBuf_setBuf, State.buf_setBuf_same, bitsOf_append, List.append_assoc]

theorem emitChars_out (s : State) (cs : List Byte) : (s.emitChars cs).buf .out = { s.buf .out with bits := (s.buf .out).bits ++ bitsOf cs } :=
  State.buf_setBuf_same _ _ _

theorem emitChars_holds {s : State} {cs : List Byte} (h : Holds (s.buf .out) cs) (ds : List Byte) : Holds ((s.emitChars ds).buf .out) (cs ++ ds) := by
  unfold Holds
  rw [emitChars_out, bitsOf_append, ← h]

theorem emitChars_other (s : State) (cs : List Byte) {b : Buf} (h : b ≠ .out) : (s.emitChars cs).buf b = s.buf b := State.buf_setBuf_other _ _ h

theorem putChar_of_room {s : State} {n : Nat} (h : (s.buf .out).len + 8 ≤ s.capBits) :
    putBits .out 8 n s = .ok (s.emitChars [BitVec.ofNat 8 n]) := by
  rw [putBits_of_room h]
  unfold State.emitChars Buffer.append
  rw [bitsOf_single, BitVec.toNat_ofNat, natBits_mod]

/-- What CopyOut writes for an entry over the output `O` (R222). -/
def copied (O : List Byte) (i : Nat) (e : Entry) : List Byte :=
  if e.start = Config.seed then [BitVec.ofNat 8 (i - 1)] else ((O ++ [O.getD e.start 0]).drop e.start).take e.length

/-- An entry the decoder can copy (R222). -/
def Copyable (n : Nat) (e : Entry) : Prop :=
  (e.start = Config.seed → e.length = 1) ∧ (e.start ≠ Config.seed → e.length = 0 ∨ (e.start < n ∧ e.start + e.length ≤ n + 1))

theorem copied_length {O : List Byte} {i : Nat} {e : Entry} (h : Copyable O.length e) : (copied O i e).length = e.length := by
  unfold copied
  split
  · rename_i hs
    rw [h.1 hs]
    rfl
  · rename_i hs
    rcases h.2 hs with h | ⟨h1, h2⟩
    · rw [h]; simp
    · simp only [List.length_take, List.length_drop, List.length_append, List.length_singleton]
      omega

theorem copied_get {O : List Byte} {i : Nat} {e : Entry} (hs : e.start ≠ Config.seed) {k : Nat} (hk : k < e.length) :
    (copied O i e)[k]? = (O ++ [O.getD e.start 0])[e.start + k]? := by
  unfold copied
  rw [if_neg hs, List.getElem?_take_of_lt hk, List.getElem?_drop]

/-- The string may run one character into the output of its own record (R222). -/
theorem copied_self {O : List Byte} {i : Nat} {e : Entry} (h : Copyable O.length e) (hs : e.start ≠ Config.seed) {k : Nat} (hk : k < e.length) :
    (O ++ copied O i e)[O.length + k]? = (O ++ copied O i e)[e.start + k]? := by
  rw [List.getElem?_append_right (by omega), Nat.add_sub_cancel_left, copied_get hs hk]
  have := h.2 hs
  by_cases hlt : e.start + k < O.length
  · rw [List.getElem?_append_left hlt, List.getElem?_append_left hlt]
  · rw [List.getElem?_append_right (by omega), List.getElem?_append_right (by omega), show e.start + k - O.length = 0 by omega,
      copied_get hs (by omega), List.getElem?_append_left (by omega)]
    simp only [List.getElem?_cons_zero, Nat.add_zero, List.getD_eq_getElem?_getD]
    rw [List.getElem?_eq_getElem (by omega)]
    rfl

theorem copyOut_emits {s : State} {O : List Byte} {i : Nat} {e : Entry} (hO : Holds (s.buf .out) O) (h : Copyable O.length e)
    (hc : (s.buf .out).len + 8 * e.length ≤ s.capBits) : copyOut i e s = .ok (s.emitChars (copied O i e)) := by
  unfold copyOut
  by_cases hs : e.start = Config.seed
  · rw [if_pos hs]
    have := h.1 hs
    rw [putChar_of_room (by omega)]
    unfold copied
    rw [if_pos hs]
  rw [if_neg hs]
  by_cases hz : e.length = 0
  · rw [if_pos hz]
    have : copied O i e = [] := List.length_eq_zero_iff.1 ((copied_length h).trans hz)
    rw [this, emitChars_nil]
  rw [if_neg hz]
  have hh := (h.2 hs).resolve_left hz
  rw [if_neg (by rw [hO.nchars]; omega), putChar_of_room (by omega)]
  dsimp only
  have hO1 := emitChars_holds hO [BitVec.ofNat 8 (s.charAt .out e.start).toNat]
  rw [if_neg (by rw [hO1.nchars]; simp; omega)]
  have hchar : s.charAt .out e.start = O.getD e.start 0 := by
    refine charAt_holds hO ?_
    rw [List.getD_eq_getElem?_getD, List.getElem?_eq_getElem hh.1]
    rfl
  have hof : (BitVec.ofNat 8 (s.charAt .out e.start).toNat : Byte) = O.getD e.start 0 := by rw [hchar]; simp
  rw [hof] at hO1 ⊢
  have hroom : ((s.emitChars [O.getD e.start 0]).buf .out).len + 8 * ((s.emitChars [O.getD e.start 0]).charsAt .out (e.start + 1) (e.length - 1)).length ≤ (s.emitChars [O.getD e.start 0]).capBits := by
    rw [hO1.len]
    rw [hO.len] at hc
    show _ ≤ s.capBits
    simp [State.charsAt]
    omega
  rw [putChars_of_room hroom]
  show Except.ok (State.emitChars _ _) = _
  rw [emitChars_emitChars]
  congr 2
  refine List.ext_getElem? fun k => ?_
  by_cases hk : k < e.length
  · rw [copied_get hs hk]
    cases k with
    | zero =>
      change _ = (O ++ [O.getD e.start 0])[e.start]?
      rw [List.getElem?_append_left hh.1]
      simp only [List.singleton_append, List.getElem?_cons_zero, List.getD_eq_getElem?_getD]
      rw [List.getElem?_eq_getElem hh.1]
      rfl
    | succ k =>
      rw [List.singleton_append, List.getElem?_cons_succ]
      have hlt : e.start + (k + 1) < (O ++ [O.getD e.start 0]).length := by simp; omega
      rw [List.getElem?_eq_getElem hlt]
      unfold State.charsAt
      rw [List.getElem?_map, List.getElem?_range (by omega)]
      simp only [Option.map_some]
      congr 1
      refine charAt_holds hO1 ?_
      rw [← List.getElem?_eq_getElem hlt]
      congr 1
      omega
  · rw [List.getElem?_eq_none (by simp [State.charsAt]; omega), List.getElem?_eq_none (by rw [copied_length h]; omega)]

/-- The number the decoder reads next (R220). -/
def State.nextNumber (s : State) : Nat := (s.buf .cw).read (s.buf .cw).rc s.setup.width

/-- The bits left after it. -/
def State.leftAfter (s : State) : Nat := s.remaining - s.setup.width

/-- Does an extending character follow (R220)? -/
def State.nextHas (s : State) : Bool := decide (s.setup.variant = .lz78 ∧ s.leftAfter ≠ 0)

/-- That character. -/
def State.nextChar (s : State) : Byte := BitVec.ofNat 8 ((s.buf .cw).read ((s.buf .cw).rc + s.setup.width) 8)

/-- Is this record LZ78's last (R221)? -/
def State.nextFinal (s : State) : Bool := decide (s.setup.variant = .lz78 ∧ s.leftAfter = 0)

/-- A well-formed record at the cursor (R220 to R222, R224), over the output `O`. -/
structure Readable (s : State) (e : Entry) (O : List Byte) : Prop where
  configured : s.configured = true
  mode : s.setup.mode = .dec
  ready : s.estate = .ready
  whole : Holds (s.buf .out) O
  more : s.remaining ≠ 0
  wide : s.setup.width ≤ s.remaining
  entry : Table.get s.tab s.nextNumber = some e
  assigned : s.nextNumber ≤ s.size
  lzw : s.setup.variant = .lzw → s.nextNumber ≠ 0
  final : s.nextFinal = true → s.nextNumber ≠ 0
  char : s.nextHas = true → 8 ≤ s.leftAfter
  copyable : Copyable O.length e

/-- OUT can take what the record writes. -/
def State.roomFor (s : State) (e : Entry) : Prop := (s.buf .out).len + 8 * (e.length + s.nextHas.toNat) ≤ s.capBits

/-- The record the decoder can take: the policy may assign a number, and OUT has room. -/
structure Decodable (s : State) (e : Entry) (O : List Byte) : Prop extends Readable s e O where
  allowed : MatchAllowed s s.nextNumber
  room : s.roomFor e

/-- What it writes. -/
def State.nextString (s : State) (e : Entry) (O : List Byte) : List Byte :=
  copied O s.nextNumber e ++ if s.nextHas = true then [s.nextChar] else []

/-- What one record of the decoder does (R220 to R223). -/
structure DecStep (s t : State) (r : Record) (e : Entry) (O : List Byte) : Prop where
  frame : DecodeFrame s t
  number : r.i = s.nextNumber
  len : r.len = e.length
  has : r.hasChar = s.nextHas
  char : r.char = if s.nextHas = true then s.nextChar else 0
  src : t.buf .src = s.buf .src
  cw : t.buf .cw = { s.buf .cw with rc := (s.buf .cw).rc + s.setup.width + if s.nextHas = true then 8 else 0 }
  out : t.buf .out = { s.buf .out with bits := (s.buf .out).bits ++ bitsOf (s.nextString e O) }
  policy : ∃ p, matchPolicy s.nextNumber s = .ok (p, r.j) ∧ t.pol = p.pol ∧ t.size = p.size
  tab : t.tab = if r.j = 0 then s.tab else Table.put s.tab r.j { start := O.length, length := e.length + 1 }
  estate : t.estate = if s.nextFinal = true then .done else .ready

theorem advanceCw_cw (n : Nat) (s : State) : (advanceCw n s).buf .cw = { s.buf .cw with rc := (s.buf .cw).rc + n } := State.buf_setBuf_same _ _ _

theorem advanceCw_other (n : Nat) (s : State) {b : Buf} (h : b ≠ .cw) : (advanceCw n s).buf b = s.buf b := State.buf_setBuf_other _ _ h

theorem decodeStep_unfold {s : State} {e : Entry} (h1 : s.configured = true) (h2 : s.setup.mode = .dec) (h3 : s.estate = .ready)
    (h4 : (s.buf .out).len % 8 = 0) (h5 : s.remaining ≠ 0) (h6 : s.setup.width ≤ s.remaining) (h7 : Table.get s.tab s.nextNumber = some e)
    (h8 : s.nextNumber ≤ s.size) (h9 : s.setup.variant = .lzw → s.nextNumber ≠ 0) :
    decodeStep s = match decodeRecord s.nextNumber e (advanceCw s.setup.width s) with
      | .error x => .error x
      | .ok (t, r) => .ok (t, some r) := by
  unfold decodeStep
  rw [if_neg (by simp [h1]), if_neg (by rintro (hx | hx); exacts [hx h2, hx h3]), if_neg (by omega), if_neg h5, if_neg (by omega)]
  have : s.decodedEntry s.nextNumber = some e := by
    unfold State.decodedEntry
    rw [if_neg, h7]
    rintro (h | ⟨h, h'⟩)
    · omega
    · exact h9 h h'
  dsimp only
  rw [show s.decodedEntry ((s.buf .cw).read (s.buf .cw).rc s.setup.width) = some e from this]
  rfl

/-- The state in which a decode step consults the policy. -/
def decodedState (s : State) (e : Entry) (O : List Byte) : State :=
  (advanceCw (if s.nextHas = true then 8 else 0) (advanceCw s.setup.width s)).emitChars (s.nextString e O)

theorem setBuf_comm (s : State) {b d : Buf} (x y : Buffer) (h : b ≠ d) : (s.setBuf b x).setBuf d y = (s.setBuf d y).setBuf b x := by
  cases b <;> cases d <;> first | exact absurd rfl h | rfl

theorem emitChars_advance (n : Nat) (s : State) (cs : List Byte) : advanceCw n (s.emitChars cs) = (advanceCw n s).emitChars cs := by
  unfold advanceCw State.emitChars
  rw [State.buf_setBuf_other _ _ (show Buf.cw ≠ Buf.out by decide), State.buf_setBuf_other _ _ (show Buf.out ≠ Buf.cw by decide)]
  exact setBuf_comm s _ _ (by decide)

theorem advanceCw_zero (s : State) : advanceCw 0 s = s := by
  unfold advanceCw Buffer.setRc
  ext1 <;> simp [State.setBuf, Memory.set, State.buf, Memory.get]

theorem decodeChar_spec {s : State} {e : Entry} {O : List Byte} (h : Readable s e O) (hroom : s.roomFor e) :
    decodeChar s.nextNumber ((advanceCw s.setup.width s).emitChars (copied O s.nextNumber e))
      = .ok (decodedState s e O, if s.nextHas = true then some s.nextChar else none, s.nextFinal) := by
  have hrem : ((advanceCw s.setup.width s).emitChars (copied O s.nextNumber e)).remaining = s.leftAfter := by
    unfold State.remaining
    rw [emitChars_other _ _ (by decide), advanceCw_cw]
    show (s.buf .cw).len - ((s.buf .cw).rc + s.setup.width) = (s.buf .cw).len - (s.buf .cw).rc - s.setup.width
    omega
  have hvar : ((advanceCw s.setup.width s).emitChars (copied O s.nextNumber e)).setup.variant = s.setup.variant := rfl
  unfold decodeChar decodedState State.nextString
  rw [hvar]
  cases hv : s.setup.variant
  · dsimp only
    rw [hrem]
    by_cases hl : s.leftAfter = 0
    · have hh : s.nextHas = false := by simp [State.nextHas, hl]
      have hf : s.nextFinal = true := by simp [State.nextFinal, hl, hv]
      rw [if_pos hl, if_neg (h.final hf), hh, hf]
      simp [advanceCw_zero]
    · have hh : s.nextHas = true := by simp [State.nextHas, hl, hv]
      have hf : s.nextFinal = false := by simp [State.nextFinal, hl]
      have h8 := h.char hh
      unfold State.roomFor at hroom
      rw [hh] at hroom
      rw [if_neg hl, if_neg (by omega), hh, hf]
      have hread : (BitVec.ofNat 8 ((((advanceCw s.setup.width s).emitChars (copied O s.nextNumber e)).buf .cw).read
          (((advanceCw s.setup.width s).emitChars (copied O s.nextNumber e)).buf .cw).rc 8) : Byte) = s.nextChar := by
        rw [emitChars_other _ _ (by decide), advanceCw_cw]
        rfl
      rw [hread, emitChars_advance, putChar_of_room]
      · simp [emitChars_emitChars]
      · rw [emitChars_out, advanceCw_other _ _ (by decide), advanceCw_other _ _ (by decide)]
        show ((s.buf .out).bits ++ _).length + 8 ≤ s.capBits
        rw [List.length_append, bitsOf_length, copied_length h.copyable]
        unfold Buffer.len at hroom
        simp at hroom
        omega
  · have hh : s.nextHas = false := by simp [State.nextHas, hv]
    have hf : s.nextFinal = false := by simp [State.nextFinal, hv]
    rw [hh, hf]
    simp [advanceCw_zero]

theorem decodedState_buf (s : State) (e : Entry) (O : List Byte) (b : Buf) : (decodedState s e O).buf b = match b with
    | .src => s.buf .src
    | .cw => { s.buf .cw with rc := (s.buf .cw).rc + s.setup.width + if s.nextHas = true then 8 else 0 }
    | .out => { s.buf .out with bits := (s.buf .out).bits ++ bitsOf (s.nextString e O) } := by
  unfold decodedState
  cases b <;> dsimp only
  · rw [emitChars_other _ _ (by decide), advanceCw_other _ _ (by decide), advanceCw_other _ _ (by decide)]
  · rw [emitChars_other _ _ (by decide), advanceCw_cw, advanceCw_cw]
  · rw [emitChars_out, advanceCw_other _ _ (by decide), advanceCw_other _ _ (by decide)]

theorem decodedState_mem (s : State) (e : Entry) (O : List Byte) : ∃ m, decodedState s e O = { s with mem := m } := ⟨_, rfl⟩

theorem advanced_holds {s : State} {e : Entry} {O : List Byte} (h : Readable s e O) :
    Holds ((advanceCw s.setup.width s).buf .out) O := by
  rw [advanceCw_other _ _ (by decide)]
  exact h.whole

/-- A readable record whose string fits is copied out before the rest of it is read (R222). -/
theorem decodeRecord_copied {s : State} {e : Entry} {O : List Byte} (h : Readable s e O)
    (hc : (s.buf .out).len + 8 * e.length ≤ s.capBits) : decodeRecord s.nextNumber e (advanceCw s.setup.width s)
    = match decodeChar s.nextNumber ((advanceCw s.setup.width s).emitChars (copied O s.nextNumber e)) with
      | .error x => .error x
      | .ok (u, c, final) =>
        match addExtension s.nextNumber O.length e.length u with
        | .error x => .error x
        | .ok (v, j) =>
          .ok ({ v with estate := if final then .done else v.estate },
            { i := s.nextNumber, len := e.length, hasChar := c.isSome, char := c.getD 0, j := j }) := by
  have hcopy := copyOut_emits (s := advanceCw s.setup.width s) (i := s.nextNumber) (advanced_holds h) h.copyable (by
    rw [advanceCw_other _ _ (by decide)]
    exact hc)
  unfold decodeRecord
  dsimp only
  rw [hcopy, (advanced_holds h).nchars] <;> rfl

theorem decodeStep_forward {s : State} {e : Entry} {O : List Byte} (h : Decodable s e O) :
    ∃ t r, decodeStep s = .ok (t, some r) ∧ DecStep s t r e O := by
  have hroom : (s.buf .out).len + 8 * (e.length + s.nextHas.toNat) ≤ s.capBits := h.room
  rw [decodeStep_unfold h.configured h.mode h.ready (by rw [h.whole.len]; omega) h.more h.wide h.entry h.assigned h.lzw,
    decodeRecord_copied h.toReadable (by omega), decodeChar_spec h.toReadable h.room]
  dsimp only
  have hbuf := decodedState_buf s e O
  obtain ⟨m, hD⟩ := decodedState_mem s e O
  rw [hD] at hbuf ⊢
  obtain ⟨q, z, j, hm, hm'⟩ : ∃ q z j, matchPolicy s.nextNumber { s with mem := m } = .ok ({ s with mem := m, pol := q, size := z }, j)
      ∧ matchPolicy s.nextNumber s = .ok ({ s with pol := q, size := z }, j) :=
    ⟨_, _, _, matchPolicy_of_allowed (s := { s with mem := m }) h.allowed, matchPolicy_of_allowed h.allowed⟩
  unfold addExtension
  rw [hm]
  dsimp only
  refine ⟨_, _, rfl, ?_⟩
  constructor
  · split <;> rfl
  · rfl
  · rfl
  · show (if s.nextHas = true then some s.nextChar else none).isSome = s.nextHas
    cases s.nextHas <;> rfl
  · show (if s.nextHas = true then some s.nextChar else none).getD 0 = _
    cases s.nextHas <;> rfl
  · refine Eq.trans ?_ (hbuf .src)
    split <;> rfl
  · refine Eq.trans ?_ (hbuf .cw)
    split <;> rfl
  · refine Eq.trans ?_ (hbuf .out)
    split <;> rfl
  · refine ⟨_, hm', ?_, ?_⟩
    · split <;> rfl
    · split <;> rfl
  · split <;> rfl
  · dsimp only
    split
    · rfl
    · split <;> exact h.ready

/-- A record for which no number is left (R172), once it is written. -/
theorem decodeStep_full {s : State} {e : Entry} {O : List Byte} (h : Readable s e O) (hroom : s.roomFor e)
    (hf : s.setup.unb = true ∧ s.size = s.setup.limit) : decodeStep s = .error ⟨.arenaFull, 0⟩ := by
  have hc : (s.buf .out).len + 8 * (e.length + s.nextHas.toNat) ≤ s.capBits := hroom
  rw [decodeStep_unfold h.configured h.mode h.ready (by rw [h.whole.len]; omega) h.more h.wide h.entry h.assigned h.lzw,
    decodeRecord_copied h (by omega), decodeChar_spec h hroom]
  dsimp only
  have hm : matchPolicy s.nextNumber (decodedState s e O) = .error ⟨.arenaFull, 0⟩ := by
    obtain ⟨m, hD⟩ := decodedState_mem s e O
    rw [hD]
    unfold matchPolicy
    dsimp only
    rw [if_neg (by simp [h.configured]), if_neg (by rw [h.ready]; nofun), if_neg (Nat.not_lt.2 h.assigned), if_pos hf]
    rfl
  unfold addExtension
  rw [hm]

theorem putChar_full {s : State} {n : Nat} (h : s.capBits < (s.buf .out).len + 8) : putBits .out 8 n s = .error ⟨.capacity, 8⟩ := by
  unfold putBits
  exact if_pos h

theorem putChars_full {s : State} {cs : List Byte} (hb : (s.buf .out).len ≤ s.capBits)
    (h : s.capBits < (s.buf .out).len + 8 * cs.length) : putChars cs s = .error ⟨.capacity, 8⟩ := by
  induction cs generalizing s with
  | nil => simp at h; omega
  | cons c cs ih =>
    unfold putChars
    by_cases h8 : (s.buf .out).len + 8 ≤ s.capBits
    · rw [putChar_of_room h8]
      dsimp only
      have hl : ((s.emitChars [BitVec.ofNat 8 c.toNat]).buf .out).len = (s.buf .out).len + 8 := by
        rw [emitChars_out]
        unfold Buffer.len
        rw [List.length_append, bitsOf_length]
        rfl
      refine ih (by rw [hl]; exact h8) ?_
      rw [hl]
      show s.capBits < _
      rw [List.length_cons] at h
      omega
    · rw [putChar_full (by omega)]

theorem copyOut_full {s : State} {O : List Byte} {i : Nat} {e : Entry} (hO : Holds (s.buf .out) O) (h : Copyable O.length e)
    (hb : (s.buf .out).len ≤ s.capBits) (hc : s.capBits < (s.buf .out).len + 8 * e.length) :
    copyOut i e s = .error ⟨.capacity, 8⟩ := by
  unfold copyOut
  by_cases hs : e.start = Config.seed
  · rw [if_pos hs]
    have := h.1 hs
    exact putChar_full (by omega)
  rw [if_neg hs, if_neg (by omega)]
  have hh := (h.2 hs).resolve_left (by omega)
  rw [if_neg (by rw [hO.nchars]; omega)]
  by_cases h8 : (s.buf .out).len + 8 ≤ s.capBits
  · rw [putChar_of_room h8]
    dsimp only
    have hO1 := emitChars_holds hO [BitVec.ofNat 8 (s.charAt .out e.start).toNat]
    have hl := hO1.len
    rw [List.length_append, List.length_singleton] at hl
    have hl0 := hO.len
    rw [if_neg (by rw [hO1.nchars]; simp; omega)]
    refine putChars_full (by rw [hl]; show _ ≤ s.capBits; omega) ?_
    rw [hl]
    show s.capBits < _
    simp only [State.charsAt, List.length_map, List.length_range]
    omega
  · rw [putChar_full (by omega)]

/-- A record that OUT cannot take whole (R112, R222). -/
theorem decodeStep_capacity {s : State} {e : Entry} {O : List Byte} (h : Readable s e O) (hb : (s.buf .out).len ≤ s.capBits)
    (hroom : ¬s.roomFor e) : decodeStep s = .error ⟨.capacity, 8⟩ := by
  unfold State.roomFor at hroom
  rw [decodeStep_unfold h.configured h.mode h.ready (by rw [h.whole.len]; omega) h.more h.wide h.entry h.assigned h.lzw]
  by_cases hc : (s.buf .out).len + 8 * e.length ≤ s.capBits
  · have hh : s.nextHas = true := by
      by_contra hn
      rw [show s.nextHas = false by simpa using hn] at hroom
      exact hroom hc
    obtain ⟨hv, hl⟩ := of_decide_eq_true hh
    have h8 := h.char hh
    rw [hh] at hroom
    have hroom : s.capBits < (s.buf .out).len + 8 * (e.length + 1) := Nat.lt_of_not_le hroom
    rw [decodeRecord_copied h hc]
    generalize hT : (advanceCw s.setup.width s).emitChars (copied O s.nextNumber e) = T
    have t1 : T.setup.variant = .lz78 := by rw [← hT]; exact hv
    have t2 : T.remaining = s.leftAfter := by
      rw [← hT]
      unfold State.remaining
      rw [emitChars_other _ _ (by decide), advanceCw_cw]
      show (s.buf .cw).len - ((s.buf .cw).rc + s.setup.width) = (s.buf .cw).len - (s.buf .cw).rc - s.setup.width
      omega
    have t3 : ((advanceCw 8 T).buf .out).len = (s.buf .out).len + 8 * e.length := by
      rw [advanceCw_other _ _ (by decide), ← hT, emitChars_out, advanceCw_other _ _ (by decide)]
      unfold Buffer.len
      rw [List.length_append, bitsOf_length, copied_length h.copyable]
    have t4 : (advanceCw 8 T).capBits = s.capBits := by rw [← hT]; rfl
    unfold decodeChar
    rw [t1]
    dsimp only
    rw [t2, if_neg hl, if_neg (by omega), putChar_full (by rw [t3, t4]; omega)]
  · unfold decodeRecord
    dsimp only
    rw [copyOut_full (advanced_holds h) h.copyable (by rw [advanceCw_other _ _ (by decide)]; exact hb)
      (by rw [advanceCw_other _ _ (by decide)]; exact Nat.lt_of_not_le hc)]

theorem read_lt (x : Buffer) (off n : Nat) : x.read off n < 2 ^ n := by
  unfold Buffer.read
  exact Nat.lt_of_lt_of_le (bitsNat_lt _) (Nat.pow_le_pow_right (by decide) (by simp))

theorem nextString_length {s : State} {e : Entry} {O : List Byte} (h : Copyable O.length e) :
    (s.nextString e O).length = e.length + s.nextHas.toNat := by
  unfold State.nextString
  rw [List.length_append, copied_length h]
  cases s.nextHas <;> rfl

/-! ### A run over a well-formed stream -/

/-- How a call of the policy moves SIZE (R170). -/
theorem select_size (p : PolicyState) (policy : Policy) {limit size : Nat} (h : size ≤ limit) (draw i : Nat) :
    (p.select policy limit size draw i).size = min (size + 1) limit
      ∧ (size < limit → (p.select policy limit size draw i).j = size + 1) := by
  rcases select_cases p policy limit size draw i with
    ⟨h1, h2⟩ | ⟨h1, h2, h3, -⟩ | ⟨h1, -, -, -, h2, -⟩ | ⟨h1, -, -, -, h2, -⟩
  · rw [h1]
    exact ⟨by show size = _; omega, fun _ => by omega⟩
  · exact ⟨by omega, fun _ => h2⟩
  · exact ⟨by omega, fun _ => by omega⟩
  · exact ⟨by omega, fun _ => by omega⟩

/-- A decoder in front of `n` well-formed records, over the output `O`. -/
structure Streaming (s : State) (n m : Nat) (O : List Byte) : Prop where
  configured : s.configured = true
  mode : s.setup.mode = .dec
  ready : s.estate = .ready
  whole : Holds (s.buf .out) O
  width : 0 < s.setup.width
  size : s.size ≤ s.setup.limit
  small : s.capBits < 2 ^ 32
  table : TableReads s m
  stream : StreamReads s n
  numbers : s.setup.unb = true → s.size + n ≤ s.setup.limit
  room : (s.buf .out).len + 8 * (n * (m + n)) ≤ s.capBits

/-- The next record of a well-formed stream can be decoded; a final one is the last. -/
theorem Streaming.decodable {s : State} {n m : Nat} {O : List Byte} (h : Streaming s (n + 1) m O) :
    ∃ e, Decodable s e O ∧ e.length ≤ m ∧ (s.nextFinal = true → n = 0)
      ∧ (s.nextFinal = false → 1 ≤ e.length + s.nextHas.toNat
          ∧ s.remaining = s.recordBits + (s.remaining - s.recordBits)
          ∧ s.setup.width + (if s.nextHas = true then 8 else 0) = s.recordBits)
      ∧ (s.nextFinal = true → s.remaining = s.setup.width ∧ s.nextHas = false) := by
  obtain ⟨hrem, hnum⟩ := h.stream
  obtain ⟨n1, n2, n3⟩ := hnum 0 (Nat.succ_pos n)
  rw [Nat.zero_mul, Nat.add_zero] at n1 n2 n3
  rw [Nat.succ_mul] at hrem n3
  have hw := h.width
  have hi : s.nextNumber ≤ s.size := by
    have : s.nextNumber ≤ min (s.size + 0) s.setup.limit := n1
    omega
  obtain ⟨e, he, hm, hlen, hc⟩ : ∃ e, Table.get s.tab s.nextNumber = some e ∧ e.length ≤ m
      ∧ (s.nextNumber ≠ 0 → 1 ≤ e.length) ∧ Copyable O.length e := by
    by_cases h0 : s.nextNumber = 0
    · refine ⟨_, by rw [h0]; exact h.table.1, Nat.zero_le _, fun hn => absurd h0 hn, fun hs => absurd hs (by decide), fun _ => .inl rfl⟩
    · obtain ⟨e, e1, e2, e3, e4, e5⟩ := h.table.2 _ (by omega) hi
      rw [h.whole.nchars] at e5
      exact ⟨e, e1, e3, fun _ => e2, e4, fun hs => .inr (e5 hs)⟩
  have hwide : s.setup.width ≤ s.remaining := by
    unfold State.recordBits at hrem
    rcases hrem with hr | ⟨hv, -, hr⟩
    · omega
    · rw [if_pos hv] at hr
      omega
  have hlen1 : s.setup.variant = .lzw → 1 ≤ e.length := fun hv => hlen (n2 hv)
  have hroom1 : m + n + 1 ≤ (n + 1) * (m + (n + 1)) := by
    rw [Nat.succ_mul]
    omega
  have hroom : s.roomFor e := by
    have := h.room
    have h1 : s.nextHas.toNat ≤ 1 := by cases s.nextHas <;> decide
    unfold State.roomFor
    omega
  have hfin : s.nextFinal = true → s.setup.variant = .lz78 ∧ n = 0 ∧ s.remaining = s.setup.width := fun hf => by
    obtain ⟨hv, hl⟩ := of_decide_eq_true hf
    unfold State.recordBits at hrem
    rw [if_pos hv] at hrem
    unfold State.leftAfter at hl
    have : n * (s.setup.width + 8) = 0 := by rcases hrem with hr | ⟨-, -, hr⟩ <;> omega
    rcases Nat.mul_eq_zero.1 this with h0 | h0
    · exact ⟨hv, h0, by omega⟩
    · omega
  refine ⟨e, ⟨⟨h.configured, h.mode, h.ready, h.whole, by omega, hwide, he, hi, n2, fun hf => ?_, fun hh => ?_, hc⟩,
      ⟨h.configured, by rw [h.ready]; nofun, hi, fun hu => by have := h.numbers hu.1; omega⟩, hroom⟩, hm, fun hf => (hfin hf).2.1,
    fun hf => ?_, fun hf => ⟨(hfin hf).2.2, ?_⟩⟩
  · obtain ⟨hv, h0, hr⟩ := hfin hf
    subst h0
    refine n3 ⟨hv, Nat.succ_pos _, ?_⟩ rfl
    unfold State.recordBits
    rw [if_pos hv]
    omega
  · obtain ⟨hv, hl⟩ := of_decide_eq_true hh
    unfold State.recordBits at hrem
    rw [if_pos hv] at hrem
    unfold State.leftAfter at hl ⊢
    rcases hrem with hr | ⟨-, -, hr⟩
    · omega
    · cases n with
      | zero => omega
      | succ n => rw [Nat.succ_mul] at hr; omega
  · unfold State.recordBits at hrem ⊢
    cases hv : s.setup.variant with
    | lzw =>
      have hh : s.nextHas = false := by simp [State.nextHas, hv]
      rw [hv, if_neg (by nofun)] at hrem
      have := hlen1 hv
      rw [hh, if_neg (by nofun), if_neg (by nofun)]
      refine ⟨by omega, ?_, rfl⟩
      rcases hrem with hr | ⟨hc, -⟩
      · omega
      · cases hc
    | lz78 =>
      rw [hv, if_pos rfl] at hrem
      have hl : s.leftAfter ≠ 0 := fun hl => by simp [State.nextFinal, hv, hl] at hf
      have hh : s.nextHas = true := by simp [State.nextHas, hv, hl]
      unfold State.leftAfter at hl
      rw [hh, if_pos rfl, if_pos rfl]
      refine ⟨by show 1 ≤ e.length + 1; omega, ?_, rfl⟩
      rcases hrem with hr | ⟨-, -, hr⟩
      · omega
      · cases n with
        | zero => omega
        | succ n => rw [Nat.succ_mul] at hr; omega
  · obtain ⟨hv, -, hr⟩ := hfin hf
    unfold State.nextHas State.leftAfter
    simp [hr]

/-- A record that is not final leaves a decoder in front of the rest of the stream. -/
theorem Streaming.next {s t : State} {n m : Nat} {O : List Byte} {r : Record} {e : Entry} (h : Streaming s (n + 1) m O)
    (hD : Decodable s e O) (hm : e.length ≤ m) (hd : DecStep s t r e O) (hf : s.nextFinal = false)
    (hpos : 1 ≤ e.length + s.nextHas.toNat) (hrem : s.remaining = s.recordBits + (s.remaining - s.recordBits))
    (hbits : s.setup.width + (if s.nextHas = true then 8 else 0) = s.recordBits) :
    Streaming t n (m + 1) (O ++ s.nextString e O) ∧ t.remaining = s.remaining - s.recordBits := by
  have hset : t.setup = s.setup := by rw [hd.frame]
  have hcap : t.capBits = s.capBits := by unfold State.capBits; rw [hd.frame]
  have hwhole : Holds (t.buf .out) (O ++ s.nextString e O) := by
    unfold Holds
    rw [hd.out, bitsOf_append, ← h.whole]
  have hlen := nextString_length (s := s) hD.copyable
  have hpl : (O ++ s.nextString e O).length = O.length + (e.length + s.nextHas.toNat) := by rw [List.length_append, hlen]
  have h1 : s.nextHas.toNat ≤ 1 := by cases s.nextHas <;> decide
  have hrc : (t.buf .cw).rc = (s.buf .cw).rc + s.recordBits := by
    rw [hd.cw, ← hbits]
    exact Nat.add_assoc _ _ _
  have htrem : t.remaining = s.remaining - s.recordBits := by
    have hl : (t.buf .cw).len = (s.buf .cw).len := by rw [hd.cw]; rfl
    unfold State.remaining at hrem ⊢
    rw [hrc, hl]
    omega
  have htb : t.recordBits = s.recordBits := by unfold State.recordBits; rw [hset]
  obtain ⟨p, hp, -, hp2⟩ := hd.policy
  obtain ⟨-, hj, hpe⟩ := matchPolicy_ok hp
  obtain ⟨z1, z2⟩ := select_size s.pol s.setup.policy h.size s.freeCount s.nextNumber
  have hsize : t.size = min (s.size + 1) s.setup.limit := by rw [hp2, hpe]; exact z1
  have hjf : s.size < s.setup.limit → r.j = s.size + 1 := fun hl => hj.trans (z2 hl)
  obtain ⟨hr0, hnum⟩ := h.stream
  rw [Nat.succ_mul] at hr0
  have hOlt : O.length < Config.seed := by
    have := h.room
    have := h.small
    rw [h.whole.len] at *
    show O.length < 2 ^ 32 - 1
    omega
  refine ⟨⟨by rw [hd.frame]; exact h.configured, by rw [hset]; exact h.mode, by rw [hd.estate, hf]; rfl, hwhole, by rw [hset]; exact h.width,
    by rw [hset, hsize]; exact Nat.min_le_right _ _, by rw [hcap]; exact h.small, ⟨?_, fun k k1 k2 => ?_⟩, ⟨?_, fun x hx => ?_⟩,
    fun hu => ?_, ?_⟩, htrem⟩
  · rw [hd.tab]
    split
    · exact h.table.1
    · rename_i h0
      rw [Table.get_put_other _ _ (Ne.symm h0)]
      exact h.table.1
  · rw [hwhole.nchars, hpl]
    by_cases hkj : k = r.j
    · subst hkj
      rw [hd.tab, if_neg (by omega)]
      refine ⟨_, Table.get_put_same _ _ _, Nat.succ_le_succ (Nat.zero_le _), Nat.succ_le_succ hm, fun hs => ?_, fun _ => ⟨?_, ?_⟩⟩
      · have : O.length = Config.seed := hs
        omega
      · show O.length < _
        omega
      · show O.length + (e.length + 1) ≤ _
        omega
    · have hks : k ≤ s.size := by
        by_cases hl : s.size < s.setup.limit
        · have := hjf hl
          omega
        · omega
      obtain ⟨d, d1, d2, d3, d4, d5⟩ := h.table.2 k k1 hks
      rw [h.whole.nchars] at d5
      refine ⟨d, ?_, d2, by omega, d4, fun hs => ?_⟩
      · rw [hd.tab]
        split
        · exact d1
        · rw [Table.get_put_other _ _ hkj]
          exact d1
      · obtain ⟨g1, g2⟩ := d5 hs
        exact ⟨by omega, by omega⟩
  · rw [htb, htrem, hset]
    rcases hr0 with hr0 | ⟨hv, -, hr0⟩
    · exact .inl (by omega)
    · refine .inr ⟨hv, ?_, by omega⟩
      by_contra hn
      have : n = 0 := by omega
      subst this
      unfold State.recordBits at hr0 hrem
      rw [if_pos hv] at hr0 hrem
      omega
  · obtain ⟨c1, c2, c3⟩ := hnum (x + 1) (Nat.succ_lt_succ hx)
    have hread : (t.buf .cw).read ((t.buf .cw).rc + x * t.recordBits) t.setup.width
        = (s.buf .cw).read ((s.buf .cw).rc + (x + 1) * s.recordBits) s.setup.width := by
      rw [hrc, htb, hset, Nat.succ_mul, show (s.buf .cw).rc + s.recordBits + x * s.recordBits
        = (s.buf .cw).rc + (x * s.recordBits + s.recordBits) by omega, hd.cw]
      rfl
    dsimp only
    rw [hread, hsize, hset, htb, htrem]
    refine ⟨by omega, c2, fun hs hx1 => c3 ⟨hs.1, Nat.succ_pos _, ?_⟩ (by omega)⟩
    have := hs.2.2
    rw [Nat.succ_mul]
    omega
  · rw [hset] at hu ⊢
    have := h.numbers hu
    omega
  · have := h.room
    rw [Nat.succ_mul n] at this
    rw [hwhole.len, hpl, hcap, show m + 1 + n = m + (n + 1) by omega]
    rw [h.whole.len] at this
    omega

/-- What a run over a well-formed stream does. -/
structure DecRun (s t : State) (k : Nat) : Prop where
  frame : DecodeFrame s t
  done : t.estate = .done
  src : t.buf .src = s.buf .src
  cw : t.buf .cw = { s.buf .cw with rc := (s.buf .cw).rc + s.remaining }
  out : ∃ cs, t.buf .out = { s.buf .out with bits := (s.buf .out).bits ++ bitsOf cs } ∧ cs.length ≤ k

theorem decodeRun_completes {s : State} {n m fuel count : Nat} {O : List Byte} (h : Streaming s n m O) (hf : n < fuel) :
    ∃ t, runSteps decodeStep fuel count s = .ok (t, count + n) ∧ DecRun s t (n * (m + n)) := by
  induction n generalizing s m fuel count O with
  | zero =>
    obtain ⟨g, rfl⟩ : ∃ g, fuel = g + 1 := ⟨fuel - 1, by omega⟩
    have hr : s.remaining = 0 := by
      rcases h.stream.1 with hr | ⟨-, hn, -⟩
      · rw [hr, Nat.zero_mul]
      · omega
    rw [runSteps, if_pos h.ready, decodeStep_end h.configured h.mode h.ready (by rw [h.whole.len]; omega) hr]
    dsimp only
    rw [runSteps_done (by nofun)]
    refine ⟨_, rfl, rfl, rfl, rfl, by rw [hr]; rfl, [], ?_, Nat.zero_le _⟩
    rw [show bitsOf [] = [] from rfl, List.append_nil]
    rfl
  | succ n ih =>
    obtain ⟨g, rfl⟩ : ∃ g, fuel = g + 1 := ⟨fuel - 1, by omega⟩
    obtain ⟨e, hD, hm, c1, c2, c3⟩ := h.decodable
    obtain ⟨t, r, ht, hd⟩ := decodeStep_forward hD
    have hlen := nextString_length (s := s) hD.copyable
    have h1 : s.nextHas.toNat ≤ 1 := by cases s.nextHas <;> decide
    rw [runSteps, if_pos h.ready, ht]
    dsimp only
    cases hfin : s.nextFinal
    · obtain ⟨d1, d2, d3⟩ := c2 hfin
      obtain ⟨hnext, hrem⟩ := h.next hD hm hd hfin d1 d2 d3
      obtain ⟨u, hu, hrun⟩ := ih hnext (fuel := g) (count := count + 1) (by omega)
      refine ⟨u, by rw [hu]; congr 2; omega, hd.frame.trans hrun.frame, hrun.done, hrun.src.trans hd.src, ?_, ?_⟩
      · rw [hrun.cw, hrem, hd.cw]
        dsimp only
        rw [Nat.add_assoc (s.buf .cw).rc, d3, Nat.add_assoc, ← d2]
      · obtain ⟨cs, g1, g2⟩ := hrun.out
        refine ⟨s.nextString e O ++ cs, ?_, ?_⟩
        · rw [g1, hd.out, bitsOf_append]
          simp
        · rw [List.length_append, hlen, Nat.succ_mul, show m + (n + 1) = m + 1 + n by omega]
          omega
    · obtain ⟨d1, d2⟩ := c3 hfin
      have h0 := c1 hfin
      subst h0
      rw [runSteps_done (by rw [hd.estate, hfin]; nofun)]
      refine ⟨t, rfl, hd.frame, by rw [hd.estate, hfin]; rfl, hd.src, ?_, s.nextString e O, hd.out, ?_⟩
      · rw [hd.cw, d1, d2]
        rfl
      · rw [hlen]
        omega

end Sys2Proof.Machine
end

