-- ==== Sys2Proof/Laws/Ordered.lean ====
section
/-! SUPPORT. Laws of the queue order that makes SMRU's match a function of the numbers. -/

namespace Sys2Proof.Machine

/-! ### SMRU keeps a number behind its prefix (R174) -/

/-- In the queue a number's prefix stands nearer to the front, unless it is permanent. -/
structure Ordered (p : PolicyState) : Prop where
  pair : p.q.Pairwise fun a b => p.parentOf a ≠ b
  parent : ∀ k ∈ p.q, p.isPerm (p.parentOf k) = true ∨ (p.parentOf k ∈ p.q ∧ p.parentOf k ≠ k)

theorem Ordered.chain {p : PolicyState} (h : Ordered p) {x : Nat} (hx : p.isPerm x = true ∨ x ∈ p.q) :
    ∃ xs, ChainOf p x xs ∧ ∀ y ∈ xs, y ∈ p.q := by
  have key : ∀ n l1 x l2, l1.length = n → p.q = l1 ++ x :: l2 → ∃ xs, ChainOf p x xs ∧ ∀ y ∈ xs, y ∈ p.q := by
    intro n
    induction n using Nat.strongRecOn with
    | ind n ih =>
      intro l1 x l2 hn hq
      have hm : x ∈ p.q := by rw [hq]; simp
      by_cases hp : p.isPerm x = true
      · exact ⟨[], hp, by simp⟩
      have hp : p.isPerm x = false := by simpa using hp
      rcases h.parent x hm with hpar | ⟨hpar, hne⟩
      · refine ⟨[x], ⟨rfl, hp, hpar⟩, ?_⟩
        intro y hy
        rw [List.mem_singleton.1 hy]
        exact hm
      · have hin : p.parentOf x ∈ l1 := by
          rw [hq] at hpar
          rcases List.mem_append.1 hpar with h1 | h1
          · exact h1
          · rcases List.mem_cons.1 h1 with h1 | h1
            · exact absurd h1 hne
            · have hpw := h.pair
              rw [hq] at hpw
              exact absurd rfl ((List.pairwise_cons.1 (List.pairwise_append.1 hpw).2.1).1 _ h1)
        obtain ⟨a, b, hab⟩ := List.append_of_mem hin
        obtain ⟨xs, h1, h2⟩ := ih a.length (by rw [← hn, hab]; simp) a (p.parentOf x) (b ++ x :: l2) rfl (by rw [hq, hab]; simp)
        refine ⟨x :: xs, ⟨rfl, hp, h1⟩, fun y hy => ?_⟩
        rcases List.mem_cons.1 hy with rfl | hy
        · exact hm
        · exact h2 y hy
  by_cases hp : p.isPerm x = true
  · exact ⟨[], hp, by simp⟩
  · obtain ⟨a, b, hab⟩ := List.append_of_mem (hx.resolve_left hp)
    exact key _ a x b rfl hab

/-- Each member's parent follows it in its chain, or is permanent. -/
theorem ChainOf.pair {p : PolicyState} {x : Nat} {xs : List Nat} (h : ChainOf p x xs) :
    xs.Pairwise (fun a b => p.parentOf b ≠ a) ∧ ∀ a ∈ xs, p.isPerm (p.parentOf a) = true ∨ p.parentOf a ∈ xs := by
  induction xs generalizing x with
  | nil => exact ⟨.nil, by simp⟩
  | cons y ys ih =>
    have h' := h
    obtain ⟨rfl, hx, h⟩ := h
    obtain ⟨i1, i2⟩ := ih h
    refine ⟨List.pairwise_cons.2 ⟨fun b hb hc => ?_, i1⟩, fun a ha => ?_⟩
    · rcases i2 b hb with hp | hp
      · rw [hc, hx] at hp
        cases hp
      · rw [hc] at hp
        exact (List.nodup_cons.1 h'.nodup).1 hp
    · rcases List.mem_cons.1 ha with rfl | ha
      · cases ys with
        | nil => exact .inl h
        | cons z zs => exact .inr (by rw [← h.1]; simp)
      · rcases i2 a ha with hp | hp
        · exact .inl hp
        · exact .inr (List.mem_cons_of_mem _ hp)

/-- The order survives the cascade. -/
theorem cascade_pair {p : PolicyState} (h : Ordered p) (hn : ∀ k ∈ p.q, p.isPerm k = false) {x : Nat} {xs : List Nat} (hc : ChainOf p x xs) :
    (xs.reverse ++ p.q.filter fun y => decide (y ∉ xs)).Pairwise fun a b => p.parentOf a ≠ b := by
  obtain ⟨c1, c2⟩ := hc.pair
  refine List.pairwise_append.2 ⟨List.pairwise_reverse.2 c1, h.pair.sublist List.filter_sublist, fun a ha b hb hab => ?_⟩
  obtain ⟨b1, b2⟩ := List.mem_filter.1 hb
  have b2 : b ∉ xs := of_decide_eq_true b2
  rcases c2 a (List.mem_reverse.1 ha) with hp | hp
  · rw [hab, hn b b1] at hp
    cases hp
  · rw [hab] at hp
    exact b2 hp

/-- Placing a number behind its prefix keeps the order. -/
theorem Ordered.placed {p : PolicyState} {i j size : Nat} {q : List Nat} (h : Ordered { p with q := q }) (hq : q.Nodup)
    (hn : ∀ k ∈ q, p.isPerm k = false) (hj : j ∉ q) (hpar : ∀ k ∈ q, p.parentOf k ≠ j) (hij : i ≠ j) (hi : p.isPerm i = true ∨ i ∈ q) :
    Ordered (p.placed i j size q).pol := by
  have par : ∀ k, (p.placed i j size q).pol.parentOf k = if k = j then i else p.parentOf k := by
    intro k
    show Table.getNum (Table.putNum p.parent j i) k = _
    by_cases hk : k = j
    · rw [if_pos hk, hk, Table.getNum_putNum_same]
    · rw [if_neg hk, Table.getNum_putNum_other _ _ hk]; rfl
  have hpair : q.Pairwise fun a b => (p.placed i j size q).pol.parentOf a ≠ b := by
    refine List.Pairwise.imp_of_mem ?_ h.pair
    intro a b ha _ hab
    rw [par, if_neg (by rintro rfl; exact hj ha)]
    exact hab
  have hperm : ∀ k, (p.placed i j size q).pol.isPerm k = p.isPerm k := fun _ => rfl
  by_cases hp : p.isPerm i = true
  · have hQ : (p.placed i j size q).pol.q = j :: q := if_pos hp
    constructor
    · rw [hQ]
      refine List.pairwise_cons.2 ⟨fun b hb hc => ?_, hpair⟩
      rw [par, if_pos rfl] at hc
      rw [hc, hn b hb] at hp
      cases hp
    · rw [hQ]
      intro k hk
      rw [par, hperm]
      rcases List.mem_cons.1 hk with rfl | hk'
      · rw [if_pos rfl]
        exact .inl hp
      · rw [if_neg (by rintro rfl; exact hj hk')]
        rcases h.parent k hk' with h1 | ⟨h1, h2⟩
        · exact .inl h1
        · exact .inr ⟨List.mem_cons_of_mem _ h1, h2⟩
  · have hiq := hi.resolve_left hp
    obtain ⟨a, b, hab⟩ := List.append_of_mem hiq
    have hia : i ∉ a := by
      rw [hab] at hq
      intro hc
      exact (List.nodup_append.1 hq).2.2 i hc i List.mem_cons_self rfl
    have hib : i ∉ b := by
      rw [hab] at hq
      exact (List.nodup_cons.1 (List.nodup_append.1 hq).2.1).1
    have hQ : (p.placed i j size q).pol.q = a ++ i :: j :: b := by
      show (if p.isPerm i = true then j :: q else insertAfter i j q) = _
      rw [if_neg hp, hab, insertAfter_append hia]
    have hmem : ∀ k, k ∈ (p.placed i j size q).pol.q ↔ k = j ∨ k ∈ q := by
      intro k
      rw [hQ, hab]
      simp only [List.mem_append, List.mem_cons]
      tauto
    constructor
    · rw [hQ]
      rw [hab] at hpair
      obtain ⟨p1, p2, p3⟩ := List.pairwise_append.1 hpair
      obtain ⟨p4, p5⟩ := List.pairwise_cons.1 p2
      have toj : ∀ k ∈ q, (p.placed i j size q).pol.parentOf k ≠ j := fun k hk => by
        rw [par, if_neg (by rintro rfl; exact hj hk)]
        exact hpar k hk
      refine List.pairwise_append.2 ⟨p1, List.pairwise_cons.2 ⟨fun z hz => ?_, List.pairwise_cons.2 ⟨fun z hz => ?_, p5⟩⟩, fun x hx z hz => ?_⟩
      · rcases List.mem_cons.1 hz with rfl | hz
        · exact toj i hiq
        · exact p4 z hz
      · rw [par, if_pos rfl]
        rintro rfl
        exact hib hz
      · rcases List.mem_cons.1 hz with rfl | hz
        · exact p3 x hx z List.mem_cons_self
        rcases List.mem_cons.1 hz with rfl | hz
        · exact toj x (by rw [hab]; simp [hx])
        · exact p3 x hx z (List.mem_cons_of_mem _ hz)
    · intro k hk
      rw [par, hperm, hmem]
      rcases (hmem k).1 hk with rfl | hk'
      · rw [if_pos rfl]
        exact .inr ⟨.inr hiq, hij⟩
      · rw [if_neg (by rintro rfl; exact hj hk')]
        rcases h.parent k hk' with h1 | ⟨h1, h2⟩
        · exact .inl h1
        · exact .inr ⟨.inr h1, h2⟩

/-- The chain of every assigned number ends (R174). -/
theorem Ordered.ends {s : State} (h : Ordered s.pol) (hq : QueueOk s) (hp : s.setup.policy ≠ .mra) {i : Nat} (hi : i ≤ s.size) :
    ∃ xs, ChainOf s.pol i xs ∧ (∀ y ∈ xs, y ∈ s.pol.q) ∧ s.pol.chain (s.setup.limit + 1) i = (xs, true) := by
  have hx : s.pol.isPerm i = true ∨ i ∈ s.pol.q := by
    by_cases hp' : s.pol.isPerm i = true
    · exact .inl hp'
    · rw [isPerm_iff] at hp'
      refine .inr (hq.full hp i ?_ hi hp')
      by_contra hc
      exact hp' (by rw [show i = 0 by omega]; exact hq.zero)
  obtain ⟨xs, h1, h2⟩ := h.chain hx
  refine ⟨xs, h1, h2, chain_of h1 (h1.length_le fun y hy => ?_)⟩
  have := hq.range y (h2 y hy)
  have := hq.size
  omega

theorem Ordered.select {s : State} (h : Ordered s.pol) (hq : QueueOk s) (hx : Exact s) (hp : s.setup.policy = .smru) {i : Nat} (hi : i ≤ s.size) :
    Ordered (s.pol.select s.setup.policy s.setup.limit s.size s.freeCount i).pol := by
  obtain ⟨xs, h1, h2, h3⟩ := h.ends hq (by rw [hp]; nofun) hi
  have hn : ∀ k ∈ s.pol.q, s.pol.isPerm k = false := fun k hk => (isPerm_false _ _).2 (hx.queue k hk)
  have hsel : s.pol.select s.setup.policy s.setup.limit s.size s.freeCount i
      = s.pol.selectRecency i s.setup.limit s.size (xs.reverse ++ s.pol.q.filter fun y => decide (y ∉ xs)) := by
    rw [hp]
    show s.pol.selectRecency i s.setup.limit s.size (s.pol.cascade s.setup.limit s.freeCount i) = _
    unfold PolicyState.cascade
    rw [h3]
    dsimp only
    rw [foldl_moveFront h1.nodup h2 hq.nodup]
  rw [hsel]
  have hpair := cascade_pair h hn h1
  have hnd : (xs.reverse ++ s.pol.q.filter fun y => decide (y ∉ xs)).Nodup := by
    rw [← foldl_moveFront h1.nodup h2 hq.nodup]
    have : ∀ (l q : List Nat), q.Nodup → (l.foldl (fun q x => moveFront x q) q).Nodup := by
      intro l
      induction l with
      | nil => exact fun q h => h
      | cons a l ih =>
        intro q hq
        refine ih _ ?_
        show (moveFront a q).Nodup
        unfold moveFront
        split
        · rename_i ha
          exact (List.perm_cons_erase ha).nodup_iff.1 hq
        · exact hq
    exact this _ _ hq.nodup
  have hmem : ∀ k, k ∈ (xs.reverse ++ s.pol.q.filter fun y => decide (y ∉ xs)) ↔ k ∈ s.pol.q := by
    intro k
    simp only [List.mem_append, List.mem_reverse, List.mem_filter, decide_eq_true_eq]
    constructor
    · rintro (hk | hk)
      · exact h2 k hk
      · exact hk.1
    · intro hk
      by_cases hkx : k ∈ xs
      · exact .inl hkx
      · exact .inr ⟨hk, hkx⟩
  generalize (xs.reverse ++ s.pol.q.filter fun y => decide (y ∉ xs)) = q at hpair hnd hmem
  have hO : Ordered { s.pol with q := q } := ⟨hpair, fun k hk => by
    rcases h.parent k ((hmem k).1 hk) with h4 | ⟨h4, h5⟩
    · exact .inl h4
    · exact .inr ⟨(hmem _).2 h4, h5⟩⟩
  have hiq : s.pol.isPerm i = true ∨ i ∈ q := by
    by_cases hp' : s.pol.isPerm i = true
    · exact .inl hp'
    · refine .inr ((hmem i).2 ?_)
      rw [isPerm_iff] at hp'
      refine hq.full (by rw [hp]; nofun) i ?_ hi hp'
      by_contra hc
      exact hp' (by rw [show i = 0 by omega]; exact hq.zero)
  unfold PolicyState.selectRecency
  split
  · have hrange : ∀ k ∈ q, k ≤ s.size := fun k hk => (hq.range k ((hmem k).1 hk)).2
    refine hO.placed (p := s.pol) hnd (fun k hk => hn k ((hmem k).1 hk)) (fun hc => by have := hrange _ hc; omega) (fun k hk hc => ?_) (by omega) hiq
    rcases h.parent k ((hmem k).1 hk) with h4 | ⟨h4, -⟩
    · rw [hc, isPerm_iff] at h4
      have := hx.perm _ h4
      omega
    · rw [hc] at h4
      have := hrange _ ((hmem _).2 h4)
      omega
  · split
    · exact h
    · rename_i j hj
      split
      · exact h
      · rename_i hji
        obtain ⟨l, rfl⟩ : ∃ l, q = l ++ [j] := List.getLast?_eq_some_iff.1 hj
        obtain ⟨l1, -, l3⟩ := List.nodup_append.1 hnd
        have hjl : j ∉ l := fun hc => l3 j hc j List.mem_cons_self rfl
        have her : (l ++ [j]).erase j = l := by
          rw [List.erase_append_right _ hjl]
          simp
        rw [her]
        obtain ⟨p1, -, p3⟩ := List.pairwise_append.1 hpair
        have toj : ∀ k ∈ l, s.pol.parentOf k ≠ j := fun k hk => p3 k hk j List.mem_cons_self
        refine Ordered.placed (p := s.pol) (q := l) ⟨p1, fun k hk => ?_⟩ l1 (fun k hk => hn k ((hmem k).1 (List.mem_append_left _ hk))) hjl toj (fun hc => hji hc.symm) ?_
        · rcases hO.parent k (List.mem_append_left _ hk) with h4 | ⟨h4, h5⟩
          · exact .inl h4
          · refine .inr ⟨?_, h5⟩
            rcases List.mem_append.1 h4 with h6 | h6
            · exact h6
            · exact absurd (List.mem_singleton.1 h6) (toj k hk)
        · rcases hiq with h4 | h4
          · exact .inl h4
          · rcases List.mem_append.1 h4 with h6 | h6
            · exact .inr h6
            · exact absurd (List.mem_singleton.1 h6).symm hji

end Sys2Proof.Machine
end

