-- ==== Sys2Proof/Laws/PerInstr.lean ====
section
/-! SUPPORT. One lemma per command about its word: the fields of `encode i` are the command's own (30_encoding.md R80), and
they choose its form in the opcode map (R88). -/

namespace Sys2Proof.Laws.EncodeFields

/-- The word of `i` holds its OPC, BUF and N, and RSV = 0; the opcode map gives `i` back from them. -/
def Statement (i : Instr) : Prop :=
  opcField (encode i) = i.opcode ∧ bufField (encode i) = i.bufBits ∧ rsvField (encode i) = 0 ∧ nField (encode i) = i.nBits
    ∧ (opcodeForm i.opcode = some (.plain i)
        ∨ (∃ mk b, opcodeForm i.opcode = some (.withBuf mk) ∧ i = mk b ∧ bufOfField i.bufBits = some b)
        ∨ ∃ mk b, opcodeForm i.opcode = some (.withBufN mk) ∧ i = mk b i.nBits ∧ bufOfField i.bufBits = some b)

/-- The four fields of a word are read back from their concatenation. -/
theorem fields (i : Instr) :
    opcField (encode i) = i.opcode ∧ bufField (encode i) = i.bufBits ∧ rsvField (encode i) = 0
      ∧ nField (encode i) = i.nBits := by
  unfold opcField bufField rsvField nField encode
  generalize i.opcode = o
  generalize i.bufBits = b
  generalize i.nBits = n
  have word : ∀ k, BitVec.getLsbD (w := 32) (o ++ b ++ (0 : BitVec 16) ++ n) k
      = if k < 6 then n.getLsbD k else if k - 6 < 16 then false else if k - 6 - 16 < 2 then b.getLsbD (k - 6 - 16)
        else o.getLsbD (k - 6 - 16 - 2) := by
    intro k
    refine (BitVec.getLsbD_append (x := o ++ b ++ (0 : BitVec 16)) (y := n) (i := k)).trans ?_
    rw [BitVec.getLsbD_append, BitVec.getLsbD_append]
    simp
  refine ⟨?_, ?_, ?_, ?_⟩ <;>
    (ext k hk; rw [BitVec.getElem_extractLsb', word])
  · rw [if_neg (by omega), if_neg (by omega), if_neg (by omega), ← BitVec.getLsbD_eq_getElem]
    congr 1
    omega
  · rw [if_neg (by omega), if_neg (by omega), if_pos (by omega), ← BitVec.getLsbD_eq_getElem]
    congr 1
    omega
  · rw [if_neg (by omega), if_pos (by omega)]
    simp
  · rw [if_pos (by omega), ← BitVec.getLsbD_eq_getElem]
    congr 1
    omega

theorem bufOfField_code (b : Buf) : bufOfField b.code = some b := by cases b <;> rfl

theorem nop : Statement .nop :=
  ⟨(fields _).1, (fields _).2.1, (fields _).2.2.1, (fields _).2.2.2, .inl rfl⟩

theorem bput (b : Buf) (n : BitVec 6) : Statement (.bput b n) :=
  ⟨(fields _).1, (fields _).2.1, (fields _).2.2.1, (fields _).2.2.2, .inr (.inr ⟨_, b, rfl, rfl, bufOfField_code b⟩)⟩

theorem bget (b : Buf) (n : BitVec 6) : Statement (.bget b n) :=
  ⟨(fields _).1, (fields _).2.1, (fields _).2.2.1, (fields _).2.2.2, .inr (.inr ⟨_, b, rfl, rfl, bufOfField_code b⟩)⟩

theorem bputc (b : Buf) : Statement (.bputc b) :=
  ⟨(fields _).1, (fields _).2.1, (fields _).2.2.1, (fields _).2.2.2, .inr (.inl ⟨_, b, rfl, rfl, bufOfField_code b⟩)⟩

theorem bgetc (b : Buf) : Statement (.bgetc b) :=
  ⟨(fields _).1, (fields _).2.1, (fields _).2.2.1, (fields _).2.2.2, .inr (.inl ⟨_, b, rfl, rfl, bufOfField_code b⟩)⟩

theorem bslice (b : Buf) : Statement (.bslice b) :=
  ⟨(fields _).1, (fields _).2.1, (fields _).2.2.1, (fields _).2.2.2, .inr (.inl ⟨_, b, rfl, rfl, bufOfField_code b⟩)⟩

theorem bcopy (b : Buf) : Statement (.bcopy b) :=
  ⟨(fields _).1, (fields _).2.1, (fields _).2.2.1, (fields _).2.2.2, .inr (.inl ⟨_, b, rfl, rfl, bufOfField_code b⟩)⟩

theorem beq (b : Buf) : Statement (.beq b) :=
  ⟨(fields _).1, (fields _).2.1, (fields _).2.2.1, (fields _).2.2.2, .inr (.inl ⟨_, b, rfl, rfl, bufOfField_code b⟩)⟩

theorem bclr (b : Buf) : Statement (.bclr b) :=
  ⟨(fields _).1, (fields _).2.1, (fields _).2.2.1, (fields _).2.2.2, .inr (.inl ⟨_, b, rfl, rfl, bufOfField_code b⟩)⟩

theorem bseek (b : Buf) : Statement (.bseek b) :=
  ⟨(fields _).1, (fields _).2.1, (fields _).2.2.1, (fields _).2.2.2, .inr (.inl ⟨_, b, rfl, rfl, bufOfField_code b⟩)⟩

theorem binfo (b : Buf) : Statement (.binfo b) :=
  ⟨(fields _).1, (fields _).2.1, (fields _).2.2.1, (fields _).2.2.2, .inr (.inl ⟨_, b, rfl, rfl, bufOfField_code b⟩)⟩

theorem textend : Statement .textend :=
  ⟨(fields _).1, (fields _).2.1, (fields _).2.2.1, (fields _).2.2.2, .inl rfl⟩

theorem tedge : Statement .tedge :=
  ⟨(fields _).1, (fields _).2.1, (fields _).2.2.1, (fields _).2.2.2, .inl rfl⟩

theorem tremove : Statement .tremove :=
  ⟨(fields _).1, (fields _).2.1, (fields _).2.2.1, (fields _).2.2.2, .inl rfl⟩

theorem tmreset : Statement .tmreset :=
  ⟨(fields _).1, (fields _).2.1, (fields _).2.2.1, (fields _).2.2.2, .inl rfl⟩

theorem tmstep : Statement .tmstep :=
  ⟨(fields _).1, (fields _).2.1, (fields _).2.2.1, (fields _).2.2.2, .inl rfl⟩

theorem tlookup : Statement .tlookup :=
  ⟨(fields _).1, (fields _).2.1, (fields _).2.2.1, (fields _).2.2.2, .inl rfl⟩

theorem tnode : Statement .tnode :=
  ⟨(fields _).1, (fields _).2.1, (fields _).2.2.1, (fields _).2.2.2, .inl rfl⟩

theorem pmatch : Statement .pmatch :=
  ⟨(fields _).1, (fields _).2.1, (fields _).2.2.1, (fields _).2.2.2, .inl rfl⟩

theorem pperm : Statement .pperm :=
  ⟨(fields _).1, (fields _).2.1, (fields _).2.2.1, (fields _).2.2.2, .inl rfl⟩

theorem pinfo : Statement .pinfo :=
  ⟨(fields _).1, (fields _).2.1, (fields _).2.2.1, (fields _).2.2.2, .inl rfl⟩

theorem porder : Statement .porder :=
  ⟨(fields _).1, (fields _).2.1, (fields _).2.2.1, (fields _).2.2.2, .inl rfl⟩

theorem econfig : Statement .econfig :=
  ⟨(fields _).1, (fields _).2.1, (fields _).2.2.1, (fields _).2.2.2, .inl rfl⟩

theorem estep : Statement .estep :=
  ⟨(fields _).1, (fields _).2.1, (fields _).2.2.1, (fields _).2.2.2, .inl rfl⟩

theorem dstep : Statement .dstep :=
  ⟨(fields _).1, (fields _).2.1, (fields _).2.2.1, (fields _).2.2.2, .inl rfl⟩

theorem erun : Statement .erun :=
  ⟨(fields _).1, (fields _).2.1, (fields _).2.2.1, (fields _).2.2.2, .inl rfl⟩

theorem drun : Statement .drun :=
  ⟨(fields _).1, (fields _).2.1, (fields _).2.2.1, (fields _).2.2.2, .inl rfl⟩

theorem eaddext : Statement .eaddext :=
  ⟨(fields _).1, (fields _).2.1, (fields _).2.2.1, (fields _).2.2.2, .inl rfl⟩

end Sys2Proof.Laws.EncodeFields
end

