-- ==== Sys2Proof/Tests/Slice0.lean ====
section
/-! SUPPORT. Small tests of the model: ill-formed terms, every command's word written out from 30_encoding.md R80 and R88,
one step of every command (the values expected are those of the rules and of the vectors of spec/95), and for every
statement with hypotheses a state that meets them. -/

namespace Sys2Proof.Tests

open Sys2Proof Sys2Proof.Machine

/-! ### Well-formedness: the one check, R83 -/

theorem test_wf_bput_32 : (Instr.bput .src 32).wf = true := by decide
theorem test_wf_bput_33_refused : (Instr.bput .src 33).wf = false := by decide
theorem test_wf_bget_33_refused : (Instr.bget .out 33).wf = false := by decide
theorem test_decode_count_33_refused : decode 0x01400021 = .error (.bitCount 33) := by decide

/-! ### The word of every command: OPC in bits 31:24, BUF in 23:22, N in 5:0 -/

theorem test_words_buffer :
    decode (0b00000001_01_0000000000000000_001001#32) = .ok (.bput .cw 9)
      ∧ decode (0b00000010_00_0000000000000000_100000#32) = .ok (.bget .src 32)
      ∧ decode (0b00000011_00_0000000000000000_000000#32) = .ok (.bputc .src)
      ∧ decode (0b00000100_10_0000000000000000_000000#32) = .ok (.bgetc .out)
      ∧ decode (0b00000101_01_0000000000000000_000000#32) = .ok (.bslice .cw)
      ∧ decode (0b00000110_10_0000000000000000_000000#32) = .ok (.bcopy .out)
      ∧ decode (0b00000111_00_0000000000000000_000000#32) = .ok (.beq .src)
      ∧ decode (0b00001000_01_0000000000000000_000000#32) = .ok (.bclr .cw)
      ∧ decode (0b00001001_10_0000000000000000_000000#32) = .ok (.bseek .out)
      ∧ decode (0b00001010_01_0000000000000000_000000#32) = .ok (.binfo .cw) := by decide

theorem test_words_trie :
    decode (0b00010000_00_0000000000000000_000000#32) = .ok .textend
      ∧ decode (0b00010001_00_0000000000000000_000000#32) = .ok .tedge
      ∧ decode (0b00010010_00_0000000000000000_000000#32) = .ok .tremove
      ∧ decode (0b00010011_00_0000000000000000_000000#32) = .ok .tmreset
      ∧ decode (0b00010100_00_0000000000000000_000000#32) = .ok .tmstep
      ∧ decode (0b00010101_00_0000000000000000_000000#32) = .ok .tlookup
      ∧ decode (0b00010110_00_0000000000000000_000000#32) = .ok .tnode := by decide

theorem test_words_policy_engine :
    decode (0b00100000_00_0000000000000000_000000#32) = .ok .pmatch
      ∧ decode (0b00100001_00_0000000000000000_000000#32) = .ok .pperm
      ∧ decode (0b00100010_00_0000000000000000_000000#32) = .ok .pinfo
      ∧ decode (0b00100011_00_0000000000000000_000000#32) = .ok .porder
      ∧ decode (0b00000000_00_0000000000000000_000000#32) = .ok .nop
      ∧ decode (0b00110000_00_0000000000000000_000000#32) = .ok .econfig
      ∧ decode (0b00110001_00_0000000000000000_000000#32) = .ok .estep
      ∧ decode (0b00110010_00_0000000000000000_000000#32) = .ok .dstep
      ∧ decode (0b00110011_00_0000000000000000_000000#32) = .ok .erun
      ∧ decode (0b00110100_00_0000000000000000_000000#32) = .ok .drun
      ∧ decode (0b00110101_00_0000000000000000_000000#32) = .ok .eaddext := by decide

/-! ### Small states -/

/-- The bits of characters. -/
def text (l : List Nat) : Bits := l.flatMap (natBits 8)

/-- A buffer with these bits and the cursor at 0. -/
def holding (l : Bits) : Buffer := { bits := l, rc := 0, epoch := 0 }

/-- A block as ECONFIG leaves it for LZ78 with limit 3 (R201). -/
def ready78 (p : Policy) (m : Mode) (src cw out : Bits) : State :=
  { State.reset with
    mem := { src := holding src, cw := holding cw, out := holding out }
    setup := { variant := .lz78, policy := p, mode := m, userLimit := 3, unb := false, limit := 3, width := 2 }
    estate := .ready
    configured := true }

def enc (src : List Nat) : State := ready78 .mru .enc (text src) [] []
def dec (cw : Bits) : State := ready78 .mru .dec [] cw []

/-- A block as ECONFIG leaves it for LZW with limit 3 (R201). -/
def readyLzw (m : Mode) (src cw out : Bits) : State :=
  { ready78 .mru m src cw out with
    setup := { variant := .lzw, policy := .mru, mode := m, userLimit := 3, unb := false, limit := 259, width := 9 }
    size := 256
    arena := initialArena .lzw m
    pol := { q := [], parent := [], perm := List.range 257, cur := 257 }
    tab := initialTab .lzw }

/-- Codewords 1 = "a", 2 = "ab" over SRC = "abb" (spec/95 V-T1, two steps in). -/
def two : State :=
  { enc [0x61, 0x62, 0x62] with
    size := 2
    arena :=
      [(0, { Node.root with children := [(0x61, 1)] }),
        (1, { active := true, codewordNo := 1, start := 0, length := 1, parent := 0, children := [(0x62, 2)] }),
        (2, { active := true, codewordNo := 2, start := 0, length := 2, parent := 1, children := [] })]
    pol := { q := [1, 2], parent := [(2, 1)], perm := [0], cur := 1 } }

/-- Codewords 1 = "b", 2 = "ab", 3 = "abb" over SRC = "abb" (spec/95 V-T1, four steps in). -/
def three : State :=
  { enc [0x61, 0x62, 0x62] with
    size := 3
    arena :=
      [(0, { Node.root with children := [(0x61, 2), (0x62, 1)] }),
        (1, { active := true, codewordNo := 1, start := 1, length := 1, parent := 0, children := [] }),
        (2, { active := true, codewordNo := 2, start := 0, length := 2, parent := 0, children := [(0x62, 3)] }),
        (3, { active := true, codewordNo := 3, start := 0, length := 3, parent := 2, children := [] })]
    pol := { q := [1, 2, 3], parent := [(2, 1), (3, 2)], perm := [0], cur := 1 } }

/-- The inactive branching node 4 = "a" over 1 = "ab" and 2 = "ac", SRC = "abac". -/
def branch : State :=
  { enc [0x61, 0x62, 0x61, 0x63] with
    size := 3
    arena :=
      [(0, { Node.root with children := [(0x61, 4), (0x62, 3)] }),
        (1, { active := true, codewordNo := 1, start := 0, length := 2, parent := 4, children := [] }),
        (2, { active := true, codewordNo := 2, start := 2, length := 2, parent := 4, children := [] }),
        (3, { active := true, codewordNo := 3, start := 1, length := 1, parent := 0, children := [] }),
        (4, { active := false, codewordNo := 1, start := 0, length := 1, parent := 0, children := [(0x62, 1), (0x63, 2)] })]
    pol := { q := [1, 2, 3], parent := [], perm := [0], cur := 1 } }

/-- The decoder after "a" as codeword 1 (spec/95 V-E1): OUT = "a". -/
def decOne (cw : Bits) : State :=
  { ready78 .mru .dec [] cw (text [0x61]) with
    size := 1
    pol := { q := [1], parent := [], perm := [0], cur := 1 }
    tab := [(0, { start := 0, length := 0 }), (1, { start := 0, length := 1 })] }

def ops (x y z : Word) (s : State) : State := { s with a0 := x, a1 := y, a2 := z }

def tiny (s : State) (capLog : Nat) : State :=
  { s with build := { capLog := capLog, unboundedLog := 16, limitLog := 16, base := 0 } }

/-- The command answers a next state with this property. -/
def answers (i : Instr) (s : State) (p : State → Bool) : Bool :=
  match exec i s with
  | .next t => p t
  | .fault _ => false
  | .refused _ => false

def results (t : State) : List Nat := [t.r0.toNat, t.r1.toNat, t.r2.toNat, t.r3.toNat]

/-- The command ends in its fault latch with this FAULT_INFO. -/
def faultsWith (i : Instr) (s : State) (info : Word) : Bool :=
  answers i s fun t => t.fault && t.faultInfo == info && t.faultCmd == encode i

/-! ### One step of every command -/

theorem test_nop_clears : answers .nop { State.reset with r0 := 5, flags := { Flags.clear with eoi := true } } (fun t =>
    results t == [0, 0, 0, 0] && t.flags == Flags.clear) = true := by decide

/-- 10 bits of 0x161 are 01 then `a` (R101). -/
theorem test_bput_msb_first : answers (.bput .cw 10) (ops 0x161 0 0 State.reset) (fun t =>
    t.mem.cw.bits == [false, true, false, true, true, false, false, false, false, true] && t.mem.cw.epoch == 1) = true := by
  decide

/-- The 11 bits 101 01100001 of spec/95 V-B1. -/
def b1 : State :=
  { State.reset with mem := { State.reset.mem with cw := holding ([true, false, true] ++ text [0x61]) } }

theorem test_bget_zero_extends : answers (.bget .cw 4) b1 (fun t => results t == [0xA, 0, 0, 0] && t.mem.cw.rc == 4)
    = true := by decide

theorem test_bget_past_end : faultsWith (.bget .cw 12) b1 0x00000204 = true := by decide

theorem test_bputc_ignores_high_bits : answers (.bputc .src) (ops 0xFFFFFF61 0 0 State.reset) (fun t =>
    t.mem.src.bits == text [0x61]) = true := by decide

theorem test_bgetc : answers (.bgetc .cw) { b1 with mem := { b1.mem with cw := { b1.mem.cw with rc := 3 } } } (fun t =>
    results t == [0x61, 0, 0, 0] && t.mem.cw.rc == 11) = true := by decide

/-- OUT = "ab". -/
def b4 : State := { State.reset with mem := { State.reset.mem with out := holding (text [0x61, 0x62]) } }

theorem test_bslice : answers (.bslice .out) (ops 0 2 0 b4) (fun t =>
    t.sv == { buf := .out, start := 0, len := 2, epoch := 0, valid := true }) = true := by decide

theorem test_bslice_out_of_bounds : faultsWith (.bslice .out) (ops 3 0xFFFFFFFF 0 b4) 0x00030506 = true := by decide

/-- A slice of OUT copied onto OUT: "ab" becomes "abab" (spec/95 V-B4). -/
theorem test_bcopy_onto_itself :
    answers (.bcopy .out) { b4 with sv := { buf := .out, start := 0, len := 2, epoch := 0, valid := true } } (fun t =>
      t.mem.out.bits == text [0x61, 0x62, 0x61, 0x62] && results t == [2, 0, 0, 0] && t.mem.out.epoch == 1) = true := by
  decide

theorem test_bcopy_stale :
    faultsWith (.bcopy .cw) { b4 with sv := { buf := .out, start := 0, len := 2, epoch := 3, valid := true } } 0x00020607
      = true := by decide

theorem test_beq_empty : answers (.beq .src) (ops 1 0 0 State.reset) (fun t => results t == [1, 0, 0, 0] && t.flags.equal)
    = true := by decide

theorem test_beq_no_buffer_3 : faultsWith (.beq .src) (ops 3 0 0 State.reset) 0x00030702 = true := by decide

theorem test_bclr_backing_buffer : faultsWith (.bclr .src) two 0x0000080B = true := by decide

theorem test_bclr_counts : answers (.bclr .out) b4 (fun t => t.mem.out == { bits := [], rc := 0, epoch := 1 }) = true := by
  decide

theorem test_bseek_to_end : answers (.bseek .cw) (ops 11 0 0 b1) (fun t => t.mem.cw.rc == 11 && t.mem.cw.epoch == 0)
    = true := by decide

theorem test_bseek_past_end : faultsWith (.bseek .cw) (ops 12 0 0 b1) 0x000C0904 = true := by decide

theorem test_binfo : answers (.binfo .cw) { b1 with mem := { b1.mem with cw := { b1.mem.cw with rc := 4, epoch := 2 } } }
    (fun t => results t == [11, 4, 2, 1]) = true := by decide

/-- The third step of spec/95 V-T1: "abb" is new under 2 = "ab", case 1. -/
theorem test_textend_leaf : answers .textend (ops 2 0 3 { two with size := 3 }) (fun t =>
    results t == [0x62, 1, 0, 0] && t.nodeString 3 == [0x61, 0x62, 0x62] && t.child 2 0x62 == some 3) = true := by decide

/-- The fifth step of spec/95 V-T1: 3 is evicted and becomes "a", above 2 = "ab", case 2. -/
theorem test_textend_splits : answers .textend (ops 0 0 3 three) (fun t =>
    results t == [0x61, 2, 0, 0] && t.child 0 0x61 == some 3 && t.child 3 0x62 == some 2 && (t.node 2).parent == 3)
    = true := by decide

theorem test_tedge_label : answers .tedge (ops 2 0x62 0 three) (fun t => results t == [3, 2, 1, 0] && t.flags.found)
    = true := by decide

/-- Removing 2 = "ac" leaves the inactive node 4 one child, so it goes and 1 = "ab" hangs from the root (R137). -/
theorem test_tremove_splices : answers .tremove (ops 3 0 0 { branch with
      arena := (branch.arena.take 3 ++ branch.arena.drop 4).map fun e =>
        if e.1 == 2 then (3, { e.2 with codewordNo := 3 }) else if e.1 == 4 then (4, { e.2 with children := [(0x62, 1), (0x63, 3)] })
        else if e.1 == 0 then (0, { e.2 with children := [(0x61, 4)] }) else e }) (fun t =>
    t.size == 2 && t.pol.q == [1, 2] && t.child 0 0x61 == some 1 && !t.occupied 4 && !t.occupied 3
      && (t.node 1).parent == 0) = true := by decide

theorem test_tmreset : answers .tmreset (ops 3 0 0 two) (fun t =>
    t.mat == { Matcher.initial with mstart := 3 } && t.flags == Flags.clear) = true := by decide

/-- "a" leads into the edge to 2 = "ab" and no codeword yet (spec/95 V-T2). -/
theorem test_tmstep_inside_edge : answers .tmstep three (fun t =>
    results t == [0, 0, 1, 1] && t.flags == Flags.clear && t.mat.medge == some 2 && t.mat.moff == 1) = true := by decide

/-- At the end of the input after that: maximal, nothing matched, `a` extends it (spec/95 V-T2). -/
theorem test_tmstep_end_of_input :
    answers .tmstep { three with mat := { Matcher.initial with mstate := .matching, mcons := 3, medge := some 2, moff := 1 } }
      (fun t => results t == [0, 0, 0x61, 3] && t.flags == { Flags.clear with maximal := true, hasChar := true }) = true := by
  decide

theorem test_tlookup : answers .tlookup (ops 2 0 0 three) (fun t => results t == [0, 2, 0, 0] && t.flags.found) = true := by
  decide

theorem test_tnode_active_bit : answers .tnode (ops 3 0 0 three) (fun t => results t == [0x80000003, 0, 3, 2]) = true := by
  decide

theorem test_tnode_inactive : answers .tnode (ops 4 0 0 branch) (fun t => results t == [0, 0, 1, 0] && t.flags.found)
    = true := by decide

/-- MRU at the limit: the last of the queue goes, and the new one lands behind `i` (spec/95 V-P1). -/
theorem test_pmatch_mru_full : answers .pmatch (ops 1 0 0 { two with size := 3, pol := { two.pol with q := [2, 3, 1] } })
    (fun t => results t == [3, 0, 0, 0] && t.pol.q == [1, 3, 2] && t.pol.parentOf 3 == 1 && t.size == 3) = true := by decide

/-- MRA refuses when the cursor stands on `i` (R176). -/
theorem test_pmatch_mra_rejects :
    answers .pmatch (ops 1 0 0 { ready78 .mra .enc [] [] [] with size := 3 }) (fun t =>
      results t == [0, 0, 0, 0] && t.flags.reject && t.pol.cur == 1) = true := by decide

/-- SMRU makes the ancestors permanent too (spec/95 V-P3). -/
theorem test_pperm_smru_chain :
    answers .pperm (ops 2 0 0 { two with setup := { two.setup with policy := .smru } }) (fun t =>
      t.pol.isPerm 1 && t.pol.isPerm 2 && !t.pol.isPerm 3 && t.pol.q == []) = true := by decide

theorem test_pperm_keeps_one :
    faultsWith .pperm (ops 3 0 0 { three with pol := { three.pol with q := [3], perm := [0, 1, 2] } }) 0x0003210C = true := by
  decide

theorem test_pinfo_rank : answers .pinfo (ops 3 0 0 three) (fun t => results t == [2, 0, 2, 0] && t.flags.found) = true := by
  decide

theorem test_pinfo_no_rank : answers .pinfo (ops 0 0 0 three) (fun t => results t == [0, 1, 0xFFFFFFFF, 0]) = true := by
  decide

theorem test_porder : answers .porder (ops 1 0 0 three) (fun t => results t == [2, 3, 1, 0]) = true := by decide

/-- The real limit of LZW with 3 is 259, with a 9-bit field (R93). -/
theorem test_econfig_lzw : answers .econfig (ops 1 3 0 State.reset) (fun t =>
    results t == [259, 9, 256, 0] && t.pol.cur == 257 && t.child 0 0x61 == some 0x62) = true := by decide +kernel

theorem test_econfig_limit_2 : faultsWith .econfig (ops 0 2 0 State.reset) 0x0002300A = true := by decide

/-- The second record of spec/95 V-E1: (1, b), and 2 = "ab". -/
theorem test_estep_record :
    answers .estep { enc [0x61, 0x61, 0x62, 0x61] with
        epos := 1, size := 1
        arena := [(0, { Node.root with children := [(0x61, 1)] }),
          (1, { active := true, codewordNo := 1, start := 0, length := 1, parent := 0, children := [] })]
        pol := { q := [1], parent := [], perm := [0], cur := 1 } } (fun t =>
      results t == [1, 1, 0x62, 2] && t.mem.cw.bits == [false, true] ++ text [0x62] && t.epos == 3
        && t.nodeString 2 == [0x61, 0x62] && t.pol.q == [1, 2]) = true := by decide

/-- The second record of spec/95 V-E1, decoded: (1, b) gives "ab" and the entry 2 = (1, 2). -/
theorem test_dstep_record : answers .dstep (decOne ([false, true] ++ text [0x62])) (fun t =>
    results t == [1, 1, 0x62, 2] && t.mem.out.bits == text [0x61, 0x61, 0x62] && Table.get t.tab 2 == some { start := 1, length := 2 }
      && t.mem.cw.rc == 10) = true := by decide

/-- LZW "aa": the string of 257 runs into the output of its own record (spec/95 V-E8). -/
theorem test_dstep_self_reference :
    answers .dstep { readyLzw .dec [] (natBits 9 257) (text [0x61]) with
        size := 257, pol := { q := [257], parent := [(257, 98)], perm := List.range 257, cur := 257 }
        tab := (initialTab .lzw) ++ [(257, { start := 0, length := 2 })] } (fun t =>
      t.mem.out.bits == text [0x61, 0x61, 0x61] && results t == [257, 2, 0, 258]) = true := by decide +kernel

/-- spec/95 V-E7 with the input "aa": the records (0, a) and (1). -/
theorem test_erun : answers .erun (enc [0x61, 0x61]) (fun t =>
    results t == [2, 0, 0, 0] && t.mem.cw.bits == [false, false] ++ text [0x61] ++ [false, true] && t.estate == .done
      && t.mem.cw.epoch == 1) = true := by decide

theorem test_drun : answers .drun (dec ([false, false] ++ text [0x61] ++ [false, true])) (fun t =>
    results t == [2, 0, 0, 0] && t.mem.out.bits == text [0x61, 0x61] && t.estate == .done) = true := by decide

/-- spec/95 V-E11. -/
theorem test_eaddext : answers .eaddext (ops 1 0 0 (decOne [])) (fun t =>
    results t == [2, 0, 0, 0] && Table.get t.tab 2 == some { start := 0, length := 2 }) = true := by decide

/-! ### States that meet the hypotheses of the statements -/

/-- The next state of a command. -/
def after (i : Instr) (s : State) : State :=
  match exec i s with
  | .next t => t
  | .fault _ => s
  | .refused _ => s

theorem exec_after (i : Instr) (s : State) : exec i s = .next (after i s) := by
  have h : ∃ t, exec i s = .next t := by
    rw [exec_eq_runCommand]
    unfold runCommand
    split
    · exact ⟨_, rfl⟩
    · split <;> exact ⟨_, rfl⟩
  obtain ⟨t, ht⟩ := h
  simp [after, ht]

/-- `s` with this access pending. -/
def asked (x : HostAccess) (s : State) : State := { s with host := [x] }

theorem witness_DecodeOfEncode : (Instr.bput .out 32).wf = true := by decide

theorem witness_EncodeOfDecode : decode 0x02800020 = .ok (.bget .out 32) ∧ (Instr.bget .out 32).wf = true
    ∧ encode (.bget .out 32) = 0x02800020 := by decide

/-- Boundary words of the checks of R85, in order: the first and last unassigned OPC of a gap, the ends of RSV, BUF and N
where unused, BUF = 3, N = 33, and the two ends of N. -/
theorem witness_CommandWordChecksInOrder : State.reset.fault = false
    ∧ (0x0BFFFFFF : Word).toNat / 2 ^ 24 = 0x0B ∧ (0xFF000000 : Word).toNat / 2 ^ 24 = 0xFF
    ∧ (0x0A000040 : Word).toNat / 2 ^ 6 % 2 ^ 16 = 1 ∧ (0x31200000 : Word).toNat / 2 ^ 6 % 2 ^ 16 = 0x8000
    ∧ (0x31400000 : Word).toNat / 2 ^ 22 % 4 = 1 ∧ (0x31400000 : Word).toNat / 2 ^ 6 % 2 ^ 16 = 0
    ∧ (0x03000001 : Word).toNat % 2 ^ 6 = 1 ∧ (0x03C00000 : Word).toNat / 2 ^ 22 % 4 = 3
    ∧ (0x01C00021 : Word).toNat / 2 ^ 22 % 4 = 3 ∧ (0x01400021 : Word).toNat % 2 ^ 6 = 33
    ∧ (0x01400020 : Word).toNat % 2 ^ 6 = 32 ∧ (0x35000000 : Word).toNat / 2 ^ 24 = 0x35 := by decide

/-- The same words through the block: each ends in the fault of its first failing check. -/
theorem test_command_word_faults :
    ([0x0BFFFFFF, 0xFF000000, 0x0A000040, 0x31400000, 0x03000001, 0x03C00000, 0x01C00021, 0x01400021] : List Word).map (fun w =>
        match issueCommand w State.reset with
        | .next t => t.faultInfo
        | .fault _ => 0
        | .refused _ => 0)
      = [0x000B0B01, 0x00FFFF01, 0x000A0A01, 0x00313101, 0x00030301, 0x00030302, 0x00030102, 0x00210103] := by decide

theorem witness_StepRunsTheDecodedCommand : (asked (.write 0x00 4 0x01400009) State.reset).host = [.write 0x00 4 0x01400009]
    ∧ State.reset.fault = false ∧ decode 0x01400009 = .ok (.bput .cw 9) ∧ State.reset.host = [] := by decide

/-- A misaligned, a narrow and a far read, the write-only registers, and the ends of the reserved and read-only ranges. -/
theorem witness_RefusedAndReservedAccesses :
    ¬((5 : Nat) % 4 = 0) ∧ ¬((1 : Nat) = 4) ∧ ¬((0x100 : Nat) ≤ 0xFC) ∧ (0x4C : Nat) ≤ 0xFC ∧ (0xFC : Nat) % 4 = 0
      ∧ (asked (.read 0x40 4) State.reset).host = [.read 0x40 4]
      ∧ (asked (.write 0x3C 4 7) State.reset).host = [.write 0x3C 4 7] := by decide

theorem witness_HostReadsAndWritesRegisters (off : Nat) (v : Word) :
    (asked (.read off 4) State.reset).host = .read off 4 :: []
      ∧ (asked (.write off 4 v) State.reset).host = .write off 4 v :: [] := ⟨rfl, rfl⟩

theorem witness_RegisterLayouts : (enc []).setup.limit < 2 ^ 31 ∧ buildOk (enc []).build = true
    ∧ { (enc []).setup with limit := 2 ^ 31 - 1 }.limit < 2 ^ 31
    ∧ buildOk { capLog := 31, unboundedLog := 30, limitLog := 30, base := 0 } = true := by decide

theorem witness_FaultLatchRollsBack : State.reset.fault = false
    ∧ issueCommand 0x31000000 State.reset = .next (after .estep State.reset) ∧ (after .estep State.reset).fault = true
    ∧ issueCommand 0 State.reset = .next (after .nop State.reset) ∧ (after .nop State.reset).fault = false :=
  ⟨rfl, rfl, by decide, rfl, by decide⟩

/-- A block in the faulted state. -/
def faulted : State := after .estep State.reset

theorem witness_FaultedBlockIgnoresCommands : faulted.fault = true ∧ (0xFC : Nat) % 4 = 0 ∧ (0xFC : Nat) ≤ 0xFC
    ∧ (1 : Word).getLsbD 0 = true ∧ (asked (.write 0x40 4 1) faulted).fault = true
    ∧ (asked (.read 0xFC 4) faulted).host = [.read 0xFC 4] := by decide

theorem witness_OnlyResetClearsFault : (asked (.write 0x40 4 1) faulted).fault = true
    ∧ step (asked (.write 0x40 4 1) faulted) = .next { State.reset with freeCount := 1 }
    ∧ { State.reset with freeCount := 1 }.fault = false := ⟨by decide, rfl, rfl⟩

theorem witness_ResetByCtrlAndByInput : (asked .resetInput two).host = [.resetInput]
    ∧ (asked (.write 0x40 4 0) two).host = [.write 0x40 4 0] := by decide

theorem witness_OperandsKeptAndUnnamedResultsZero : two.fault = false ∧ (after (.bput .out 8) two).fault = false
    ∧ (after .tlookup (ops 2 0 0 two)).fault = false ∧ (after .pmatch two).fault = false
    ∧ (after .tremove (ops 2 0 0 two)).fault = false ∧ (after .pperm (ops 1 0 0 two)).fault = false := by decide

/-- Each per-command flag set by the command that owns it. -/
theorem witness_FlagOwners : (after .tmstep (enc [])).flags.maximal = true ∧ (after .estep (enc [0x61])).flags.hasChar = true
    ∧ (after .pmatch (ops 1 0 0 { ready78 .mra .enc [] [] [] with size := 3 })).flags.reject = true
    ∧ (after .estep (enc [])).flags.eoi = true ∧ (after .pinfo two).flags.found = true
    ∧ (after (.beq .src) State.reset).flags.equal = true ∧ (after .estep (enc [0x61])).fault = false := by decide

theorem witness_BuffersGrowAndEpochsCount : Instr.bputc .src ≠ .bclr .src
    ∧ exec (.bputc .src) State.reset = .next (after (.bputc .src) State.reset)
    ∧ (after (.bputc .src) State.reset).mem.src.bits ≠ State.reset.mem.src.bits
    ∧ exec (.bclr .src) b4 = .next (after (.bclr .src) b4) := ⟨by decide, exec_after _ _, by decide, exec_after _ _⟩

theorem witness_ConfigurationWrittenByEconfigOnly : Instr.estep ≠ .econfig ∧ (after .estep (enc [])).estate ≠ (enc []).estate
    ∧ exec .estep (enc []) = .next (after .estep (enc [])) := ⟨by decide, by decide, exec_after _ _⟩

theorem witness_DictionaryStateWriters : exec .tedge three = .next (after .tedge three)
    ∧ Instr.tedge ∉ [Instr.econfig, .pmatch, .tremove, .estep, .dstep, .erun, .drun, .eaddext] :=
  ⟨exec_after _ _, by decide⟩

theorem witness_UnconfiguredCommandsFault : State.reset.fault = false ∧ State.reset.configured = false := by decide

theorem test_invariants_hold : two.inv = true ∧ three.inv = true ∧ branch.inv = true ∧ (enc []).inv = true
    ∧ (decOne []).inv = true ∧ two.policyExact = true ∧ three.allNodesOk = true := by decide +kernel

/-- What the invariants forbid: a cursor past the end, a stored default, an active node in an inactive slot, a number twice
in the queue, a cursor outside `1..LIMIT`, READY without a configuration, a fault code of 0, an inactive node with one child. -/
theorem test_invariants_refuse :
    { b1 with mem := { b1.mem with cw := { b1.mem.cw with rc := 12 } } }.memOk = false
      ∧ { two with pol := { two.pol with parent := [(2, 0)] } }.tablesOk = false
      ∧ { branch with arena := branch.arena.map fun (e : Nat × Node) => (e.1, { e.2 with active := true }) }.layoutOk = false
      ∧ { two with pol := { two.pol with q := [1, 2, 1] } }.queueOk = false
      ∧ { two with pol := { two.pol with cur := 4 } }.cursorOk = false
      ∧ { State.reset with estate := .ready }.phaseOk = false ∧ { State.reset with fault := true }.faultOk = false
      ∧ { branch with arena := branch.arena.map fun (e : Nat × Node) => (e.1, { e.2 with children := e.2.children.take 1 }) }.linksOk
          = false := by decide

theorem witness_StepKeepsTheInvariants : ∃ t, step (asked (.write 0x00 4 0x31000000) (enc [0x61])) = .next t
    ∧ (asked (.write 0x00 4 0x31000000) (enc [0x61])).inv = true
    ∧ (enc [0x61]).size ≤ (enc [0x61]).setup.limit :=
  ⟨_, exec_after .estep { enc [0x61] with freeCount := 1 }, by decide +kernel, by decide⟩

/-- A CAP_BITS of 8 bits: 8 fit and 9 do not; a count of 33. -/
theorem witness_AppendingCommands : (33 : BitVec 6).toNat = 33 ∧ State.reset.fault = false
    ∧ (tiny State.reset 3).capBits = 8 ∧ ((tiny State.reset 3).buf .cw).len = 0 ∧ (9 : BitVec 6).toNat = 9
    ∧ (32 : BitVec 6).toNat = 32 := by decide

theorem witness_ReadingCommands : b1.fault = false ∧ (b1.buf .cw).rc + 11 = (b1.buf .cw).len := by decide

theorem witness_SliceCommand : b4.fault = false ∧ (b4.buf .out).nchars = 2 ∧ (ops 2 0 0 b4).a0.toNat + (ops 2 0 0 b4).a1.toNat = 2
    ∧ (ops 2 1 0 b4).a0.toNat + (ops 2 1 0 b4).a1.toNat = 3 := by decide

/-- A slice of all of OUT, fresh and stale, and room for exactly it or one bit less. -/
theorem witness_CopyCommand :
    let sv : Slice := { buf := .out, start := 0, len := 2, epoch := 0, valid := true }
    let s : State := { (tiny b4 5) with sv := sv }
    s.fault = false ∧ s.sv.valid = true ∧ (s.buf s.sv.buf).epoch = s.sv.epoch
      ∧ (s.buf .out).len + 8 * s.sv.len = s.capBits ∧ s.sv.start + s.sv.len = (s.buf .out).nchars
      ∧ (({ s with sv := { sv with len := 3 } }).buf .out).len + 8 * 3 > s.capBits
      ∧ ({ s with sv := { sv with epoch := 1 } }).sv.epoch ≠ (s.buf .out).epoch := by decide

theorem witness_EqualityCommand : State.reset.fault = false ∧ (ops 3 0 0 State.reset).a0.toNat = 3
    ∧ (ops 2 0 0 State.reset).a0.toNat = Buf.out.code.toNat := by decide

theorem witness_ClearCommand : two.fault = false ∧ two.configured = true ∧ two.size ≠ two.nseed ∧ two.setup.mode = .enc
    ∧ (decOne []).size ≠ (decOne []).nseed ∧ (decOne []).setup.mode = .dec ∧ (enc []).size = (enc []).nseed := by decide

theorem witness_SeekInfoAndNop : b1.fault = false ∧ (ops 11 0 0 b1).a0.toNat = (b1.buf .cw).len
    ∧ (b1.buf .cw).len < (ops 12 0 0 b1).a0.toNat := by decide

/-- A state for each guard: the other mode, DONE, past SIZE, a full unbounded dictionary, 0, past LIMIT, a partial
character, and EPOS past the end of SRC; a number without a node, a number that is not free (0, past SIZE, the parent
itself, permanent), MAXIMAL, not the highest number, past the last slot, an empty slot, a number without an entry, a
position past OUT; and steps that fault. -/
theorem witness_CommandGuardsInOrder : (enc []).fault = false ∧ (enc []).configured = true ∧ (dec []).setup.mode ≠ .enc
    ∧ { enc [] with estate := .done }.estate = .done ∧ two.size < (ops 3 0 0 two).a0.toNat
    ∧ { three with setup := { three.setup with unb := true } }.size = three.setup.limit
    ∧ three.setup.limit < (ops 4 0 0 three).a0.toNat ∧ ((ready78 .mru .enc [true] [] []).buf .src).len % 8 ≠ 0
    ∧ ((ready78 .mru .dec [] [] [true]).buf .out).len % 8 ≠ 0
    ∧ ({ enc [] with epos := 1 }.buf .src).nchars < { enc [] with epos := 1 }.epos := by decide

theorem witness_CommandGuardsInOrder_trie : { two with size := 3 }.activeAt 3 = false ∧ three.activeAt 2 = true ∧ three.activeAt 0 = true
    ∧ ¬(1 ≤ (ops 2 0 0 three).a2.toNat) ∧ ¬((ops 2 0 4 three).a2.toNat ≤ three.size) ∧ (ops 2 0 2 three).a2.toNat = 2
    ∧ { three with pol := { three.pol with perm := [0, 1] } }.pol.isPerm 1 = true
    ∧ ({ three with mem := { three.mem with src := holding [true] } }.buf .src).len % 8 ≠ 0 ∧ three.pol.isPerm 3 = false
    ∧ three.mat.mstate ≠ .maximal ∧ (ops 2 0 0 three).a0.toNat ≠ three.size
    ∧ (three.buf .src).nchars < (ops 4 0 0 three).a0.toNat ∧ 2 * three.setup.limit + 1 < (ops 8 0 0 three).a0.toNat
    ∧ three.occupied 5 = false := by decide

/-- No room for a number in CW, and one bit of a stream of two-bit numbers. -/
theorem witness_CommandGuardsInOrder_engine :
    let f := tiny (ready78 .mru .enc (text [0x61]) (List.replicate 7 true) []) 3
    let d := decOne [true]
    ReadyIn .enc f ∧ Faults .estep f 0x05 2 ∧ ReadyIn .dec d ∧ Faults .dstep d 0x11 1
      ∧ Table.get { d with size := 2 }.tab 2 = none ∧ d.size < (ops 2 0 0 d).a0.toNat
      ∧ (d.buf .out).nchars < (ops 1 2 0 d).a1.toNat
      ∧ { d with setup := { d.setup with unb := true, limit := 1 } }.size = 1 :=
  ⟨⟨rfl, rfl, rfl, rfl⟩, ⟨_, exec_after _ _, by decide, by decide⟩, ⟨rfl, rfl, rfl, rfl⟩, ⟨_, exec_after _ _, by decide, by decide⟩,
    by decide, by decide, by decide, rfl⟩

theorem ready_enc (src : List Nat) : ReadyIn .enc (enc src) := ⟨rfl, rfl, rfl, rfl⟩
theorem ready_two : ReadyIn .enc two := ⟨rfl, rfl, rfl, rfl⟩
theorem ready_three : ReadyIn .enc three := ⟨rfl, rfl, rfl, rfl⟩
theorem ready_branch : ReadyIn .enc branch := ⟨rfl, rfl, rfl, rfl⟩
theorem ready_dec (cw : Bits) : ReadyIn .dec (dec cw) := ⟨rfl, rfl, rfl, rfl⟩
theorem ready_decOne (cw : Bits) : ReadyIn .dec (decOne cw) := ⟨rfl, rfl, rfl, rfl⟩

theorem witness_MatcherReset : ReadyIn .enc two ∧ (ops 3 0 0 two).a0.toNat = (two.buf .src).nchars
    ∧ (two.buf .src).nchars < (ops 4 0 0 two).a0.toNat := ⟨ready_two, by decide, by decide⟩

/-- The matcher of `three` with this state. -/
def matching (m : MatchState) (start cons : Nat) (edge : Option Nat) (off : Nat) : State :=
  { three with
    mat := { mstate := m, mstart := start, mcons := cons, mnode := 0, medge := edge, moff := off, mlast := 0, mldepth := 0 } }

/-- Each clause: MAXIMAL; a partial character; the end of the input with nothing, something ahead and nothing ahead; no
edge; a mismatch inside an edge and at its start. -/
theorem witness_MatcherStepReportsMaximal :
    ReadyIn .enc (matching .maximal 0 0 none 0) ∧ (matching .atRoot 3 0 none 0).mat.mstart = (three.buf .src).nchars
      ∧ 0 < (matching .matching 2 1 (some 2) 1).mat.mcons - (matching .matching 2 1 (some 2) 1).mat.mldepth
      ∧ ({ matching .matching 2 1 none 0 with
            mat := { (matching .matching 2 1 none 0).mat with mlast := 1, mldepth := 1, mnode := 1 } }.mat.mcons
          - { (matching .matching 2 1 none 0).mat with mldepth := 1 }.mldepth = 0)
      ∧ { matching .matching 1 1 none 0 with mat := { (matching .matching 1 1 none 0).mat with mnode := 1 } }.child 1
          (three.charAt .src 2) = none
      ∧ two.child two.mat.mnode (two.charAt .src 0) = some 1
      ∧ (matching .matching 0 1 (some 2) 1).nodeChar 2 1 = three.charAt .src 1
      ∧ (matching .matching 1 1 (some 2) 1).nodeChar 2 0 ≠ three.charAt .src 2 :=
  ⟨⟨rfl, rfl, rfl, rfl⟩, by decide, by decide, by decide, by decide, by decide, by decide, by decide⟩

/-- Inside the edge to 2 = "ab", and at its end. -/
theorem witness_MatcherStepConsumes : ReadyIn .enc (matching .atRoot 0 0 none 0) ∧ (three.buf .src).len % 8 = 0
    ∧ (matching .atRoot 0 0 none 0).child 0 (three.charAt .src 0) = some 2
    ∧ (matching .atRoot 0 0 none 0).nodeChar 2 0 = three.charAt .src 0 ∧ 0 + 0 + 1 ≠ (three.node 2).length
    ∧ (matching .matching 0 1 (some 2) 1).nodeChar 2 1 = three.charAt .src 1 ∧ 0 + 1 + 1 = (three.node 2).length
    ∧ (three.node 2).active = true :=
  ⟨⟨rfl, rfl, rfl, rfl⟩, by decide, by decide, by decide, by decide, by decide, by decide, by decide⟩

theorem witness_MatcherFindsTheLongestCodeword : ReadyIn .enc (ops 3 0 0 three) ∧ (ops 3 0 0 three).inv = true
    ∧ (three.buf .src).len % 8 = 0 ∧ (ops 3 0 0 three).a0.toNat = (three.buf .src).nchars :=
  ⟨⟨rfl, rfl, rfl, rfl⟩, by decide +kernel, by decide, by decide⟩

/-- Each check of TEXTEND: no such codeword; `j` the parent itself; a partial character; past the end; misspelled; already
a codeword. -/
theorem witness_ExtendChecksInOrder : ReadyIn .enc three ∧ ¬(4 ≤ three.size) ∧ three.activeAt 1 = true
    ∧ 3 ≤ three.size ∧ three.pol.isPerm 3 = false ∧ (three.buf .src).len % 8 = 0
    ∧ ¬(2 + (three.node 1).length + 1 ≤ (three.buf .src).nchars) ∧ 1 + (three.node 1).length + 1 ≤ (three.buf .src).nchars
    ∧ three.charAt .src 0 ≠ three.nodeChar 1 0 ∧ three.child 2 (three.charAt .src 2) = some 3
    ∧ (three.node 3).length = (three.node 2).length + 1 ∧ (three.node 3).active = true := by
  refine ⟨ready_three, ?_⟩
  decide

/-- `two` with the number 3 assigned to the extension of 2, and no node yet. -/
def two3 : State := { two with size := 3, pol := { two.pol with q := [2, 3, 1], parent := [(2, 1), (3, 2)] } }

theorem extend_case_1 : ExtendAllowed two3 2 0 3 := by
  refine ⟨by decide, by decide, by decide, by decide, by decide, by decide, by decide, by decide, by decide, ?_⟩
  intro h hh
  have : (none : Option Nat) = some h := hh
  cases this

/-- `three` with slot 3 empty, so that 3 may go above 2 = "ab". -/
def two2 : State :=
  { three with
    arena :=
      [(0, { Node.root with children := [(0x61, 2), (0x62, 1)] }),
        (1, { active := true, codewordNo := 1, start := 1, length := 1, parent := 0, children := [] }),
        (2, { active := true, codewordNo := 2, start := 0, length := 2, parent := 0, children := [] })] }

theorem extend_case_2 : ExtendAllowed two2 0 0 3 := by
  refine ⟨by decide, by decide, by decide, by decide, by decide, by decide, by decide, by decide, by decide, ?_⟩
  intro h hh
  have : some 2 = some h := hh
  cases this
  decide

/-- `branch` with slot 3 empty, so that 3 may take the place of the inactive 4 = "a". -/
def branch3 : State :=
  { branch with
    arena := (branch.arena.filter fun e => e.1 != 3).map fun e =>
      if e.1 == 0 then (0, { e.2 with children := [(0x61, 4)] }) else e }

theorem extend_case_3 : ExtendAllowed branch3 0 0 3 := by
  refine ⟨by decide, by decide, by decide, by decide, by decide, by decide, by decide, by decide, by decide, ?_⟩
  intro h hh
  have : some 4 = some h := hh
  cases this
  decide

theorem extend_evicts : ExtendAllowed three 0 0 3 := by
  refine ⟨by decide, by decide, by decide, by decide, by decide, by decide, by decide, by decide, by decide, ?_⟩
  intro h hh
  have : some 2 = some h := hh
  cases this
  decide

theorem witness_ExtendIntoEmptySlot : two3.inv = true ∧ two3.occupied 3 = false
    ∧ two2.inv = true ∧ two2.occupied 3 = false ∧ branch3.inv = true ∧ branch3.occupied 3 = false := by decide +kernel

theorem witness_ExtendMakesTheString : three.inv = true ∧ three.occupied 3 = true ∧ ReadyIn .enc three :=
  ⟨by decide +kernel, by decide, ready_three⟩

theorem witness_RemoveHighestCodeword : ReadyIn .enc (ops 3 0 0 branch) ∧ (ops 3 0 0 branch).inv = true
    ∧ (ops 3 0 0 branch).a0.toNat = branch.size ∧ branch.pol.isPerm 3 = false ∧ (ops 2 0 0 branch).a0.toNat ≠ branch.size :=
  ⟨ready_branch, by decide +kernel, by decide, by decide, by decide⟩

/-- The last slot is 7 here; 8 is past it; slot 5 is empty; the root has no edge `c`; an edge from a seed has label length 1. -/
theorem witness_EdgeAndNodeCommands : branch.fault = false ∧ branch.configured = true ∧ branch.setup.mode = .enc
    ∧ 2 * branch.setup.limit + 1 = 7 ∧ branch.occupied 7 = false ∧ branch.child 0 0x63 = none ∧ branch.child 0 0x61 = some 4
    ∧ (Table.get branch.arena 4).isSome = true ∧ (branch.node 4).active = false
    ∧ (readyLzw .enc [] [] []).child 0 0x61 = some 98 ∧ ((readyLzw .enc [] [] []).node 98).start = Config.seed := by
  decide +kernel

theorem witness_LookupCommand : two.fault = false ∧ two.configured = true ∧ two.setup.limit < (ops 4 0 0 two).a0.toNat
    ∧ two.activeAt 2 = true ∧ two.size < 3 ∧ two.setup.mode = .enc ∧ (decOne []).setup.mode = .dec
    ∧ Table.get (decOne []).tab 1 = some { start := 0, length := 1 } ∧ { two with size := 3 }.activeAt 3 = false
    ∧ Table.get { decOne [] with size := 2 }.tab 2 = none := by decide

theorem chain_two : ChainOf two.pol 2 [2, 1] := by
  refine ⟨rfl, by decide, rfl, by decide, ?_⟩
  show two.pol.isPerm (two.pol.parentOf 1) = true
  decide

/-- Each clause: room left, full with another last number, full with nothing left to take, full with `i` itself last
(a permanent `i` in a queue that holds it). -/
theorem witness_MatchByRecency : two.queueOk = true ∧ MatchAllowed (ops 2 0 0 two) 2 ∧ two.size < two.setup.limit
    ∧ ChainOf two.pol 2 [2, 1] ∧ (∀ x ∈ [2, 1], x ∈ two.pol.q) ∧ three.size = three.setup.limit
    ∧ three.pol.q.filter (fun x => decide (x ∉ [1])) = [2] ++ [3]
    ∧ { three with pol := { q := [3], parent := [], perm := [0, 1, 2], cur := 1 } }.queueOk = true
    ∧ [3].filter (fun x => decide (x ∉ [3])) = []
    ∧ { three with pol := { q := [3], parent := [], perm := [0, 3, 1, 2], cur := 1 } }.queueOk = true :=
  ⟨by decide, ⟨by decide, by decide, by decide, by decide⟩, by decide, chain_two, by decide, by decide, by decide, by decide,
    by decide, by decide⟩

theorem witness_MatchByCursor : (ready78 .mra .enc [] [] []).queueOk = true ∧ (ready78 .mra .enc [] [] []).cursorOk = true
    ∧ MatchAllowed (ready78 .mra .enc [] [] []) 0 ∧ { ready78 .mra .enc [] [] [] with size := 3 }.queueOk = true
    ∧ { ready78 .mra .enc [] [] [] with size := 3 }.pol.cur = 1 :=
  ⟨by decide, by decide, ⟨by decide, by decide, by decide, by decide⟩, by decide, by decide⟩

theorem witness_RejectionChangesNothing :
    let s := ops 1 0 0 { ready78 .mra .enc [] [] [] with size := 3 }
    s.queueOk = true ∧ s.cursorOk = true ∧ s.fault = false ∧ exec .pmatch s = .next (after .pmatch s)
      ∧ (after .pmatch s).fault = false ∧ (after .pmatch s).flags.reject = true ∧ two.size < two.setup.limit :=
  ⟨by decide, by decide, by decide, exec_after _ _, by decide, by decide, by decide⟩

/-- Under SMRU with a chain that ends, and under MRU with the cyclic PARENT 1, 3, 2, 1 of spec/95 V-E5. -/
theorem witness_PolicyIsAFunctionOfItsState :
    let s := ops 2 0 0 { two with setup := { two.setup with policy := .smru } }
    let u := { s with mem := b4.mem, freeCount := 9 }
    let c := ops 1 0 0 { three with pol := { three.pol with parent := [(1, 3), (2, 1), (3, 2)] } }
    let d := { c with mem := b4.mem, freeCount := 9 }
    s.pol = u.pol ∧ s.size = u.size ∧ s.setup = u.setup ∧ s.a0 = u.a0 ∧ ChainOf s.pol s.a0.toNat [2, 1]
      ∧ (∀ x ∈ [2, 1], x ≤ s.setup.limit) ∧ exec .pmatch s = .next (after .pmatch s) ∧ (after .pmatch s).fault = false
      ∧ (after .pmatch u).fault = false
      ∧ c.setup.policy ≠ .smru ∧ c.pol.parentOf (c.pol.parentOf (c.pol.parentOf 1)) = 1 ∧ c.inv = true
      ∧ (after .pmatch c).fault = false ∧ (after .pmatch d).fault = false :=
  ⟨rfl, rfl, rfl, rfl, chain_two, by decide, exec_after _ _, by decide, by decide, by decide, by decide, by decide +kernel,
    by decide, by decide⟩

/-- Under SMRU the chain of 2, and under MRU 1 alone; and 3 when it is the last number that could be reclaimed. -/
theorem witness_MakePermanent : ReadyIn .enc two ∧ two.queueOk = true ∧ two.cursorOk = true ∧ ChainOf two.pol 2 [2, 1]
    ∧ (∀ x ∈ [2, 1], x ≤ two.setup.limit) ∧ two.pol.isPerm 3 = false ∧ 3 ∉ [2, 1]
    ∧ { three with pol := { q := [3], parent := [], perm := [0, 1, 2], cur := 1 } }.cursorOk = true
    ∧ (ops 1 0 0 two).a0.toNat ≤ two.size :=
  ⟨ready_two, by decide, by decide, chain_two, by decide, by decide, by decide, by decide, by decide⟩

theorem witness_PolicyReads : three.fault = false ∧ State.reset.configured = false ∧ three.setup.limit < (ops 4 0 0 three).a0.toNat
    ∧ three.configured = true ∧ (ops 3 0 0 three).a0.toNat ≤ three.setup.limit
    ∧ three.pol.q[2]? = some 3 ∧ 0 ∉ three.pol.q ∧ three.pol.q.length ≤ (ops 3 0 0 three).a0.toNat := by decide

/-- The least and greatest limits ECONFIG takes, and those next to them. -/
theorem witness_ConfigureChecks : State.reset.fault = false ∧ State.reset.maxLimit = 65536
    ∧ 3 ≤ (ops 1 3 0 State.reset).a1.toNat ∧ (ops 1 65280 0 State.reset).a1.toNat + 256 = State.reset.maxLimit
    ∧ (ops 1 65280 0 State.reset).a0.getLsbD 0 = true ∧ ¬(3 ≤ (ops 1 2 0 State.reset).a1.toNat)
    ∧ ¬((ops 16 3 0 State.reset).a0.toNat < 16) ∧ (ops 15 0 0 State.reset).a0.toNat < 16 := by decide

theorem witness_ConfigureInitialises : State.reset.fault = false ∧ (ops 15 65280 0 State.reset).a0.toNat < 16
    ∧ (ops 15 65280 0 State.reset).a1.toNat + 256 ≤ State.reset.maxLimit ∧ (ops 0 0 0 State.reset).a1.toNat = 0 := by decide

theorem witness_EndOfInputFinishes : ReadyIn .enc (enc []) ∧ ((enc []).buf .src).len % 8 = 0
    ∧ (enc []).epos = ((enc []).buf .src).nchars ∧ ReadyIn .dec (dec []) ∧ ((dec []).buf .out).len % 8 = 0
    ∧ ((dec []).buf .cw).rc = ((dec []).buf .cw).len :=
  ⟨ready_enc _, by decide, by decide, ready_dec _, by decide, by decide⟩

/-- The records (0, a) and (1) of spec/95 V-E7, the second without its character, into exactly the room asked for; and
(1, b) after "a". -/
theorem witness_EndOfInputFinishes_stream :
    let s := tiny (dec ([false, false] ++ text [0x61] ++ [false, true])) 5
    let t := decOne ([false, true] ++ text [0x62])
    ReadyIn .dec s ∧ s.inv = true ∧ TableReads s 0 ∧ StreamReads s 2 ∧ (s.buf .out).len + 8 * (2 * (0 + 2)) = s.capBits
      ∧ ReadyIn .dec t ∧ t.inv = true ∧ TableReads t 1 ∧ StreamReads t 1 ∧ (t.buf .out).len + 8 * (1 * (1 + 1)) ≤ t.capBits
      ∧ t.setup.unb = false := by
  refine ⟨⟨rfl, rfl, rfl, rfl⟩, by decide +kernel, ⟨rfl, fun k h1 h2 => ?_⟩, by unfold StreamReads; decide, by decide, ready_decOne _,
    by decide +kernel, ⟨rfl, fun k h1 h2 => ?_⟩, by unfold StreamReads; decide, by decide, rfl⟩
  · exact absurd (Nat.le_trans h1 h2) (by decide)
  · obtain rfl : k = 1 := Nat.le_antisymm h2 h1
    exact ⟨⟨0, 1⟩, rfl, by decide, by decide, by decide, by decide⟩

/-- A codeword that covers the whole rest of the input is its longest match. -/
theorem longest_of_bound {s : State} {p i L : Nat} (ha : s.activeAt i = true) (hl : (s.node i).length = L)
    (hn : p + L = (s.buf .src).nchars) (hc : ∀ k, k < L → s.charAt .src (p + k) = s.nodeChar i k) : IsLongestMatch s p i L :=
  ⟨ha, hl, Nat.le_of_eq hn, hc, fun _ _ hx _ => by omega⟩

/-- One character to encode, with CW full but for 1 bit, and with room. -/
theorem witness_EncodeStepRecord :
    let s := enc [0x61]
    let f := tiny (ready78 .mru .enc (text [0x61]) (List.replicate 7 true) []) 3
    ReadyIn .enc s ∧ s.inv = true ∧ s.policyExact = true ∧ (s.buf .src).len % 8 = 0 ∧ s.epos < (s.buf .src).nchars
      ∧ ¬(s.setup.unb = true ∧ s.size = s.setup.limit) ∧ (s.buf .cw).len + s.setup.width + 8 ≤ s.capBits
      ∧ ReadyIn .enc f ∧ f.inv = true ∧ f.policyExact = true ∧ f.capBits < (f.buf .cw).len + f.setup.width :=
  ⟨ready_enc _, by decide +kernel, by decide, by decide, by decide, by decide, by decide, ⟨rfl, rfl, rfl, rfl⟩,
    by decide +kernel, by decide, by decide⟩

/-- Room in CW for the number and not for the character after it; exactly the room of a last record; and a full unbounded
dictionary. -/
theorem witness_EncodeStepRecord_room :
    let f := tiny (ready78 .mru .enc (text [0x61]) (List.replicate 6 true) []) 3
    let g := tiny { three with epos := 2, mem := { three.mem with cw := holding (List.replicate 30 true) } } 5
    let u := { three with setup := { three.setup with unb := true } }
    ReadyIn .enc f ∧ f.inv = true ∧ IsLongestMatch f 0 0 0 ∧ 0 < (f.buf .src).nchars
      ∧ (f.buf .cw).len + f.setup.width = f.capBits ∧ answers .estep f (fun t => t.faultInfo == 0x00083105)
      ∧ ReadyIn .enc g ∧ g.inv = true ∧ g.policyExact = true ∧ IsLongestMatch g 2 1 1 ∧ g.epos + 1 = (g.buf .src).nchars
      ∧ (g.buf .cw).len + g.setup.width = g.capBits ∧ answers .estep g (fun t => t.estate == .done)
      ∧ ReadyIn .enc u ∧ u.inv = true ∧ IsLongestMatch u 0 3 3 ∧ u.size = u.setup.limit
      ∧ answers .estep u (fun t => t.faultInfo == 0x00003110) := by
  refine ⟨⟨rfl, rfl, rfl, rfl⟩, by decide +kernel, ⟨by decide, by decide, by decide, nofun, fun x hx _ _ => ?_⟩, by decide, by decide,
    by decide, ⟨rfl, rfl, rfl, rfl⟩, by decide +kernel, by decide, longest_of_bound (by decide) (by decide) (by decide) (by decide),
    by decide, by decide, by decide, ⟨rfl, rfl, rfl, rfl⟩, by decide +kernel,
    longest_of_bound (by decide) (by decide) (by decide) (by decide), by decide, by decide⟩
  cases x with
  | zero => decide
  | succ x => cases hx

/-- Two characters to encode with exactly the room asked for. -/
theorem witness_EncodeRunCompletes :
    let s := tiny (ready78 .mru .enc (text [0x61, 0x61]) (List.replicate 12 true) []) 5
    ReadyIn .enc s ∧ s.inv = true ∧ s.policyExact = true ∧ (s.buf .src).len % 8 = 0 ∧ s.epos ≤ (s.buf .src).nchars
      ∧ (s.setup.unb = true → s.size + ((s.buf .src).nchars - s.epos) ≤ s.setup.limit)
      ∧ (s.buf .cw).len + ((s.buf .src).nchars - s.epos) * (s.setup.width + 8) = s.capBits :=
  ⟨⟨rfl, rfl, rfl, rfl⟩, by decide +kernel, by decide, by decide, by decide, by decide, by decide⟩

theorem witness_RunsRepeatTheirSteps : ReadyIn .enc (enc []) ∧ (enc []).inv = true
    ∧ RunsOver encodeStep (enc []).begin [none] { (enc []).begin with estate := .done, mat := { Matcher.initial with mstate := .maximal } }
    ∧ ReadyIn .dec (dec []) ∧ (dec []).inv = true ∧ RunsOver decodeStep (dec []).begin [none] { (dec []).begin with estate := .done } :=
  ⟨ready_enc _, by decide +kernel, ⟨rfl, _, rfl, by decide, rfl⟩, ready_dec _, by decide +kernel, ⟨rfl, _, rfl, by decide, rfl⟩⟩

/-- Room in CW for the first record of "aa" and none for the second; and one record of a stream that ends inside the
next. -/
theorem witness_RunsRepeatTheirSteps_fault :
    let s := tiny (ready78 .mru .enc (text [0x61, 0x61]) (List.replicate 6 true) []) 4
    let d := dec ([false, false] ++ text [0x61] ++ [true])
    ReadyIn .enc s ∧ s.inv = true
      ∧ (∃ r u, RunsInto encodeStep s.begin [some r] u ∧ encodeStep u = .error ⟨.capacity, 2⟩)
      ∧ ReadyIn .dec d ∧ d.inv = true ∧ ∃ r u, RunsInto decodeStep d.begin [some r] u ∧ decodeStep u = .error ⟨.badStream, 1⟩ :=
  ⟨⟨rfl, rfl, rfl, rfl⟩, by decide +kernel, ⟨_, _, ⟨rfl, _, rfl, by decide, rfl⟩, by rfl⟩, ready_dec _, by decide +kernel,
    ⟨_, _, ⟨rfl, _, rfl, by decide, rfl⟩, by rfl⟩⟩

/-- (1, b) after "a": a record of 10 bits, and the final record (1) of 2. -/
theorem witness_DecodeStepRecord :
    let s := decOne ([false, true] ++ text [0x62])
    let f := decOne [false, true]
    ReadyIn .dec s ∧ s.inv = true ∧ (s.buf .out).len % 8 = 0 ∧ RecordReads s ⟨0, 1⟩ ∧ s.remaining - s.setup.width = 8
      ∧ (s.buf .out).len + 8 * (1 + 1) ≤ s.capBits ∧ ¬(s.setup.unb = true ∧ s.size = s.setup.limit)
      ∧ ReadyIn .dec f ∧ f.inv = true ∧ RecordReads f ⟨0, 1⟩ ∧ f.remaining = f.setup.width :=
  ⟨ready_decOne _, by decide +kernel, by decide, by unfold RecordReads; decide, by decide, by decide, by decide, ready_decOne _,
    by decide +kernel, by unfold RecordReads; decide, by decide⟩

/-- Room in OUT for the string and not for the character after it; and a full unbounded dictionary. -/
theorem witness_DecodeStepRecord_room :
    let s := tiny (decOne ([false, true] ++ text [0x62])) 4
    let u := { decOne ([false, true] ++ text [0x62]) with setup := { (decOne []).setup with unb := true, limit := 1 } }
    ReadyIn .dec s ∧ s.inv = true ∧ RecordReads s ⟨0, 1⟩ ∧ (s.buf .out).len + 8 * 1 = s.capBits
      ∧ answers .dstep s (fun t => t.faultInfo == 0x00083205)
      ∧ ReadyIn .dec u ∧ u.inv = true ∧ RecordReads u ⟨0, 1⟩ ∧ u.size = u.setup.limit
      ∧ answers .dstep u (fun t => t.faultInfo == 0x00003210) :=
  ⟨⟨rfl, rfl, rfl, rfl⟩, by decide +kernel, by unfold RecordReads; decide, by decide, by decide, ⟨rfl, rfl, rfl, rfl⟩,
    by decide +kernel, by unfold RecordReads; decide, by decide, by decide⟩

/-- Streams the decoder cannot parse: 1 bit; number 3; a final record 0; 7 bits of a character; an entry that starts at,
and one that runs two past, the end of OUT. -/
theorem witness_BadStreams : ReadyIn .dec (decOne [true]) ∧ (decOne [true]).remaining = 1
    ∧ ((decOne [true, true]).buf .cw).read 0 2 = 3 ∧ (decOne [true, true]).size < 3
    ∧ ((decOne [false, false]).buf .cw).read 0 2 = 0 ∧ Table.get (decOne []).tab 0 = some { start := 0, length := 0 }
    ∧ (decOne ([false, true] ++ List.replicate 7 true)).remaining - 2 = 7
    ∧ ({ decOne [] with tab := [(0, { start := 0, length := 0 }), (1, { start := 1, length := 1 })] }.buf .out).nchars ≤ 1
    ∧ ({ decOne [] with tab := [(0, { start := 0, length := 0 }), (1, { start := 0, length := 3 })] }.buf .out).nchars + 1
        < 0 + 3 := by
  refine ⟨ready_decOne _, ?_⟩
  decide

theorem witness_AddExtensionCommand :
    let s := ops 1 1 0 (decOne [])
    ReadyIn .dec s ∧ s.inv = true ∧ Table.get s.tab s.a0.toNat = some { start := 0, length := 1 } ∧ s.a0.toNat = s.size
      ∧ s.a1.toNat = (s.buf .out).nchars ∧ MatchAllowed s 1 ∧ (s.buf .out).nchars < (ops 1 2 0 s).a1.toNat
      ∧ s.size < (ops 2 0 0 s).a0.toNat ∧ { s with setup := { s.setup with unb := true }, size := 3 }.size = s.setup.limit :=
  ⟨⟨rfl, rfl, rfl, rfl⟩, by decide +kernel, by decide, by decide, by decide, ⟨by decide, by decide, by decide, by decide⟩,
    by decide, by decide, by decide⟩

/-- The input "a" and limit 3 through ECONFIG, ERUN, ECONFIG. -/
theorem witness_DecodeOfEncodeIsTheInput :
    let s := ops 0 3 0 { State.reset with mem := { State.reset.mem with src := holding (text [0x61]) } }
    let s1 := after .econfig s
    let t := after .erun s1
    let d := ops 8 3 0 { State.reset with mem := { State.reset.mem with cw := holding (t.buf .cw).bits } }
    let d1 := after .econfig d
    buildOk s.build = true ∧ s.memOk = true ∧ s.fault = false ∧ s.a0.getLsbD 3 = false ∧ exec .econfig s = .next s1
      ∧ s1.fault = false ∧ (s.buf .src).len % 8 = 0 ∧ (s.buf .cw).bits = [] ∧ exec .erun s1 = .next t ∧ t.fault = false
      ∧ d.build = s.build ∧ d.fault = false ∧ d.a0 = s.a0 ||| 8 ∧ d.a1 = s.a1 ∧ exec .econfig d = .next d1
      ∧ (d.buf .cw).bits = (t.buf .cw).bits ∧ (d.buf .cw).rc = 0 ∧ (d.buf .out).bits = [] ∧ (t.buf .cw).bits ≠ [] :=
  ⟨by decide, by decide, rfl, by decide, exec_after _ _, by decide, by decide, rfl, exec_after _ _, by decide, rfl, rfl,
    by decide, rfl, exec_after _ _, rfl, rfl, rfl, by decide⟩

end Sys2Proof.Tests
end

section
/-! PROOFS. The statements about the state: what every step keeps (10_state.md R45 to R49, R28, R29, R39, R40). -/

namespace Sys2Proof.Machine

/-! ### Invariants that every step keeps -/

theorem memOk_hostFrame {s t : State} (h : s.memOk = true) (hf : HostFrame s t) : t.memOk = true :=
  memOk_congr h (by rw [hf]) (by rw [hf])

/-- Empty buffers keep the bounds of every build (R45, R56). -/
theorem srst_memOk (s : State) : s.srst.memOk = true := by
  rw [memOk_of_buf]
  intro b
  cases b <;> exact Buffer.wf_empty _ _

/-- Settles O20: each command's work keeps the bounds, and nothing else of a step touches a buffer but a reset. -/
theorem stepKeepsBufferBounds : Obligations.StepKeepsBufferBounds := fun _ _ hs h =>
  step_keeps (P := fun s => s.memOk = true) memOk_hostFrame (fun h => memOk_congr h rfl rfl) (fun _ => srst_memOk _)
    work_memOk hs h

theorem LayoutOk.hostFrame {s t : State} (h : LayoutOk s) (hf : HostFrame s t) : LayoutOk t :=
  h.congr (by rw [hf]) (by rw [hf]) (by rw [hf]) (by rw [hf])

theorem LayoutOk.srst {s : State} (h : LayoutOk s) : LayoutOk s.srst :=
  ⟨h.build, Nat.le_refl 0, (layoutOk_all s.srst).1 (show State.reset.layoutOk = true by decide)⟩

/-- Settles O22: the layout together with SIZE ≤ LIMIT is kept by every command, host access and reset. -/
theorem stepKeepsTheArenaLayout : Obligations.StepKeepsTheArenaLayout := by
  intro s t hb hsize hl h
  have hs : LayoutOk s := ⟨hb, hsize, (layoutOk_all s).1 hl⟩
  exact (layoutOk_all t).2
    (step_keeps LayoutOk.hostFrame (fun h => h.congr rfl rfl rfl rfl) LayoutOk.srst work_layout hs h).nodes

/-- The policy's invariants in a legal build: what `work_policy` asks for and keeps. -/
structure BuiltPolicy (s : State) : Prop where
  build : buildOk s.build = true
  policy : PolicyOk s

theorem BuiltPolicy.hostFrame {s t : State} (h : BuiltPolicy s) (hf : HostFrame s t) : BuiltPolicy t :=
  ⟨by rw [hf]; exact h.build, h.policy.congr (by rw [hf]) (by rw [hf]) (by rw [hf]) (by rw [hf])⟩

theorem BuiltPolicy.work {i : Instr} {s t : State} (h : BuiltPolicy s) (hw : workOf i s = .ok t) : BuiltPolicy t :=
  ⟨by rw [(workFrame hw).untouched.build]; exact h.build, work_policy h.build h.policy hw⟩

/-- Settles O23: every command keeps the queue and the cursor, in the same build. -/
theorem stepKeepsThePolicy : Obligations.StepKeepsThePolicy := by
  intro s t hb _ hq hc h
  have hs : BuiltPolicy s := ⟨hb, (queueOk_iff s).1 hq, (cursorOk_iff s).1 hc⟩
  have ht := step_keeps BuiltPolicy.hostFrame (fun h => ⟨h.build, h.policy.congr rfl rfl rfl rfl⟩)
    (fun {u} h => ⟨h.build, srst_policy u⟩) BuiltPolicy.work hs h
  exact ⟨ht.build, (queueOk_iff t).2 ht.policy.queue, (cursorOk_iff t).2 ht.policy.cursor⟩

theorem phaseOk_hostFrame {s t : State} (h : s.phaseOk = true) (hf : HostFrame s t) : t.phaseOk = true :=
  phase_congr h (by rw [hf]) (by rw [hf])

theorem faultOk_hostFrame {s t : State} (h : s.faultOk = true) (hf : HostFrame s t) : t.faultOk = true :=
  fault_congr h (by rw [hf]) (by rw [hf]) (by rw [hf])

theorem work_faultOk {i : Instr} {s t : State} (h : s.faultOk = true) (hw : workOf i s = .ok t) : t.faultOk = true :=
  have hu := (workFrame hw).untouched
  fault_congr h hu.fault hu.faultInfo hu.faultCmd

/-- Settles O24: both are kept by every command; a latch writes a code and the OPC of the command word. -/
theorem stepKeepsPhaseAndFaultRegisters : Obligations.StepKeepsPhaseAndFaultRegisters := fun _ _ h =>
  ⟨fun hs => step_keeps (P := fun s => s.phaseOk = true) phaseOk_hostFrame (fun h => phase_congr h rfl rfl) (fun _ => rfl)
      work_phase hs h,
    fun hs => step_keeps (P := fun s => s.faultOk = true) faultOk_hostFrame (fun _ => latch_faultOk _ _ _) (fun _ => rfl)
      work_faultOk hs h⟩

theorem TablesOk.hostFrame {s t : State} (h : TablesOk s) (hf : HostFrame s t) : TablesOk t :=
  h.congr (by rw [hf]) (by rw [hf]) (by rw [hf])

theorem srst_tablesOk (s : State) : TablesOk s.srst :=
  (tablesOk_iff' s.srst).1 (show State.reset.tablesOk = true by decide)

/-- Settles O21: every table operation of a command keeps the canonical form. -/
theorem stepKeepsCanonicalTables : Obligations.StepKeepsCanonicalTables := by
  intro s t hs h
  exact (tablesOk_iff' t).2 (step_keeps TablesOk.hostFrame (fun h => h.congr rfl rfl rfl) (fun _ => srst_tablesOk _)
    work_tables ((tablesOk_iff' s).1 hs) h)

theorem Inv.hostFrame {s t : State} (h : Inv s) (hf : HostFrame s t) : Inv t :=
  h.congr (by rw [hf]) (faultOk_hostFrame h.fault hf)

/-- Settles O25: `Inv` is the invariants of Safety.lean as propositions, and each command keeps them together. -/
theorem stepKeepsTheTrie : Obligations.StepKeepsTheTrie := by
  intro s t hs h
  exact (inv_iff t).2 (step_keeps Inv.hostFrame (fun h => h.congr rfl (latch_faultOk _ _ _)) Inv.srst Inv.work
    ((inv_iff s).1 hs) h)

/-- Settles O26: the reset state is a concrete state, on which the checkable invariants compute to true. -/
theorem resetMeetsTheInvariants : Obligations.ResetMeetsTheInvariants := by
  unfold Obligations.ResetMeetsTheInvariants
  decide

end Sys2Proof.Machine
end

section
/-! PROOFS. The statements about the host window, the register layouts and reset (10_state.md R20 to R44, R56). -/

namespace Sys2Proof.Machine

/-! ### One host access -/

/-- A step performs the oldest pending access, on the state without it and one draw later (log 2, log 4). -/
theorem step_of_pending {s : State} {x : HostAccess} {rest : List HostAccess} (h : s.host = x :: rest) :
    step s = perform x { s with host := rest, freeCount := s.freeCount + 1 } := by
  unfold step takeAccess
  rw [h]

theorem step_of_idle {s : State} (h : s.host = []) : step s = .next s := by
  unfold step takeAccess
  rw [h]

theorem perform_write {off size : Nat} (v : Word) (s : State) (h : accessOk off size = true) :
    perform (.write off size v) s = writeReg off v s := if_pos h

theorem perform_write_refused {off size : Nat} (v : Word) (s : State) (h : ¬accessOk off size = true) :
    perform (.write off size v) s = .next s := if_neg h

theorem hostRead_of_ok {off size : Nat} (s : State) (h : accessOk off size = true) : s.hostRead off size = s.readReg off :=
  if_pos h

theorem hostRead_refused {off size : Nat} (s : State) (h : ¬accessOk off size = true) : s.hostRead off size = 0 :=
  if_neg h

/-- A read of a register of the window answers its value and leaves the registers alone (R67). -/
theorem step_of_read {s : State} {rest : List HostAccess} {off : Nat} (hoff : accessOk off 4 = true)
    (h : s.host = .read off 4 :: rest) :
    step s = .next { s with host := rest, freeCount := s.freeCount + 1, rdata := s.readReg off } := by
  rw [step_of_pending h, perform, hostRead_of_ok _ hoff]
  rfl

/-- A write of a register of the window is that register's write. -/
theorem step_of_write {s : State} {rest : List HostAccess} {off : Nat} {v : Word} (hoff : accessOk off 4 = true)
    (h : s.host = .write off 4 v :: rest) :
    step s = writeReg off v { s with host := rest, freeCount := s.freeCount + 1 } := by
  rw [step_of_pending h, perform_write _ _ hoff]

theorem accessOk_iff (off size : Nat) : accessOk off size = true ↔ size = 4 ∧ off % 4 = 0 ∧ off ≤ 0xFC := by
  simp [accessOk]

/-- CMD, CTRL and the offsets without a register read 0 (R32, R44). -/
theorem readReg_eq_zero {off : Nat} (s : State) (h : off = 0x00 ∨ off = 0x40 ∨ 0x4C ≤ off) : s.readReg off = 0 := by
  unfold State.readReg
  split
  on_goal -1 => rfl
  all_goals omega

/-- Only CMD, A0 to A2 and CTRL take a write (R32, R44). -/
theorem writeReg_ignored {off : Nat} (v : Word) (s : State) (h0 : off ≠ 0x00) (h1 : off < 0x08 ∨ 0x10 < off)
    (h2 : off ≠ 0x40) : writeReg off v s = .next s := by
  unfold writeReg
  split
  on_goal -1 => rfl
  all_goals omega

/-- Settles O5: fetch, decode and dispatch in one chain. -/
theorem stepRunsTheDecodedCommand : Obligations.StepRunsTheDecodedCommand := by
  refine ⟨fun s w rest i hh hf hd => ?_, fun s hh => step_of_idle hh⟩
  rw [step_of_write (by decide) hh]
  show issueCommand w _ = _
  unfold issueCommand
  rw [if_neg (by simp [hf]), hd]

/-- Settles O6: a refused access does nothing, and the offsets listed have no readable, or no writable, register. -/
theorem refusedAndReservedAccesses : Obligations.RefusedAndReservedAccesses := by
  intro s rest off size v after refused readOnly writeOnly reserved
  by_cases hok : accessOk off size = true
  · have accepted : ¬refused := not_not.2 ((accessOk_iff off size).1 hok)
    refine ⟨fun hh h => ?_, fun hh h => ?_⟩ <;> rw [step_of_pending hh]
    · rw [perform, hostRead_of_ok _ hok, readReg_eq_zero _ (by omega)]
    · rw [perform_write _ _ hok, writeReg_ignored _ _ (by omega) (by omega) (by omega)]
  · refine ⟨fun hh _ => ?_, fun hh _ => ?_⟩ <;> rw [step_of_pending hh]
    · rw [perform, hostRead_refused _ hok]
    · rw [perform_write_refused _ _ hok]

/-- Settles O7: each offset is in the window, and its register is the one the map of R32 names. -/
theorem hostReadsAndWritesRegisters : Obligations.HostReadsAndWritesRegisters := by
  intro s rest after reads
  refine ⟨step_of_read rfl, step_of_read rfl, step_of_read rfl, step_of_read rfl, step_of_read rfl, step_of_read rfl,
    step_of_read rfl, step_of_read rfl, step_of_read rfl, step_of_read rfl, step_of_read rfl, step_of_read rfl,
    step_of_read rfl, step_of_read rfl, step_of_read rfl, step_of_read rfl, step_of_read rfl, fun v => ?_⟩
  exact ⟨step_of_write rfl, step_of_write rfl, step_of_write rfl⟩

/-! ### Reset -/

/-- Settles O13: both ways to reset end in `State.srst`; a CTRL write without its bit 0 does nothing (log 14). -/
theorem resetByCtrlAndByInput : Obligations.ResetByCtrlAndByInput := by
  refine fun s rest => ⟨fun hh => step_of_pending hh, fun v hh => ?_⟩
  exact step_of_write rfl hh

/-- An access that takes a faulted state to one without a fault is a reset: while FAULT = 1 CMD is ignored (R243), and no
other write reaches FAULT. -/
theorem perform_clears_fault {x : HostAccess} {s t : State} (hs : s.fault = true) (h : perform x s = .next t)
    (ht : t.fault = false) : x = .resetInput ∨ ∃ v : Word, v.getLsbD 0 = true ∧ x = .write 0x40 4 v := by
  have stuck : ∀ {u : State}, u.fault = s.fault → Host.Outcome.next (φ := Fault) (ρ := Refusal) u = .next t → False := by
    rintro u hu ⟨⟩
    rw [hu, hs] at ht
    cases ht
  cases x with
  | resetInput => exact .inl rfl
  | read off size => exact (stuck (by rfl) h).elim
  | write off size v =>
    by_cases hok : accessOk off size = true
    · obtain ⟨rfl, -, -⟩ := (accessOk_iff off size).1 hok
      rw [perform_write v s hok] at h
      unfold writeReg at h
      split at h
      · rw [issueCommand, if_pos hs] at h
        exact (stuck rfl h).elim
      · exact (stuck (by rfl) h).elim
      · exact (stuck (by rfl) h).elim
      · exact (stuck (by rfl) h).elim
      · by_cases hv : v.getLsbD 0 = true
        · exact .inr ⟨v, hv, rfl⟩
        · rw [if_neg hv] at h
          exact (stuck rfl h).elim
      · exact (stuck rfl h).elim
    · rw [perform_write_refused v s hok] at h
      exact (stuck rfl h).elim

/-- Settles O11: the idle step changes nothing, and an access that clears FAULT is one of the two resets. -/
theorem onlyResetClearsFault : Obligations.OnlyResetClearsFault := by
  intro s t hs h ht
  cases hh : s.host with
  | nil =>
    rw [step_of_idle hh] at h
    cases h
    rw [hs] at ht
    cases ht
  | cons x rest =>
    rw [step_of_pending hh] at h
    refine ⟨rest, ?_⟩
    rcases perform_clears_fault (by exact hs) h ht with rfl | ⟨v, hv, rfl⟩
    · exact .inl rfl
    · exact .inr ⟨v, hv, rfl⟩

theorem Table.get_singleton_other {α : Type} (v : α) {k : Nat} (h : k ≠ 0) : Table.get [(0, v)] k = none := by
  simp [Table.get, h]

/-- Settles O12: each register and each piece of state, read off the reset state. -/
theorem resetState : Obligations.ResetState := by
  refine ⟨rfl, rfl, rfl, rfl, rfl, rfl, rfl, rfl, rfl, rfl, rfl, rfl, rfl, rfl, rfl, rfl, rfl, fun b => ?_, rfl, rfl, rfl,
    fun k => rfl, fun k => ?_, rfl, rfl, fun k hk => Table.get_singleton_other _ hk, rfl, rfl, rfl, rfl⟩
  · cases b <;> rfl
  · rw [isPerm_iff]
    exact List.mem_singleton

/-! ### Layouts of the registers -/

theorem bit_le_one (b : Bool) : bit b ≤ 1 := Bool.toNat_le b

theorem decide_bit (b : Bool) : decide (bit b = 1) = b := by cases b <;> rfl

theorem getLsbD_toWord (n : Nat) {k : Nat} (h : k < 32) : (toWord n).getLsbD k = decide (n / 2 ^ k % 2 = 1) := by
  rw [toWord, BitVec.getLsbD_ofNat, Nat.testBit_eq_decide_div_mod_eq]
  simp [h]

/-- A single-bit field of a register word. -/
theorem getLsbD_toWord_bit {n k : Nat} {b : Bool} (hk : k < 32) (hn : n / 2 ^ k % 2 = bit b) : (toWord n).getLsbD k = b := by
  rw [getLsbD_toWord n hk, hn, decide_bit]

theorem extract_toWord (n off : Nat) {len : Nat} (h : off + len ≤ 32) :
    ((toWord n).extractLsb' off len).toNat = n / 2 ^ off % 2 ^ len := by
  rw [toWord, BitVec.extractLsb'_toNat, BitVec.toNat_ofNat, Nat.shiftRight_eq_div_pow]
  obtain ⟨d, hd⟩ := Nat.exists_eq_add_of_le h
  rw [hd, show off + len + d = off + (len + d) by omega, Nat.pow_add, Nat.mod_mul_right_div_self, Nat.pow_add,
    Nat.mod_mul_right_mod]

theorem Variant.num_le (v : Variant) : v.num ≤ 1 := by cases v <;> decide

theorem Policy.num_le (p : Policy) : p.num ≤ 3 := by cases p <;> decide

theorem Mode.num_le (m : Mode) : m.num ≤ 1 := by cases m <;> decide

theorem EngineState.num_le (e : EngineState) : e.num ≤ 2 := by cases e <;> decide

theorem MatchState.num_le (m : MatchState) : m.num ≤ 2 := by cases m <;> decide

theorem decide_variant (v : Variant) : decide (v.num = 1) = decide (v = .lzw) := by cases v <;> rfl

theorem decide_mode (m : Mode) : decide (m.num = 1) = decide (m = .dec) := by cases m <;> rfl

/-- The fields of STATUS (R24): each is as wide as its numbers are, so none carries into the next. -/
theorem statusWord_fields (s : State) :
    let w := s.statusWord
    (w.getLsbD 0 = s.fault ∧ w.getLsbD 1 = s.configured ∧ w.getLsbD 2 = s.flags.maximal ∧ w.getLsbD 3 = s.flags.hasChar
      ∧ w.getLsbD 4 = s.flags.reject ∧ w.getLsbD 5 = s.flags.eoi ∧ w.getLsbD 6 = s.flags.found
      ∧ w.getLsbD 7 = s.flags.equal)
    ∧ (w.extractLsb' 8 2).toNat = s.estate.num ∧ (w.extractLsb' 10 2).toNat = s.mat.mstate.num
    ∧ w.getLsbD 12 = decide (s.setup.mode = .dec) ∧ (w.extractLsb' 13 19).toNat = 0 := by
  intro w
  have b0 := bit_le_one s.fault
  have b1 := bit_le_one s.configured
  have b2 := bit_le_one s.flags.maximal
  have b3 := bit_le_one s.flags.hasChar
  have b4 := bit_le_one s.flags.reject
  have b5 := bit_le_one s.flags.eoi
  have b6 := bit_le_one s.flags.found
  have b7 := bit_le_one s.flags.equal
  have b8 := s.estate.num_le
  have b10 := s.mat.mstate.num_le
  have b12 := s.setup.mode.num_le
  refine ⟨⟨?_, ?_, ?_, ?_, ?_, ?_, ?_, ?_⟩, ?_, ?_, ?_, ?_⟩
  iterate 8 exact getLsbD_toWord_bit (by omega) (by omega)
  · exact (extract_toWord _ 8 (by omega)).trans (by omega)
  · exact (extract_toWord _ 10 (by omega)).trans (by omega)
  · rw [← decide_mode]
    exact (getLsbD_toWord _ (by omega)).trans (congrArg (fun n => decide (n = 1)) (by omega))
  · exact (extract_toWord _ 13 (by omega)).trans (by omega)

/-- The fields of CFG (R34). -/
theorem cfgWord_fields (s : State) :
    s.cfgWord.getLsbD 0 = decide (s.setup.variant = .lzw) ∧ (s.cfgWord.extractLsb' 1 2).toNat = s.setup.policy.num
      ∧ s.cfgWord.getLsbD 3 = decide (s.setup.mode = .dec) ∧ (s.cfgWord.extractLsb' 4 28).toNat = 0 := by
  have hv := s.setup.variant.num_le
  have hp := s.setup.policy.num_le
  have hm := s.setup.mode.num_le
  refine ⟨?_, ?_, ?_, ?_⟩
  · rw [← decide_variant]
    exact (getLsbD_toWord _ (by omega)).trans (congrArg (fun n => decide (n = 1)) (by omega))
  · exact (extract_toWord _ 1 (by omega)).trans (by omega)
  · rw [← decide_mode]
    exact (getLsbD_toWord _ (by omega)).trans (congrArg (fun n => decide (n = 1)) (by omega))
  · exact (extract_toWord _ 4 (by omega)).trans (by omega)

/-- The fields of LIMIT (R35). -/
theorem limitWord_fields (s : State) :
    s.limitWord.getLsbD 31 = s.setup.unb ∧ (s.limitWord.extractLsb' 0 31).toNat = s.setup.limit % 2 ^ 31 := by
  have hb := bit_le_one s.setup.unb
  exact ⟨getLsbD_toWord_bit (by omega) (by omega), (extract_toWord _ 0 (by omega)).trans (by omega)⟩

/-- The fields of PARAMS (R42). -/
theorem paramsWord_fields (s : State) :
    (s.paramsWord.extractLsb' 0 8).toNat = 32 ∧ (s.paramsWord.extractLsb' 8 8).toNat = s.build.capLog % 2 ^ 8
      ∧ (s.paramsWord.extractLsb' 16 8).toNat = s.build.unboundedLog % 2 ^ 8
      ∧ (s.paramsWord.extractLsb' 24 8).toNat = s.build.limitLog % 2 ^ 8 := by
  have hw : Config.wordBits = 32 := rfl
  exact ⟨(extract_toWord _ 0 (by omega)).trans (by omega), (extract_toWord _ 8 (by omega)).trans (by omega),
    (extract_toWord _ 16 (by omega)).trans (by omega), (extract_toWord _ 24 (by omega)).trans (by omega)⟩

/-- Settles O8: the four words' fields, under the numbers R24 and R34 give the states. -/
theorem registerLayouts : Obligations.RegisterLayouts := by
  intro s w
  obtain ⟨⟨f0, f1, f2, f3, f4, f5, f6, f7⟩, f8, f10, f12, f13⟩ := statusWord_fields s
  obtain ⟨c0, c1, c3, c4⟩ := cfgWord_fields s
  obtain ⟨l31, l0⟩ := limitWord_fields s
  obtain ⟨p0, p8, p16, p24⟩ := paramsWord_fields s
  refine ⟨⟨f0, f1, f2, f3, f4, f5, f6, f7, f8, f10, f12, BitVec.eq_of_toNat_eq f13⟩,
    ⟨c0, c1, c3, BitVec.eq_of_toNat_eq c4⟩, fun hl => ⟨l31, l0.trans (Nat.mod_eq_of_lt hl)⟩, fun hb => ?_⟩
  have := of_decide_eq_true hb
  exact ⟨p0, congrArg (2 ^ ·) (p8.trans (Nat.mod_eq_of_lt (by omega))),
    congrArg (2 ^ ·) (p16.trans (Nat.mod_eq_of_lt (by omega))), congrArg (2 ^ ·) (p24.trans (Nat.mod_eq_of_lt (by omega)))⟩

end Sys2Proof.Machine
end

section
/-! PROOFS. The statements about what the commands write: result registers, flags, configuration and dictionary
(10_state.md R21 to R31, R37 to R54, 30_encoding.md R87). -/

namespace Sys2Proof.Machine

/-- A command that ends without a fault has done its work. -/
theorem work_of_completed {i : Instr} {s t : State} (hs : s.fault = false) (ht : t.fault = false)
    (h : exec i s = .next t) : workOf i s.begin = .ok t := by
  obtain ⟨-, hw⟩ | ⟨hl, -⟩ := exec_completes hs h
  · exact hw
  · rw [ht] at hl
    cases hl

/-! ### Result registers -/

/-- How many result registers the row of a command names, R0 first (R87; BEQ's R0 by R109, log 20). -/
def resultCount : Instr → Nat
  | .binfo _ | .tmstep | .tnode | .estep | .dstep => 4
  | .tedge | .pinfo | .porder | .econfig => 3
  | .textend | .tlookup => 2
  | .bget _ _ | .bgetc _ | .bcopy _ | .beq _ | .pmatch | .erun | .drun | .eaddext => 1
  | .nop | .bput _ _ | .bputc _ | .bslice _ | .bclr _ | .bseek _ | .tremove | .tmreset | .pperm => 0

/-- The result registers from `Rn` on are 0. -/
structure ZeroFrom (n : Nat) (t : State) : Prop where
  r0 : n ≤ 0 → t.r0 = 0
  r1 : n ≤ 1 → t.r1 = 0
  r2 : n ≤ 2 → t.r2 = 0
  r3 : n ≤ 3 → t.r3 = 0

theorem ZeroFrom.begin (n : Nat) (s : State) : ZeroFrom n s.begin := ⟨fun _ => rfl, fun _ => rfl, fun _ => rfl, fun _ => rfl⟩

theorem ZeroFrom.congr {n : Nat} {s t : State} (h : ZeroFrom n s) (h0 : t.r0 = s.r0) (h1 : t.r1 = s.r1) (h2 : t.r2 = s.r2)
    (h3 : t.r3 = s.r3) : ZeroFrom n t :=
  ⟨fun hn => h0.trans (h.r0 hn), fun hn => h1.trans (h.r1 hn), fun hn => h2.trans (h.r2 hn), fun hn => h3.trans (h.r3 hn)⟩

theorem ZeroFrom.all (t : State) {n : Nat} (h : 4 ≤ n) : ZeroFrom n t := by constructor <;> omega

theorem ZeroFrom.results_one (s : State) (x : Nat) : ZeroFrom 1 (s.results x 0 0 0) :=
  ⟨by omega, fun _ => rfl, fun _ => rfl, fun _ => rfl⟩

theorem ZeroFrom.results_two (s : State) (x y : Nat) : ZeroFrom 2 (s.results x y 0 0) :=
  ⟨by omega, by omega, fun _ => rfl, fun _ => rfl⟩

theorem ZeroFrom.results_three (s : State) (x y z : Nat) : ZeroFrom 3 (s.results x y z 0) :=
  ⟨by omega, by omega, by omega, fun _ => rfl⟩

/-- No command leaves anything in a result register that its row does not name. -/
theorem work_zeroFrom {i : Instr} {s t : State} (h : ZeroFrom (resultCount i) s) (hw : workOf i s = .ok t) :
    ZeroFrom (resultCount i) t := by
  have hf := workFrame hw
  cases i <;> dsimp only [workOf] at hw <;> dsimp only [WorkFrame] at hf
  case binfo | tmstep | tnode | estep | dstep => exact .all t (Nat.le_refl 4)
  case bput => rw [(bputWork_ok hw).2.2]; exact h.congr rfl rfl rfl rfl
  case bputc => rw [(bputcWork_ok hw).2]; exact h.congr rfl rfl rfl rfl
  case bclr => rw [(bclrWork_ok hw).2]; exact h.congr rfl rfl rfl rfl
  case bseek => rw [(bseekWork_ok hw).2]; exact h.congr rfl rfl rfl rfl
  case bget => rw [(getBits_ok (bgetWork_ok hw).2).2]; exact .results_one _ _
  case bgetc => rw [(getBits_ok hw).2]; exact .results_one _ _
  case bcopy => rcases (bcopyWork_ok hw).2.2 with ⟨-, rfl⟩ | ⟨-, rfl⟩ <;> exact .results_one _ _
  case beq =>
    obtain ⟨o, -, rfl⟩ := beqWork_ok hw
    exact (ZeroFrom.results_one s _).congr rfl rfl rfl rfl
  case textend =>
    obtain ⟨-, u, c, k, -, rfl⟩ := textendWork_ok hw
    exact .results_two _ _ _
  case tedge =>
    rcases (tedgeWork_ok hw).2.2.2.2 with ⟨-, rfl⟩ | ⟨d, -, rfl⟩ <;>
      exact (ZeroFrom.results_three s _ _ _).congr rfl rfl rfl rfl
  case tlookup =>
    rcases (tlookupWork_ok hw).2.2 with ⟨-, rfl⟩ | ⟨b, n, -, rfl⟩
    · exact h.congr rfl rfl rfl rfl
    · exact (ZeroFrom.results_two s b n).congr rfl rfl rfl rfl
  case pmatch =>
    obtain ⟨u, j, -, rfl⟩ := pmatchWork_ok hw
    exact (ZeroFrom.results_one u j).congr rfl rfl rfl rfl
  case pinfo =>
    rw [(pinfoWork_ok hw).2.2]
    exact (ZeroFrom.results_three s _ _ _).congr rfl rfl rfl rfl
  case porder => rw [(porderWork_ok hw).2]; exact .results_three _ _ _ _
  case econfig => rw [(econfigWork_ok hw).2.2]; exact .results_three _ _ _ _
  case erun =>
    obtain ⟨-, -, -, u, n, -, rfl⟩ := erunWork_ok hw
    refine (ZeroFrom.results_one u n).congr ?_ ?_ ?_ ?_ <;> rw [bumpEpochs_frame]
  case drun =>
    obtain ⟨-, -, -, u, n, -, rfl⟩ := drunWork_ok hw
    refine (ZeroFrom.results_one u n).congr ?_ ?_ ?_ ?_ <;> rw [bumpEpochs_frame]
  case eaddext =>
    obtain ⟨-, -, -, -, e, u, j, -, -, -, rfl⟩ := eaddextWork_ok hw
    exact (ZeroFrom.results_one u j).congr rfl rfl rfl rfl
  case nop | bslice | tremove | tmreset | pperm => exact h.congr (by rw [hf]) (by rw [hf]) (by rw [hf]) (by rw [hf])

theorem resultCount_le_three {i : Instr} (hb : ¬∃ b, i = .binfo b) (hi : i ∉ [.tmstep, .tnode, .estep, .dstep]) :
    resultCount i ≤ 3 := by
  cases i
  case binfo b => exact absurd ⟨b, rfl⟩ hb
  case tmstep | tnode | estep | dstep => exact absurd (by decide) hi
  all_goals exact Nat.le_of_ble_eq_true rfl

theorem resultCount_le_two {i : Instr} (hb : ¬∃ b, i = .binfo b)
    (hi : i ∉ [.tedge, .tmstep, .tnode, .pinfo, .porder, .econfig, .estep, .dstep]) : resultCount i ≤ 2 := by
  cases i
  case binfo b => exact absurd ⟨b, rfl⟩ hb
  case tedge | tmstep | tnode | pinfo | porder | econfig | estep | dstep => exact absurd (by decide) hi
  all_goals exact Nat.le_of_ble_eq_true rfl

theorem resultCount_le_one {i : Instr} (hb : ¬∃ b, i = .binfo b)
    (hi : i ∉ [.textend, .tedge, .tmstep, .tlookup, .tnode, .pinfo, .porder, .econfig, .estep, .dstep]) :
    resultCount i ≤ 1 := by
  cases i
  case binfo b => exact absurd ⟨b, rfl⟩ hb
  case textend | tedge | tmstep | tlookup | tnode | pinfo | porder | econfig | estep | dstep =>
    exact absurd (by decide) hi
  all_goals exact Nat.le_of_ble_eq_true rfl

theorem resultCount_le_zero {i : Instr} (hgetc : ¬∃ b, i = .bgetc b) (hget : ¬∃ b n, i = .bget b n)
    (hcopy : ¬∃ b, i = .bcopy b) (heq : ¬∃ b, i = .beq b) (hinfo : ¬∃ b, i = .binfo b)
    (hi : i ∉ [.textend, .tedge, .tmstep, .tlookup, .tnode, .pmatch, .pinfo, .porder, .econfig, .estep, .dstep, .erun,
      .drun, .eaddext]) : resultCount i ≤ 0 := by
  cases i
  case bgetc b => exact absurd ⟨b, rfl⟩ hgetc
  case bget b n => exact absurd ⟨b, n, rfl⟩ hget
  case bcopy b => exact absurd ⟨b, rfl⟩ hcopy
  case beq b => exact absurd ⟨b, rfl⟩ heq
  case binfo b => exact absurd ⟨b, rfl⟩ hinfo
  case textend | tedge | tmstep | tlookup | tnode | pmatch | pinfo | porder | econfig | estep | dstep | erun | drun
      | eaddext =>
    exact absurd (by decide) hi
  all_goals exact Nat.le_of_ble_eq_true rfl

/-- Settles O14: the four lists are the commands with more than 3, 2, 1 and 0 results. -/
theorem operandsKeptAndUnnamedResultsZero : Obligations.OperandsKeptAndUnnamedResultsZero := by
  intro i s t h
  obtain ⟨-, h0, h1, h2, -⟩ := exec_untouched h
  refine ⟨⟨h0, h1, h2⟩, fun hs ht => ?_⟩
  have hz := work_zeroFrom (ZeroFrom.begin _ s) (work_of_completed hs ht h)
  exact ⟨fun hb hi => hz.r3 (resultCount_le_three hb hi), fun hb hi => hz.r2 (resultCount_le_two hb hi),
    fun hb hi => hz.r1 (resultCount_le_one hb hi),
    fun hgetc hget hcopy heq hinfo hi => hz.r0 (resultCount_le_zero hgetc hget hcopy heq hinfo hi)⟩

/-! ### Flags -/

/-- The per-command flags a command owns (R31). -/
def ownedFlags : Instr → Flags
  | .tmstep => { Flags.clear with maximal := true, hasChar := true, eoi := true }
  | .estep | .dstep => { Flags.clear with hasChar := true, reject := true, eoi := true }
  | .pmatch | .eaddext => { Flags.clear with reject := true }
  | .tedge | .tlookup | .tnode | .pinfo => { Flags.clear with found := true }
  | .beq _ => { Flags.clear with equal := true }
  | _ => Flags.clear

/-- Every flag set in `f` is set in `g`. -/
structure Flags.Within (f g : Flags) : Prop where
  maximal : f.maximal = true → g.maximal = true
  hasChar : f.hasChar = true → g.hasChar = true
  reject : f.reject = true → g.reject = true
  eoi : f.eoi = true → g.eoi = true
  found : f.found = true → g.found = true
  equal : f.equal = true → g.equal = true

theorem Flags.within_of_clear {f : Flags} (h : f = Flags.clear) (g : Flags) : f.Within g := by
  rw [h]
  constructor <;> exact Bool.noConfusion

theorem reportMatch_flags (n : Nat) (x : State × MatchResult) :
    ∃ m c e, (reportMatch n x).flags = { x.1.flags with maximal := m, hasChar := c, eoi := e } := by
  obtain ⟨t, _ | _ | _⟩ := x <;> exact ⟨_, _, _, rfl⟩

theorem reportRecord_flags (x : State × Option Record) :
    ∃ c j e, (reportRecord x).flags = { x.1.flags with hasChar := c, reject := j, eoi := e } := by
  obtain ⟨t, _ | r⟩ := x <;> exact ⟨_, _, _, rfl⟩

section
variable {s t : State} {g : Flags} (h : s.flags = Flags.clear)
include h

theorem within_match {m c e : Bool} (ht : t.flags = { s.flags with maximal := m, hasChar := c, eoi := e })
    (hm : g.maximal = true) (hc : g.hasChar = true) (he : g.eoi = true) : t.flags.Within g := by
  rw [ht, h]
  exact ⟨fun _ => hm, fun _ => hc, Bool.noConfusion, fun _ => he, Bool.noConfusion, Bool.noConfusion⟩

theorem within_record {c j e : Bool} (ht : t.flags = { s.flags with hasChar := c, reject := j, eoi := e })
    (hc : g.hasChar = true) (hj : g.reject = true) (he : g.eoi = true) : t.flags.Within g := by
  rw [ht, h]
  exact ⟨Bool.noConfusion, fun _ => hc, fun _ => hj, fun _ => he, Bool.noConfusion, Bool.noConfusion⟩

theorem within_reject {v : Bool} (ht : t.flags = { s.flags with reject := v }) (hg : g.reject = true) : t.flags.Within g := by
  rw [ht, h]
  exact ⟨Bool.noConfusion, Bool.noConfusion, fun _ => hg, Bool.noConfusion, Bool.noConfusion, Bool.noConfusion⟩

theorem within_found {v : Bool} (ht : t.flags = { s.flags with found := v }) (hg : g.found = true) : t.flags.Within g := by
  rw [ht, h]
  exact ⟨Bool.noConfusion, Bool.noConfusion, Bool.noConfusion, Bool.noConfusion, fun _ => hg, Bool.noConfusion⟩

theorem within_equal {v : Bool} (ht : t.flags = { s.flags with equal := v }) (hg : g.equal = true) : t.flags.Within g := by
  rw [ht, h]
  exact ⟨Bool.noConfusion, Bool.noConfusion, Bool.noConfusion, Bool.noConfusion, Bool.noConfusion, fun _ => hg⟩

theorem within_unchanged (ht : t.flags = s.flags) : t.flags.Within g := by
  rw [ht, h]
  constructor <;> exact Bool.noConfusion

/-- The flags of ESTEP and DSTEP are those their report writes (R210, R220). -/
theorem within_recorded {u : State} {r : Option Record} (hu : u.flags = s.flags) (hc : g.hasChar = true)
    (hj : g.reject = true) (he : g.eoi = true) : (bumpEpochs s (reportRecord (u, r))).flags.Within g := by
  obtain ⟨c, j, e, hr⟩ := reportRecord_flags (u, r)
  refine within_record h (c := c) (j := j) (e := e) ?_ hc hj he
  rw [bumpEpochs_frame, ← hu]
  exact hr

end

/-- A command that starts from cleared flags sets none but its own. -/
theorem work_flags {i : Instr} {s t : State} (h : s.flags = Flags.clear) (hw : workOf i s = .ok t) :
    t.flags.Within (ownedFlags i) := by
  have hf := workFrame hw
  cases i <;> dsimp only [workOf] at hw <;> dsimp only [WorkFrame] at hf
  case beq b =>
    obtain ⟨o, -, rfl⟩ := beqWork_ok hw
    exact within_equal h rfl rfl
  case tedge => rcases (tedgeWork_ok hw).2.2.2.2 with ⟨-, rfl⟩ | ⟨d, -, rfl⟩ <;> exact within_found h rfl rfl
  case tlookup => rcases (tlookupWork_ok hw).2.2 with ⟨-, rfl⟩ | ⟨b, n, -, rfl⟩ <;> exact within_found h rfl rfl
  case tnode => rcases (tnodeWork_ok hw).2.2.2 with ⟨-, rfl⟩ | ⟨nd, -, rfl⟩ <;> exact within_found h rfl rfl
  case pinfo => rw [(pinfoWork_ok hw).2.2]; exact within_found h rfl rfl
  case tmstep =>
    rw [(tmstepWork_ok hw).2.2.2]
    obtain ⟨m, c, e, hr⟩ := reportMatch_flags (s.mat.mcons - s.mat.mldepth) (matchStep s)
    rw [matchStep_frame] at hr
    exact within_match h (hr.trans rfl) rfl rfl rfl
  case pmatch =>
    obtain ⟨u, j, hu, rfl⟩ := pmatchWork_ok hw
    exact within_reject (v := decide (j = 0)) h (by rw [matchPolicy_frame hu]; rfl) rfl
  case eaddext =>
    obtain ⟨-, -, -, -, e, u, j, -, -, hu, rfl⟩ := eaddextWork_ok hw
    exact within_reject (v := decide (j = 0)) h (by rw [addExtension_frame hu]; rfl) rfl
  case estep =>
    obtain ⟨⟨u, r⟩, hx, rfl⟩ := estepWork_ok hw
    exact within_recorded h (by rw [(encodeStep_frame hx).1]) rfl rfl rfl
  case dstep =>
    obtain ⟨⟨u, r⟩, hx, rfl⟩ := dstepWork_ok hw
    exact within_recorded h (by rw [(decodeStep_frame hx).1]) rfl rfl rfl
  case erun =>
    obtain ⟨-, -, -, u, n, hx, rfl⟩ := erunWork_ok hw
    refine within_unchanged h ?_
    rw [bumpEpochs_frame]
    show u.flags = s.flags
    rw [(encodeRun_frame hx).1]
  case drun =>
    obtain ⟨-, -, -, u, n, hx, rfl⟩ := drunWork_ok hw
    refine within_unchanged h ?_
    rw [bumpEpochs_frame]
    show u.flags = s.flags
    rw [(decodeRun_frame hx).1]
  case binfo => rw [binfoWork_ok hw]; exact within_unchanged h rfl
  case porder => rw [(porderWork_ok hw).2]; exact within_unchanged h rfl
  all_goals exact within_unchanged h (by rw [hf])

/-- The commands that own each flag (R31). -/
theorem ownedFlags_owners (i : Instr) :
    ((ownedFlags i).maximal = true → i = .tmstep)
      ∧ ((ownedFlags i).hasChar = true → i ∈ [.tmstep, .estep, .dstep])
      ∧ ((ownedFlags i).reject = true → i ∈ [.pmatch, .estep, .dstep, .eaddext])
      ∧ ((ownedFlags i).eoi = true → i ∈ [.tmstep, .estep, .dstep])
      ∧ ((ownedFlags i).found = true → i ∈ [.tedge, .tlookup, .tnode, .pinfo])
      ∧ ((ownedFlags i).equal = true → ∃ b, i = .beq b) := by
  cases i <;> simp [ownedFlags, Flags.clear]

/-- Settles O15: the command that sets a flag owns it. -/
theorem flagOwners : Obligations.FlagOwners := by
  intro i s t h hs ht
  have hw := work_flags (s := s.begin) rfl (work_of_completed hs ht h)
  obtain ⟨hm, hc, hr, he, hf, hq⟩ := ownedFlags_owners i
  exact ⟨hm ∘ hw.maximal, hc ∘ hw.hasChar, hr ∘ hw.reject, he ∘ hw.eoi, hf ∘ hw.found, hq ∘ hw.equal⟩

/-! ### Configuration, slice and dictionary -/

/-- ESTATE is ECONFIG's to write but for one move: an engine step, in a READY block, can leave it DONE (R29). -/
theorem work_estate {i : Instr} {s t : State} (hi : i ≠ .econfig) (hw : workOf i s = .ok t) :
    t.estate = s.estate ∨ (s.estate = .ready ∧ t.estate = .done) := by
  have hf := workFrame hw
  cases i <;> dsimp only [workOf] at hw <;> dsimp only [WorkFrame] at hf
  case econfig => exact absurd rfl hi
  case estep =>
    obtain ⟨⟨u, r⟩, hx, rfl⟩ := estepWork_ok hw
    obtain ⟨-, -, hr, -⟩ := encodeStep_ok hx
    rw [bumpEpochs_frame, reportRecord_frame]
    exact (or_iff_not_imp_left.2 (encodeStep_frame hx).2.2).imp_right fun hd => ⟨hr, hd⟩
  case dstep =>
    obtain ⟨⟨u, r⟩, hx, rfl⟩ := dstepWork_ok hw
    obtain ⟨-, -, hr, -⟩ := decodeStep_ok hx
    rw [bumpEpochs_frame, reportRecord_frame]
    exact (decodeStep_frame hx).2.2.imp_right fun hd => ⟨hr, hd⟩
  case erun =>
    obtain ⟨-, -, hr, u, n, hx, rfl⟩ := erunWork_ok hw
    rw [bumpEpochs_frame]
    exact (encodeRun_frame hx).2.2.imp_right fun hd => ⟨hr, hd⟩
  case drun =>
    obtain ⟨-, -, hr, u, n, hx, rfl⟩ := drunWork_ok hw
    rw [bumpEpochs_frame]
    exact (decodeRun_frame hx).2.2.imp_right fun hd => ⟨hr, hd⟩
  all_goals exact .inl (by rw [hf])

/-- The commands whose work can write each state: those whose frame names it. -/
theorem work_writers {i : Instr} {s t : State} (hw : workOf i s = .ok t) :
    (i ≠ .econfig → t.setup = s.setup ∧ t.configured = s.configured)
      ∧ (i ∉ [.econfig, .estep, .dstep, .erun, .drun] → t.estate = s.estate)
      ∧ ((∀ b, i ≠ .bslice b) → t.sv = s.sv)
      ∧ (i ∉ [.econfig, .pmatch, .tremove, .estep, .dstep, .erun, .drun, .eaddext] → t.size = s.size)
      ∧ (i ∉ [.econfig, .pmatch, .pperm, .tremove, .estep, .dstep, .erun, .drun, .eaddext] → t.pol = s.pol)
      ∧ (i ∉ [.econfig, .textend, .tremove, .estep, .erun] → t.arena = s.arena)
      ∧ (i ∉ [.econfig, .textend, .tremove, .tmreset, .tmstep, .estep, .erun] → t.mat = s.mat)
      ∧ (i ∉ [.econfig, .dstep, .drun, .eaddext] → t.tab = s.tab)
      ∧ (i ∉ [.econfig, .estep, .erun] → t.epos = s.epos ∧ t.nl = s.nl) := by
  have hf := workFrame hw
  cases i <;> dsimp only [WorkFrame] at hf <;> rw [hf] <;> simp

/-- Settles O17: an ignored or faulted command leaves all of it, and a completed one what its work leaves. -/
theorem configurationWrittenByEconfigOnly : Obligations.ConfigurationWrittenByEconfigOnly := by
  intro i s t h
  rcases exec_cases h with ⟨-, rfl⟩ | ⟨-, hw⟩ | ⟨-, e, -, rfl⟩
  case inr.inl =>
    obtain ⟨hsetup, hestate, hsv, -⟩ := work_writers hw
    exact ⟨hsetup, hestate, fun hi hne => (work_estate hi hw).resolve_left hne, hsv⟩
  all_goals exact ⟨fun _ => ⟨rfl, rfl⟩, fun _ => rfl, fun _ hne => absurd rfl hne, fun _ => rfl⟩

/-- Settles O18: an ignored or faulted command leaves all of it, and a completed one what its work leaves. -/
theorem dictionaryStateWriters : Obligations.DictionaryStateWriters := by
  intro i s t h
  rcases exec_cases h with ⟨-, rfl⟩ | ⟨-, hw⟩ | ⟨-, e, -, rfl⟩
  case inr.inl =>
    obtain ⟨-, -, -, hkept⟩ := work_writers hw
    exact hkept
  all_goals exact ⟨fun _ => rfl, fun _ => rfl, fun _ => rfl, fun _ => rfl, fun _ => rfl, fun _ => ⟨rfl, rfl⟩⟩

end Sys2Proof.Machine
end

section
/-! PROOFS. The longest match by commands: TMRESET, then TMSTEPs until MAXIMAL (41_trie.md R151 to R153). -/

namespace Sys2Proof.Machine

/-- Only the matcher, the flags and the results differ: all that TMRESET and TMSTEP write. -/
def MatcherFrame (s u : State) : Prop :=
  u = { s with mat := u.mat, flags := u.flags, r0 := u.r0, r1 := u.r1, r2 := u.r2, r3 := u.r3 }

theorem MatcherFrame.trans {s u v : State} (h : MatcherFrame s u) (k : MatcherFrame u v) : MatcherFrame s v := by
  unfold MatcherFrame at *
  rw [k, h]

theorem MatcherFrame.begin {s u : State} (h : MatcherFrame s u) : MatcherFrame s u.begin := h.trans rfl

theorem MatcherFrame.ready {s u : State} (h : MatcherFrame s u) (hr : TrieReady s) : TrieReady u := by rw [h]; exact hr

theorem MatcherFrame.encDict {s u : State} (h : MatcherFrame s u) (hd : EncDict s) : EncDict u :=
  hd.congr (by rw [h]) (by rw [h]) (by rw [h]) (sameSrc (by rw [h]))

/-- What the matcher has consumed is read off the arena and SRC, not off the matcher's registers. -/
theorem MatcherFrame.matching_iff {s u : State} (h : MatcherFrame s u) (p : Nat) (m : Matcher) :
    Matching u p m ↔ Matching s p m := by
  rw [h]
  exact ⟨fun k => ⟨k.start, k.bound, k.place, k.last, k.longest⟩, fun k => ⟨k.start, k.bound, k.place, k.last, k.longest⟩⟩

theorem MatcherFrame.longest {s u : State} (h : MatcherFrame s u) {p i L : Nat} (hl : Longest u p i L) : Longest s p i L := by
  rw [h] at hl
  exact ⟨hl.found, hl.bound, hl.longest⟩

/-- `t` reports the maximal match at character `p` of `s` (R152, R153). -/
structure ReportsMatch (s : State) (p : Nat) (t : State) : Prop where
  maximal : t.flags.maximal = true
  eoi : t.flags.eoi = true ↔ p = (s.buf .src).nchars
  found : t.flags.eoi = false → ∃ i L, Longest s p i L ∧ t.r0 = toWord i ∧ t.r1 = toWord L
    ∧ (t.flags.hasChar = true ↔ p + L < (s.buf .src).nchars)
    ∧ (t.flags.hasChar = true → t.r2 = toWord (s.charAt .src (p + L)).toNat)

theorem reportsMatch_endOfInput {s u : State} {p n : Nat} (hp : p = (s.buf .src).nchars) :
    ReportsMatch s p (reportMatch n (u, .endOfInput)) :=
  ⟨rfl, iff_of_true rfl hp, Bool.noConfusion⟩

theorem reportsMatch_maximal {s u : State} {p n : Nat} (hp : p < (s.buf .src).nchars)
    (hl : Longest s p u.mat.mlast u.mat.mldepth) :
    ReportsMatch s p (reportMatch n (u,
      if p + u.mat.mldepth < (s.buf .src).nchars then .maximal true (s.charAt .src (p + u.mat.mldepth))
      else .maximal false 0)) := by
  by_cases hlt : p + u.mat.mldepth < (s.buf .src).nchars
  · rw [if_pos hlt]
    exact ⟨rfl, iff_of_false Bool.noConfusion hp.ne, fun _ => ⟨_, _, hl, rfl, rfl, iff_of_true rfl hlt, fun _ => rfl⟩⟩
  · rw [if_neg hlt]
    exact ⟨rfl, iff_of_false Bool.noConfusion hp.ne, fun _ => ⟨_, _, hl, rfl, rfl, iff_of_false Bool.noConfusion hlt,
      Bool.noConfusion⟩⟩

theorem exec_tmreset {s : State} (h : ReadyIn .enc s) (hp : s.a0.toNat ≤ (s.buf .src).nchars) :
    exec .tmreset s = .next { s.begin with mat := Matcher.at s.a0.toNat } := by
  refine exec_of_work h.1 ?_
  simp only [workOf, tmresetWork]
  rw [trieGuards_of_ready (ready_of h)]
  exact if_neg (Nat.not_lt.2 hp)

/-- One TMSTEP during a match: it consumes a character, or it reports the maximal match (R152). -/
theorem tmstep_progress_or_report {s u : State} {p : Nat} (hf : s.fault = false) (hr : TrieReady s) (hd : EncDict s)
    (ha : (s.buf .src).len % 8 = 0) (hu : MatcherFrame s u) (hm : Matching s p u.mat) (hopen : u.mat.mstate ≠ .maximal) :
    ∃ v, exec .tmstep u = .next v ∧ v.fault = false ∧ MatcherFrame s v
      ∧ ((Matching s p v.mat ∧ v.mat.mcons = u.mat.mcons + 1 ∧ v.mat.mstate ≠ .maximal) ∨ ReportsMatch s p v) := by
  have hw := tmstep_work (s := u.begin) (hu.begin.ready hr) hopen (by rw [hu]; exact ha)
  have hv : MatcherFrame s _ := hu.begin.trans (workFrame hw)
  refine ⟨_, exec_of_work (by rw [hu]; exact hf) hw, (congrArg State.fault hv).trans hf, hv, ?_⟩
  have hsrc : u.begin.buf .src = s.buf .src := by rw [hu.begin]; rfl
  have hchar : ∀ k, u.begin.charAt .src k = s.charAt .src k := fun k => by rw [hu.begin]; rfl
  rcases ((hu.begin.matching_iff p u.mat).2 hm).step (hu.begin.encDict hd) with
    ⟨m, hs, hm', hc, hst⟩ | ⟨hp, m, hs, -⟩ | ⟨hp, m, -, hl, -, -, hs⟩
  · rw [show matchStep u.begin = _ from hs]
    exact .inl ⟨(hu.begin.matching_iff p m).1 hm', hc, fun h => MatchState.noConfusion (hst.symm.trans h)⟩
  · rw [show matchStep u.begin = _ from hs]
    exact .inr (reportsMatch_endOfInput (hp.trans (congrArg Buffer.nchars hsrc)))
  · rw [show matchStep u.begin = _ from hs, hsrc, hchar]
    exact .inr (reportsMatch_maximal (by rw [← hsrc]; exact hp) (hu.begin.longest hl))

/-- Each TMSTEP consumes a character or ends the match, so as many as there are characters left, and one, reach the end
(R153, R234). -/
theorem tmsteps_report {s : State} {p : Nat} (hf : s.fault = false) (hr : TrieReady s) (hd : EncDict s)
    (ha : (s.buf .src).len % 8 = 0) {fuel : Nat} {u : State} (hu : MatcherFrame s u) (hm : Matching s p u.mat)
    (hopen : u.mat.mstate ≠ .maximal) (hfuel : (s.buf .src).nchars - p - u.mat.mcons < fuel) :
    ∃ t n, 1 ≤ n ∧ n ≤ fuel ∧ Repeated .tmstep n u t ∧ ReportsMatch s p t := by
  induction fuel generalizing u with
  | zero => omega
  | succ fuel ih =>
    obtain ⟨v, hex, hvf, hv, ⟨hm', hc, hst⟩ | hrep⟩ := tmstep_progress_or_report hf hr hd ha hu hm hopen
    · have hb := hm'.bound
      obtain ⟨t, n, h1, h2, hrep, hrm⟩ := ih hv hm' hst (by omega)
      exact ⟨t, n + 1, by omega, by omega, ⟨v, hex, hvf, hrep⟩, hrm⟩
    · exact ⟨v, 1, le_rfl, by omega, ⟨v, hex, hvf, rfl⟩, hrep⟩

/-- Settles O38: TMRESET starts the matcher's invariant, and the TMSTEPs end it in the longest match. -/
theorem matcherFindsTheLongestCodeword : Obligations.MatcherFindsTheLongestCodeword := by
  intro s hr hinv ha hp p
  have hd := ready_dict ((inv_iff s).1 hinv) hr
  obtain ⟨t, n, h1, h2, hrep, hm⟩ := tmsteps_report (p := p) hr.1 hr.2 hd ha
    (u := { s.begin with mat := Matcher.at p }) rfl (Matching.init hd hp) (show MatchState.atRoot ≠ .maximal by decide)
    (Nat.lt_succ_of_le (Nat.sub_le _ _))
  refine ⟨_, t, n, exec_tmreset hr hp, h1, h2, hrep, hm.maximal, hm.eoi, fun he => ?_⟩
  obtain ⟨i, L, hl, h⟩ := hm.found he
  exact ⟨i, L, hl.isLongest, h⟩

end Sys2Proof.Machine
end

section
/-! PROOFS. What ECONFIG leaves (43_engine.md R201). -/

namespace Sys2Proof.Machine

/-- The policy after ECONFIG: `0..NSEED` are permanent, the queue is empty (R201). -/
theorem initialPolicy_isPerm (v : Variant) (k : Nat) : (initialPolicy v).isPerm k = true ↔ k ≤ v.nseed := by
  rw [isPerm_iff]
  exact List.mem_range.trans Nat.lt_succ_iff

/-- CFG reads back the low word ECONFIG was given (R34, R200). -/
theorem latchedSetup_cfgWord {s : State} {w : Word} {n u : Nat} (hs : s.setup = latchedSetup n w u) (hw : w.toNat < 16) :
    s.cfgWord = w := by
  unfold State.cfgWord
  rw [hs]
  rcases low_words hw with rfl | rfl | rfl | rfl | rfl | rfl | rfl | rfl | rfl | rfl | rfl | rfl | rfl | rfl | rfl | rfl <;>
    rfl

/-- `W` of a bounded configuration is the least width that holds LIMIT (R93, R201). -/
theorem configWidth_bounded {u limit : Nat} (hu : u ≠ 0) (hl : 1 ≤ limit) :
    limit + 1 ≤ 2 ^ configWidth u limit ∧ 2 ^ (configWidth u limit - 1) < limit + 1 := by
  unfold configWidth
  rw [if_neg hu]
  obtain ⟨h1, h2, -⟩ := ceilLog2_spec (x := limit + 1) (by omega)
  exact ⟨h1, h2⟩

/-- The root after ECONFIG (R131, R201). -/
theorem initialArena_root {s : State} {v : Variant} {m : Mode} (hs : s.arena = initialArena v m) :
    s.node 0 = { Node.root with children := if v = .lzw ∧ m = .enc then (List.range 256).map fun c => (c, c + 1) else [] } := by
  refine node_of_slot ?_
  rw [State.slot, hs, initialArena_get, if_pos rfl]

/-- The root's children after ECONFIG are the seeds of LZW encode mode (R131, R201). -/
theorem initialArena_child {s : State} {v : Variant} {m : Mode} (hs : s.arena = initialArena v m) (c : Byte) :
    s.child 0 c = if v = .lzw ∧ m = .enc then some (c.toNat + 1) else none := by
  rw [State.child, initialArena_root hs]
  dsimp only
  split
  · rw [get_range, if_pos c.isLt]
  · rfl

theorem initialArena_occupied {s : State} {v : Variant} {m : Mode} (hs : s.arena = initialArena v m) (k : Nat) :
    s.occupied k = true ↔ k = 0 ∨ (m = .enc ∧ k ≤ v.nseed) := by
  rw [State.occupied, hs, initialArena_get]
  by_cases h0 : k = 0
  · simp [h0]
  · by_cases hk : m = .enc ∧ k ≤ v.nseed <;> simp [h0, hk]

/-- Settles O52: the state is `State.configure` of the configuration latched, whose parts the lemmas above give. -/
theorem configureInitialises : Obligations.ConfigureInitialises := by
  intro s hf hw lzw nseed enc hl
  have hn : (variantField s.a0).nseed = nseed := variant_nseed s.a0
  have hv := variant_lzw s.a0
  have hm := mode_enc s.a0
  have hlimit : configLimit s.maxUnbounded (variantField s.a0).nseed s.a1.toNat
      = if s.a1.toNat = 0 then s.maxUnbounded else s.a1.toNat + nseed := by rw [hn]; rfl
  have hpos : s.a1.toNat ≠ 0 → 1 ≤ configLimit s.maxUnbounded (variantField s.a0).nseed s.a1.toNat := fun h0 => by
    rw [hlimit, if_neg h0]
    omega
  have hex := exec_of_work hf (econfig_of_good hw (by rw [hn]; exact hl))
  refine ⟨_, hex, rfl, ⟨rfl, rfl, congrArg toWord hn, rfl⟩, rfl, latchedSetup_cfgWord rfl hw, rfl, rfl, hlimit,
    fun h0 => if_pos h0, fun h0 => configWidth_bounded h0 (hpos h0), hn, rfl, rfl, rfl, rfl, rfl, congrArg (· + 1) hn,
    fun k => rfl, fun k => hn ▸ initialPolicy_isPerm _ k, congrArg Node.active (initialArena_root rfl),
    congrArg Node.length (initialArena_root rfl), fun k h1 h2 he => ?_, fun c => ?_, fun k => ?_,
    fun k => hn ▸ initialTab_get _ k, rfl⟩
  · exact (initialArena_get _ _ k).trans (by rw [if_neg (by omega), if_pos ⟨hm.1 he, hn ▸ h2⟩]; rfl)
  · exact (initialArena_child rfl c).trans (if_congr (and_congr hv.symm hm.symm) rfl rfl)
  · exact (initialArena_occupied rfl k).trans (or_congr_right (and_congr hm.symm (iff_of_eq (congrArg (k ≤ ·) hn))))

end Sys2Proof.Machine
end

section
/-! PROOFS. The statements about the command word: decoder and encoder invert each other, and the checks of R85 in order
(30_encoding.md R80 to R90). -/

namespace Sys2Proof

open Machine

/-! ### A row of the opcode map (R88) -/

/-- The command a row of the opcode map makes of the fields of a word (R88). -/
def Form.make : Form → Buf → BitVec 6 → Instr
  | .plain i, _, _ => i
  | .withBuf mk, b, _ => mk b
  | .withBufN mk, b, n => mk b n

/-- Does the row use BUF (R88)? -/
def Form.usesBuf : Form → Bool
  | .plain _ => false
  | .withBuf _ => true
  | .withBufN _ => true

/-- Does the row use N (R88)? -/
def Form.usesN : Form → Bool
  | .plain _ => false
  | .withBuf _ => false
  | .withBufN _ => true

/-- The OPC values of R88. -/
def Assigned (opc : Nat) : Prop :=
  opc ≤ 0x0A ∨ (0x10 ≤ opc ∧ opc ≤ 0x16) ∨ (0x20 ≤ opc ∧ opc ≤ 0x23) ∨ (0x30 ≤ opc ∧ opc ≤ 0x35)

/-- A row at `o`: `o` is assigned, the commands made have that OPC and 0 in the fields they do not use, and the fields used
are those of the "uses" column. -/
structure Form.RowAt (f : Form) (o : BitVec 8) : Prop where
  assigned : Assigned o.toNat
  opcode : ∀ b n, (f.make b n).opcode = o
  bufBits : ∀ b n, (f.make b n).bufBits = if f.usesBuf then b.code else 0
  nBits : ∀ b n, (f.make b n).nBits = if f.usesN then n else 0
  usesBuf_iff : f.usesBuf = true ↔ 0x01 ≤ o.toNat ∧ o.toNat ≤ 0x0A
  usesN_iff : f.usesN = true ↔ o.toNat = 0x01 ∨ o.toNat = 0x02

/-- Every row of the opcode map is as R88 lists it. -/
theorem opcodeForm_rowAt {o : BitVec 8} {f : Form} (h : opcodeForm o = some f) : f.RowAt o := by
  unfold opcodeForm at h
  split at h
  on_goal -1 => cases h
  all_goals
    rename_i ho
    cases h
    exact ⟨by rw [Assigned, ho]; decide, fun _ _ => BitVec.eq_of_toNat_eq ho.symm, fun _ _ => rfl, fun _ _ => rfl,
      by rw [ho]; decide, by rw [ho]; decide⟩

/-- The opcode map has a row for the assigned OPC values and for no others (R81, R89). -/
theorem opcodeForm_eq_none_iff (o : BitVec 8) : opcodeForm o = none ↔ ¬Assigned o.toNat := by
  constructor
  · unfold opcodeForm Assigned
    split
    on_goal -1 =>
      simp only [imp_false] at *
      omega
    all_goals exact fun h => nomatch h
  · intro ha
    by_contra h
    obtain ⟨f, hf⟩ := Option.ne_none_iff_exists'.1 h
    exact ha (opcodeForm_rowAt hf).assigned

/-! ### The fields of a word (R80) -/

theorem toNat_opcField (w : Word) : (opcField w).toNat = w.toNat / 2 ^ 24 := by
  rw [opcField, BitVec.extractLsb'_toNat, Nat.shiftRight_eq_div_pow]
  omega

theorem toNat_bufField (w : Word) : (bufField w).toNat = w.toNat / 2 ^ 22 % 4 := by
  rw [bufField, BitVec.extractLsb'_toNat, Nat.shiftRight_eq_div_pow]

theorem toNat_rsvField (w : Word) : (rsvField w).toNat = w.toNat / 2 ^ 6 % 2 ^ 16 := by
  rw [rsvField, BitVec.extractLsb'_toNat, Nat.shiftRight_eq_div_pow]

theorem toNat_nField (w : Word) : (nField w).toNat = w.toNat % 2 ^ 6 := by
  rw [nField, BitVec.extractLsb'_toNat, Nat.shiftRight_zero]

/-- Two words with the same four fields are the same word: no bit is outside them. -/
theorem word_ext {v w : Word} (hopc : opcField v = opcField w) (hbuf : bufField v = bufField w)
    (hrsv : rsvField v = rsvField w) (hn : nField v = nField w) : v = w := by
  rw [← BitVec.toNat_inj] at hopc hbuf hrsv hn ⊢
  rw [toNat_opcField, toNat_opcField] at hopc
  rw [toNat_bufField, toNat_bufField] at hbuf
  rw [toNat_rsvField, toNat_rsvField] at hrsv
  rw [toNat_nField, toNat_nField] at hn
  omega

/-- BUF names a buffer by its number (R82). -/
theorem bufOfField_eq_some_iff {c : BitVec 2} {b : Buf} : bufOfField c = some b ↔ c = b.code := by
  cases b <;> decide +revert

/-- Only BUF = 3 names no buffer (R82). -/
theorem bufOfField_eq_none_iff {c : BitVec 2} : bufOfField c = none ↔ c.toNat = 3 := by
  revert c
  decide

/-! ### The decoder, check by check (R85) -/

/-- BUF and N are 0 where the row does not use them: check (3) of R85. -/
def Form.UnusedZero (f : Form) (w : Word) : Prop :=
  (f.usesBuf = true ∨ bufField w = 0) ∧ (f.usesN = true ∨ nField w = 0)

theorem decode_of_unassigned {w : Word} (h : opcodeForm (opcField w) = none) :
    decode w = .error (.badOpcode (opcField w)) := by
  rw [decode, h]

section
variable {w : Word} {f : Form} {b : Buf} (h : opcodeForm (opcField w) = some f)
include h

theorem decode_of_reserved (hr : rsvField w ≠ 0) : decode w = .error (.badOpcode (opcField w)) := by
  rw [decode, h]
  exact if_pos hr

theorem decode_of_unused (hr : rsvField w = 0) (hu : ¬f.UnusedZero w) : decode w = .error (.badOpcode (opcField w)) := by
  cases f with
  | plain i =>
    have hz : bufField w ≠ 0 ∨ nField w ≠ 0 := by
      simpa [Form.UnusedZero, Form.usesBuf, Form.usesN, ← not_and_or] using hu
    rw [decode, h]
    exact (if_neg (not_not.2 hr)).trans (if_pos hz)
  | withBuf mk =>
    have hz : nField w ≠ 0 := by simpa [Form.UnusedZero, Form.usesBuf, Form.usesN] using hu
    rw [decode, h]
    exact (if_neg (not_not.2 hr)).trans (if_pos hz)
  | withBufN mk => exact absurd ⟨.inl rfl, .inl rfl⟩ hu

theorem decode_of_reservedBuf (hr : rsvField w = 0) (hu : f.UnusedZero w) (hb : bufOfField (bufField w) = none) :
    decode w = .error .badBuffer := by
  obtain ⟨hbuf, hn⟩ := hu
  cases f with
  | plain i =>
    rw [hbuf.resolve_left Bool.false_ne_true] at hb
    cases hb
  | withBuf mk => simp [decode, h, hr, hn.resolve_left Bool.false_ne_true, hb]
  | withBufN mk => simp [decode, h, hr, hb]

theorem decode_of_countAbove (hr : rsvField w = 0) (hu : f.UnusedZero w) (hb : bufOfField (bufField w) = some b)
    (hc : Config.wordBits < (nField w).toNat) : decode w = .error (.bitCount (nField w)) := by
  have unusedN : f.usesN = true := hu.2.resolve_right fun hn => by
    rw [hn] at hc
    exact absurd hc (by decide)
  cases f with
  | plain i => cases unusedN
  | withBuf mk => cases unusedN
  | withBufN mk => simp [decode, h, hr, hb, hc]

theorem decode_of_checks (hr : rsvField w = 0) (hu : f.UnusedZero w) (hb : bufOfField (bufField w) = some b)
    (hc : ¬Config.wordBits < (nField w).toNat) : decode w = .ok (f.make b (nField w)) := by
  obtain ⟨hbuf, hn⟩ := hu
  cases f with
  | plain i =>
    simp [decode, h, hr, hbuf.resolve_left Bool.false_ne_true, hn.resolve_left Bool.false_ne_true, Form.make]
  | withBuf mk => simp [decode, h, hr, hn.resolve_left Bool.false_ne_true, hb, Form.make]
  | withBufN mk => simp [decode, h, hr, hb, hc, Form.make]

end

/-- All that a word the decoder takes has passed, and the command it gives. -/
theorem decode_ok {w : Word} {i : Instr} (hd : decode w = .ok i) :
    ∃ f b, opcodeForm (opcField w) = some f ∧ rsvField w = 0 ∧ f.UnusedZero w ∧ bufOfField (bufField w) = some b
      ∧ (nField w).toNat ≤ Config.wordBits ∧ i = f.make b (nField w) := by
  cases h : opcodeForm (opcField w) with
  | none => simp [decode_of_unassigned h] at hd
  | some f =>
    by_cases hr : rsvField w = 0
    case neg => simp [decode_of_reserved h hr] at hd
    by_cases hu : f.UnusedZero w
    case neg => simp [decode_of_unused h hr hu] at hd
    cases hb : bufOfField (bufField w) with
    | none => simp [decode_of_reservedBuf h hr hu hb] at hd
    | some b =>
      by_cases hc : Config.wordBits < (nField w).toNat
      · simp [decode_of_countAbove h hr hu hb hc] at hd
      · rw [decode_of_checks h hr hu hb hc] at hd
        exact ⟨f, b, rfl, hr, hu, rfl, not_lt.1 hc, (Except.ok.inj hd).symm⟩

/-- The fields of a word are those of the command a row makes of it. -/
theorem make_fields {w : Word} {f : Form} {b : Buf} (h : opcodeForm (opcField w) = some f) (hu : f.UnusedZero w)
    (hb : bufOfField (bufField w) = some b) :
    (f.make b (nField w)).opcode = opcField w ∧ (f.make b (nField w)).bufBits = bufField w
      ∧ (f.make b (nField w)).nBits = nField w := by
  have row := opcodeForm_rowAt h
  obtain ⟨hbuf, hn⟩ := hu
  refine ⟨row.opcode _ _, ?_, ?_⟩
  · rw [row.bufBits]
    split
    · exact (bufOfField_eq_some_iff.1 hb).symm
    · exact (hbuf.resolve_left ‹_›).symm
  · rw [row.nBits]
    split
    · rfl
    · exact (hn.resolve_left ‹_›).symm

/-- The one check of well-formedness is on the word's N field, whatever the command (R83). -/
theorem wf_iff_nBits (i : Instr) : i.wf = true ↔ i.nBits.toNat ≤ Config.wordBits := by
  cases i
  case bput b n => exact decide_eq_true_iff
  case bget b n => exact decide_eq_true_iff
  all_goals exact iff_of_true rfl (Nat.zero_le _)

/-! ### Decoder and encoder -/

open Laws.EncodeFields in
/-- The word of every command holds its fields, which lead back to it. -/
theorem encodeFields : (i : Instr) → Statement i
  | .nop => nop
  | .bput b n => bput b n
  | .bget b n => bget b n
  | .bputc b => bputc b
  | .bgetc b => bgetc b
  | .bslice b => bslice b
  | .bcopy b => bcopy b
  | .beq b => beq b
  | .bclr b => bclr b
  | .bseek b => bseek b
  | .binfo b => binfo b
  | .textend => textend
  | .tedge => tedge
  | .tremove => tremove
  | .tmreset => tmreset
  | .tmstep => tmstep
  | .tlookup => tlookup
  | .tnode => tnode
  | .pmatch => pmatch
  | .pperm => pperm
  | .pinfo => pinfo
  | .porder => porder
  | .econfig => econfig
  | .estep => estep
  | .dstep => dstep
  | .erun => erun
  | .drun => drun
  | .eaddext => eaddext

/-- The row of a command's OPC makes the command of its own BUF and N, and these are 0 where the row does not use them. -/
theorem opcodeForm_opcode (i : Instr) :
    ∃ f b, opcodeForm i.opcode = some f ∧ f.make b i.nBits = i ∧ bufOfField i.bufBits = some b
      ∧ (f.usesBuf = true ∨ i.bufBits = 0) ∧ (f.usesN = true ∨ i.nBits = 0) := by
  obtain ⟨-, -, -, -, h | ⟨mk, b, h, hi, hb⟩ | ⟨mk, b, h, hi, hb⟩⟩ := encodeFields i
  · have hbuf : i.bufBits = 0 := (opcodeForm_rowAt h).bufBits .src 0
    exact ⟨_, .src, h, rfl, by rw [hbuf]; rfl, .inr hbuf, .inr ((opcodeForm_rowAt h).nBits .src 0)⟩
  · exact ⟨_, b, h, hi.symm, hb, .inl rfl, .inr (hi ▸ (opcodeForm_rowAt h).nBits b 0)⟩
  · exact ⟨_, b, h, hi.symm, hb, .inl rfl, .inl rfl⟩

/-- Settles O1: the word of a command holds its fields and passes every check of R85, and its row makes the command. -/
theorem decodeOfEncode : Obligations.DecodeOfEncode := by
  intro i hwf
  obtain ⟨hopc, hbuf, hrsv, hn, -⟩ := encodeFields i
  obtain ⟨f, b, h, hmake, hb, hunused⟩ := opcodeForm_opcode i
  rw [← hopc] at h
  rw [← hbuf, ← hn] at hunused
  rw [← hbuf] at hb
  have hc : ¬Config.wordBits < (nField (encode i)).toNat := by
    rw [hn]
    exact not_lt.2 ((wf_iff_nBits i).1 hwf)
  rw [decode_of_checks h hrsv hunused hb hc, hn, hmake]

/-- Settles O2: a word the decoder takes has the fields of its command and RSV = 0; uniqueness is O1. -/
theorem encodeOfDecode : Obligations.EncodeOfDecode := by
  intro w i hd
  obtain ⟨f, b, h, hrsv, hu, hb, hc, rfl⟩ := decode_ok hd
  obtain ⟨hopc, hbuf, hn⟩ := make_fields h hu hb
  obtain ⟨eopc, ebuf, ersv, en, -⟩ := encodeFields (f.make b (nField w))
  refine ⟨word_ext (eopc.trans hopc) (ebuf.trans hbuf) (ersv.trans hrsv.symm) (en.trans hn), ?_, fun k hk he => ?_⟩
  · exact (wf_iff_nBits _).2 (by rwa [hn])
  · exact Except.ok.inj ((decodeOfEncode k hk).symm.trans (he ▸ hd))

/-! ### A word written to CMD -/

/-- A word that is no command latches its fault (R241). -/
theorem issueCommand_error {w : Word} {s : State} {e : DecodeError} (hf : s.fault = false) (hd : decode w = .error e) :
    ∃ t, issueCommand w s = .next t ∧ Latched s t (decodeFault e).code.num (decodeFault e).info w := by
  refine ⟨_, ?_, latched s (decodeFault e) w⟩
  rw [issueCommand, if_neg (by simp [hf]), hd]

theorem issueCommand_ok {w : Word} {s : State} {i : Instr} (hf : s.fault = false) (hd : decode w = .ok i) :
    issueCommand w s = exec i s := by
  rw [issueCommand, if_neg (by simp [hf]), hd]

/-- Check (3) of R85 in numbers. -/
theorem Form.unusedZero_iff {w : Word} {f : Form} (h : opcodeForm (opcField w) = some f) :
    f.UnusedZero w ↔ ((0x01 ≤ w.toNat / 2 ^ 24 ∧ w.toNat / 2 ^ 24 ≤ 0x0A) ∨ w.toNat / 2 ^ 22 % 4 = 0)
      ∧ ((w.toNat / 2 ^ 24 = 0x01 ∨ w.toNat / 2 ^ 24 = 0x02) ∨ w.toNat % 2 ^ 6 = 0) := by
  have row := opcodeForm_rowAt h
  rw [UnusedZero, row.usesBuf_iff, row.usesN_iff, toNat_opcField, ← BitVec.toNat_inj, ← BitVec.toNat_inj, toNat_bufField,
    toNat_nField]
  rfl

/-- Settles O3: the checks of the decoder are those of R85, read in numbers. -/
theorem commandWordChecksInOrder : Obligations.CommandWordChecksInOrder := by
  intro w s hf opc buf rsv n assigned usesBuf usesN unusedFieldsZero faults
  have hopc : (opcField w).toNat = opc := toNat_opcField w
  have hn : (nField w).toNat = n := toNat_nField w
  have badOpcode (hd : decode w = .error (.badOpcode (opcField w))) : faults 0x01 opc := hopc ▸ issueCommand_error hf hd
  have hassigned : opcodeForm (opcField w) = none ↔ ¬assigned := by
    rw [opcodeForm_eq_none_iff, hopc]
    rfl
  by_cases ha : assigned
  case neg =>
    exact ⟨fun _ => badOpcode (decode_of_unassigned (hassigned.2 ha)), fun h => absurd h ha, fun h => absurd h ha,
      fun h => absurd h ha, fun h => absurd h ha, fun h => absurd h ha⟩
  obtain ⟨f, h⟩ := Option.ne_none_iff_exists'.1 fun h => hassigned.1 h ha
  have hrsv : rsvField w = 0 ↔ rsv = 0 := by rw [← BitVec.toNat_inj, toNat_rsvField]; rfl
  have hunused : f.UnusedZero w ↔ unusedFieldsZero := Form.unusedZero_iff h
  have hbuf : bufOfField (bufField w) = none ↔ buf = 3 := by rw [bufOfField_eq_none_iff, toNat_bufField]
  refine ⟨fun hna => absurd ha hna, fun _ hr => badOpcode (decode_of_reserved h (mt hrsv.1 hr)),
    fun _ hr hu => badOpcode (decode_of_unused h (hrsv.2 hr) (mt hunused.1 hu)),
    fun _ hr hu hb => issueCommand_error hf (decode_of_reservedBuf h (hrsv.2 hr) (hunused.2 hu) (hbuf.2 hb)),
    fun _ hr hu hb hc => ?_, fun _ hr hu hb hc => ?_⟩
  all_goals
    obtain ⟨b, hb⟩ := Option.ne_none_iff_exists'.1 (mt hbuf.1 hb)
    rw [← hn] at hc
  · exact hn ▸ issueCommand_error hf (decode_of_countAbove h (hrsv.2 hr) (hunused.2 hu) hb hc)
  · obtain ⟨eopc, ebuf, en⟩ := make_fields h (hunused.2 hu) hb
    exact ⟨_, issueCommand_ok hf (decode_of_checks h (hrsv.2 hr) (hunused.2 hu) hb (not_lt.2 hc)),
      (congrArg _ eopc).trans hopc, (congrArg _ ebuf).trans (toNat_bufField w), (congrArg _ en).trans hn⟩

/-- Settles O4: each word is `encode` of a well-formed command, so O1 reads it back. -/
theorem wordsOfTheSpecDecode : Obligations.WordsOfTheSpecDecode :=
  ⟨decodeOfEncode .nop rfl, decodeOfEncode (.bput .cw 9) rfl, decodeOfEncode (.bgetc .out) rfl,
    decodeOfEncode .textend rfl, decodeOfEncode .pmatch rfl, decodeOfEncode .estep rfl⟩

end Sys2Proof
end

section
/-! PROOFS. The statements about the BitBuffer commands, and what any command does to a buffer (40_bitbuffer.md R100 to R113,
43_engine.md R230). -/

namespace Sys2Proof.Machine

/-! ### Every command -/

/-- Settles O16: an ignored or faulted command leaves the buffers, and `work_buffers` says what a completed one does. -/
theorem buffersGrowAndEpochsCount : Obligations.BuffersGrowAndEpochsCount := by
  intro i s t b h
  rcases exec_cases h with ⟨-, rfl⟩ | ⟨-, hw⟩ | ⟨-, e, -, rfl⟩
  case inr.inl =>
    rcases work_buffers hw b with ⟨rfl, hb⟩ | ⟨hi, l, hl, he⟩
    · exact ⟨fun hne => absurd rfl hne, fun hne => absurd rfl hne, fun _ => .inr hb⟩
    · have hsame : l = [] ↔ (t.buf b).bits = (s.buf b).bits := by rw [hl]; exact List.append_right_eq_self.symm
      exact ⟨fun _ => ⟨l, hl⟩, fun _ => he.trans (if_congr hsame rfl rfl), fun hc => absurd hc hi⟩
  all_goals exact ⟨fun _ => ⟨[], (List.append_nil _).symm⟩, fun _ => (if_pos rfl).symm, fun _ => .inl rfl⟩

/-! ### Frames -/

theorem onlyBuffer_setBuf (b : Buf) (s : State) (x : Buffer) : OnlyBuffer b s (s.begin.setBuf b x) :=
  ⟨rfl, fun _ hd => State.buf_setBuf_other s.begin x hd⟩

theorem OnlyBuffer.results {b : Buf} {s t : State} (h : OnlyBuffer b s t) (x0 x1 x2 x3 : Nat) :
    OnlyBuffer b s (t.results x0 x1 x2 x3) := h

/-- The results and flags every command starts from are those of one that writes none (R16, R22, R25). -/
theorem results_begin (s : State) : Results s.begin 0 0 0 0 := ⟨rfl, rfl, rfl, rfl⟩

/-! ### BPUT and BPUTC -/

/-- BPUTC is BPUT of 8 (R103): it appends the low 8 bits of A0 either way. -/
theorem bputcWork_eq (b : Buf) : bputcWork b = bputWork b 8 := by
  funext s
  have hbits : natBits 8 (charOperand s.a0).toNat = natBits 8 s.opA0 := by
    rw [charOperand, BitVec.extractLsb'_toNat, Nat.shiftRight_zero, natBits_mod]
    rfl
  unfold bputcWork bputWork putBits Buffer.append
  rw [hbits]
  rfl

theorem workOf_append {i : Instr} {b : Buf} {n : Nat}
    (h : (∃ m : BitVec 6, i = .bput b m ∧ m.toNat = n) ∨ (i = .bputc b ∧ n = 8)) :
    ∃ m : BitVec 6, workOf i = bputWork b m ∧ m.toNat = n := by
  rcases h with ⟨m, rfl, hm⟩ | ⟨rfl, rfl⟩
  · exact ⟨m, rfl, hm⟩
  · exact ⟨8, bputcWork_eq b, rfl⟩

section
variable {b : Buf} {m : BitVec 6} {s : State}

theorem bputWork_of_count (h : Config.wordBits < m.toNat) : bputWork b m s = .error ⟨.bitCount, m.toNat⟩ := if_pos h

theorem bputWork_of_full (h : m.toNat ≤ Config.wordBits) (hc : s.capBits < (s.buf b).len + m.toNat) :
    bputWork b m s = .error ⟨.capacity, m.toNat⟩ := by
  unfold bputWork putBits
  rw [if_neg (Nat.not_lt.2 h), if_pos hc]
  rfl

/-- BPUT appends the bits and counts one mutation unless there are none (R100, R101). -/
theorem bputWork_of_room (h : m.toNat ≤ Config.wordBits) (hc : (s.buf b).len + m.toNat ≤ s.capBits) :
    bputWork b m s = .ok (s.setBuf b { (s.buf b).append m.toNat s.opA0 with
      epoch := if m.toNat = 0 then (s.buf b).epoch else (s.buf b).epoch + 1 }) := by
  unfold bputWork
  rw [if_neg (Nat.not_lt.2 h), putBits_of_room hc]
  dsimp only
  by_cases h0 : m.toNat = 0
  · rw [if_pos h0, if_pos h0]
    rfl
  · rw [if_neg h0, if_neg h0, State.buf_setBuf_same, State.setBuf_setBuf]
    rfl

end

/-- The bits of an append, after the old ones, most significant first (R60). -/
theorem getElem?_append_natBits (x : Buffer) (n v : Nat) {k : Nat} (hk : k < n) :
    (x.append n v).bits[x.len + k]? = some (v.testBit (n - 1 - k)) := by
  have hk : k < (natBits n v).length := (length_natBits n v).symm ▸ hk
  rw [Buffer.append_bits, Buffer.len, List.getElem?_append_right (Nat.le_add_right _ _), Nat.add_sub_cancel_left,
    List.getElem?_eq_getElem hk, getElem_natBits]

/-- Settles O27: both commands are one BPUT, which faults or appends. -/
theorem appendingCommands : Obligations.AppendingCommands := by
  intro i b n s hi hf
  obtain ⟨m, hw, rfl⟩ := workOf_append hi
  have hwork := congrFun hw s.begin
  refine ⟨fun hn => fault_of .bitCount _ hf (hwork.trans (bputWork_of_count hn)),
    fun hn hc => fault_of .capacity _ hf (hwork.trans (bputWork_of_full hn hc)),
    fun hn hc => ⟨_, exec_of_work hf (hwork.trans (bputWork_of_room hn hc)), onlyBuffer_setBuf b s _, results_begin s, rfl,
      ?_⟩⟩
  rw [State.buf_setBuf_same]
  exact ⟨Buffer.append_len _ _ _, List.take_left, fun k hk => getElem?_append_natBits _ _ _ hk, rfl, rfl⟩

/-! ### BGET and BGETC -/

theorem workOf_read {i : Instr} {b : Buf} {n : Nat}
    (h : (∃ m : BitVec 6, i = .bget b m ∧ m.toNat = n) ∨ (i = .bgetc b ∧ n = 8)) :
    ∃ m : BitVec 6, workOf i = bgetWork b m ∧ m.toNat = n := by
  rcases h with ⟨m, rfl, hm⟩ | ⟨rfl, rfl⟩
  · exact ⟨m, rfl, hm⟩
  · exact ⟨8, rfl, rfl⟩

section
variable {b : Buf} {m : BitVec 6} {s : State}

theorem bgetWork_of_count (h : Config.wordBits < m.toNat) : bgetWork b m s = .error ⟨.bitCount, m.toNat⟩ := if_pos h

theorem bgetWork_of_end (h : m.toNat ≤ Config.wordBits) (hl : (s.buf b).len < (s.buf b).rc + m.toNat) :
    bgetWork b m s = .error ⟨.readPastEnd, (s.buf b).rc⟩ :=
  (if_neg (Nat.not_lt.2 h)).trans (if_pos hl)

theorem bgetWork_of_bits (h : m.toNat ≤ Config.wordBits) (hl : (s.buf b).rc + m.toNat ≤ (s.buf b).len) :
    bgetWork b m s = .ok ((s.setBuf b ((s.buf b).setRc ((s.buf b).rc + m.toNat))).results
      ((s.buf b).read (s.buf b).rc m.toNat) 0 0 0) :=
  (if_neg (Nat.not_lt.2 h)).trans (if_neg (Nat.not_lt.2 hl))

end

theorem Buffer.read_lt (x : Buffer) (off n : Nat) : x.read off n < 2 ^ n :=
  (bitsNat_lt _).trans_le (Nat.pow_le_pow_right (by decide) (List.length_take_le _ _))

/-- A read holds the bits at its offset, the first the most significant (R60). -/
theorem Buffer.getElem?_eq_testBit_read {x : Buffer} {off n k : Nat} (h : off + n ≤ x.len) (hk : k < n) :
    x.bits[off + k]? = some ((x.read off n).testBit (n - 1 - k)) := by
  have hlen : ((x.bits.drop off).take n).length = n := by
    rw [List.length_take, List.length_drop]
    exact Nat.min_eq_left (Nat.le_sub_of_add_le' h)
  have hback : natBits n (x.read off n) = (x.bits.drop off).take n := by
    have := natBits_bitsNat ((x.bits.drop off).take n)
    rwa [hlen] at this
  calc x.bits[off + k]? = ((x.bits.drop off).take n)[k]? := by rw [List.getElem?_take_of_lt hk, List.getElem?_drop]
    _ = (natBits n (x.read off n))[k]? := by rw [hback]
    _ = some ((x.read off n).testBit (n - 1 - k)) := by
      rw [List.getElem?_eq_getElem (by rwa [length_natBits]), getElem_natBits]

/-- A result register holds a read of up to 32 bits whole, zero-extended (R102). -/
theorem getLsbD_toWord_read (x : Buffer) (off : Nat) {n : Nat} (hn : n ≤ 32) (k : Nat) :
    (toWord (x.read off n)).getLsbD k = (x.read off n).testBit k := by
  have hlt : x.read off n < 2 ^ 32 := (x.read_lt off n).trans_le (Nat.pow_le_pow_right (by decide) hn)
  rw [BitVec.getLsbD, toWord, BitVec.toNat_ofNat, Nat.mod_eq_of_lt hlt]

/-- Settles O28: both commands are one BGET, which faults or reads. -/
theorem readingCommands : Obligations.ReadingCommands := by
  intro i b n s hi hf
  obtain ⟨m, hw, rfl⟩ := workOf_read hi
  have hwork := congrFun hw s.begin
  refine ⟨fun hn => fault_of .bitCount _ hf (hwork.trans (bgetWork_of_count hn)),
    fun hn hl => fault_of .readPastEnd _ hf (hwork.trans (bgetWork_of_end hn hl)),
    fun hn hl => ⟨_, exec_of_work hf (hwork.trans (bgetWork_of_bits hn hl)), (onlyBuffer_setBuf b s _).results _ _ _ _,
      State.buf_setBuf_same s.begin b _, fun k hk => ?_, fun k hk => ?_, rfl, rfl, rfl, rfl⟩⟩
  · exact (Buffer.getElem?_eq_testBit_read hl hk).trans (congrArg some (getLsbD_toWord_read _ _ hn _).symm)
  · refine (getLsbD_toWord_read _ _ hn _).trans (Nat.testBit_lt_two_pow ?_)
    exact (Buffer.read_lt _ _ _).trans_le (Nat.pow_le_pow_right (by decide) hk)

/-! ### BSLICE and BCOPY -/

/-- Settles O29: the two branches of BSLICE's one check. -/
theorem sliceCommand : Obligations.SliceCommand := by
  intro b s hf
  refine ⟨fun h => fault_of .sliceRange _ hf (if_pos h), fun h => ⟨_, exec_of_work hf (if_neg (Nat.not_lt.2 h)), rfl,
    results_begin s, rfl, rfl⟩⟩

theorem setBuf_buf (s : State) (b : Buf) : s.setBuf b (s.buf b) = s :=
  congrArg (fun m => { s with mem := m }) (Memory.set_get s.mem b)

theorem sliceFresh_iff (s : State) : s.sliceFresh = true ↔ s.sv.valid = true ∧ (s.buf s.sv.buf).epoch = s.sv.epoch := by
  rw [State.sliceFresh, Bool.and_eq_true, beq_iff_eq]

section
variable {d : Buf} {s : State}

theorem bcopyWork_of_stale (h : ¬s.sliceFresh = true) : bcopyWork d s = .error ⟨.sliceStale, bufNum s.sv.buf⟩ :=
  if_pos (eq_false_of_ne_true h)

theorem bcopyWork_of_full (h : s.sliceFresh = true) (hc : s.capBits < (s.buf d).len + 8 * s.sv.len) :
    bcopyWork d s = .error ⟨.capacity, s.sv.len⟩ :=
  (if_neg (ne_false_of_eq_true h)).trans (if_pos hc)

/-- BCOPY appends the slice's bits and counts one mutation unless there are none (R100, R107). -/
theorem bcopyWork_of_room (h : s.sliceFresh = true) (hc : (s.buf d).len + 8 * s.sv.len ≤ s.capBits) :
    bcopyWork d s = .ok ((s.setBuf d { s.buf d with
      bits := (s.buf d).bits ++ bitsOf (s.charsAt s.sv.buf s.sv.start s.sv.len)
      epoch := if s.sv.len = 0 then (s.buf d).epoch else (s.buf d).epoch + 1 }).results s.sv.len 0 0 0) := by
  unfold bcopyWork
  rw [if_neg (ne_false_of_eq_true h), if_neg (Nat.not_lt.2 hc)]
  by_cases h0 : s.sv.len = 0
  · have hnone : (s.buf d).bits ++ bitsOf (s.charsAt s.sv.buf s.sv.start 0) = (s.buf d).bits := List.append_nil _
    rw [if_pos h0, if_pos h0, h0, hnone]
    exact congrArg (fun u : State => Except.ok (u.results 0 0 0 0)) (setBuf_buf s d).symm
  · rw [if_neg h0, if_neg h0, Buffer.appendChars_eq]
    rfl

end

/-- Settles O30: `charsAt_bits` gives the appended bits where the slice is written. -/
theorem copyCommand : Obligations.CopyCommand := by
  intro d s hf src fresh
  have hfresh : s.begin.sliceFresh = true ↔ fresh := sliceFresh_iff s.begin
  refine ⟨fun h => fault_of .sliceStale _ hf (bcopyWork_of_stale (mt hfresh.1 h)),
    fun h hc => fault_of .capacity _ hf (bcopyWork_of_full (hfresh.2 h) hc),
    fun h hc => ⟨_, bitsOf (s.charsAt s.sv.buf s.sv.start s.sv.len), exec_of_work hf (bcopyWork_of_room (hfresh.2 h) hc),
      (onlyBuffer_setBuf d s _).results _ _ _ _, ⟨rfl, rfl, rfl, rfl⟩, rfl, ?_, State.buf_setBuf_same s.begin d _,
      charsAt_bits s _ _ _⟩⟩
  rw [bitsOf_length, length_charsAt]

/-! ### BEQ, BCLR, BSEEK, BINFO and NOP -/

theorem bufOperand_of_code {w : Word} {o : Buf} (h : w.toNat = o.code.toNat) : bufOperand w = some o := by
  unfold bufOperand
  rw [h]
  cases o <;> rfl

theorem bufOperand_of_above {w : Word} (h : 2 < w.toNat) : bufOperand w = none := by
  obtain ⟨k, hk⟩ := Nat.exists_eq_add_of_le' h
  unfold bufOperand
  rw [hk]
  rfl

section
variable {b : Buf} {s : State}

theorem beqWork_of_none (h : bufOperand s.a0 = none) : beqWork b s = .error ⟨.badBuffer, s.opA0⟩ := by
  unfold beqWork
  rw [h]
  rfl

theorem beqWork_of_some {o : Buf} (h : bufOperand s.a0 = some o) :
    beqWork b s = .ok ((s.results (bit (decide ((s.buf b).bits = (s.buf o).bits))) 0 0 0).equalFlag
      (decide ((s.buf b).bits = (s.buf o).bits))) := by
  unfold beqWork
  rw [h]

end

/-- Settles O31: A0 names no buffer, or BEQ compares with the one it names. -/
theorem equalityCommand : Obligations.EqualityCommand := by
  intro b s hf
  refine ⟨fun h => fault_of .badBuffer _ hf (beqWork_of_none (bufOperand_of_above h)),
    fun o ho => ⟨_, exec_of_work hf (beqWork_of_some (bufOperand_of_code ho)), rfl,
      ⟨congrArg toWord (Bool.cond_decide _ _ _), rfl, rfl, rfl⟩, rfl⟩⟩

/-- The buffer that live entries refer to, by mode (R74, R108). -/
theorem eq_backing_iff (b : Buf) (m : Mode) : b = m.backing ↔ (m = .enc ∧ b = .src) ∨ (m = .dec ∧ b = .out) := by
  cases m <;> simp [Mode.backing]

/-- Settles O32: the two branches of BCLR's one check. -/
theorem clearCommand : Obligations.ClearCommand := by
  intro b s hf backs
  have hbacks : s.configured = true ∧ s.size ≠ s.nseed ∧ b = s.setup.mode.backing ↔ backs :=
    and_congr_right fun _ => and_congr_right fun _ => eq_backing_iff b _
  refine ⟨fun h => fault_of .order _ hf (if_pos (hbacks.2 h)),
    fun h => ⟨_, exec_of_work hf (if_neg (mt hbacks.1 h)), onlyBuffer_setBuf b s _, results_begin s, rfl,
      State.buf_setBuf_same s.begin b _⟩⟩

/-- Settles O33: BSEEK's one check, and two commands that always complete. -/
theorem seekInfoAndNop : Obligations.SeekInfoAndNop := by
  intro b s hf
  refine ⟨fun h => fault_of .readPastEnd _ hf (if_pos h),
    fun h => ⟨_, exec_of_work hf (if_neg (Nat.not_lt.2 h)), onlyBuffer_setBuf b s _, results_begin s, rfl,
      State.buf_setBuf_same s.begin b _⟩,
    ⟨_, exec_of_work hf rfl, rfl, rfl, rfl, rfl, rfl, rfl⟩, ⟨_, exec_of_work hf rfl, rfl, rfl, results_begin s⟩⟩

end Sys2Proof.Machine
end

section
/-! PROOFS. The checks a configured command makes before its own work, in order (41_trie.md R135 to R152, 42_policy.md
R172, R180, R181, 43_engine.md R210, R220, R226 to R228). -/

namespace Sys2Proof.Machine

/-! ### Trie commands -/

/-- Configured, but not READY to encode (R141). -/
theorem trieGuards_of_unready {α : Type} {s : State} (hc : s.configured = true)
    (h : s.setup.mode ≠ .enc ∨ s.estate ≠ .ready) (k : Work α) : trieGuards s k = .error ⟨.order, 0⟩ := by
  unfold trieGuards
  rw [if_neg (ne_false_of_eq_true hc)]
  by_cases hm : s.setup.mode = .enc
  · rw [if_neg (not_not.2 hm), if_pos (h.resolve_left (not_not.2 hm))]
    rfl
  · rw [if_pos hm]
    rfl

theorem trie_of_unready {i : Instr} {s : State} (hi : i ∈ [.textend, .tremove, .tmreset, .tmstep])
    (hc : s.configured = true) (h : s.setup.mode ≠ .enc ∨ s.estate ≠ .ready) : workOf i s = .error ⟨.order, 0⟩ := by
  simp only [List.mem_cons, List.not_mem_nil, or_false] at hi
  rcases hi with rfl | rfl | rfl | rfl <;> exact trieGuards_of_unready hc h _

theorem spelledAt_eq_true_iff {s : State} {i start : Nat} : s.spelledAt i start = true
    ↔ ∀ k, k < (s.node i).length → s.charAt .src (start + k) = s.nodeChar i k := by
  simp [State.spelledAt]

section
variable {s : State} {i start j : Nat}

theorem extendTrie_of_dead (h : ¬(i ≤ s.size ∧ s.activeAt i = true)) : extendTrie i start j s = .error ⟨.notActive, i⟩ :=
  if_pos ((not_and_or.1 h).imp Nat.lt_of_not_le eq_false_of_ne_true)

/-- TEXTEND may write an assigned number other than `i` that is not permanent (R135). -/
theorem extend_number_iff : ¬(j = 0 ∨ s.size < j ∨ j = i ∨ s.pol.perm.contains j = true)
    ↔ 1 ≤ j ∧ j ≤ s.size ∧ j ≠ i ∧ s.pol.isPerm j = false := by
  rw [contains_iff, not_or, not_or, not_or, Bool.not_eq_true, Nat.not_lt, Nat.one_le_iff_ne_zero]

variable (live : i ≤ s.size ∧ s.activeAt i = true)
include live

theorem extendTrie_of_taken (h : ¬(1 ≤ j ∧ j ≤ s.size ∧ j ≠ i ∧ s.pol.isPerm j = false)) :
    extendTrie i start j s = .error ⟨.indexRange, j⟩ := by
  unfold extendTrie
  rw [if_neg (by simpa using live), if_pos (not_not.1 (mt extend_number_iff.1 h))]
  rfl

variable (free : 1 ≤ j ∧ j ≤ s.size ∧ j ≠ i ∧ s.pol.isPerm j = false)
include free

theorem extendTrie_of_partial (h : (s.buf .src).len % 8 ≠ 0) : extendTrie i start j s = .error ⟨.bufAlign, 0⟩ := by
  unfold extendTrie
  rw [if_neg (by simpa using live), if_neg (extend_number_iff.2 free), if_pos h]
  rfl

variable (whole : (s.buf .src).len % 8 = 0)
include whole

theorem extendTrie_of_outside (h : ¬start + (s.node i).length + 1 ≤ (s.buf .src).nchars) :
    extendTrie i start j s = .error ⟨.sliceRange, start⟩ := by
  unfold extendTrie
  rw [if_neg (by simpa using live), if_neg (extend_number_iff.2 free), if_neg (not_not.2 whole),
    if_pos (Nat.lt_of_not_le h)]
  rfl

variable (inside : start + (s.node i).length + 1 ≤ (s.buf .src).nchars)
include inside

theorem extendTrie_of_unspelled
    (h : ¬∀ k, k < (s.node i).length → s.charAt .src (start + k) = s.nodeChar i k) :
    extendTrie i start j s = .error ⟨.notMatched, start⟩ := by
  unfold extendTrie
  rw [if_neg (by simpa using live), if_neg (extend_number_iff.2 free), if_neg (not_not.2 whole),
    if_neg (Nat.not_lt.2 inside), if_pos (eq_false_of_ne_true (mt spelledAt_eq_true_iff.1 h))]
  rfl

theorem extendTrie_of_alreadyLive
    (spelled : ∀ k, k < (s.node i).length → s.charAt .src (start + k) = s.nodeChar i k) {h : Nat}
    (hl : s.alreadyLive i (s.charAt .src (start + (s.node i).length)) = some h) :
    extendTrie i start j s = .error ⟨.alreadyLive, h⟩ := by
  unfold extendTrie
  rw [if_neg (by simpa using live), if_neg (extend_number_iff.2 free), if_neg (not_not.2 whole),
    if_neg (Nat.not_lt.2 inside), if_neg (ne_false_of_eq_true (spelledAt_eq_true_iff.2 spelled))]
  dsimp only
  rw [hl]
  rfl

end

theorem alreadyLive_of_child {s : State} {i h : Nat} {c : Byte} (hc : s.child i c = some h)
    (hn : (s.node h).length = (s.node i).length + 1) (ha : (s.node h).active = true) : s.alreadyLive i c = some h := by
  unfold State.alreadyLive
  rw [hc]
  exact if_pos ⟨hn, ha⟩

/-- The guards of R141 met, a fault of TEXTEND's rule is the command's. -/
theorem textend_faults {s : State} (hr : ReadyIn .enc s) {c : FaultCode} {n : Nat}
    (h : extendTrie s.a0.toNat s.a1.toNat s.a2.toNat s.begin = .error ⟨c, n⟩) : Faults .textend s c.num n :=
  fault_of c n hr.1 ((textend_work hr).trans (by rw [h]))

/-- Settles O39: each check's fault, the checks before it passing. -/
theorem extendChecksInOrder : Obligations.ExtendChecksInOrder := by
  intro s hr i start j c live free whole inside spelled
  exact ⟨fun h => textend_faults hr (extendTrie_of_dead h), fun hl h => textend_faults hr (extendTrie_of_taken hl h),
    fun hl hf h => textend_faults hr (extendTrie_of_partial hl hf h),
    fun hl hf hw h => textend_faults hr (extendTrie_of_outside hl hf hw h),
    fun hl hf hw hi h => textend_faults hr (extendTrie_of_unspelled hl hf hw hi h),
    fun hl hf hw hi hs h hc hn ha =>
      textend_faults hr (extendTrie_of_alreadyLive (s := s.begin) hl hf hw hi hs (alreadyLive_of_child hc hn ha))⟩

section
variable {s : State}

/-- TREMOVE takes only the highest number, and no permanent one (R140). -/
theorem tremoveWork_of_refused (hr : TrieReady s) (h : s.opA0 = 0 ∨ s.opA0 ≠ s.size ∨ s.pol.isPerm s.opA0 = true) :
    tremoveWork s = .error ⟨.indexRange, s.opA0⟩ := by
  unfold tremoveWork
  rw [trieGuards_of_ready hr, if_pos (h.imp_right (Or.imp_right (contains_iff s _).2))]
  rfl

theorem tmresetWork_of_outside (hr : TrieReady s) (h : (s.buf .src).nchars < s.opA0) :
    tmresetWork s = .error ⟨.sliceRange, s.opA0⟩ := by
  unfold tmresetWork
  rw [trieGuards_of_ready hr, if_pos h]
  rfl

theorem tmstepWork_of_maximal (hr : TrieReady s) (h : s.mat.mstate = .maximal) : tmstepWork s = .error ⟨.order, 0⟩ := by
  unfold tmstepWork
  rw [trieGuards_of_ready hr, if_pos h]
  rfl

theorem tmstepWork_of_partial (hr : TrieReady s) (hm : s.mat.mstate ≠ .maximal) (h : (s.buf .src).len % 8 ≠ 0) :
    tmstepWork s = .error ⟨.bufAlign, 0⟩ := by
  unfold tmstepWork
  rw [trieGuards_of_ready hr, if_neg hm, if_pos h]
  rfl

variable (hc : s.configured = true)
include hc

/-- TEDGE and TNODE read the trie of an encode only (R138, R143). -/
theorem nodeRead_of_decode {i : Instr} (hi : i ∈ [.tedge, .tnode]) (hm : s.setup.mode ≠ .enc) :
    workOf i s = .error ⟨.order, 0⟩ := by
  rcases List.mem_pair.1 hi with rfl | rfl <;> exact (if_neg (ne_false_of_eq_true hc)).trans (if_pos hm)

theorem tedgeWork_of_empty (hm : s.setup.mode = .enc) (h : 2 * s.setup.limit + 1 < s.opA0 ∨ s.occupied s.opA0 = false) :
    tedgeWork s = .error ⟨.indexRange, s.opA0⟩ :=
  (if_neg (ne_false_of_eq_true hc)).trans ((if_neg (not_not.2 hm)).trans (if_pos h))

theorem tnodeWork_of_above (hm : s.setup.mode = .enc) (h : 2 * s.setup.limit + 1 < s.opA0) :
    tnodeWork s = .error ⟨.indexRange, s.opA0⟩ :=
  (if_neg (ne_false_of_eq_true hc)).trans ((if_neg (not_not.2 hm)).trans (if_pos h))

/-- TLOOKUP and PINFO read numbers up to LIMIT (R142, R181). -/
theorem numberRead_of_above {i : Instr} (hi : i ∈ [.tlookup, .pinfo]) (h : s.setup.limit < s.opA0) :
    workOf i s = .error ⟨.indexRange, s.opA0⟩ := by
  rcases List.mem_pair.1 hi with rfl | rfl <;> exact (if_neg (ne_false_of_eq_true hc)).trans (if_pos h)

end

/-! ### Policy commands -/

section
variable {s : State} (hc : s.configured = true)
include hc

theorem matchPolicy_of_done {i : Nat} (h : s.estate = .done) : matchPolicy i s = .error ⟨.order, 0⟩ :=
  (if_neg (ne_false_of_eq_true hc)).trans (if_pos h)

theorem matchPolicy_of_above {i : Nat} (he : s.estate ≠ .done) (h : s.size < i) :
    matchPolicy i s = .error ⟨.indexRange, i⟩ :=
  (if_neg (ne_false_of_eq_true hc)).trans ((if_neg he).trans (if_pos h))

/-- The unbounded dictionary has no room left (R172). -/
theorem matchPolicy_of_full {i : Nat} (he : s.estate ≠ .done) (hi : i ≤ s.size)
    (h : s.setup.unb = true ∧ s.size = s.setup.limit) : matchPolicy i s = .error ⟨.arenaFull, 0⟩ :=
  (if_neg (ne_false_of_eq_true hc)).trans ((if_neg he).trans ((if_neg (Nat.not_lt.2 hi)).trans (if_pos h)))

theorem ppermWork_of_order (h : s.estate ≠ .ready) : ppermWork s = .error ⟨.order, 0⟩ :=
  (if_neg (ne_false_of_eq_true hc)).trans (if_pos h)

theorem ppermWork_of_unassigned (hr : s.estate = .ready) (h : s.opA0 = 0 ∨ s.size < s.opA0) :
    ppermWork s = .error ⟨.indexRange, s.opA0⟩ :=
  (if_neg (ne_false_of_eq_true hc)).trans ((if_neg (not_not.2 hr)).trans (if_pos h))

end

theorem pmatchWork_error {s : State} {e : Raise} (h : matchPolicy s.opA0 s = .error e) : pmatchWork s = .error e := by
  unfold pmatchWork
  rw [h]

/-! ### Engine commands -/

theorem estepWork_error_iff {s : State} {e : Raise} : estepWork s = .error e ↔ encodeStep s = .error e := by
  unfold estepWork
  cases encodeStep s <;> simp

theorem dstepWork_error_iff {s : State} {e : Raise} : dstepWork s = .error e ↔ decodeStep s = .error e := by
  unfold dstepWork
  cases decodeStep s <;> simp

theorem runSteps_of_first_error {step : State → Work (State × Option Record)} {fuel n : Nat} {s : State} {e : Raise}
    (hr : s.estate = .ready) (h : step s = .error e) : runSteps step (fuel + 1) n s = .error e := by
  rw [runSteps, if_pos hr, h]

/-- ERUN ends in every fault its first step ends in (R226). -/
theorem erunWork_of_step_error {s : State} {e : Raise} (h : encodeStep s = .error e) : erunWork s = .error e := by
  by_cases hc : s.configured = false
  · have hs : encodeStep s = raise .notConfigured 0 := if_pos hc
    cases hs.symm.trans h
    exact if_pos hc
  by_cases hr : s.setup.mode ≠ .enc ∨ s.estate ≠ .ready
  · have hs : encodeStep s = raise .order 0 := (if_neg hc).trans (if_pos hr)
    cases hs.symm.trans h
    exact (if_neg hc).trans (if_pos hr)
  · rw [erunWork, if_neg hc, if_neg hr, runSteps_of_first_error (not_not.1 (not_or.1 hr).2) h]

/-- DRUN ends in every fault its first step ends in (R227). -/
theorem drunWork_of_step_error {s : State} {e : Raise} (h : decodeStep s = .error e) : drunWork s = .error e := by
  by_cases hc : s.configured = false
  · have hs : decodeStep s = raise .notConfigured 0 := if_pos hc
    cases hs.symm.trans h
    exact if_pos hc
  by_cases hr : s.setup.mode ≠ .dec ∨ s.estate ≠ .ready
  · have hs : decodeStep s = raise .order 0 := (if_neg hc).trans (if_pos hr)
    cases hs.symm.trans h
    exact (if_neg hc).trans (if_pos hr)
  · rw [drunWork, if_neg hc, if_neg hr, runSteps_of_first_error (not_not.1 (not_or.1 hr).2) h]

theorem encode_error {i : Instr} {s : State} {e : Raise} (hi : i ∈ [.estep, .erun]) (h : encodeStep s = .error e) :
    workOf i s = .error e := by
  rcases List.mem_pair.1 hi with rfl | rfl
  · exact estepWork_error_iff.2 h
  · exact erunWork_of_step_error h

theorem decode_error {i : Instr} {s : State} {e : Raise} (hi : i ∈ [.dstep, .drun]) (h : decodeStep s = .error e) :
    workOf i s = .error e := by
  rcases List.mem_pair.1 hi with rfl | rfl
  · exact dstepWork_error_iff.2 h
  · exact drunWork_of_step_error h

section
variable {s : State} (hc : s.configured = true)
include hc

theorem encodeStep_of_order (h : s.setup.mode ≠ .enc ∨ s.estate ≠ .ready) : encodeStep s = .error ⟨.order, 0⟩ :=
  (if_neg (ne_false_of_eq_true hc)).trans (if_pos h)

theorem decodeStep_of_order (h : s.setup.mode ≠ .dec ∨ s.estate ≠ .ready) : decodeStep s = .error ⟨.order, 0⟩ :=
  (if_neg (ne_false_of_eq_true hc)).trans (if_pos h)

theorem eaddextWork_of_order (h : s.setup.mode ≠ .dec ∨ s.estate ≠ .ready) : eaddextWork s = .error ⟨.order, 0⟩ :=
  (if_neg (ne_false_of_eq_true hc)).trans (if_pos h)

end

section
variable {s : State} (hr : TrieReady s)
include hr

theorem encodeStep_of_partial (h : (s.buf .src).len % 8 ≠ 0) : encodeStep s = .error ⟨.bufAlign, 0⟩ := by
  obtain ⟨hc, hm, he⟩ := hr
  unfold encodeStep
  rw [if_neg (ne_false_of_eq_true hc), if_neg (not_or.2 ⟨not_not.2 hm, not_not.2 he⟩), if_pos h]
  rfl

/-- EPOS is past the end of SRC (R210). -/
theorem encodeStep_of_outside (ha : (s.buf .src).len % 8 = 0) (h : (s.buf .src).nchars < s.epos) :
    encodeStep s = .error ⟨.sliceRange, s.epos⟩ := by
  obtain ⟨hc, hm, he⟩ := hr
  unfold encodeStep longestMatch
  rw [if_neg (ne_false_of_eq_true hc), if_neg (not_or.2 ⟨not_not.2 hm, not_not.2 he⟩), if_neg (not_not.2 ha), if_pos h]
  rfl

end

section
variable {s : State} (hc : s.configured = true) (hm : s.setup.mode = .dec) (he : s.estate = .ready)
include hc hm he

theorem decodeStep_of_partial (h : (s.buf .out).len % 8 ≠ 0) : decodeStep s = .error ⟨.bufAlign, 2⟩ := by
  unfold decodeStep
  rw [if_neg (ne_false_of_eq_true hc), if_neg (not_or.2 ⟨not_not.2 hm, not_not.2 he⟩), if_pos h]
  rfl

theorem eaddextWork_of_unassigned (h : s.size < s.opA0 ∨ Table.get s.tab s.opA0 = none) :
    eaddextWork s = .error ⟨.indexRange, s.opA0⟩ := by
  unfold eaddextWork
  rw [if_neg (ne_false_of_eq_true hc), if_neg (not_or.2 ⟨not_not.2 hm, not_not.2 he⟩)]
  by_cases hs : s.size < s.opA0
  · rw [if_pos hs]
    rfl
  · rw [if_neg hs, h.resolve_left hs]
    rfl

variable (hi : s.opA0 ≤ s.size) {e : Entry} (ht : Table.get s.tab s.opA0 = some e)
include hi ht

theorem eaddextWork_of_outside (h : (s.buf .out).nchars < s.opA1) : eaddextWork s = .error ⟨.sliceRange, s.opA1⟩ := by
  unfold eaddextWork
  rw [if_neg (ne_false_of_eq_true hc), if_neg (not_or.2 ⟨not_not.2 hm, not_not.2 he⟩), if_neg (Nat.not_lt.2 hi), ht]
  exact if_pos h

theorem eaddextWork_of_full (hp : s.opA1 ≤ (s.buf .out).nchars) (h : s.setup.unb = true ∧ s.size = s.setup.limit) :
    eaddextWork s = .error ⟨.arenaFull, 0⟩ := by
  unfold eaddextWork addExtension
  rw [if_neg (ne_false_of_eq_true hc), if_neg (not_or.2 ⟨not_not.2 hm, not_not.2 he⟩), if_neg (Nat.not_lt.2 hi), ht,
    matchPolicy_of_full hc (by rw [he]; exact EngineState.noConfusion) hi h]
  exact if_neg (Nat.not_lt.2 hp)

end

/-! ### A fault of one command and of another -/

/-- A command that ends in a fault raised it in its work: FAULT is clear after a completed one. -/
theorem Faults.work {i : Instr} {s : State} {code info : Nat} (hf : s.fault = false) (h : Faults i s code info) :
    ∃ e, workOf i s.begin = .error e ∧ e.code.num + e.info % 2 ^ 16 * 2 ^ 16 = code + info % 2 ^ 16 * 2 ^ 16 := by
  obtain ⟨t, hex, ht, hinfo⟩ := h
  rcases exec_completes hf hex with ⟨hclear, -⟩ | ⟨-, e, he, rfl⟩
  · rw [ht] at hclear
    cases hclear
  · refine ⟨e, he, ?_⟩
    have := faultInfo_nat' e (encode i)
    rw [State.latch_faultInfo] at hinfo
    omega

/-- A command that raises whatever another raises ends in every fault the other ends in. -/
theorem Faults.transfer {i k : Instr} {s : State} {code info : Nat} (hf : s.fault = false) (h : Faults i s code info)
    (hw : ∀ e, workOf i s.begin = .error e → workOf k s.begin = .error e) : Faults k s code info := by
  obtain ⟨e, he, hsum⟩ := h.work hf
  refine ⟨_, exec_of_raise hf (hw e he), rfl, ?_⟩
  have := faultInfo_nat' e (encode k)
  rw [State.latch_faultInfo]
  omega

/-- Settles O34: the guard that fails names the fault. -/
theorem commandGuardsInOrder : Obligations.CommandGuardsInOrder := by
  intro i s hf hc x full live free
  have hc : s.begin.configured = true := hc
  refine ⟨fun hi h => fault_of .order 0 hf (trie_of_unready hi hc h),
    fun hr h => textend_faults hr (extendTrie_of_dead h), fun hr hl h => textend_faults hr (extendTrie_of_taken hl h),
    fun hr hl hfr h => textend_faults hr (extendTrie_of_partial hl hfr h),
    fun hr h => fault_of .indexRange x hf (tremoveWork_of_refused (ready_of hr) h),
    fun hr h => fault_of .sliceRange x hf (tmresetWork_of_outside (ready_of hr) h),
    fun hr h => fault_of .order 0 hf (tmstepWork_of_maximal (ready_of hr) h),
    fun hr hm h => fault_of .bufAlign 0 hf (tmstepWork_of_partial (ready_of hr) hm h),
    fun hi h => fault_of .order 0 hf (nodeRead_of_decode hc hi h), fun hi hm h => ?_,
    fun hm h => fault_of .indexRange x hf (tedgeWork_of_empty hc hm (.inr h)),
    fun hi h => fault_of .indexRange x hf (numberRead_of_above hc hi h),
    fun h => fault_of .order 0 hf (pmatchWork_error (matchPolicy_of_done hc h)),
    fun he h => fault_of .indexRange x hf (pmatchWork_error (matchPolicy_of_above hc he h)),
    fun he hx h => fault_of .arenaFull 0 hf (pmatchWork_error (matchPolicy_of_full hc he hx h)),
    fun h => fault_of .order 0 hf (ppermWork_of_order hc h),
    fun hr h => fault_of .indexRange x hf (ppermWork_of_unassigned hc hr h),
    fun hi h => fault_of .order 0 hf (encode_error hi (encodeStep_of_order hc h)), fun hi h => ?_,
    fun hi hr h => fault_of .bufAlign 0 hf (encode_error hi (encodeStep_of_partial (ready_of hr) h)),
    fun hi hr h => fault_of .bufAlign 2 hf (decode_error hi (decodeStep_of_partial hr.2.1 hr.2.2.1 hr.2.2.2 h)),
    fun hi hr ha h => fault_of .sliceRange s.epos hf (encode_error hi (encodeStep_of_outside (ready_of hr) ha h)),
    fun hr h => fault_of .indexRange x hf (eaddextWork_of_unassigned hc hr.2.2.1 hr.2.2.2 h),
    fun e hr hx ht h => fault_of .sliceRange _ hf (eaddextWork_of_outside hc hr.2.2.1 hr.2.2.2 hx ht h),
    fun e hr hx ht hp h => fault_of .arenaFull 0 hf (eaddextWork_of_full hc hr.2.2.1 hr.2.2.2 hx ht hp h),
    fun code info _ h => h.transfer hf fun e he => erunWork_of_step_error (estepWork_error_iff.1 he),
    fun code info _ h => h.transfer hf fun e he => drunWork_of_step_error (dstepWork_error_iff.1 he)⟩
  · rcases List.mem_pair.1 hi with rfl | rfl
    · exact fault_of .indexRange x hf (tedgeWork_of_empty hc hm (.inl h))
    · exact fault_of .indexRange x hf (tnodeWork_of_above hc hm h)
  · rcases List.mem_append.1 (show i ∈ [.dstep, .drun] ++ [.eaddext] from hi) with hi | hi
    · exact fault_of .order 0 hf (decode_error hi (decodeStep_of_order hc h))
    · rw [List.mem_singleton.1 hi]
      exact fault_of .order 0 hf (eaddextWork_of_order hc h)

end Sys2Proof.Machine
end

section
/-! PROOFS. The statements about the matcher and about the commands that read the trie (41_trie.md R132, R138, R142, R143,
R150 to R152). -/

namespace Sys2Proof.Machine

/-! ### The matcher -/

/-- Settles O35: TMRESET's one check, and the matcher of R151. -/
theorem matcherReset : Obligations.MatcherReset := by
  intro s hr
  exact ⟨fun h => fault_of .sliceRange _ hr.1 (tmresetWork_of_outside (ready_of hr) h),
    fun h => ⟨_, exec_tmreset hr h, rfl, results_begin s, rfl, rfl⟩⟩

/-- The edge being descended, or the one the character starts (R152). -/
theorem edgeFor_eq_some_iff {s : State} {c : Byte} {h off : Nat} : s.edgeFor c = some (h, off)
    ↔ (s.mat.medge = some h ∧ off = s.mat.moff) ∨ (s.mat.medge = none ∧ s.child s.mat.mnode c = some h ∧ off = 0) := by
  unfold State.edgeFor
  cases s.mat.medge <;> simp [eq_comm]

theorem edgeFor_eq_none {s : State} {c : Byte} (he : s.mat.medge = none) (hc : s.child s.mat.mnode c = none) :
    s.edgeFor c = none := by
  unfold State.edgeFor
  rw [he, hc]
  rfl

theorem MatcherFrame.onlyMatcher {s t : State} (h : MatcherFrame s t) : OnlyMatcher s t := by
  unfold OnlyMatcher
  rw [h]
  rfl

section
variable {s : State} (hr : ReadyIn .enc s) (hm : s.mat.mstate ≠ .maximal) (ha : (s.buf .src).len % 8 = 0)
include hr hm ha

/-- TMSTEP, its guards met, reports one matching step (R152). -/
theorem exec_tmstep {x : State × MatchResult} (hx : matchStep s.begin = x) :
    exec .tmstep s = .next (reportMatch (s.mat.mcons - s.mat.mldepth) x)
      ∧ OnlyMatcher s (reportMatch (s.mat.mcons - s.mat.mldepth) x) := by
  have hw : workOf .tmstep s.begin = .ok (reportMatch (s.mat.mcons - s.mat.mldepth) x) :=
    hx ▸ tmstep_work (ready_of hr) hm ha
  exact ⟨exec_of_work hr.1 hw, MatcherFrame.onlyMatcher (MatcherFrame.trans (u := s.begin) rfl (workFrame hw))⟩

/-- A maximal match is reported with the extending character, if there is one, and the characters ahead (R152). -/
theorem exec_tmstep_maximal {m : Matcher} {has : Bool} {c : Byte} (hlast : m.mlast = s.mat.mlast)
    (hdepth : m.mldepth = s.mat.mldepth) (hx : matchStep s.begin = ({ s.begin with mat := m }, .maximal has c)) :
    ∃ t, exec .tmstep s = .next t ∧ OnlyMatcher s t ∧ t.mat = m
      ∧ Results t s.mat.mlast s.mat.mldepth c.toNat (s.mat.mcons - s.mat.mldepth)
      ∧ t.flags = { Flags.clear with maximal := true, hasChar := has } := by
  obtain ⟨hex, hfr⟩ := exec_tmstep hr hm ha hx
  exact ⟨_, hex, hfr, rfl, ⟨congrArg toWord hlast, congrArg toWord hdepth, rfl, rfl⟩, rfl⟩

theorem exec_tmstep_progress {m : Matcher} (hx : matchStep s.begin = ({ s.begin with mat := m }, .progress)) :
    ∃ t, exec .tmstep s = .next t ∧ OnlyMatcher s t ∧ t.flags = Flags.clear
      ∧ Results t t.mat.mlast t.mat.mldepth (t.mat.mcons - t.mat.mldepth) t.mat.mcons ∧ t.mat = m := by
  obtain ⟨hex, hfr⟩ := exec_tmstep hr hm ha hx
  exact ⟨_, hex, hfr, rfl, ⟨rfl, rfl, rfl, rfl⟩, rfl⟩

end

section
variable {s : State} (hend : s.mat.mstart + s.mat.mcons = (s.buf .src).nchars)
include hend

theorem matchStep_end_empty (h : s.mat.mcons = 0) :
    matchStep s = ({ s with mat := { s.mat with mstate := .maximal } }, .endOfInput) := by
  rw [matchStep_end hend, if_pos h]

theorem matchStep_end_ahead (h : s.mat.mldepth < s.mat.mcons) :
    matchStep s = ({ s with mat := { s.mat with mstate := .maximal } }, .maximal true s.extendingChar) := by
  rw [matchStep_end hend, if_neg (Nat.ne_zero_of_lt h), if_pos h]

theorem matchStep_end_matched (h0 : s.mat.mcons ≠ 0) (h : ¬s.mat.mldepth < s.mat.mcons) :
    matchStep s = ({ s with mat := { s.mat with mstate := .maximal } }, .maximal false 0) := by
  rw [matchStep_end hend, if_neg h0, if_neg h]

end

/-- Settles O36: `matchStep`'s end of input, its missing edge and its edge that differs. -/
theorem matcherStepReportsMaximal : Obligations.MatcherStepReportsMaximal := by
  intro s hr pos ahead next
  refine ⟨fun h => fault_of .order 0 hr.1 (tmstepWork_of_maximal (ready_of hr) h),
    fun hm h => fault_of .bufAlign 0 hr.1 (tmstepWork_of_partial (ready_of hr) hm h), fun hm ha => ⟨fun hend => ?_,
      fun hpos he hc => ?_, fun h off hpos hedge hne => ?_⟩⟩
  · by_cases h0 : s.mat.mcons = 0
    · obtain ⟨hex, hfr⟩ := exec_tmstep hr hm ha (matchStep_end_empty (s := s.begin) hend h0)
      exact ⟨_, hex, hfr, rfl, fun _ => ⟨results_begin s, rfl⟩, fun h => absurd h0 h, fun h => absurd h0 h⟩
    by_cases hlt : s.mat.mldepth < s.mat.mcons
    · obtain ⟨t, hex, hfr, hmat, hres⟩ := exec_tmstep_maximal hr hm ha (m := { s.mat with mstate := .maximal }) rfl rfl
        (matchStep_end_ahead (s := s.begin) hend hlt)
      exact ⟨t, hex, hfr, hmat, fun h => absurd h h0, fun _ _ => hres, fun _ h => absurd h (Nat.sub_pos_of_lt hlt).ne'⟩
    · obtain ⟨t, hex, hfr, hmat, hres⟩ := exec_tmstep_maximal hr hm ha (m := { s.mat with mstate := .maximal }) rfl rfl
        (matchStep_end_matched (s := s.begin) hend h0 hlt)
      have hzero : s.mat.mcons - s.mat.mldepth = 0 := Nat.sub_eq_zero_of_le (Nat.not_lt.1 hlt)
      rw [hzero] at hres
      exact ⟨t, hex, hfr, hmat, fun h => absurd h h0, fun _ h => absurd hzero h.ne', fun _ _ => hres⟩
  · exact exec_tmstep_maximal hr hm ha rfl rfl (matchStep_none (s := s.begin) hpos (edgeFor_eq_none he hc))
  · exact exec_tmstep_maximal hr hm ha rfl rfl
      ((matchStep_edge (s := s.begin) hpos (edgeFor_eq_some_iff.2 hedge)).trans (if_neg hne))

/-- Inside an edge the matcher stays at its node and keeps its match (R152). -/
theorem consume_inside {m : Matcher} {h off base : Nat} {nd : Node} (hne : base + off + 1 ≠ nd.length) :
    m.consume h off base nd = { m with mstate := .matching, mcons := m.mcons + 1, medge := some h, moff := off + 1 } :=
  if_neg hne

/-- At the end of an edge the matcher enters the node, which is the match if it is active (R152). -/
theorem consume_arrive {m : Matcher} {h off base : Nat} {nd : Node} (he : base + off + 1 = nd.length) :
    m.consume h off base nd
      = { m with
          mstate := .matching, mcons := m.mcons + 1, mnode := h, medge := none, moff := 0
          mlast := if nd.active then nd.codewordNo else m.mlast
          mldepth := if nd.active then nd.length else m.mldepth } :=
  if_pos he

/-- Settles O37: the character is on the edge, inside it or at its end. -/
theorem matcherStepConsumes : Obligations.MatcherStepConsumes := by
  intro s h off hr hm ha pos base hpos hedge hc
  obtain ⟨t, hex, hfr, hfl, hres, hmat⟩ := exec_tmstep_progress hr hm ha
    ((matchStep_edge (s := s.begin) hpos (edgeFor_eq_some_iff.2 hedge)).trans (if_pos hc))
  have hmat : t.mat = s.mat.consume h off base (s.node h) := hmat
  refine ⟨t, hex, hfr, hfl, hres, ?_⟩
  rw [hmat]
  by_cases he : base + off + 1 = (s.node h).length
  · rw [consume_arrive he]
    refine ⟨rfl, rfl, rfl, fun hne => absurd he hne, fun _ => ⟨rfl, rfl, rfl, ?_⟩⟩
    by_cases hact : (s.node h).active = true <;> simp [hact]
  · rw [consume_inside he]
    exact ⟨rfl, rfl, rfl, fun _ => ⟨rfl, rfl, rfl, rfl, rfl⟩, fun h => absurd h he⟩

/-! ### TEDGE, TNODE and TLOOKUP -/

theorem charOperand_eq (w : Word) : charOperand w = BitVec.ofNat 8 w.toNat := by
  apply BitVec.eq_of_toNat_eq
  simp [charOperand]

section
variable {s : State} (hc : s.configured = true)
include hc

section
variable (hm : s.setup.mode = .enc) (hl : s.opA0 ≤ 2 * s.setup.limit + 1)
include hm hl

theorem tedgeWork_of_no_child (ho : s.occupied s.opA0 = true) (hch : s.child s.opA0 (charOperand s.a1) = none) :
    tedgeWork s = .ok ((s.results 0 0 0 0).foundFlag false) := by
  unfold tedgeWork
  rw [if_neg (ne_false_of_eq_true hc), if_neg (not_not.2 hm),
    if_neg (not_or.2 ⟨Nat.not_lt.2 hl, ne_false_of_eq_true ho⟩), hch]

theorem tedgeWork_of_child (ho : s.occupied s.opA0 = true) {d : Nat} (hch : s.child s.opA0 (charOperand s.a1) = some d) :
    tedgeWork s = .ok ((s.results d (s.label s.opA0 d).1 (s.label s.opA0 d).2 0).foundFlag true) := by
  unfold tedgeWork
  rw [if_neg (ne_false_of_eq_true hc), if_neg (not_not.2 hm),
    if_neg (not_or.2 ⟨Nat.not_lt.2 hl, ne_false_of_eq_true ho⟩), hch]

theorem tnodeWork_of_empty (hs : Table.get s.arena s.opA0 = none) : tnodeWork s = .ok (s.foundFlag false) := by
  unfold tnodeWork
  rw [if_neg (ne_false_of_eq_true hc), if_neg (not_not.2 hm), if_neg (Nat.not_lt.2 hl), hs]

theorem tnodeWork_of_node {nd : Node} (hs : Table.get s.arena s.opA0 = some nd) :
    tnodeWork s = .ok ((s.results (if nd.active then 2 ^ 31 + nd.codewordNo else 0) nd.start nd.length
      (if s.opA0 = 0 then 0 else nd.parent)).foundFlag true) := by
  unfold tnodeWork
  rw [if_neg (ne_false_of_eq_true hc), if_neg (not_not.2 hm), if_neg (Nat.not_lt.2 hl), hs]

end

section
variable (hl : s.opA0 ≤ s.setup.limit)
include hl

theorem tlookupWork_of_none (h : s.lookup s.opA0 = none) : tlookupWork s = .ok (s.foundFlag false) := by
  unfold tlookupWork
  rw [if_neg (ne_false_of_eq_true hc), if_neg (Nat.not_lt.2 hl), h]

theorem tlookupWork_of_some {b n : Nat} (h : s.lookup s.opA0 = some (b, n)) :
    tlookupWork s = .ok ((s.results b n 0 0).foundFlag true) := by
  unfold tlookupWork
  rw [if_neg (ne_false_of_eq_true hc), if_neg (Nat.not_lt.2 hl), h]

end

end

/-- The edge to a seed carries the root sentinel (R132). -/
theorem label_of_seed {s : State} {p x : Nat} (h : (s.node x).start = Config.seed) : s.label p x = (Config.seed, 1) :=
  if_pos h

theorem label_of_slice {s : State} {p x : Nat} (h : (s.node x).start ≠ Config.seed) :
    s.label p x = ((s.node x).start + (s.node p).length, (s.node x).length - (s.node p).length) :=
  if_neg h

/-- Settles O43: an empty slot or a handle past the arena, no edge, an edge; no node, a node. -/
theorem edgeAndNodeCommands : Obligations.EdgeAndNodeCommands := by
  intro s hf hc hm h c
  have hc : s.begin.configured = true := hc
  have hchar : charOperand s.begin.a1 = c := charOperand_eq s.a1
  refine ⟨fun hx => fault_of .indexRange h hf (tedgeWork_of_empty hc hm hx),
    fun hx => fault_of .indexRange h hf (tnodeWork_of_above hc hm hx),
    fun hl ho hch => ⟨_, exec_of_work hf (tedgeWork_of_no_child hc hm hl ho (hchar ▸ hch)), rfl, ⟨rfl, rfl, rfl, rfl⟩,
      rfl⟩,
    fun d hl ho hch => ⟨_, exec_of_work hf (tedgeWork_of_child hc hm hl ho (hchar ▸ hch)), rfl, rfl, ?_⟩,
    fun hl hs => ⟨_, exec_of_work hf (tnodeWork_of_empty hc hm hl hs), rfl, results_begin s, rfl⟩,
    fun nd hl hs => ⟨_, exec_of_work hf (tnodeWork_of_node hc hm hl hs), rfl, rfl, ⟨rfl, rfl, rfl, rfl⟩⟩⟩
  by_cases hseed : (s.node d).start = Config.seed
  · rw [if_pos hseed, label_of_seed (s := s.begin) hseed]
    exact ⟨rfl, rfl, rfl, rfl⟩
  · rw [if_neg hseed, label_of_slice (s := s.begin) hseed]
    exact ⟨rfl, rfl, rfl, rfl⟩

section
variable {s : State} {k : Nat} (h1 : 1 ≤ k)
include h1

theorem lookup_of_unassigned (h : s.size < k) : s.lookup k = none :=
  (if_neg (Nat.one_le_iff_ne_zero.1 h1)).trans (if_pos h)

variable (hk : k ≤ s.size)
include hk

theorem lookup_of_encode (hm : s.setup.mode = .enc) :
    s.lookup k = if s.activeAt k = true then some ((s.node k).start, (s.node k).length) else none := by
  unfold State.lookup
  rw [if_neg (Nat.one_le_iff_ne_zero.1 h1), if_neg (Nat.not_lt.2 hk), hm]

theorem lookup_of_decode (hm : s.setup.mode = .dec) :
    s.lookup k = (Table.get s.tab k).map fun e => (e.start, e.length) := by
  unfold State.lookup
  rw [if_neg (Nat.one_le_iff_ne_zero.1 h1), if_neg (Nat.not_lt.2 hk), hm]

end

/-- TLOOKUP reports what `State.lookup` finds, its check passed (R142). -/
theorem exec_tlookup {s : State} (hf : s.fault = false) (hc : s.configured = true) (hl : s.a0.toNat ≤ s.setup.limit) :
    ∃ t, exec .tlookup s = .next t ∧ putBackResults s t = s ∧ ∀ x, s.lookup s.a0.toNat = x →
      Results t (x.getD (0, 0)).1 (x.getD (0, 0)).2 0 0 ∧ t.flags = { Flags.clear with found := x.isSome } := by
  cases hx : s.lookup s.a0.toNat with
  | none =>
    refine ⟨_, exec_of_work hf (tlookupWork_of_none (s := s.begin) hc hl hx), rfl, ?_⟩
    rintro x rfl
    exact ⟨results_begin s, rfl⟩
  | some p =>
    refine ⟨_, exec_of_work hf (tlookupWork_of_some (s := s.begin) hc hl hx), rfl, ?_⟩
    rintro x rfl
    exact ⟨⟨rfl, rfl, rfl, rfl⟩, rfl⟩

/-- Settles O44: what `State.lookup` finds, in either mode. -/
theorem lookupCommand : Obligations.LookupCommand := by
  intro s hf hc k
  refine ⟨fun h => fault_of .indexRange k hf (numberRead_of_above (s := s.begin) hc (by decide) h), fun hl => ?_⟩
  obtain ⟨t, hex, hfr, hx⟩ := exec_tlookup hf hc hl
  refine ⟨t, hex, hfr, fun h0 => hx (some (0, 0)) (congrArg s.lookup h0),
    fun h1 hk hm ha => hx (some (_, _)) ((lookup_of_encode h1 hk hm).trans (if_pos ha)),
    fun e h1 hk hm he => hx (some (_, _)) ((lookup_of_decode h1 hk hm).trans (congrArg _ he)), fun h1 h => hx none ?_⟩
  by_cases hk : k ≤ s.size
  · rcases h with hgt | ⟨hm, ha⟩ | ⟨hm, he⟩
    · exact absurd hgt (Nat.not_lt.2 hk)
    · exact (lookup_of_encode h1 hk hm).trans (if_neg (ne_true_of_eq_false ha))
    · exact (lookup_of_decode h1 hk hm).trans (congrArg _ he)
  · exact lookup_of_unassigned h1 (Nat.lt_of_not_le hk)

end Sys2Proof.Machine
end

section
/-! PROOFS. The statements about the commands that change the trie: TEXTEND and TREMOVE (41_trie.md R135, R137,
R140, R144). -/

namespace Sys2Proof.Machine

/-! ### A match in progress is abandoned (R144) -/

theorem abandonMatch_mstate (s : State) :
    s.abandonMatch.mat.mstate = if s.mat.mstate = .matching then .maximal else s.mat.mstate := by
  unfold State.abandonMatch
  split <;> rfl

theorem MatKept.mstate {s t : State} (h : MatKept s t) : t.mat.mstate = s.mat.mstate := by rw [h]

theorem extendTrie_mstate {i start j k : Nat} {s t : State} {c : Byte} (h : extendTrie i start j s = .ok (t, c, k)) :
    t.mat.mstate = if s.mat.mstate = .matching then .maximal else s.mat.mstate := by
  obtain ⟨v, hv, rfl⟩ := extendTrie_mat h
  rw [abandonMatch_mstate, hv.mstate]

/-! ### TEXTEND -/

/-- TEXTEND reports the character and the case, and writes nothing but the arena and the matcher. -/
theorem exec_textend {s u : State} {c : Byte} {kind : Nat} (hr : ReadyIn .enc s)
    (he : extendTrie s.a0.toNat s.a1.toNat s.a2.toNat s.begin = .ok (u, c, kind)) :
    exec .textend s = .next (u.results c.toNat kind 0 0) ∧ OnlyTrie s (u.results c.toNat kind 0 0)
      ∧ Results (u.results c.toNat kind 0 0) c.toNat kind 0 0 ∧ (u.results c.toNat kind 0 0).flags = Flags.clear := by
  have hf := extendTrie_frame he
  refine ⟨exec_of_work hr.1 ((textend_work hr).trans (by rw [he])), ?_, ⟨rfl, rfl, rfl, rfl⟩,
    (congrArg State.flags hf).trans rfl⟩
  unfold OnlyTrie
  rw [hf]
  rfl

section
variable {s : State} {i start j : Nat} (hI : Inv s) (ha : ExtendAllowed s i start j)
include hI ha

theorem ExtendAllowed.start_ne_seed : start ≠ Config.seed := by
  obtain ⟨-, -, -, -, -, -, -, hin, -⟩ := ha
  exact small_of_inside hI.build hI.mem hin

/-- TEXTEND's rule completes and makes `j` the codeword `STR(i) ++ c`; every other codeword stays (R135). -/
theorem extendTrie_makes_string (hd : EncDict s) : ∃ t kind,
    extendTrie i start j s = .ok (t, s.charAt .src (start + (s.node i).length), kind) ∧ 1 ≤ kind ∧ kind ≤ 3
      ∧ t.activeAt j = true ∧ t.nodeString j = s.nodeString i ++ [s.charAt .src (start + (s.node i).length)]
      ∧ (∀ k, k ≠ j → t.activeAt k = s.activeAt k)
      ∧ ∀ k, k ≠ j → s.activeAt k = true → t.nodeString k = s.nodeString k := by
  have hj := allowed_above hI ha
  have hsize := hI.queue.size
  have hsmall := ha.start_ne_seed hI
  obtain ⟨t, kind, he⟩ := extendTrie_completes hd.trie hj hsize hsmall ha
  obtain ⟨-, ⟨hf, hkept⟩, hbody⟩ := hd.trie.extend hj hsize hsmall he
  obtain ⟨id, hid⟩ := extendable hj hsize hsmall he
  have hkept : ∀ k, k ≠ j → t.body k = s.body k := fun k hk => hkept k fun h => hk (Option.some.inj h).symm
  have hkind : 1 ≤ kind ∧ kind ≤ 3 := by
    obtain ⟨-, -, -, -, -, -, -, -, -, -, -, u, old, v, -, -, -, rfl⟩ := extendTrie_ok he
    exact wire_kind _ _ _ _ u
  refine ⟨t, kind, he, hkind.1, hkind.2, by rw [activeAt_body, hbody]; rfl, ?_,
    fun k hk => activeAt_congr (hkept k hk), fun k hk h => nodeString_congr (hkept k hk) h hf.mem (by rw [hf])⟩
  rw [node_of_slot hid.node] at hbody ⊢
  exact wired_string hid.node hf hbody hsmall hid.spelled

end

/-- Settles O41: what TEXTEND's rule does to the codewords, from the state the command starts in. -/
theorem extendMakesTheString : Obligations.ExtendMakesTheString := by
  intro s hr hinv ha c
  have hI := ((inv_iff s).1 hinv).begin
  have ha : ExtendAllowed s.begin s.a0.toNat s.a1.toNat s.a2.toNat := ha
  obtain ⟨u, kind, he, h1, h3, hwords⟩ := extendTrie_makes_string hI ha (ready_dict hI hr)
  obtain ⟨hex, hfr, hres, hfl⟩ := exec_textend hr he
  exact ⟨_, kind, hex, hfr, hres, h1, h3, hfl, hwords⟩

/-! ### TREMOVE -/

section
variable {s : State} (hr : TrieReady s) (hk : s.opA0 = s.size) (hp : s.pol.isPerm s.opA0 = false)
include hr hk hp

theorem tremoveWork_of_removed {u : State} (h0 : 1 ≤ s.opA0) (hu : removeNode s.opA0 s = .ok u) :
    tremoveWork s = .ok (u.dropNumber s.opA0).abandonMatch := by
  unfold tremoveWork
  rw [trieGuards_of_ready hr, if_neg, hu]
  rw [contains_iff, hp]
  rintro (h | h | h)
  · exact Nat.one_le_iff_ne_zero.1 h0 h
  · exact h hk
  · cases h

/-- The highest number, not permanent, is above the seeds and can be removed (R137). -/
theorem removeNode_of_highest (hI : Inv s) : ∃ u, removeNode s.opA0 s = .ok u ∧ MatKept s u
    ∧ KeepsWords (some s.opA0) s u ∧ u.slot s.opA0 = none := by
  have hd := hI.dict hr.1 hr.2.1
  have hx : s.nseed < s.opA0 := by
    rw [isPerm_false] at hp
    exact Nat.lt_of_not_le fun h => hp (hI.fixed _ h)
  obtain ⟨u, hu⟩ := removeNode_completes (hd.trie.weaken (some s.opA0))
  obtain ⟨-, -, hslot, hwords⟩ := hI.toDict.removeNode hr.1 hr.2.1 hx hu
  exact ⟨u, hu, removeNode_mat hu, hwords, hslot (hk ▸ hI.queue.size)⟩

end

/-- What TREMOVE leaves after the removal: the number out of the policy, the match abandoned (R140, R144). -/
theorem dropNumber_abandonMatch {s u : State} (hf : TrieFrame s u) (hm : MatKept s u) (k : Nat) : ∃ m : Matcher,
    m.mstate = (if s.mat.mstate = .matching then .maximal else s.mat.mstate)
      ∧ (u.dropNumber k).abandonMatch = { s with
          arena := u.arena, mat := m, size := s.size - 1
          pol := { s.pol with q := s.pol.q.erase k, parent := Table.putNum s.pol.parent k 0 } } := by
  refine ⟨(u.dropNumber k).abandonMatch.mat, ?_, ?_⟩
  · rw [abandonMatch_mstate, State.dropNumber_mat, hm.mstate]
  · rw [abandonMatch_frame', State.dropNumber, hf.pol, hf.size, hf]

/-- PARENT[k] is 0 and the rest of PARENT as before (R140). -/
theorem parentSet_putNum {p q : PolicyState} {k v : Nat} (h : q.parent = Table.putNum p.parent k v) :
    ParentSet p q k v := by
  unfold ParentSet PolicyState.parentOf
  rw [h]
  exact ⟨Table.getNum_putNum_same _ _ _, fun _ hx => Table.getNum_putNum_other _ _ hx⟩

/-- Settles O42: TREMOVE's one check; else its removal, the drop of the number and the abandoned match. -/
theorem removeHighestCodeword : Obligations.RemoveHighestCodeword := by
  intro s hr k
  have hb := ready_of hr
  refine ⟨fun h => fault_of .indexRange k hr.1 (tremoveWork_of_refused hb h), fun h0 hk hp hinv => ?_⟩
  have hI := ((inv_iff s).1 hinv).begin
  obtain ⟨u, hu, hmat, ⟨hf, hbody⟩, hslot⟩ := removeNode_of_highest (s := s.begin) hb hk hp hI
  obtain ⟨m, hm, ht⟩ := dropNumber_abandonMatch hf hmat k
  have hw : workOf .tremove s.begin = _ := (tremoveWork_of_removed (s := s.begin) hb hk hp h0 hu).trans (congrArg _ ht)
  have hbody : ∀ x, x ≠ k → u.body x = s.body x := fun x hx => hbody x fun h => hx (Option.some.inj h).symm
  refine ⟨_, exec_of_work hr.1 hw, results_begin s, rfl, rfl, rfl, rfl, parentSet_putNum rfl, rfl, rfl, (occupied_false u k).2 hslot,
    fun x hx => activeAt_congr (hbody x hx), fun x hx h => nodeString_congr (hbody x hx) h rfl rfl,
    fun h => hm.trans (if_pos h), fun h => hm.trans (if_neg h)⟩

end Sys2Proof.Machine
end

section
/-! PROOFS. TEXTEND into an empty slot, node by node (41_trie.md R134, R135). -/

namespace Sys2Proof.Machine

/-! ### The three cases of the wiring -/

/-- The node TEXTEND writes into slot `j`, where it does not move one there (R135). -/
def wiredNode (s : State) (i start j : Nat) (children : Table Nat) : Node :=
  { active := true, codewordNo := j, start := start, length := (s.node i).length + 1, parent := i, children := children }

section
variable {s : State} {i start j : Nat} {c : Byte}

theorem wire_of_no_child (hc : s.child i c = none) :
    wire i start j c s = ((s.putNode j (wiredNode s i start j [])).setChild i c j, 1) := by
  unfold wire
  rw [hc]
  rfl

variable {h : Nat} (hc : s.child i c = some h)
include hc

theorem wire_of_longer_child (hlong : (s.node i).length + 1 < (s.node h).length) :
    wire i start j c s = (((s.putNode j
      (wiredNode s i start j [((s.nodeChar h ((s.node i).length + 1)).toNat, h)])).setChild i c j).setParent h j, 2) := by
  unfold wire
  rw [hc]
  exact if_pos hlong

theorem wire_of_node_at_depth (hlen : (s.node h).length = (s.node i).length + 1) :
    wire i start j c s
      = ((relocate h j s).updNode j fun nd => { nd with active := true, codewordNo := j, start := start }, 3) := by
  unfold wire
  rw [hc]
  exact if_neg hlen.not_gt

end

/-! ### Cases 1 and 2: a new node below `i` -/

/-- `t` is `s` with the node `nd` in slot `j` as the child of `i` on `c`, above the old child `H` if there is one. -/
structure Inserted (s t : State) (i j : Nat) (c : Byte) (nd : Node) (H : Option Nat) : Prop where
  node : t.node j = nd
  siblings : ∀ d, d ≠ c → t.child i d = s.child i d
  below : ∀ h, H = some h → t.node h = { s.node h with parent := j }
  kept : ∀ x, x ≠ i → x ≠ j → H ≠ some x → t.slot x = s.slot x

theorem Inserted.of_slots {s t : State} {i j : Nat} {c : Byte} {id nd : Node} {H : Option Nat} (hi : s.slot i = some id)
    (hj : s.slot j = none) (hH : ∀ h, H = some h → h ≠ i ∧ h ≠ j ∧ s.occupied h = true)
    (ht : ∀ z, t.slot z = if z = j then some nd
      else if z = i then some { id with children := Table.put id.children c.toNat j }
      else if H = some z then (s.slot z).map (fun m => { m with parent := j }) else s.slot z) :
    Inserted s t i j c nd H := by
  have hij : i ≠ j := fun h => by rw [h, hj] at hi; cases hi
  refine ⟨node_of_slot ((ht j).trans (if_pos rfl)), fun d hd => ?_, fun h hh => ?_, fun x hxi hxj hx => ?_⟩
  · rw [child_of_slot ((ht i).trans ((if_neg hij).trans (if_pos rfl))), child_of_slot hi]
    exact Table.get_put_other _ _ fun he => hd (BitVec.toNat_inj.1 he)
  · obtain ⟨hhi, hhj, ho⟩ := hH h hh
    obtain ⟨hd, hs⟩ := (occupied_iff s h).1 ho
    rw [node_of_slot hs]
    refine node_of_slot ?_
    rw [ht, if_neg hhj, if_neg hhi, if_pos hh, hs]
    rfl
  · rw [ht, if_neg hxj, if_neg hxi, if_neg hx]

/-! ### Case 3: a node moves into slot `j` -/

/-- `t` is `s` with the node of slot `h`, the child of `i` on `c`, in slot `j`. -/
structure Moved (s t : State) (i j h : Nat) (c : Byte) : Prop where
  children : (t.node j).children = (s.node h).children
  siblings : ∀ d, d ≠ c → t.child i d = s.child i d
  freed : t.occupied h = false
  below : ∀ e ∈ (s.node h).children, t.node e.2 = { s.node e.2 with parent := j }
  kept : ∀ x, x ≠ i → x ≠ j → x ≠ h → (∀ e ∈ (s.node h).children, x ≠ e.2) → t.slot x = s.slot x

section
variable {s : State} (hl : Links s) {i j h : Nat} {c : Byte} {id hd : Node}
include hl

/-- A node without links to `h` does not change when `h` is renamed. -/
theorem renamed_of_unlinked {x : Nat} {xd : Node} (hx : s.slot x = some xd) (hh : s.slot h = some hd)
    (hp : xd.parent ≠ h) (hc : hd.parent ≠ x) : xd.renamed h j = xd := by
  unfold Node.renamed
  rw [rename_other hp, map_rename_id fun k hk => hc (hl.listed hx hh (mem_children hl hx hk)).1]

/-- A child of `h` only changes its parent when `h` is renamed. -/
theorem renamed_of_child {x k : Nat} {xd : Node} (hx : s.slot x = some xd) (hh : s.slot h = some hd)
    (hk : Table.get hd.children k = some x) : xd.renamed h j = { xd with parent := j } := by
  obtain ⟨xd', hx', hp, hlen, -⟩ := hl.down hh hk
  obtain rfl := Option.some.inj (hx.symm.trans hx')
  unfold Node.renamed
  rw [hp, rename_same, map_rename_id fun m hm => ?_]
  obtain ⟨hd', hh', -, hlen', -⟩ := hl.down hx (mem_children hl hx hm)
  obtain rfl := Option.some.inj (hh.symm.trans hh')
  exact lt_asymm hlen hlen'

/-- A node that `h` does not list has another parent. -/
theorem parent_ne_of_unlisted {x : Nat} {xd : Node} (hx : s.slot x = some xd) (hh : s.slot h = some hd) (h0 : h ≠ 0)
    (hn : ∀ e ∈ hd.children, x ≠ e.2) : xd.parent ≠ h := by
  intro hp
  have hx0 : x ≠ 0 := fun hx0 => by
    obtain ⟨r, hr, -, hrp⟩ := hl.root
    rw [hx0, hr] at hx
    exact h0 (hp.symm.trans (Option.some.inj hx ▸ hrp))
  obtain ⟨pd, hpd, hlisted⟩ := hl.up hx hx0
  obtain rfl := Option.some.inj (hh.symm.trans (hp ▸ hpd))
  exact hn _ (Table.mem_of_get hlisted) rfl

/-- Renaming the child on `c` leaves the entries of the other characters. -/
theorem get_renamed_sibling (hi : s.slot i = some id) (hc : Table.get id.children c.toNat = some h) {d : Byte}
    (hd : d ≠ c) : Table.get (id.renamed h j).children d.toNat = Table.get id.children d.toNat := by
  obtain ⟨hd', hh, -, -, hkey, -⟩ := hl.down hi hc
  unfold Node.renamed
  rw [get_map_rename]
  cases hg : Table.get id.children d.toNat with
  | none => rfl
  | some y =>
    refine congrArg some (rename_other fun hy => hd (BitVec.toNat_inj.1 ?_))
    rw [hkey]
    exact (hl.listed hi hh (hy ▸ hg)).2

theorem Moved.of_slots {t : State} {f : Node → Node} (hf : ∀ nd, (f nd).children = nd.children) (hi : s.slot i = some id)
    (hc : Table.get id.children c.toNat = some h) (hh : s.slot h = some hd) (hj : s.slot j = none)
    (ht : ∀ z, t.slot z = if z = j then some (f (hd.renamed h j))
      else if z = h then none else (s.slot z).map (Node.renamed h j)) : Moved s t i j h c := by
  have hnode : s.node h = hd := node_of_slot hh
  obtain ⟨hd', hh', hpar, hlen, -⟩ := hl.down hi hc
  obtain rfl := Option.some.inj (hh.symm.trans hh')
  have hih : i ≠ h := fun e => by
    rw [e, hh] at hi
    exact lt_irrefl _ (Option.some.inj hi ▸ hlen)
  have hne {x : Nat} {xd : Node} (hx : s.slot x = some xd) : x ≠ j := fun e => by rw [e, hj] at hx; cases hx
  have hmoved {x : Nat} {xd : Node} (hx : s.slot x = some xd) (hxh : x ≠ h) : t.slot x = some (xd.renamed h j) := by
    rw [ht, if_neg (hne hx), if_neg hxh, hx]
    rfl
  refine ⟨?_, fun d hdc => ?_, ?_, fun e he => ?_, fun x hxi hxj hxh hx => ?_⟩
  · rw [node_of_slot ((ht j).trans (if_pos rfl)), hf, renamed_of_unlinked hl hh hh (hpar ▸ hih) (hpar ▸ hih), hnode]
  · rw [child_of_slot (hmoved hi hih), child_of_slot hi, get_renamed_sibling hl hi hc hdc]
  · rw [occupied_false, ht, if_neg (hne hh), if_pos rfl]
  · have hk := mem_children hl hh (c := e.1) (x := e.2) (hnode ▸ he)
    obtain ⟨xd, hx, -, hlenx, -⟩ := hl.down hh hk
    have hxh : e.2 ≠ h := fun hxh => by
      rw [hxh, hh] at hx
      exact lt_irrefl _ (Option.some.inj hx ▸ hlenx)
    rw [node_of_slot (hmoved hx hxh), node_of_slot hx, renamed_of_child hl hx hh hk]
  · rw [ht, if_neg hxj, if_neg hxh]
    cases hs : s.slot x with
    | none => rfl
    | some xd =>
      have hp := parent_ne_of_unlisted hl hs hh (hl.child_ne_root hi hc) (hnode ▸ hx)
      exact congrArg some (renamed_of_unlinked hl hs hh hp (hpar ▸ Ne.symm hxi))

end

/-! ### What the wiring leaves, case by case -/

section
variable {s t : State} {i start j : Nat} {c : Byte} {id : Node} (hi : s.slot i = some id) (hj : s.slot j = none)
include hi hj

/-- A child of `i` is another node than `i`, and not in the empty slot `j`. -/
theorem child_slot (hl : Links s) {h : Nat} (hc : s.child i c = some h) : Table.get id.children c.toNat = some h
    ∧ ∃ hd, s.slot h = some hd ∧ id.length < hd.length ∧ h ≠ i ∧ h ≠ j := by
  have hg : Table.get id.children c.toNat = some h := (child_of_slot hi c).symm.trans hc
  obtain ⟨hd, hh, -, hlen, -⟩ := hl.down hi hg
  refine ⟨hg, hd, hh, hlen, fun e => ?_, fun e => by rw [e, hj] at hh; cases hh⟩
  rw [e, hi] at hh
  exact lt_irrefl _ (Option.some.inj hh ▸ hlen)

variable (ht : t.arena = (wire i start j c s).1.arena)
include ht

theorem inserted_of_no_child (hc : s.child i c = none) : Inserted s t i j c (wiredNode s i start j []) none := by
  refine Inserted.of_slots hi hj nofun fun z => ?_
  rw [State.slot, ht, wire_of_no_child hc]
  exact slot_insert hi (fun h => by rw [h, hj] at hi; cases hi) (H := none) nofun z

variable (hl : Links s)
include hl

section
variable {h : Nat} (hc : s.child i c = some h)
include hc

theorem inserted_above_child (hlong : (s.node i).length + 1 < (s.node h).length) :
    Inserted s t i j c (wiredNode s i start j [((s.nodeChar h ((s.node i).length + 1)).toNat, h)]) (some h) := by
  obtain ⟨-, hd, hh, -, hhi, hhj⟩ := child_slot hi hj hl hc
  refine Inserted.of_slots hi hj (fun m hm => ?_) fun z => ?_
  · obtain rfl := Option.some.inj hm
    exact ⟨hhi, hhj, (occupied_iff s _).2 ⟨hd, hh⟩⟩
  · rw [State.slot, ht, wire_of_longer_child hc hlong]
    exact slot_insert hi (fun h => by rw [h, hj] at hi; cases hi) (H := some h)
      (fun m hm => Option.some.inj hm ▸ ⟨hhi, hhj⟩) z

theorem moved_of_node_at_depth (hlen : (s.node h).length = (s.node i).length + 1) : Moved s t i j h c := by
  obtain ⟨hg, hd, hh, -, hhi, hhj⟩ := child_slot hi hj hl hc
  refine Moved.of_slots hl (f := fun nd => { nd with active := true, codewordNo := j, start := start }) (fun _ => rfl)
    hi hg hh hj fun z => ?_
  rw [State.slot, ht, wire_of_node_at_depth hc hlen]
  show ((relocate h j s).updNode j _).slot z = _
  rw [slot_updNode, slot_relocate hl hh (hl.child_ne_root hi hg) hj]
  by_cases hz : z = j
  · rw [if_pos hz, if_pos hz, if_pos hz]
    rfl
  · rw [if_neg hz, if_neg hz, if_neg hz]

end

/-- Below `i`, only what stands on `c` changes (R135). -/
theorem wire_siblings (d : Byte) (hd : d ≠ c) : t.child i d = s.child i d := by
  cases hc : s.child i c with
  | none => exact (inserted_of_no_child hi hj ht hc).siblings d hd
  | some h =>
    obtain ⟨-, hnd, hh, hlen, -⟩ := child_slot hi hj hl hc
    by_cases hlong : (s.node i).length + 1 < (s.node h).length
    · exact (inserted_above_child hi hj ht hl hc hlong).siblings d hd
    · refine (moved_of_node_at_depth hi hj ht hl hc ?_).siblings d hd
      rw [node_of_slot hi, node_of_slot hh] at hlong ⊢
      omega

end

/-- The new codeword: the active child of `i` on `c`, one character deeper (R135). -/
theorem wire_codeword {s t : State} {i start j : Nat} {c : Byte} {id : Node} (hd : EncDict s)
    (e : Extendable s i start j c id) (hj : s.occupied j = false) (ht : t.arena = (wire i start j c s).1.arena) :
    t.child i c = some j ∧ (t.node i).active = true ∧ (t.node j).active = true ∧ (t.node j).codewordNo = j
      ∧ (t.node j).start = start ∧ (t.node j).length = (s.node i).length + 1 ∧ (t.node j).parent = i := by
  obtain ⟨-, hwords, hw, -⟩ := hd.trie.vacateWire e (show vacate j s = .ok (s, none) from if_pos hj)
  have hslot (x : Nat) : t.slot x = (wire i start j c s).1.slot x := congrArg (Table.get · x) ht
  obtain ⟨jd, hjd, hpar⟩ := hw.parent
  obtain ⟨jd', hjd', hact, hstart, hlen, hno⟩ := body_some hw.codeword
  obtain rfl := Option.some.inj (hjd.symm.trans hjd')
  obtain ⟨id', hid', hget⟩ := hw.child
  have hia : (wire i start j c s).1.activeAt i = true :=
    (activeAt_congr (hwords.body i fun h => e.free.2.2 (Option.some.inj h))).trans
      ((activeAt_iff s i).2 ⟨id, e.node, e.active⟩)
  obtain ⟨id'', hid'', hia⟩ := (activeAt_iff _ i).1 hia
  rw [node_of_slot ((hslot j).trans hjd), node_of_slot ((hslot i).trans hid''), node_of_slot e.node]
  exact ⟨(child_of_slot ((hslot i).trans hid') c).trans hget, hia, hact, hno, hstart, hlen, hpar⟩

/-- Settles O40: the new codeword and its links, then each case's nodes. -/
theorem extendIntoEmptySlot : Obligations.ExtendIntoEmptySlot := by
  intro s hr hinv ha hempty i start j L c
  have hI := ((inv_iff s).1 hinv).begin
  have hd := ready_dict hI hr
  have ha : ExtendAllowed s.begin i start j := ha
  have hj := allowed_above hI ha
  have hsmall := ha.start_ne_seed hI
  have he : extendTrie i start j s.begin
      = .ok ((wire i start j c s.begin).1.abandonMatch, c, (wire i start j c s.begin).2) :=
    extendTrie_empty hd.trie hj hI.queue.size hsmall ha hempty
  have hmstate := extendTrie_mstate he
  obtain ⟨id, e⟩ := extendable hj hI.queue.size hsmall he
  obtain ⟨t, ⟨hex, hfr, hres, hfl⟩, ht, hmat⟩ : ∃ t : State, (exec .textend s = .next t ∧ OnlyTrie s t
      ∧ Results t c.toNat (wire i start j c s.begin).2 0 0 ∧ t.flags = Flags.clear)
      ∧ t.arena = (wire i start j c s.begin).1.arena ∧ t.mat = (wire i start j c s.begin).1.abandonMatch.mat :=
    ⟨_, exec_textend hr he, abandonMatch_arena _, rfl⟩
  have hjs : s.begin.slot j = none := (occupied_false s j).1 hempty
  have hl := hd.trie.links
  have hsib := wire_siblings e.node hjs ht hl
  obtain ⟨hchild, hi, hact, hno, hstart, hlen, hpar⟩ := wire_codeword hd e hempty ht
  refine ⟨t, _, hex, hfr, hres, hfl, hchild, hi, hsib, hact, hno, hstart, hlen, hpar,
    fun hc => ?_, fun h hc hlong => ?_, fun h hc hlen => ?_, hmat ▸ hmstate⟩
  · have hins := inserted_of_no_child e.node hjs ht hc
    exact ⟨congrArg Prod.snd (wire_of_no_child (s := s.begin) hc), congrArg Node.children hins.node,
      fun x hxi hxj => hins.kept x hxi hxj nofun⟩
  · have hins := inserted_above_child e.node hjs ht hl hc hlong
    exact ⟨congrArg Prod.snd (wire_of_longer_child (s := s.begin) hc hlong), congrArg Node.children hins.node,
      hins.below h rfl, fun x hxi hxj hxh => hins.kept x hxi hxj fun hx => hxh (Option.some.inj hx).symm⟩
  · have hmoved := moved_of_node_at_depth e.node hjs ht hl hc hlen
    exact ⟨congrArg Prod.snd (wire_of_node_at_depth (s := s.begin) hc hlen), hmoved.children, hmoved.freed, hmoved.below,
      hmoved.kept⟩

end Sys2Proof.Machine
end

section
/-! PROOFS. The statements about the policy commands PMATCH, PPERM, PINFO and PORDER (42_policy.md R171 to R182). -/

namespace Sys2Proof.Machine

/-! ### PMATCH: the answer of `Select` is committed (R171, R172) -/

/-- What PMATCH leaves of `s` when `Select` answers `r`: its policy state and SIZE, its number in R0, and REJECT. -/
def State.matched (s : State) (r : Selection) : State :=
  (({ s.begin with pol := r.pol, size := r.size } : State).results r.j 0 0 0).rejectFlag (decide (r.j = 0))

/-- What `Select` answers to PMATCH. -/
def State.selection (s : State) : Selection :=
  s.pol.select s.setup.policy s.setup.limit s.size s.freeCount s.a0.toNat

/-- A PMATCH that completes passed the checks of R172. -/
theorem pmatch_completed {s t : State} (hs : s.fault = false) (ht : t.fault = false) (h : exec .pmatch s = .next t) :
    MatchAllowed s s.a0.toNat ∧ t = s.matched s.selection := by
  have hw : workOf .pmatch s.begin = .ok t := work_of_completed hs ht h
  obtain ⟨u, j, hu, -⟩ := pmatchWork_ok hw
  have ha : MatchAllowed s s.a0.toNat := (matchPolicy_ok hu).1
  exact ⟨ha, Except.ok.inj (hw.symm.trans (pmatch_work ha rfl))⟩

theorem matched_rejected (s : State) : putBackResults s (s.matched (s.pol.rejected s.size)) = s := rfl

theorem matched_flags {s : State} {r : Selection} (h : r.j ≠ 0) : (s.matched r).flags = Flags.clear :=
  congrArg (fun v => { Flags.clear with reject := v }) (decide_eq_false h)

section
variable {s : State} (hf : s.fault = false) (ha : MatchAllowed s s.a0.toNat)
include hf ha

theorem exec_pmatch {r : Selection} (hr : s.selection = r) : exec .pmatch s = .next (s.matched r) :=
  exec_of_work hf (pmatch_work ha hr)

theorem exec_pmatch_assigns {r : Selection} (hr : s.selection = r) (hj : r.j ≠ 0) :
    ∃ t, exec .pmatch s = .next t ∧ OnlyPolicy s t ∧ Results t r.j 0 0 0 ∧ t.flags = Flags.clear ∧ t.size = r.size
      ∧ t.pol = r.pol :=
  ⟨_, exec_pmatch hf ha hr, rfl, ⟨rfl, rfl, rfl, rfl⟩, matched_flags hj, rfl, rfl⟩

theorem exec_pmatch_rejects (hr : s.selection = s.pol.rejected s.size) :
    ∃ t, exec .pmatch s = .next t ∧ putBackResults s t = s ∧ Results t 0 0 0 0
      ∧ t.flags = { Flags.clear with reject := true } :=
  ⟨_, exec_pmatch hf ha hr, matched_rejected s, ⟨rfl, rfl, rfl, rfl⟩, rfl⟩

end

/-! ### The recency moves (R173 to R175) -/

theorem cascade_of_chain {p : PolicyState} {limit i : Nat} {moved : List Nat} (h : ChainOf p i moved)
    (hl : moved.length ≤ limit + 1) (draw : Nat) :
    p.cascade limit draw i = moved.foldl (fun q x => moveFront x q) p.q := by
  unfold PolicyState.cascade
  rw [chain_of h hl]

/-- A chain that ends leaves no order free (log 5). -/
theorem touched_draw {p : PolicyState} {policy : Policy} {limit i : Nat}
    (h : policy = .smru → ∃ moved, ChainOf p i moved ∧ ∀ x ∈ moved, x ≤ limit) (d e : Nat) :
    p.touched policy limit d i = p.touched policy limit e i := by
  cases policy with
  | smru =>
    obtain ⟨moved, hc, hl⟩ := h rfl
    have hl := hc.length_le hl
    exact (cascade_of_chain hc hl d).trans (cascade_of_chain hc hl e).symm
  | mru | wmru | mra => rfl

/-- What PMATCH of `i` moves to the front, in this order: nothing for a permanent `i`, else `i` and what follows it. -/
structure RecencyMoves (s : State) (i : Nat) (moved : List Nat) : Prop where
  nodup : moved.Nodup
  queued : ∀ x ∈ moved, x ∈ s.pol.q
  shape : (s.pol.isPerm i = true ∧ moved = []) ∨ (s.pol.isPerm i = false ∧ ∃ up, moved = i :: up)
  touched : s.pol.touched s.setup.policy s.setup.limit s.freeCount i = moved.foldl (fun q x => moveFront x q) s.pol.q

/-- Under SMRU these are `i` and its ancestors (R174). -/
theorem recencyMoves_of_chain {s : State} {i : Nat} {moved : List Nat} (hq : QueueOk s) (hp : s.setup.policy = .smru)
    (hc : ChainOf s.pol i moved) (hm : ∀ x ∈ moved, x ∈ s.pol.q) : RecencyMoves s i moved where
  nodup := hc.nodup
  queued := hm
  shape := match moved, hc with
    | [], h => .inl ⟨h, rfl⟩
    | _ :: up, ⟨rfl, hi, _⟩ => .inr ⟨hi, up, rfl⟩
  touched := by
    rw [hp]
    exact cascade_of_chain hc (hc.length_le fun x hx => (hq.range x (hm x hx)).2.trans hq.size) _

/-- Under MRU and WMRU it is `i` alone (R173, R175). -/
theorem recencyMoves_single {s : State} {i : Nat} (hq : QueueOk s) (hi : i ≤ s.size) (hmra : s.setup.policy ≠ .mra)
    (hsmru : s.setup.policy ≠ .smru) : RecencyMoves s i (if s.pol.isPerm i = true then [] else [i]) := by
  have htouched : s.pol.touched s.setup.policy s.setup.limit s.freeCount i
      = if s.pol.isPerm i = true then s.pol.q else moveFront i s.pol.q := by
    cases hp : s.setup.policy with
    | smru => exact absurd hp hsmru
    | mru | wmru | mra => rfl
  by_cases hperm : s.pol.isPerm i = true
  · rw [if_pos hperm] at htouched ⊢
    exact ⟨.nil, nofun, .inl ⟨hperm, rfl⟩, htouched⟩
  · rw [if_neg hperm] at htouched ⊢
    have hfree : i ∉ s.pol.perm := mt (isPerm_iff s.pol i).2 hperm
    have hpos : 1 ≤ i := Nat.one_le_iff_ne_zero.2 fun h => hfree (h ▸ hq.zero)
    refine ⟨List.nodup_singleton i, fun x hx => ?_, .inr ⟨eq_false_of_ne_true hperm, [], rfl⟩, htouched⟩
    rw [List.mem_singleton.1 hx]
    exact hq.full hmra i hpos hi hfree

section
variable {s : State} {i : Nat} {moved : List Nat} (hm : RecencyMoves s i moved)
include hm

/-- A number put into the queue after the moves stands behind `i`, or in front where nothing moved (R173). -/
theorem RecencyMoves.placed_q (j size : Nat) (tail : List Nat) : (s.pol.placed i j size (moved.reverse ++ tail)).pol.q
    = if moved = [] then j :: tail else moved.tail.reverse ++ i :: j :: tail := by
  unfold PolicyState.placed
  rcases hm.shape with ⟨hi, rfl⟩ | ⟨hi, up, rfl⟩
  · exact if_pos hi
  · have hup : i ∉ up.reverse := fun h => (List.nodup_cons.1 hm.nodup).1 (List.mem_reverse.1 h)
    dsimp only
    rw [if_neg (ne_true_of_eq_false hi), if_neg (List.cons_ne_nil i up), List.reverse_cons, List.append_assoc]
    exact insertAfter_append hup

variable (hq : QueueOk s) (hp : s.setup.policy ≠ .mra)
include hq hp

/-- `Select` works on the queue with `moved` in front (R173 to R175). -/
theorem RecencyMoves.select : s.pol.select s.setup.policy s.setup.limit s.size s.freeCount i
    = s.pol.selectRecency i s.setup.limit s.size (moved.reverse ++ s.pol.q.filter fun x => decide (x ∉ moved)) := by
  rw [← foldl_moveFront hm.nodup hm.queued hq.nodup, ← hm.touched]
  cases h : s.setup.policy with
  | mra => exact absurd h hp
  | mru | smru | wmru => rfl

/-- Below LIMIT the number is a fresh one (R171). -/
theorem RecencyMoves.select_fresh (hs : s.size < s.setup.limit) :
    s.pol.select s.setup.policy s.setup.limit s.size s.freeCount i
      = s.pol.placed i (s.size + 1) (s.size + 1) (moved.reverse ++ s.pol.q.filter fun x => decide (x ∉ moved)) :=
  (hm.select hq hp).trans (if_pos hs)

/-- At LIMIT the last of the queue is reclaimed (R171). -/
theorem RecencyMoves.select_last (hs : s.size = s.setup.limit) {l : List Nat} {j : Nat}
    (hrest : s.pol.q.filter (fun x => decide (x ∉ moved)) = l ++ [j]) (hj : j ≠ i) :
    s.pol.select s.setup.policy s.setup.limit s.size s.freeCount i = s.pol.placed i j s.size (moved.reverse ++ l) := by
  have hjm : j ∉ moved := by
    have hj : j ∈ s.pol.q.filter fun x => decide (x ∉ moved) := hrest ▸ List.mem_append_right l List.mem_cons_self
    exact of_decide_eq_true (List.mem_filter.1 hj).2
  have hjl : j ∉ l := by
    have hn : (l ++ [j]).Nodup := hrest ▸ hq.nodup.filter _
    exact fun h => (List.nodup_append.1 hn).2.2 j h j List.mem_cons_self rfl
  have herase : (moved.reverse ++ (l ++ [j])).erase j = moved.reverse ++ l := by
    rw [List.erase_append_right _ (mt List.mem_reverse.1 hjm), List.erase_append_right _ hjl, List.erase_cons_head,
      List.append_nil]
  rw [hm.select hq hp, PolicyState.selectRecency, if_neg hs.not_lt, getLast_filter hrest]
  dsimp only
  rw [if_neg hj, hrest, herase]

/-- At LIMIT a match whose `i` is last of the queue is rejected (R171). -/
theorem RecencyMoves.select_self (hs : s.size = s.setup.limit)
    (hlast : (moved.reverse ++ s.pol.q.filter fun x => decide (x ∉ moved)).getLast? = some i) :
    s.pol.select s.setup.policy s.setup.limit s.size s.freeCount i = s.pol.rejected s.size := by
  rw [hm.select hq hp, PolicyState.selectRecency, if_neg hs.not_lt, hlast]
  exact if_pos rfl

end

/-- A placed number, once it is in the state, is what R173 says of the queue and PARENT. -/
theorem exec_pmatch_placed {s : State} {moved : List Nat} (hf : s.fault = false) (ha : MatchAllowed s s.a0.toNat)
    (hm : RecencyMoves s s.a0.toNat moved) {j size : Nat} {tail : List Nat} (hj : j ≠ 0)
    (hr : s.selection = s.pol.placed s.a0.toNat j size (moved.reverse ++ tail)) :
    ∃ t, exec .pmatch s = .next t ∧ OnlyPolicy s t ∧ Results t j 0 0 0 ∧ t.flags = Flags.clear ∧ t.size = size
      ∧ t.pol.q = (if moved = [] then j :: tail else moved.tail.reverse ++ s.a0.toNat :: j :: tail)
      ∧ ParentSet s.pol t.pol j s.a0.toNat ∧ t.pol.perm = s.pol.perm ∧ t.pol.cur = s.pol.cur := by
  obtain ⟨t, hex, hfr, hres, hfl, hsz, hpol⟩ := exec_pmatch_assigns hf ha hr hj
  refine ⟨t, hex, hfr, hres, hfl, hsz, ?_, ?_, ?_, ?_⟩ <;> rw [hpol]
  · exact hm.placed_q j size tail
  · exact parentSet_putNum rfl
  · rfl
  · rfl

/-- Settles O45: the recency moves put `moved` in front, and `Select` takes a fresh number, the last, or none. -/
theorem matchByRecency : Obligations.MatchByRecency := by
  intro s moved hf hok ha hmra hsmru hother i rest assigns rejects
  have hq : QueueOk s := (queueOk_iff s).1 hok
  have hm : RecencyMoves s i moved := by
    by_cases hp : s.setup.policy = .smru
    · exact recencyMoves_of_chain hq hp (hsmru hp).1 (hsmru hp).2
    · rw [hother hp]
      exact recencyMoves_single hq ha.2.2.1 hmra hp
  refine ⟨fun hs => exec_pmatch_placed hf ha hm (Nat.succ_ne_zero _) (hm.select_fresh hq hmra hs),
    fun hs l j hrest hj => exec_pmatch_placed hf ha hm ?_ (hm.select_last hq hmra hs hrest hj),
    fun hs hne hrest => exec_pmatch_rejects hf ha (hm.select_self hq hmra hs ?_),
    fun hs hnil hlast => exec_pmatch_rejects hf ha (hm.select_self hq hmra hs ?_)⟩
  · have hj : j ∈ rest := hrest ▸ List.mem_append_right l List.mem_cons_self
    exact Nat.one_le_iff_ne_zero.1 (hq.range j (List.mem_filter.1 hj).1).1
  · obtain ⟨-, up, rfl⟩ := hm.shape.resolve_left fun h => hne h.2
    have hrest : s.pol.q.filter (fun x => decide (x ∉ i :: up)) = [] := hrest
    rw [hrest, List.append_nil, List.reverse_cons, List.getLast?_concat]
  · rw [hnil]
    simpa using hlast

/-! ### The cursor (R176) -/

/-- Settles O46: the three branches of MRA's `Select`. -/
theorem matchByCursor : Obligations.MatchByCursor := by
  intro s hf hok hcur ha hmra i
  have hq : QueueOk s := (queueOk_iff s).1 hok
  have hc : CursorOk s := (cursorOk_iff s).1 hcur
  have hsel : s.selection = s.pol.selectMra i s.setup.limit s.size := by
    rw [State.selection, hmra, select_mra]
  refine ⟨fun hs => ?_, fun hs hne => ?_, fun hs heq => ?_⟩
  · obtain ⟨t, hex, hfr, hres, hfl, hsz, hpol⟩ := exec_pmatch_assigns hf ha (hsel.trans (if_pos hs)) (Nat.succ_ne_zero _)
    refine ⟨t, hex, hfr, hres, hfl, hsz, ?_, ?_, ?_, ?_⟩ <;> rw [hpol]
    · exact parentSet_putNum rfl
    · exact hq.mra hmra
  · have hsel := hsel.trans ((if_neg hs.not_lt).trans (if_neg hne))
    have hpos : s.pol.cur ≠ 0 := Nat.one_le_iff_ne_zero.1 (hc.range ha.1).1
    obtain ⟨t, hex, hfr, hres, hfl, hsz, hpol⟩ := exec_pmatch_assigns hf ha hsel hpos
    refine ⟨t, hex, hfr, hres, hfl, hsz, ?_, ?_, ?_, ?_⟩ <;> rw [hpol]
    · exact parentSet_putNum rfl
    · exact hq.mra hmra
    · exact nextNonPerm_spec (hc.free ha.1)
  · exact exec_pmatch_rejects hf ha (hsel.trans ((if_neg hs.not_lt).trans (if_pos heq)))

/-! ### Every policy (R171, R179) -/

/-- `Select` rejects, or it answers a number that is not 0. -/
theorem selection_number {s : State} (hq : QueueOk s) (hc : CursorOk s) (hconf : s.configured = true) :
    s.selection = s.pol.rejected s.size ∨ s.selection.j ≠ 0 := by
  rcases select_cases s.pol s.setup.policy s.setup.limit s.size s.freeCount s.a0.toNat with
    ⟨h, -⟩ | ⟨-, hj, -⟩ | ⟨-, -, hj, -⟩ | ⟨-, -, hj, -⟩
  · exact .inl h
  · exact .inr (ne_of_eq_of_ne hj (Nat.succ_ne_zero _))
  · exact .inr (Nat.one_le_iff_ne_zero.1 (hq.range _ hj).1)
  · exact .inr (ne_of_eq_of_ne hj (Nat.one_le_iff_ne_zero.1 (hc.range hconf).1))

/-- Settles O47: REJECT is set exactly for the number 0, and below LIMIT the number is SIZE + 1. -/
theorem rejectionChangesNothing : Obligations.RejectionChangesNothing := by
  intro s t hok hcur hs hex ht
  have hq : QueueOk s := (queueOk_iff s).1 hok
  obtain ⟨ha, rfl⟩ := pmatch_completed hs ht hex
  refine ⟨fun hrej => ?_, fun hlt => ?_⟩
  · have h0 : s.selection.j = 0 := of_decide_eq_true hrej
    have hr : s.selection = s.pol.rejected s.size :=
      (selection_number hq ((cursorOk_iff s).1 hcur) ha.1).resolve_right (not_not.2 h0)
    rw [hr]
    exact ⟨matched_rejected s, rfl⟩
  · obtain ⟨hsize, hj⟩ := select_size s.pol s.setup.policy hq.size s.freeCount s.a0.toNat
    have hj : s.selection.j = s.size + 1 := hj hlt
    exact ⟨congrArg Flags.reject (matched_flags (hj ▸ Nat.succ_ne_zero _)), hsize.trans (Nat.min_eq_left hlt)⟩

theorem select_draw {p : PolicyState} {policy : Policy} {limit i : Nat}
    (h : policy = .smru → ∃ moved, ChainOf p i moved ∧ ∀ x ∈ moved, x ≤ limit) (size d e : Nat) :
    p.select policy limit size d i = p.select policy limit size e i := by
  have htouched := touched_draw h d e
  cases policy with
  | mra => rfl
  | mru | smru | wmru => exact congrArg (p.selectRecency i limit size) htouched

/-- Settles O48: `Select` reads the policy state, SIZE, the configuration, A0, and the draw, which does not matter. -/
theorem policyIsAFunctionOfItsState : Obligations.PolicyIsAFunctionOfItsState := by
  intro s u s' u' hs hu hpol hsize hsetup ha0 hchain hexs hexu hs' hu'
  obtain ⟨-, rfl⟩ := pmatch_completed hs hs' hexs
  obtain ⟨-, rfl⟩ := pmatch_completed hu hu' hexu
  have hsel : s.selection = u.selection := by
    unfold State.selection
    rw [select_draw hchain s.size s.freeCount u.freeCount, hpol, hsize, hsetup, ha0]
  show s.selection.pol = u.selection.pol ∧ s.selection.size = u.selection.size
    ∧ toWord s.selection.j = toWord u.selection.j
  rw [hsel]
  exact ⟨rfl, rfl, rfl⟩

/-! ### PPERM (R180) -/

theorem IsNextNonPerm.congr {p q : PolicyState} {limit k x : Nat} (h : IsNextNonPerm p limit k x)
    (hpq : ∀ y, q.isPerm y = p.isPerm y) : IsNextNonPerm q limit k x := by
  unfold IsNextNonPerm
  simp only [hpq]
  exact h

theorem permSet_of_smru {p : PolicyState} {limit i : Nat} {marked : List Nat} (h : ChainOf p i marked)
    (hl : ∀ x ∈ marked, x ≤ limit) : p.permSet .smru limit i = marked :=
  congrArg Prod.fst (chain_of h (h.length_le hl))

theorem permSet_of_not_smru {policy : Policy} (h : policy ≠ .smru) (p : PolicyState) (limit i : Nat) :
    p.permSet policy limit i = [i] := by
  cases policy with
  | smru => exact absurd rfl h
  | mru | wmru | mra => rfl

theorem leavesNone_false_iff {p : PolicyState} {limit : Nat} {S : List Nat} :
    p.leavesNone limit S = false ↔ ∃ x, 1 ≤ x ∧ x ≤ limit ∧ x ∉ S ∧ p.isPerm x = false := by
  simp only [leavesNone_false, isPerm_false]

section
variable {s : State} (hc : s.configured = true) (he : s.estate = .ready) (h0 : s.opA0 ≠ 0) (hi : s.opA0 ≤ s.size)
  {S : List Nat} (hS : s.pol.permSet s.setup.policy s.setup.limit s.opA0 = S)
include hc he h0 hi hS

theorem ppermWork_of_none_left (h : ¬s.pol.leavesNone s.setup.limit S = false) :
    ppermWork s = .error ⟨.indexRange, s.opA0⟩ := by
  unfold ppermWork
  rw [if_neg (ne_false_of_eq_true hc), if_neg (not_not.2 he), if_neg (not_or.2 ⟨h0, Nat.not_lt.2 hi⟩), hS]
  exact if_pos (eq_true_of_ne_false h)

theorem ppermWork_of_one_left (h : s.pol.leavesNone s.setup.limit S = false) :
    ppermWork s = .ok { s with pol := s.pol.afterPerm s.setup.policy s.setup.limit S } := by
  unfold ppermWork
  rw [if_neg (ne_false_of_eq_true hc), if_neg (not_not.2 he), if_neg (not_or.2 ⟨h0, Nat.not_lt.2 hi⟩), hS]
  exact if_neg (ne_true_of_eq_false h)

end

/-- Settles O49: `permSet` is `marked`, and PPERM refuses it or leaves what `afterPerm_spec` says. -/
theorem makePermanent : Obligations.MakePermanent := by
  rintro s marked ⟨hf, hconf, -, hready⟩ hok hcur h0 hi hsmru hother leavesOne
  have hcur : s.setup.policy = .mra → s.pol.cur ∉ s.pol.perm := fun hmra =>
    (isPerm_false _ _).1 (((cursorOk_iff s).1 hcur).mra hconf hmra)
  have hset : s.pol.permSet s.setup.policy s.setup.limit s.a0.toNat = marked := by
    by_cases hp : s.setup.policy = .smru
    · rw [hp]
      exact permSet_of_smru (hsmru hp).1 (hsmru hp).2
    · rw [hother hp]
      exact permSet_of_not_smru hp _ _ _
  have hleaves : s.pol.leavesNone s.setup.limit marked = false ↔ leavesOne := leavesNone_false_iff
  refine ⟨fun hn => fault_of .indexRange _ hf
      (ppermWork_of_none_left (s := s.begin) hconf hready h0 hi hset (mt hleaves.1 hn)), fun hl => ?_⟩
  have hl := hleaves.2 hl
  obtain ⟨hperm, hqueue, hparent, hnext, hkept⟩ := afterPerm_spec (policy := s.setup.policy) hl
  refine ⟨_, exec_of_work hf (ppermWork_of_one_left (s := s.begin) hconf hready h0 hi hset hl), rfl, results_begin s, rfl,
    rfl, fun k => ?_, hqueue, hparent, fun ⟨hmra, hm⟩ => ?_, fun hn => ?_⟩
  · rw [isPerm_iff, isPerm_iff, or_comm]
    exact hperm k
  · refine (hnext ⟨hmra, .inl hm⟩).congr fun y => ?_
    rw [Bool.eq_iff_iff, isPerm_iff, isPerm_iff]
    exact (hperm y).trans mem_foldl_setInsert.symm
  · exact hkept fun ⟨hmra, hm⟩ => hm.elim (fun hm => hn ⟨hmra, hm⟩) (hcur hmra)

/-! ### PINFO and PORDER (R181, R182) -/

section
variable {s : State} (hc : s.configured = true)
include hc

theorem pinfoWork_of_number (h : s.opA0 ≤ s.setup.limit) :
    pinfoWork s = .ok ((s.results (s.pol.parentOf s.opA0) (bit (s.pol.isPerm s.opA0))
      (if s.opA0 ∈ s.pol.q then s.pol.q.idxOf s.opA0 else Config.noRank) 0).foundFlag (decide (s.opA0 ≤ s.size))) :=
  (if_neg (ne_false_of_eq_true hc)).trans (if_neg (Nat.not_lt.2 h))

theorem porderWork_of_configured :
    porderWork s = .ok (s.results ((s.pol.q[s.opA0]?).getD 0) s.pol.q.length s.pol.cur 0) :=
  if_neg (ne_false_of_eq_true hc)

end

theorem idxOf_of_first {q : List Nat} {x k : Nat} (hk : q[k]? = some x) (hfirst : ∀ m, m < k → q[m]? ≠ some x) :
    q.idxOf x = k := by
  obtain ⟨hlt, hk⟩ := List.getElem?_eq_some_iff.1 hk
  exact (List.findIdx_eq hlt).2 ⟨beq_iff_eq.2 hk, fun m hm =>
    beq_eq_false_iff_ne.2 fun h => hfirst m hm (List.getElem?_eq_some_iff.2 ⟨hm.trans hlt, h⟩)⟩

/-- Settles O50: `idxOf` is the first position of the number, and a read past the queue is 0. -/
theorem policyReads : Obligations.PolicyReads := by
  intro s hf i
  refine ⟨fun hc => ⟨fault_of .notConfigured 0 hf (if_pos hc), fault_of .notConfigured 0 hf (if_pos hc)⟩,
    fun hc hi => fault_of .indexRange i hf (numberRead_of_above (s := s.begin) hc (by decide) hi),
    fun hc hi => ⟨_, if i ∈ s.pol.q then s.pol.q.idxOf i else Config.noRank,
      exec_of_work hf (pinfoWork_of_number (s := s.begin) hc hi), rfl, ⟨rfl, congrArg toWord ?_, rfl, rfl⟩,
      fun hm => if_neg hm, fun k hk hfirst => ?_, rfl⟩,
    fun hc => ⟨_, (s.pol.q[i]?).getD 0, exec_of_work hf (porderWork_of_configured (s := s.begin) hc), rfl, rfl,
      ⟨rfl, rfl, rfl, rfl⟩, fun x hx => by rw [hx, Option.getD_some],
      fun hl => by rw [List.getElem?_eq_none hl, Option.getD_none]⟩⟩
  · exact Bool.cond_eq_ite _ _ _
  · rw [if_pos (List.mem_of_getElem? hk)]
    exact idxOf_of_first hk hfirst

end Sys2Proof.Machine
end

section
/-! PROOFS. The statements about the engine's configuration, its runs and EADDEXT (43_engine.md R200, R223, R226 to R228). -/

namespace Sys2Proof.Machine

/-! ### ECONFIG -/

/-- The configurations ECONFIG takes (R200). -/
def LegalConfig (s : State) : Prop :=
  s.a0.toNat < 16 ∧ (s.a1.toNat = 0 ∨ (3 ≤ s.a1.toNat ∧ s.a1.toNat + (variantField s.a0).nseed ≤ s.maxLimit))

theorem econfigWork_of_bad {s : State} (h : ¬LegalConfig s) : econfigWork s = .error ⟨.badConfig, s.opA1⟩ := by
  unfold econfigWork
  by_cases hr : configReserved s.a0 ≠ 0
  · exact if_pos hr
  rw [if_neg hr]
  by_cases hsmall : s.opA1 = 1 ∨ s.opA1 = 2
  · exact if_pos hsmall
  rw [if_neg hsmall]
  refine if_pos ?_
  have hword : s.a0.toNat < 16 := (reserved_zero s.a0).1 (not_not.1 hr)
  have hlimit := not_and.1 h hword
  have : s.a1.toNat = s.opA1 := rfl
  omega

/-- Settles O51: ECONFIG takes exactly the legal configurations. -/
theorem configureChecks : Obligations.ConfigureChecks := by
  intro s hf nseed good
  have hgood : good ↔ LegalConfig s := by
    unfold LegalConfig
    rw [variant_nseed]
  exact ⟨fun hn => fault_of .badConfig _ hf (econfigWork_of_bad (s := s.begin) (mt hgood.2 hn)),
    fun hg => ⟨_, exec_of_work hf (econfig_of_good hg.1 (hgood.1 hg).2), hf⟩⟩

/-! ### ERUN and DRUN are the loops of their steps (R226, R227) -/

section
variable {s t : State} {n : Nat} {e : Raise}

theorem erunWork_of_run (hr : TrieReady s) (h : runSteps encodeStep ((s.buf .src).nchars + 2) 0 s = .ok (t, n)) :
    erunWork s = .ok (bumpEpochs s (t.results n 0 0 0)) := by
  unfold erunWork
  rw [if_neg (ne_false_of_eq_true hr.1), if_neg (not_or.2 ⟨not_not.2 hr.2.1, not_not.2 hr.2.2⟩), h]

theorem erunWork_of_run_error (hr : TrieReady s) (h : runSteps encodeStep ((s.buf .src).nchars + 2) 0 s = .error e) :
    erunWork s = .error e := by
  unfold erunWork
  rw [if_neg (ne_false_of_eq_true hr.1), if_neg (not_or.2 ⟨not_not.2 hr.2.1, not_not.2 hr.2.2⟩), h]

/-- Configured to decode, and READY (R220). -/
def DecodeReady (s : State) : Prop := s.configured = true ∧ s.setup.mode = .dec ∧ s.estate = .ready

theorem decodeReady_of {s : State} (h : ReadyIn .dec s) : DecodeReady s.begin := h.2

theorem drunWork_of_run (hr : DecodeReady s) (h : runSteps decodeStep (s.remaining + 2) 0 s = .ok (t, n)) :
    drunWork s = .ok (bumpEpochs s (t.results n 0 0 0)) := by
  unfold drunWork
  rw [if_neg (ne_false_of_eq_true hr.1), if_neg (not_or.2 ⟨not_not.2 hr.2.1, not_not.2 hr.2.2⟩), h]

theorem drunWork_of_run_error (hr : DecodeReady s) (h : runSteps decodeStep (s.remaining + 2) 0 s = .error e) :
    drunWork s = .error e := by
  unfold drunWork
  rw [if_neg (ne_false_of_eq_true hr.1), if_neg (not_or.2 ⟨not_not.2 hr.2.1, not_not.2 hr.2.2⟩), h]

end

theorem width_pos {s : State} (h : Inv s) (hc : s.configured = true) : 0 < s.setup.width :=
  Nat.lt_of_lt_of_le Nat.zero_lt_two (setup_width h.setup hc).1

/-- Settles O56: the steps are within the loop's bound, which is the only thing that ends the loop but its steps. -/
theorem runsRepeatTheirSteps : Obligations.RunsRepeatTheirSteps := by
  refine ⟨fun s t rs hr hI h => ?_, fun s t rs hr hI h => ?_, fun s u rs e hr hI h he => ?_,
    fun s u rs e hr hI h he => ?_⟩
  · have hI := (inv_iff s).1 hI
    have hlen := encodeRun_length (hI.encOk hr).begin h
    have hrun := runSteps_of_over (fuel := (s.begin.buf .src).nchars + 2) (n := 0) h (by omega)
    rw [Nat.zero_add] at hrun
    exact exec_of_work hr.1 (erunWork_of_run (ready_of hr) hrun)
  · have hI := (inv_iff s).1 hI
    have hlen := decodeRun_length (s := s.begin) (width_pos hI.begin hr.2.1) h
    have hrun := runSteps_of_over (fuel := s.begin.remaining + 2) (n := 0) h (by omega)
    rw [Nat.zero_add] at hrun
    exact exec_of_work hr.1 (drunWork_of_run (decodeReady_of hr) hrun)
  · have hI := (inv_iff s).1 hI
    have hlen := encodeInto_length (hI.encOk hr).begin h
    exact fault_of e.code e.info hr.1 (erunWork_of_run_error (ready_of hr) (runSteps_of_into h he (by omega)))
  · have hI := (inv_iff s).1 hI
    have hlen := decodeInto_length (s := s.begin) (width_pos hI.begin hr.2.1) h
    exact fault_of e.code e.info hr.1 (drunWork_of_run_error (decodeReady_of hr) (runSteps_of_into h he (by omega)))

/-! ### EADDEXT -/

/-- EADDEXT of a number with an entry, at a position in OUT, is `add_extension` (R228). -/
theorem eaddextWork_of_extension {s t : State} {e : Entry} {j : Nat} (hr : DecodeReady s) (hi : s.opA0 ≤ s.size)
    (ht : Table.get s.tab s.opA0 = some e) (hp : s.opA1 ≤ (s.buf .out).nchars)
    (h : addExtension s.opA0 s.opA1 e.length s = .ok (t, j)) :
    eaddextWork s = .ok ((t.results j 0 0 0).rejectFlag (decide (j = 0))) := by
  unfold eaddextWork
  rw [if_neg (ne_false_of_eq_true hr.1), if_neg (not_or.2 ⟨not_not.2 hr.2.1, not_not.2 hr.2.2⟩), if_neg (Nat.not_lt.2 hi), ht]
  dsimp only
  rw [if_neg (Nat.not_lt.2 hp), h]

/-- `add_extension` that may assign a number: `Select`'s answer, and its entry unless it rejects (R223). -/
theorem addExtension_of_allowed {s : State} {i : Nat} (h : MatchAllowed s i) (pos len : Nat) {r : Selection}
    (hr : s.pol.select s.setup.policy s.setup.limit s.size s.freeCount i = r) :
    addExtension i pos len s = .ok ({ s with
      pol := r.pol
      size := r.size
      tab := if r.j = 0 then s.tab else Table.put s.tab r.j { start := pos, length := len + 1 } }, r.j) := by
  subst hr
  unfold addExtension
  rw [matchPolicy_of_allowed h]
  dsimp only
  split <;> rfl

/-- The number the PMATCH rule answers fits its register: it is at most LIMIT (R35, R171). -/
theorem selection_lt {s : State} (hI : Inv s) (h : MatchAllowed s s.a0.toNat) : s.selection.j < 2 ^ 32 := by
  have hw := setup_width hI.setup h.1
  rcases matchPolicy_number hI.queue hI.cursor (matchPolicy_of_allowed h) with ⟨h0, -⟩ | ⟨-, hj, -, hl, -⟩
  · have h0 : s.selection.j = 0 := h0
    omega
  · have hj : s.selection.j ≤ s.selection.size := hj
    have hl : s.selection.size ≤ s.setup.limit := hl
    omega

theorem toWord_eq_zero_iff {n : Nat} (h : n < 2 ^ 32) : toWord n = 0 ↔ n = 0 := by
  rw [← BitVec.toNat_inj, toNat_toWord h]
  rfl

/-- Settles O59: the checks in order, then PMATCH's selection and the entry of its number. -/
theorem addExtensionCommand : Obligations.AddExtensionCommand := by
  intro s hr hinv i pos
  have hI := (inv_iff s).1 hinv
  have hR := decodeReady_of hr
  refine ⟨fun h => fault_of .indexRange i hr.1 (eaddextWork_of_unassigned (s := s.begin) hR.1 hR.2.1 hR.2.2 h),
    fun e hi ht => ⟨fun h => fault_of .sliceRange pos hr.1
        (eaddextWork_of_outside (s := s.begin) hR.1 hR.2.1 hR.2.2 hi ht h),
      fun hp hu hs => fault_of .arenaFull 0 hr.1
        (eaddextWork_of_full (s := s.begin) hR.1 hR.2.1 hR.2.2 hi ht hp ⟨hu, hs⟩),
      fun hp ha => ?_⟩⟩
  have hj := selection_lt hI ha
  have hw := eaddextWork_of_extension (s := s.begin) hR hi ht hp
    (addExtension_of_allowed (s := s.begin) ha pos e.length (r := s.selection) rfl)
  refine ⟨_, _, exec_pmatch hr.1 ha rfl, hr.1, exec_of_work hr.1 hw, rfl, rfl, rfl, rfl,
    ⟨congrArg toWord (toNat_toWord hj).symm, rfl, rfl, rfl⟩, fun h0 => ?_, fun h0 => ?_⟩
  · exact if_pos ((toWord_eq_zero_iff hj).1 h0)
  · have h0 : s.selection.j ≠ 0 := mt (toWord_eq_zero_iff hj).2 h0
    have htab : ∀ k, Table.get (if s.selection.j = 0 then s.tab
        else Table.put s.tab s.selection.j { start := pos, length := e.length + 1 }) k
        = Table.get (Table.put s.tab s.selection.j { start := pos, length := e.length + 1 }) k :=
      fun k => by rw [if_neg h0]
    have hr0 : (toWord s.selection.j).toNat = s.selection.j := toNat_toWord hj
    refine ⟨(htab _).trans ?_, fun k hk => (htab k).trans (Table.get_put_other _ _ ?_)⟩
    · exact (congrArg (Table.get _) hr0).trans (Table.get_put_same _ _ _)
    · exact fun hkj => hk (hkj.trans hr0.symm)

end Sys2Proof.Machine
end

section
/-! PROOFS. What ESTEP, DSTEP, ERUN and DRUN leave besides their steps, the end of the input, and the runs that get there
(43_engine.md R210, R214, R220, R226, R227, R234). -/

namespace Sys2Proof.Machine

/-! ### The report and the count of mutations (R100, R112) -/

section
variable (s t : State)

theorem bumpEpochs_bits (b : Buf) : ((bumpEpochs s t).buf b).bits = (t.buf b).bits := by
  rw [bumpEpochs_buf]
  split <;> rfl

theorem bumpEpochs_rc (b : Buf) : ((bumpEpochs s t).buf b).rc = (t.buf b).rc := by
  rw [bumpEpochs_buf]
  split <;> rfl

theorem bumpEpochs_src : (bumpEpochs s t).buf .src = t.buf .src := by
  rw [bumpEpochs_buf]
  exact if_neg fun h => h.1 rfl

theorem bumpEpochs_results (x0 x1 x2 x3 : Nat) : Results (bumpEpochs s (t.results x0 x1 x2 x3)) x0 x1 x2 x3 := by
  rw [bumpEpochs_frame]
  exact ⟨rfl, rfl, rfl, rfl⟩

variable {s t} {b : Buf}

theorem bumpEpochs_unchanged (h : (t.buf b).len = (s.buf b).len) : (bumpEpochs s t).buf b = t.buf b := by
  rw [bumpEpochs_buf]
  exact if_neg fun hn => hn.2 h

/-- A buffer that grew counts one mutation (R100). -/
theorem bumpEpochs_grown (hb : b ≠ .src) (h : (t.buf b).len ≠ (s.buf b).len) :
    (bumpEpochs s t).buf b = (t.buf b).bump := by
  rw [bumpEpochs_buf]
  exact if_pos ⟨hb, h⟩

end

theorem estepWork_of_step {s : State} {x : State × Option Record} (h : encodeStep s = .ok x) :
    estepWork s = .ok (bumpEpochs s (reportRecord x)) := by
  unfold estepWork
  rw [h]

theorem dstepWork_of_step {s : State} {x : State × Option Record} (h : decodeStep s = .ok x) :
    dstepWork s = .ok (bumpEpochs s (reportRecord x)) := by
  unfold dstepWork
  rw [h]

theorem estepWork_of_end {s t : State} (h : encodeStep s = .ok (t, none)) (hm : t.mem = s.mem) :
    estepWork s = .ok (t.stepFlags false false true) :=
  (estepWork_of_step h).trans (congrArg Except.ok (bumpEpochs_same hm))

theorem dstepWork_of_end {s t : State} (h : decodeStep s = .ok (t, none)) (hm : t.mem = s.mem) :
    dstepWork s = .ok (t.stepFlags false false true) :=
  (dstepWork_of_step h).trans (congrArg Except.ok (bumpEpochs_same hm))

/-- A first step that finishes without a record ends the run (R214, R226, R227). -/
theorem runSteps_of_end {step : State → Work (State × Option Record)} {fuel n : Nat} {s t : State}
    (hr : s.estate = .ready) (h : step s = .ok (t, none)) (hd : t.estate ≠ .ready) :
    runSteps step (fuel + 1) n s = .ok (t, n) := by
  rw [runSteps, if_pos hr, h]
  exact runSteps_done hd

/-! ### DRUN over a well-formed stream -/

/-- `n` records of at least two bits each take at least `n` bits, the last one even without its character. -/
theorem StreamReads.length_le {s : State} {n : Nat} (h : StreamReads s n) (hw : 2 ≤ s.setup.width) : n ≤ s.remaining := by
  have hbits : s.setup.width ≤ s.recordBits := Nat.le_add_right _ _
  rcases h.1 with h | ⟨hv, hn, h⟩
  · calc n = n * 1 := (Nat.mul_one n).symm
      _ ≤ n * s.recordBits := Nat.mul_le_mul_left n (by omega)
      _ = s.remaining := h.symm
  · have h8 : s.recordBits = s.setup.width + 8 := congrArg _ (if_pos hv)
    obtain ⟨k, rfl⟩ : ∃ k, n = k + 1 := ⟨n - 1, by omega⟩
    have hk : k * 1 ≤ k * s.recordBits := Nat.mul_le_mul_left k (by omega)
    rw [Nat.succ_mul] at h
    omega

/-- The cursor is inside CW, which fits (R45). -/
theorem Inv.buffer {s : State} (h : Inv s) (b : Buf) : (s.buf b).rc ≤ (s.buf b).len ∧ (s.buf b).len ≤ s.capBits :=
  (Buffer.wf_iff _ _).1 (memOk_of_buf.1 h.mem b)

theorem capBits_lt {s : State} (h : buildOk s.build = true) : s.capBits < 2 ^ 32 := by
  simp only [buildOk, decide_eq_true_eq] at h
  exact Nat.pow_lt_pow_right (by decide) (by omega)

/-- The state DRUN starts from stands in front of a well-formed stream. -/
theorem streaming_of {s : State} {n m : Nat} (hr : ReadyIn .dec s) (hI : Inv s) (hwhole : (s.buf .out).len % 8 = 0)
    (htab : TableReads s m) (hstream : StreamReads s n) (hnum : s.setup.unb = true → s.size + n ≤ s.setup.limit)
    (hroom : (s.buf .out).len + 8 * (n * (m + n)) ≤ s.capBits) :
    Streaming s.begin n m (s.charsAt .out 0 (s.buf .out).nchars) where
  configured := hr.2.1
  mode := hr.2.2.1
  ready := hr.2.2.2
  whole := holds_charsAt hwhole
  width := width_pos hI.begin hr.2.1
  size := hI.queue.size
  small := capBits_lt hI.build
  table := htab
  stream := hstream
  numbers := hnum
  room := hroom

/-- Settles O53: the end of the input is the first check of a step; a stream is its records, one after the other. -/
theorem endOfInputFinishes : Obligations.EndOfInputFinishes := by
  refine ⟨fun s hr hwhole hend => ?_, fun s hr hwhole hend => ?_,
    fun s n m hr hinv hwhole htab hstream hnum hroom => ?_⟩
  · have hstep := encodeStep_end (ready_of hr) hwhole hend
    have hrun := runSteps_of_end (s := s.begin) (fuel := (s.begin.buf .src).nchars + 1) (n := 0) hr.2.2.2 hstep EngineState.noConfusion
    exact ⟨⟨_, exec_of_work hr.1 (estepWork_of_end hstep rfl), results_begin s, rfl, rfl, rfl⟩,
      ⟨_, exec_of_work hr.1 ((erunWork_of_run (ready_of hr) hrun).trans (congrArg Except.ok (bumpEpochs_same rfl))),
        results_begin s, rfl, rfl, rfl⟩⟩
  · have hrem : s.begin.remaining = 0 := Nat.sub_eq_zero_of_le (Nat.le_of_eq hend.symm)
    have hstep := decodeStep_end (s := s.begin) hr.2.1 hr.2.2.1 hr.2.2.2 hwhole hrem
    have hrun := runSteps_of_end (s := s.begin) (fuel := s.begin.remaining + 1) (n := 0) hr.2.2.2 hstep EngineState.noConfusion
    exact ⟨⟨_, exec_of_work hr.1 (dstepWork_of_end hstep rfl), results_begin s, rfl, rfl, rfl⟩,
      ⟨_, exec_of_work hr.1 ((drunWork_of_run (decodeReady_of hr) hrun).trans (congrArg Except.ok (bumpEpochs_same rfl))),
        results_begin s, rfl, rfl, rfl⟩⟩
  · have hI := (inv_iff s).1 hinv
    have hlen := hstream.length_le (setup_width hI.setup hr.2.1).1
    obtain ⟨u, hrun, hd⟩ := decodeRun_completes (fuel := s.begin.remaining + 2) (count := 0)
      (streaming_of hr hI hwhole htab hstream hnum hroom) (Nat.lt_succ_of_le (Nat.le_succ_of_le hlen))
    rw [Nat.zero_add] at hrun
    obtain ⟨cs, hout, hcs⟩ := hd.out
    have hrc : (s.buf .cw).rc + s.remaining = (s.buf .cw).len := Nat.add_sub_of_le (hI.buffer .cw).1
    have hcw : u.buf .cw = { s.buf .cw with rc := (s.buf .cw).len } := hrc ▸ hd.cw
    refine ⟨_, exec_of_work hr.1 (drunWork_of_run (decodeReady_of hr) hrun), bumpEpochs_results _ _ _ _ _ _, ?_, ?_,
      (bumpEpochs_src _ _).trans hd.src, (bumpEpochs_unchanged ?_).trans hcw, (bumpEpochs_rc _ _ _).trans ?_,
      ⟨bitsOf cs, (bumpEpochs_bits _ _ _).trans ?_, ?_, ?_⟩, ?_⟩
    · rw [bumpEpochs_frame, hd.frame]
      rfl
    · rw [bumpEpochs_frame]
      exact hd.done
    · exact (congrArg Buffer.len hcw :)
    · exact (congrArg Buffer.rc hout :)
    · exact (congrArg Buffer.bits hout :)
    · rw [bitsOf_length]
      exact Nat.mul_mod_right 8 _
    · rw [bitsOf_length]
      exact Nat.mul_le_mul_left 8 hcs
    · rw [bumpEpochs_frame, hd.frame]
      rfl

/-! ### ERUN over the rest of the input -/

/-- Settles O55: each step takes a character at least, and room and numbers last for a record per character. -/
theorem encodeRunCompletes : Obligations.EncodeRunCompletes := by
  intro s hr hinv hexact hwhole hpos left hnum hroom
  have hI := (inv_iff s).1 hinv
  have hw := (setup_width hI.setup hr.2.1).1
  obtain ⟨u, n, hrun, hd⟩ := encodeRun_completes (fuel := (s.begin.buf .src).nchars + 2) (n := 0)
    (hI.encOk hr).begin (((exact_iff s).1 hexact).congr rfl rfl) hr.2.2.2 hwhole hpos
    (Nat.lt_succ_of_le (Nat.le_succ_of_le (Nat.sub_le _ _))) hnum hroom
  rw [Nat.zero_add] at hrun
  obtain ⟨l, hcw, hl, hl0⟩ := hd.cw
  have hout : u.buf .out = s.buf .out := hd.other .out (by decide)
  have hlen : (u.buf .cw).len = (s.buf .cw).len + l.length := by
    rw [hcw]
    exact List.length_append
  refine ⟨_, n, exec_of_work hr.1 (erunWork_of_run (ready_of hr) hrun), bumpEpochs_results _ _ _ _ _ _, ?_, hd.few,
    fun h => hd.some_ (Nat.lt_of_sub_pos h), ?_, ?_, (bumpEpochs_src _ _).trans (hd.other .src (by decide)),
    (bumpEpochs_unchanged (s := s.begin) (t := u.results n 0 0 0) (congrArg Buffer.len hout :)).trans hout,
    (bumpEpochs_rc _ _ _).trans (congrArg Buffer.rc hcw :), ⟨l, (bumpEpochs_bits _ _ _).trans (congrArg Buffer.bits hcw :), hl⟩,
    ?_, ?_⟩
  · rw [bumpEpochs_frame, hd.frame]
    rfl
  · rw [bumpEpochs_frame]
    exact hd.done
  · rw [bumpEpochs_frame]
    exact hd.epos
  · by_cases h0 : left = 0
    · have hn : n = 0 := Nat.le_zero.1 (h0 ▸ hd.few)
      rw [if_pos h0, bumpEpochs_unchanged]
      · exact (congrArg Buffer.epoch hcw :)
      · exact hlen.trans (by rw [hl0 hn]; rfl)
    · have hn : 0 < n := hd.some_ (Nat.lt_of_sub_pos (Nat.pos_of_ne_zero h0))
      have hpos : 0 < n * s.setup.width := Nat.mul_pos hn (by omega)
      have hl : n * s.setup.width ≤ l.length := hl
      rw [if_neg h0, bumpEpochs_grown (by decide)]
      · exact (congrArg (·.epoch + 1) hcw :)
      · show (u.buf .cw).len ≠ (s.buf .cw).len
        omega
  · rw [bumpEpochs_frame, hd.frame]
    exact ⟨rfl, rfl, rfl⟩

end Sys2Proof.Machine
end

section
/-! PROOFS. One record of the encoder (43_engine.md R210 to R215). -/

namespace Sys2Proof.Machine

theorem charAt_of_buf {s t : State} {b : Buf} (hb : t.buf b = s.buf b) (hf : t.freeCount = s.freeCount) (k : Nat) :
    t.charAt b k = s.charAt b k := by
  unfold State.charAt
  rw [hb, hf]

/-- A command starts in the policy state it finds (R172). -/
theorem matchPolicy_of_begin {s p : State} {i j : Nat} (h : matchPolicy i s.begin = .ok (p, j)) :
    ∃ q, matchPolicy i s = .ok (q, j) ∧ q.pol = p.pol ∧ q.size = p.size := by
  obtain ⟨ha, rfl, rfl⟩ := matchPolicy_ok h
  exact ⟨_, matchPolicy_of_allowed (s := s) ha, rfl, rfl⟩

/-- The policy's part of a record is PMATCH of its number (R172). -/
theorem exec_pmatch_of_step {s p t : State} {i j : Nat} (hf : s.fault = false) (hi : i < 2 ^ 32)
    (h : matchPolicy i s.begin = .ok (p, j)) (hpol : t.pol = p.pol) (hsize : t.size = p.size) :
    ∃ q, exec .pmatch { s with a0 := toWord i } = .next q ∧ q.fault = false ∧ q.r0 = toWord j ∧ t.pol = q.pol
      ∧ t.size = q.size := by
  obtain ⟨p', hp', hpol', hsize'⟩ := matchPolicy_of_begin h
  obtain ⟨q, hex, hq, hr0, hqpol, hqsize⟩ := pmatch_of hf hi hp'
  exact ⟨q, hex, hq, hr0, hpol.trans (hpol'.symm.trans hqpol), hsize.trans (hsize'.symm.trans hqsize)⟩

/-- An assigned number fits in a register (R35). -/
theorem number_lt {s : State} (hI : Inv s) (hc : s.configured = true) {i : Nat} (hi : i ≤ s.size) : i < 2 ^ 32 := by
  have hw := setup_width hI.setup hc
  have hs := hI.queue.size
  omega

/-- The longest match names an assigned number (R47, R153). -/
theorem Longest.assigned {s : State} {p i L : Nat} (h : Longest s p i L) (hd : EncDict s) : i ≤ s.size := by
  obtain ⟨nd, hs, ha, -⟩ := h.found
  exact hd.assigned i (by rw [body_of_slot hs, if_pos ha]; exact Option.some_ne_none _)

/-- What ESTEP and DSTEP leave of a step with a record: its report, and the mutations counted (R100, R210, R220). -/
def recorded (s u : State) (r : Record) : State := bumpEpochs s (reportRecord (u, some r))

section
variable {s u : State} {r : Record}

theorem recorded_frame : recorded s u r = { u with
    mem := (recorded s u r).mem, r0 := toWord r.i, r1 := toWord r.len, r2 := toWord r.char.toNat, r3 := toWord r.j
    flags := { u.flags with hasChar := r.hasChar, reject := decide (r.j = 0), eoi := false } } := by
  unfold recorded
  rw [bumpEpochs_frame]
  rfl

theorem recorded_results : Results (recorded s u r) r.i r.len r.char.toNat r.j := by
  rw [recorded_frame]
  exact ⟨rfl, rfl, rfl, rfl⟩

theorem recorded_body (k : Nat) : (recorded s u r).body k = u.body k := by
  rw [recorded_frame]
  rfl

theorem recorded_flags (h : u.flags = Flags.clear) :
    (recorded s u r).flags = { Flags.clear with hasChar := r.hasChar, reject := decide (r.j = 0) } := by
  rw [recorded_frame, h]
  rfl

end

/-- The bits of a record make CW longer. -/
theorem emitted_ne_nil {s : State} (hw : 2 ≤ s.setup.width) (i : Nat) (has : Bool) (c : Byte) :
    (emitted s i has c).length ≠ 0 := by
  have := emitted_length s i has c
  omega

section
variable {s u : State} {r : Record} (h : EncStep s u r)
include h

theorem EncStep.recorded_cw (hw : 2 ≤ s.setup.width) : (recorded s u r).buf .cw = { s.buf .cw with
    bits := (s.buf .cw).bits ++ natBits s.setup.width r.i
      ++ if s.setup.variant = .lz78 ∧ r.hasChar = true then natBits 8 r.char.toNat else []
    epoch := (s.buf .cw).epoch + 1 } := by
  have hne := emitted_ne_nil hw r.i r.hasChar r.char
  refine (bumpEpochs_grown (t := reportRecord (u, some r)) (b := .cw) (by decide) ?_).trans ?_
  · show (u.buf .cw).len ≠ _
    have hlen : (u.buf .cw).len = (s.buf .cw).len + (emitted s r.i r.hasChar r.char).length := by
      rw [h.cw]
      exact List.length_append
    omega
  · show (u.buf .cw).bump = _
    rw [h.cw, List.append_assoc]
    rfl

theorem EncStep.recorded_src : (recorded s u r).buf .src = s.buf .src :=
  (bumpEpochs_src _ _).trans (h.other .src (by decide))

theorem EncStep.recorded_out : (recorded s u r).buf .out = s.buf .out :=
  (bumpEpochs_unchanged (t := reportRecord (u, some r)) (congrArg Buffer.len (h.other .out (by decide)) :)).trans
    (h.other .out (by decide))

theorem EncStep.recorded_charAt (k : Nat) : (recorded s u r).charAt .src k = s.charAt .src k := by
  refine charAt_of_buf h.recorded_src ?_ k
  rw [recorded_frame, h.frame]

/-- Every other codeword is as before (R135, R213). -/
theorem EncStep.recorded_kept (hj : r.j ≠ 0) {k : Nat} (hk : k ≠ r.j) :
    (recorded s u r).activeAt k = s.activeAt k
      ∧ (s.activeAt k = true → (recorded s u r).nodeString k = s.nodeString k) := by
  have hb := (recorded_body (s := s) (r := r) k).trans (h.kept hj k hk)
  exact ⟨activeAt_congr hb, fun ha => nodeString_src hb ha h.recorded_charAt⟩

/-- The assigned number is the longest match and one character more (R210). -/
theorem EncStep.recorded_grown (hE : EncOk s) (hj : r.j ≠ 0) (hc : r.hasChar = true) :
    (recorded s u r).activeAt r.j = true
      ∧ (recorded s u r).nodeString r.j = s.nodeString r.i ++ [s.charAt .src (s.epos + r.len)] := by
  obtain ⟨-, hbody⟩ := h.grown hj hc
  have hb := (recorded_body (s := s) (r := r) r.j).trans hbody
  obtain ⟨nd, hslot, -, hlen, hspells⟩ := h.long.found
  have hlt : s.epos + r.len < (s.buf .src).nchars := of_decide_eq_true (h.has.symm.trans hc)
  exact ⟨by rw [activeAt_body, hb]; rfl, nodeString_grown hslot hlen h.recorded_charAt hb
    (small_of_inside hE.build hE.mem (n := r.len) hlt) hspells⟩

end

/-- Settles O54: `encodeStep_outcome` names the fault or the record, and `EncStep` says what the record does. -/
theorem encodeStepRecord : Obligations.EncodeStepRecord := by
  intro s hr hinv hexact hwhole hpos
  have hI := (inv_iff s).1 hinv
  have hE := (hI.encOk hr).begin
  have hw := setup_width hI.setup hr.2.1
  obtain ⟨i, L, hlong, hnumber, hchar, hfull, hstep⟩ := encodeStep_outcome hE (ready_of hr) hwhole hpos
  refine ⟨fun hc => fault_of .capacity _ hr.1 (estepWork_error_iff.2 (hnumber hc)), i, L, hlong.isLongest, ?_⟩
  intro has c withChar fits full
  have hwith : ∀ {α : Type} (x y : α), (if s.setup.variant = .lz78 ∧ has = true then x else y) = if withChar then x else y :=
    fun _ _ => if_congr and_comm rfl rfl
  have hfits : fits ↔ (s.buf .cw).len
      + (s.setup.width + if s.setup.variant = .lz78 ∧ has = true then 8 else 0) ≤ s.capBits := by
    rw [← Nat.add_assoc, hwith]
  refine ⟨fun hc hn => fault_of .capacity 8 hr.1 (estepWork_error_iff.2 (hchar hc (Nat.lt_of_not_le (mt hfits.2 hn)))),
    fun hf hu => fault_of .arenaFull 0 hr.1 (estepWork_error_iff.2 (hfull (hfits.1 hf) hu)), fun hf hu => ?_⟩
  obtain ⟨u, r, hu, rfl, rfl⟩ := hstep (hfits.1 hf) hu (((exact_iff s).1 hexact).congr rfl rfl)
  obtain ⟨r', hr', h⟩ := encodeStep_sound hE hpos hu
  cases hr'
  have hhas : r.hasChar = has := h.has
  have hc : r.char = c := by
    rw [h.char, hhas]
    rfl
  obtain ⟨p, hp, hpol, hsize⟩ := h.policy
  refine ⟨recorded s.begin u r, r.j, exec_of_work hr.1 (estepWork_of_step hu), hc ▸ recorded_results, ?_, ?_, h.recorded_src,
    h.recorded_out, ?_, ?_, ?_, ?_, ?_, fun hj => ?_, fun hj => ⟨fun k hk => (h.recorded_kept hj hk).1,
      fun k hk => (h.recorded_kept hj hk).2⟩, fun hj hh => ?_, fun hj hh => ?_⟩
  · rw [← hhas]
    exact recorded_flags (by rw [h.frame]; rfl)
  · rw [recorded_frame, h.frame]
    rfl
  · rw [h.recorded_cw hw.1, hhas, hc]
    exact congrArg (fun l => ({ s.buf .cw with
      bits := (s.buf .cw).bits ++ natBits s.setup.width r.i ++ l, epoch := (s.buf .cw).epoch + 1 } : Buffer)) (hwith _ _)
  · rw [recorded_frame]
    show u.epos = _
    rw [h.epos, hhas, Nat.add_assoc]
    exact congrArg (fun n => s.epos + (r.len + n)) (hwith 1 0)
  · rw [recorded_frame]
    exact h.estate.trans (by rw [hhas, show s.begin.estate = .ready from hr.2.2.2])
  · rw [recorded_frame]
    exact h.mstate
  · refine exec_pmatch_of_step hr.1 (number_lt hI hr.2.1 (h.long.assigned hE.encDict)) hp ?_ ?_
    · rw [recorded_frame]
      exact hpol
    · rw [recorded_frame]
      exact hsize
  · rw [recorded_frame]
    exact h.rejected hj
  · obtain ⟨hactive, hstring⟩ := h.recorded_grown hE hj (hhas.trans hh)
    refine ⟨?_, hactive, ?_⟩
    · rw [recorded_frame]
      exact (h.grown hj (hhas.trans hh)).1
    · rw [hstring, show c = s.charAt .src (s.epos + r.len) from if_pos hh]
      rfl
  · obtain ⟨hnl, hslot⟩ := h.flushed hj (hhas.trans hh)
    rw [recorded_frame]
    refine ⟨hnl, ?_⟩
    show u.occupied r.j = false
    exact (occupied_false u r.j).2 hslot

end Sys2Proof.Machine
end

section
/-! PROOFS. One record of the decoder, and the streams it cannot parse (43_engine.md R220 to R225). -/

namespace Sys2Proof.Machine

/-! ### A well-formed record -/

/-- The record `RecordReads` describes, over the characters of OUT. -/
theorem readable_of {s : State} {e : Entry} (hr : ReadyIn .dec s) (hw : 2 ≤ s.setup.width)
    (hwhole : (s.buf .out).len % 8 = 0) (h : RecordReads s e) :
    Readable s.begin e (s.charsAt .out 0 (s.buf .out).nchars) := by
  obtain ⟨hwide, hi, he, hlzw, hfinal, hchar, hseed, hinside⟩ := h
  exact {
    configured := hr.2.1
    mode := hr.2.2.1
    ready := hr.2.2.2
    whole := holds_charsAt hwhole
    more := Nat.ne_of_gt (Nat.lt_of_lt_of_le (by omega) hwide)
    wide := hwide
    entry := he
    assigned := hi
    lzw := hlzw
    final := fun hf => hfinal (of_decide_eq_true hf).1 (of_decide_eq_true hf).2
    char := fun hh => hchar (of_decide_eq_true hh).1 (of_decide_eq_true hh).2
    copyable := ⟨hseed, by rw [length_charsAt]; exact hinside⟩ }

section
variable {s u : State} {r : Record} {e : Entry} {O : List Byte} (h : DecStep s u r e O)
include h

theorem DecStep.recorded_src : (recorded s u r).buf .src = s.buf .src :=
  (bumpEpochs_src _ _).trans h.src

theorem DecStep.recorded_cw : (recorded s u r).buf .cw
    = { s.buf .cw with rc := (s.buf .cw).rc + s.setup.width + if s.nextHas = true then 8 else 0 } :=
  (bumpEpochs_unchanged (t := reportRecord (u, some r)) (congrArg Buffer.len h.cw :)).trans h.cw

theorem DecStep.recorded_bits : ((recorded s u r).buf .out).bits = (s.buf .out).bits ++ bitsOf (s.nextString e O) :=
  (bumpEpochs_bits _ _ _).trans (congrArg Buffer.bits h.out :)

theorem DecStep.recorded_rc : ((recorded s u r).buf .out).rc = (s.buf .out).rc :=
  (bumpEpochs_rc _ _ _).trans (congrArg Buffer.rc h.out :)

theorem DecStep.recorded_holds (hO : Holds (s.buf .out) O) :
    Holds ((recorded s u r).buf .out) (O ++ s.nextString e O) := by
  unfold Holds
  rw [h.recorded_bits, bitsOf_append, ← hO]

theorem DecStep.recorded_len (hc : Copyable O.length e) :
    ((recorded s u r).buf .out).len = (s.buf .out).len + 8 * (e.length + s.nextHas.toNat) := by
  unfold Buffer.len
  rw [h.recorded_bits, List.length_append, bitsOf_length, nextString_length hc]

/-- EPOCH of OUT counts the record unless it writes nothing (R100). -/
theorem DecStep.recorded_epoch (hc : Copyable O.length e) : ((recorded s u r).buf .out).epoch
    = if e.length + s.nextHas.toNat = 0 then (s.buf .out).epoch else (s.buf .out).epoch + 1 := by
  have hlen : (u.buf .out).len = (s.buf .out).len + 8 * (e.length + s.nextHas.toNat) := by
    unfold Buffer.len
    rw [h.out, List.length_append, bitsOf_length, nextString_length hc]
  have hepoch : (u.buf .out).epoch = (s.buf .out).epoch := (congrArg Buffer.epoch h.out :)
  split
  · next h0 =>
    exact (congrArg Buffer.epoch (bumpEpochs_unchanged (s := s) (t := reportRecord (u, some r)) (by
      show (u.buf .out).len = _
      omega) :)).trans hepoch
  · next h0 =>
    exact (congrArg Buffer.epoch (bumpEpochs_grown (s := s) (t := reportRecord (u, some r)) (b := .out) (by decide) (by
      show (u.buf .out).len ≠ _
      omega)) :).trans (congrArg (· + 1) hepoch)

/-- The string of the record, after the characters of OUT before it. -/
theorem DecStep.recorded_charAt (hO : Holds (s.buf .out) O) {k : Nat} {c : Byte}
    (hk : (O ++ s.nextString e O)[k]? = some c) : (recorded s u r).charAt .out k = c :=
  charAt_holds (h.recorded_holds hO) hk

end

section
variable {s : State} {e : Entry} {O : List Byte} (hc : Copyable O.length e)
include hc

/-- Inside the string of the entry the record's characters are those CopyOut writes. -/
theorem nextString_copied {k : Nat} (hk : k < O.length + e.length) :
    (O ++ s.nextString e O)[k]? = (O ++ copied O s.nextNumber e)[k]? := by
  unfold State.nextString
  rw [← List.append_assoc]
  exact List.getElem?_append_left (by rw [List.length_append, copied_length hc]; exact hk)

/-- The extending character stands after the string of the entry. -/
theorem nextString_char (hh : s.nextHas = true) :
    (O ++ s.nextString e O)[O.length + e.length]? = some s.nextChar := by
  unfold State.nextString
  rw [if_pos hh, ← List.append_assoc, List.getElem?_append_right (by rw [List.length_append, copied_length hc]),
    List.length_append, copied_length hc, Nat.sub_self]
  rfl

theorem nextString_seed (hs : e.start = Config.seed) :
    (O ++ s.nextString e O)[O.length]? = some (BitVec.ofNat 8 (s.nextNumber - 1)) := by
  have hlen := hc.1 hs
  rw [nextString_copied hc (by omega), List.getElem?_append_right (Nat.le_refl _), Nat.sub_self, copied, if_pos hs]
  rfl

/-- A string of OUT repeats the characters it starts at, its own first one included (R222). -/
theorem nextString_repeats (hs : e.start ≠ Config.seed) {k : Nat} (hk : k < e.length) :
    ∃ c, (O ++ s.nextString e O)[O.length + k]? = some c ∧ (O ++ s.nextString e O)[e.start + k]? = some c := by
  have hin := (hc.2 hs).resolve_left (by omega)
  have hlt : O.length + k < (O ++ copied O s.nextNumber e).length := by
    rw [List.length_append, copied_length hc]
    omega
  refine ⟨(O ++ copied O s.nextNumber e)[O.length + k], ?_, ?_⟩
  · rw [nextString_copied hc (by omega), List.getElem?_eq_getElem hlt]
  · rw [nextString_copied hc (by omega), ← copied_self hc hs hk, List.getElem?_eq_getElem hlt]

end

/-- Settles O57: a readable record is refused by OUT or by the policy, or it is decoded as `DecStep` says. -/
theorem decodeStepRecord : Obligations.DecodeStepRecord := by
  intro s e hr hinv hwhole hreads
  have hI := (inv_iff s).1 hinv
  have hR := readable_of hr (setup_width hI.setup hr.2.1).1 hwhole hreads
  have hpos : (s.charsAt .out 0 (s.buf .out).nchars).length = (s.buf .out).nchars := length_charsAt _ _ _ _
  generalize s.charsAt .out 0 (s.buf .out).nchars = O at hR hpos
  intro i left pos has final c fits full
  refine ⟨fun hn => fault_of .capacity 8 hr.1 (dstepWork_error_iff.2 (decodeStep_capacity hR (hI.buffer .out).2 hn)),
    fun hf hu => fault_of .arenaFull 0 hr.1 (dstepWork_error_iff.2 (decodeStep_full hR hf hu)), fun hf hu => ?_⟩
  have ha : MatchAllowed s.begin s.begin.nextNumber := ⟨hr.2.1, by rw [hR.ready]; exact EngineState.noConfusion, hR.assigned, hu⟩
  obtain ⟨u, r, hu, h⟩ := decodeStep_forward ⟨hR, ha, hf⟩
  obtain ⟨p, hp, hpol, hsize⟩ := h.policy
  have hchar : r.char.toNat = if has = true then c else 0 := by
    rw [h.char]
    show (if has = true then s.begin.nextChar else 0 : Byte).toNat = _
    rw [apply_ite BitVec.toNat]
    exact if_congr Iff.rfl (Nat.mod_eq_of_lt (read_lt _ _ _)) rfl
  refine ⟨recorded s.begin u r, r.j, exec_of_work hr.1 (dstepWork_of_step hu), ?_, ?_, ?_, h.recorded_src, h.recorded_cw,
    h.recorded_rc, h.recorded_epoch hR.copyable, ?_, h.recorded_len hR.copyable, fun hs => ?_, fun hs k hk => ?_,
    fun hh => ?_, ?_, ?_, fun hj => ?_, fun hj => ?_⟩
  · rw [← hchar, ← h.len, show i = r.i from h.number.symm]
    exact recorded_results
  · refine (recorded_flags ?_).trans ?_
    · rw [h.frame]
      rfl
    · rw [h.has]
      rfl
  · rw [recorded_frame, h.frame]
    rfl
  · rw [h.recorded_bits]
    exact List.take_left
  · have hx := nextString_seed (s := s.begin) hR.copyable hs
    rw [hpos] at hx
    exact h.recorded_charAt hR.whole hx
  · obtain ⟨x, hx, hy⟩ := nextString_repeats (s := s.begin) hR.copyable hs hk
    rw [hpos] at hx
    exact (h.recorded_charAt hR.whole hx).trans (h.recorded_charAt hR.whole hy).symm
  · have hx := nextString_char (s := s.begin) hR.copyable hh
    rw [hpos] at hx
    exact h.recorded_charAt hR.whole hx
  · rw [recorded_frame]
    exact h.estate.trans (if_congr decide_eq_true_iff rfl rfl)
  · refine exec_pmatch_of_step hr.1 (number_lt hI hr.2.1 hR.assigned) hp ?_ ?_
    · rw [recorded_frame]
      exact hpol
    · rw [recorded_frame]
      exact hsize
  · rw [recorded_frame]
    exact h.tab.trans (if_pos hj)
  · have htab : (recorded s.begin u r).tab = Table.put s.tab r.j { start := pos, length := e.length + 1 } := by
      rw [recorded_frame]
      exact h.tab.trans ((if_neg hj).trans (by rw [hpos]; rfl))
    rw [htab]
    exact ⟨Table.get_put_same _ _ _, fun k hk => Table.get_put_other _ _ hk⟩

/-! ### Streams the decoder cannot parse (R224) -/

section
variable {s : State} {i : Nat} {e : Entry}

theorem copyOut_of_start (hs : e.start ≠ Config.seed) (hn : e.length ≠ 0) (h : (s.buf .out).nchars ≤ e.start) :
    copyOut i e s = .error ⟨.badStream, e.start⟩ := by
  unfold copyOut
  rw [if_neg hs, if_neg hn, if_pos h]
  rfl

/-- A string that would run two or more characters past OUT is refused once its first character is written (R222). -/
theorem copyOut_of_end (hs : e.start ≠ Config.seed) (hn : e.length ≠ 0) (h : e.start < (s.buf .out).nchars)
    (hroom : (s.buf .out).len + 8 ≤ s.capBits) (hend : (s.buf .out).nchars + 1 < e.start + e.length) :
    copyOut i e s = .error ⟨.badStream, e.start⟩ := by
  have hchars : ∀ c, ((s.emitChars [c]).buf .out).nchars = (s.buf .out).nchars + 1 := fun c => by
    unfold Buffer.nchars Buffer.len
    rw [emitChars_out]
    show ((s.buf .out).bits ++ _).length / 8 = _
    rw [List.length_append, bitsOf_length]
    exact Nat.add_div_right _ Nat.ofNat_pos
  unfold copyOut
  rw [if_neg hs, if_neg hn, if_neg (Nat.not_le.2 h), putChar_of_room hroom]
  exact if_pos (by rw [hchars]; exact hend)

theorem copyOut_of_empty (hs : e.start ≠ Config.seed) (hn : e.length = 0) : copyOut i e s = .ok s := by
  unfold copyOut
  rw [if_neg hs, if_pos hn]

section
variable (hv : s.setup.variant = .lz78)
include hv

theorem decodeChar_of_final_zero (h : s.remaining = 0) (hi : i = 0) : decodeChar i s = .error ⟨.badStream, 0⟩ := by
  unfold decodeChar
  rw [hv]
  exact (if_pos h).trans (if_pos hi)

theorem decodeChar_of_partial (h0 : s.remaining ≠ 0) (h : s.remaining < 8) :
    decodeChar i s = .error ⟨.badStream, s.remaining⟩ := by
  unfold decodeChar
  rw [hv]
  exact (if_neg h0).trans (if_pos h)

end

theorem decodeRecord_of_copy_error {x : Raise} (h : copyOut i e s = .error x) : decodeRecord i e s = .error x := by
  unfold decodeRecord
  dsimp only
  rw [h]

theorem decodeRecord_of_char_error {t : State} {x : Raise} (h : copyOut i e s = .ok t) (hc : decodeChar i t = .error x) :
    decodeRecord i e s = .error x := by
  unfold decodeRecord
  dsimp only
  rw [h]
  dsimp only
  rw [hc]

end

/-- Moving the cursor of CW past the number leaves what follows it. -/
theorem advanceCw_remaining (s : State) : (advanceCw s.setup.width s).remaining = s.leftAfter := by
  unfold State.remaining
  rw [advanceCw_cw]
  exact Nat.sub_add_eq _ _ _

theorem emitChars_remaining (s : State) (cs : List Byte) : (s.emitChars cs).remaining = s.remaining := by
  unfold State.remaining
  rw [emitChars_other _ _ (by decide)]

section
variable {s : State} (hr : DecodeReady s) (hwhole : (s.buf .out).len % 8 = 0) (hmore : s.remaining ≠ 0)
include hr hwhole hmore

theorem decodeStep_of_short (h : s.remaining < s.setup.width) : decodeStep s = .error ⟨.badStream, s.remaining⟩ := by
  unfold decodeStep
  rw [if_neg (ne_false_of_eq_true hr.1), if_neg (not_or.2 ⟨not_not.2 hr.2.1, not_not.2 hr.2.2⟩), if_neg (not_not.2 hwhole),
    if_neg hmore]
  exact if_pos h

variable (hwide : s.setup.width ≤ s.remaining)
include hwide

theorem decodeStep_of_no_entry (h : s.decodedEntry s.nextNumber = none) :
    decodeStep s = .error ⟨.badStream, s.nextNumber⟩ := by
  unfold State.nextNumber at h ⊢
  unfold decodeStep
  rw [if_neg (ne_false_of_eq_true hr.1), if_neg (not_or.2 ⟨not_not.2 hr.2.1, not_not.2 hr.2.2⟩), if_neg (not_not.2 hwhole),
    if_neg hmore, if_neg (Nat.not_lt.2 hwide)]
  dsimp only
  rw [h]
  rfl

theorem decodeStep_of_record_error {e : Entry} {x : Raise} (hi : s.nextNumber ≤ s.size)
    (he : Table.get s.tab s.nextNumber = some e) (hz : ¬(s.setup.variant = .lzw ∧ s.nextNumber = 0))
    (h : decodeRecord s.nextNumber e (advanceCw s.setup.width s) = .error x) : decodeStep s = .error x := by
  rw [decodeStep_unfold hr.1 hr.2.1 hr.2.2 hwhole hmore hwide he hi (fun hv h0 => hz ⟨hv, h0⟩), h]

end

/-- Settles O58: the checks of a decode step in order, each with the fault it raises. -/
theorem badStreams : Obligations.BadStreams := by
  intro s hr hwhole i left pos
  have hR := decodeReady_of hr
  have faults : ∀ {n : Nat}, decodeStep s.begin = .error ⟨.badStream, n⟩ → Faults .dstep s 0x11 n :=
    fun h => fault_of .badStream _ hr.1 (dstepWork_error_iff.2 h)
  refine ⟨fun hmore h => faults (decodeStep_of_short hR hwhole hmore h), fun hmore hwide =>
    ⟨fun h => faults (decodeStep_of_no_entry hR hwhole hmore hwide ?_), fun e hi he hz => ?_⟩⟩
  · show (if s.size < i ∨ (s.setup.variant = .lzw ∧ i = 0) then none else Table.get s.tab i) = none
    split
    · rfl
    · next hn => exact (h.resolve_left fun hs => hn (.inl hs)).resolve_right fun hs => hn (.inr hs)
  have refused : ∀ {n : Nat}, decodeRecord i e (advanceCw s.setup.width s.begin) = .error ⟨.badStream, n⟩
      → Faults .dstep s 0x11 n := fun h => faults (decodeStep_of_record_error hR hwhole hmore hwide hi he hz h)
  have hout : (advanceCw s.setup.width s.begin).buf .out = s.buf .out := advanceCw_other _ _ (by decide)
  have hleft : (advanceCw s.setup.width s.begin).remaining = left := advanceCw_remaining s.begin
  refine ⟨fun hs hn h => refused (decodeRecord_of_copy_error (copyOut_of_start hs hn (hout ▸ h))),
    fun hs hn h hroom hend => refused (decodeRecord_of_copy_error
      (copyOut_of_end hs hn (hout ▸ h) (hout ▸ hroom) (hout ▸ hend))),
    fun hn hs hv h0 hz => refused (decodeRecord_of_char_error (copyOut_of_empty hs hn)
      (decodeChar_of_final_zero hv (hleft.trans h0) hz)), fun hs hin hroom hv h0 h8 => refused ?_⟩
  have hO : Holds ((advanceCw s.setup.width s.begin).buf .out) (s.charsAt .out 0 (s.buf .out).nchars) :=
    hout ▸ holds_charsAt hwhole
  have hcopy := copyOut_emits (i := i) (e := e) hO
    ⟨fun hseed => absurd hseed hs, fun _ => by rw [length_charsAt]; exact hin⟩ (hout ▸ hroom)
  have hrem := (emitChars_remaining _ (copied (s.charsAt .out 0 (s.buf .out).nchars) i e)).trans hleft
  refine (decodeRecord_of_char_error hcopy (decodeChar_of_partial hv ?_ ?_)).trans (by rw [hrem])
  · rw [hrem]
    omega
  · rw [hrem]
    exact h8

end Sys2Proof.Machine
end

section
/-! PROOFS. decode(encode(x)) = x (43_engine.md R231): the decoder follows the encoder record by record. -/

namespace Sys2Proof.Machine

/-! ### The bits ahead of the cursor -/

/-- The bits of CW from the cursor on (R220). -/
def State.ahead (s : State) : Bits := (s.buf .cw).bits.drop (s.buf .cw).rc

theorem length_ahead (s : State) : s.ahead.length = s.remaining := List.length_drop

theorem read_ahead (s : State) (off n : Nat) :
    (s.buf .cw).read ((s.buf .cw).rc + off) n = bitsNat ((s.ahead.drop off).take n) := by
  unfold Buffer.read State.ahead
  rw [List.drop_drop]

section
variable {d : State} {i : Nat} {has : Bool} {c : Byte} {l : Bits} (h : d.ahead = emitted d i has c ++ l)
include h

/-- The decoder reads the number the encoder wrote (R211, R220). -/
theorem nextNumber_of_emitted (hi : i < 2 ^ d.setup.width) : d.nextNumber = i := by
  refine (read_ahead d 0 d.setup.width).trans ?_
  rw [h, emitted, List.drop_zero, List.append_assoc, List.take_left' (length_natBits _ _), bitsNat_natBits,
    Nat.mod_eq_of_lt hi]

theorem remaining_of_emitted :
    d.remaining = d.setup.width + (if d.setup.variant = .lz78 ∧ has = true then 8 else 0) + l.length := by
  rw [← length_ahead, h, List.length_append, emitted_length]

theorem leftAfter_of_emitted :
    d.leftAfter = (if d.setup.variant = .lz78 ∧ has = true then 8 else 0) + l.length := by
  unfold State.leftAfter
  rw [remaining_of_emitted h]
  omega

/-- The decoder reads the character the encoder wrote (R211, R220). -/
theorem nextChar_of_emitted (hv : d.setup.variant = .lz78 ∧ has = true) : d.nextChar = c := by
  unfold State.nextChar
  rw [read_ahead, h, emitted, if_pos hv, List.append_assoc, List.drop_left' (length_natBits _ _),
    List.take_left' (length_natBits _ _), bitsNat_byte]
  rw [BitVec.ofNat_toNat, BitVec.setWidth_eq]

section
variable (hl : has = false → l = [])
include hl

theorem leftAfter_eq_zero_iff (hv : d.setup.variant = .lz78) : d.leftAfter = 0 ↔ has = false := by
  rw [leftAfter_of_emitted h]
  cases has
  · simp [hl rfl]
  · simp [hv]

theorem nextHas_of_emitted : d.nextHas = decide (d.setup.variant = .lz78 ∧ has = true) :=
  decide_eq_decide.2 (and_congr_right fun hv => (not_congr (leftAfter_eq_zero_iff h hl hv)).trans (Bool.not_eq_false has).to_iff)

theorem nextFinal_of_emitted : d.nextFinal = decide (d.setup.variant = .lz78 ∧ has = false) :=
  decide_eq_decide.2 (and_congr_right fun hv => leftAfter_eq_zero_iff h hl hv)

/-- A decoded record leaves the cursor after its bits. -/
theorem DecStep.ahead {t : State} {r : Record} {e : Entry} {O : List Byte} (hd : DecStep d t r e O) : t.ahead = l := by
  have hlen : (emitted d i has c).length = d.setup.width + if d.nextHas = true then 8 else 0 := by
    rw [emitted_length, nextHas_of_emitted h hl]
    simp only [decide_eq_true_eq]
  unfold State.ahead
  rw [hd.cw]
  show (d.buf .cw).bits.drop ((d.buf .cw).rc + d.setup.width + _) = l
  rw [Nat.add_assoc, ← hlen, ← List.drop_drop]
  show d.ahead.drop _ = l
  rw [h, List.drop_left]

end

end

/-- A decoder configured like the encoder reads the fields the encoder writes. -/
theorem emitted_decode {s d : State} (h : d.setup = { s.setup with mode := .dec }) (i : Nat) (has : Bool) (c : Byte) :
    emitted d i has c = emitted s i has c := by
  unfold emitted
  rw [h]

/-- The record `r` of the encoder `s` is what the decoder `d` reads next (R211, R220). -/
structure Upcoming (s d : State) (r : Record) : Prop where
  number : d.nextNumber = r.i
  wide : d.setup.width ≤ d.remaining
  has : d.nextHas = decide (s.setup.variant = .lz78 ∧ r.hasChar = true)
  final : d.nextFinal = decide (s.setup.variant = .lz78 ∧ r.hasChar = false)
  whole : d.nextHas = true → 8 ≤ d.leftAfter
  char : d.nextHas = true → d.nextChar = r.char

theorem upcoming_of_emitted {s d : State} {r : Record} {l : Bits} (hs : d.setup = { s.setup with mode := .dec })
    (h : d.ahead = emitted d r.i r.hasChar r.char ++ l) (hl : r.hasChar = false → l = [])
    (hi : r.i < 2 ^ s.setup.width) : Upcoming s d r := by
  have hv : d.setup.variant = s.setup.variant := by rw [hs]
  have hhas := nextHas_of_emitted h hl
  have hrem := remaining_of_emitted h
  exact {
    number := nextNumber_of_emitted h (by rw [hs]; exact hi)
    wide := by omega
    has := hv ▸ hhas
    final := hv ▸ nextFinal_of_emitted h hl
    whole := fun hh => by
      rw [leftAfter_of_emitted h, if_pos (of_decide_eq_true (hhas.symm.trans hh))]
      exact Nat.le_add_right _ _
    char := fun hh => nextChar_of_emitted h (of_decide_eq_true (hhas.symm.trans hh)) }

/-- An encode step advances EPOS by the record's string, and by the character the decoder will read after it (R212). -/
theorem Upcoming.epos {s v d : State} {r : Record} (hE : EncStep s v r) (hU : Upcoming s d r) :
    v.epos = s.epos + r.len + d.nextHas.toNat := by
  rw [hE.epos, encodeAdvance, hU.has, ← Nat.add_assoc]
  exact congrArg (s.epos + r.len + ·) (Bool.cond_decide _ 1 0).symm

/-! ### A string of the input, copied out of the input before it -/

theorem Copyable.mono {n m : Nat} {e : Entry} (h : Copyable n e) (hnm : n ≤ m) : Copyable m e :=
  ⟨h.1, fun hs => (h.2 hs).imp_right fun ⟨h1, h2⟩ => ⟨by omega, by omega⟩⟩

/-- CopyOut of an entry that spells the input at `p`, over the input before `p`, writes the input at `p` (R222). -/
theorem copied_take {X : List Byte} {p i : Nat} {e : Entry} (hp : p + e.length ≤ X.length) (hc : Copyable p e)
    (hseed : e.start = Config.seed → X[p]? = some (BitVec.ofNat 8 (i - 1)))
    (hstr : e.start ≠ Config.seed → ∀ k, k < e.length → X[p + k]? = X[e.start + k]?) :
    copied (X.take p) i e = (X.drop p).take e.length := by
  have hlen : (X.take p).length = p := List.length_take_of_le (by omega)
  by_cases hs : e.start = Config.seed
  · rw [copied, if_pos hs, hc.1 hs, List.take_one, List.head?_drop, hseed hs]
    rfl
  refine List.ext_getElem? fun k => ?_
  by_cases hk : k < e.length
  · rw [copied_get hs hk, List.getElem?_take_of_lt hk, List.getElem?_drop, hstr hs k hk]
    obtain ⟨hstart, hend⟩ := (hc.2 hs).resolve_left (by omega)
    by_cases hlt : e.start + k < p
    · rw [List.getElem?_append_left (by rw [hlen]; exact hlt), List.getElem?_take_of_lt hlt]
    · have h0 := hstr hs 0 (by omega)
      rw [show e.start + k = p + 0 by omega, h0, List.getElem?_append_right (by omega), hlen,
        List.getD_eq_getElem?_getD, List.getElem?_take_of_lt hstart, Nat.add_zero, Nat.add_zero, Nat.sub_self,
        List.getElem?_eq_getElem (by omega : e.start < X.length)]
      rfl
  · rw [List.getElem?_eq_none (by rw [copied_length (by rw [hlen]; exact hc)]; omega),
      List.getElem?_eq_none (by rw [List.length_take]; omega)]

/-! ### The encoder and the decoder at the same place of the input -/

/-- The encoder `s` and the decoder `d` stand at the same character of the input `X`: the policies agree, every codeword of
the trie is an entry of TAB with the same characters, and OUT holds the input before EPOS (R231). -/
structure Coupled (X : List Byte) (s d : State) : Prop where
  enc : EncOk s
  policy : Exact s
  ordered : s.setup.policy = .smru → Ordered s.pol
  width : 2 ≤ s.setup.width
  limit : s.setup.limit < 2 ^ s.setup.width
  input : Holds (s.buf .src) X
  epos : s.epos ≤ X.length
  running : s.estate = .ready
  build : d.build = s.build
  configured : d.configured = true
  setup : d.setup = { s.setup with mode := .dec }
  ready : d.estate = .ready
  pol : d.pol = s.pol
  size : d.size = s.size
  output : Holds (d.buf .out) (X.take s.epos)
  entries : ∀ {k b n c}, s.body k = some (b, n, c) →
    Table.get d.tab k = some { start := b, length := n } ∧ Copyable s.epos { start := b, length := n }

/-- A codeword that starts at the seed mark is the seed of its own number (R131). -/
theorem EncDict.seed_number {s : State} (h : EncDict s) {k n c : Nat} (hb : s.body k = some (Config.seed, n, c)) : c = k := by
  obtain ⟨nd, hslot, -, hstart, -⟩ := body_some hb
  obtain ⟨h1, hk⟩ := h.trie.seeds hslot hstart
  have := hb.symm.trans (h.seeds k h1 hk)
  simp only [Option.some.injEq, Prod.mk.injEq] at this
  exact this.2.2

/-- Only the root has the empty string (R47). -/
theorem Longest.root_len {s : State} {p L : Nat} (h : Longest s p 0 L) (hd : EncDict s) : L = 0 := by
  obtain ⟨nd, hslot, -, hlen, -⟩ := h.found
  obtain ⟨rd, hroot, -, -, hlen0, -⟩ := body_some hd.root
  rw [hslot] at hroot
  cases hroot
  exact hlen.symm.trans hlen0

/-- A record that takes no extending character along covers at least one character. -/
theorem EncStep.number_ne_zero {s v : State} {r : Record} (hE : EncOk s) (he : s.epos < (s.buf .src).nchars)
    (h : EncStep s v r) (hr : s.setup.variant = .lzw ∨ r.hasChar = false) : r.i ≠ 0 := by
  intro h0
  have hlen : r.len = 0 := (h0 ▸ h.long).root_len hE.encDict
  rcases hr with hv | hh
  · have := h.len_pos hE he hv
    omega
  · have hend : ¬s.epos + r.len < (s.buf .src).nchars := of_decide_eq_false (h.has.symm.trans hh)
    omega

theorem Holds.get_charAt {s : State} {b : Buf} {X : List Byte} (h : Holds (s.buf b) X) {k : Nat} (hk : k < X.length) :
    X[k]? = some (s.charAt b k) := by
  rw [charAt_holds h (List.getElem?_eq_getElem hk)]
  exact List.getElem?_eq_getElem hk

section
variable {X : List Byte} {s d : State} (h : Coupled X s d)
include h

theorem Coupled.nchars : (s.buf .src).nchars = X.length := h.input.nchars

/-- The decoder's entry of the longest match: CopyOut of it is the match (R50, R222). -/
theorem Coupled.entry {i L : Nat} (hL : Longest s s.epos i L) : ∃ b,
    Table.get d.tab i = some { start := b, length := L } ∧ Copyable s.epos { start := b, length := L }
      ∧ copied (X.take s.epos) i { start := b, length := L } = (X.drop s.epos).take L := by
  obtain ⟨nd, hslot, hactive, rfl, hspells⟩ := hL.found
  have hbody : s.body i = some (nd.start, nd.length, nd.codewordNo) := by rw [body_of_slot hslot, if_pos hactive]
  obtain ⟨htab, hc⟩ := h.entries hbody
  have hbound : s.epos + nd.length ≤ X.length := h.nchars ▸ hL.bound
  refine ⟨nd.start, htab, hc, copied_take hbound hc (fun hs => ?_) (fun hs k hk => ?_)⟩
  · have hs : nd.start = Config.seed := hs
    have hlen : nd.length = 1 := hc.1 hs
    have hnum : nd.codewordNo = i := h.enc.encDict.seed_number (hs ▸ hbody)
    have hchar := hspells 0 (by omega)
    unfold charOfNode at hchar
    rw [if_pos hs, hnum] at hchar
    rw [h.input.get_charAt (by omega), ← hchar, Nat.add_zero]
  · have hs : nd.start ≠ Config.seed := hs
    have hk : k < nd.length := hk
    have hlt : nd.start + k < X.length := by
      have : nd.length = 0 ∨ (nd.start < s.epos ∧ nd.start + nd.length ≤ s.epos + 1) := hc.2 hs
      omega
    have hchar := hspells k hk
    unfold charOfNode at hchar
    rw [if_neg hs] at hchar
    rw [h.input.get_charAt (by omega : s.epos + k < X.length), h.input.get_charAt hlt, hchar]

/-- The decoder's policy assigns the number the encoder's does (R179). -/
theorem Coupled.selects {p : State} {i j : Nat} (hm : matchPolicy i s = .ok (p, j)) :
    ∃ q, matchPolicy i d = .ok (q, j) ∧ q.pol = p.pol ∧ q.size = p.size := by
  obtain ⟨ha, rfl, rfl⟩ := matchPolicy_ok hm
  have hq := h.enc.policy.queue
  have hsel : d.pol.select d.setup.policy d.setup.limit d.size d.freeCount i
      = s.pol.select s.setup.policy s.setup.limit s.size s.freeCount i := by
    rw [h.pol, h.size, h.setup]
    refine select_draw (fun hp => ?_) _ _ _
    obtain ⟨xs, hxs, hmem, -⟩ := (h.ordered hp).ends hq (by rw [hp]; exact Policy.noConfusion) ha.2.2.1
    exact ⟨xs, hxs, fun x hx => (hq.range x (hmem x hx)).2.trans hq.size⟩
  have had : MatchAllowed d i := by
    refine ⟨h.configured, by rw [h.ready]; exact EngineState.noConfusion, h.size ▸ ha.2.2.1, ?_⟩
    rw [h.setup, h.size]
    exact ha.2.2.2
  have hmd := matchPolicy_of_allowed had
  rw [hsel] at hmd
  exact ⟨_, hmd, rfl, rfl⟩

end

/-! ### One record -/

/-- The decoder went from `d` to `t` over the record `r` by which the encoder went from `s` to `v`; the bits `l` are left. -/
structure Follows (X : List Byte) (s v d t : State) (r : Record) (l : Bits) : Prop where
  frame : DecodeFrame d t
  pol : t.pol = v.pol
  size : t.size = v.size
  ahead : t.ahead = l
  output : Holds (t.buf .out) (X.take v.epos)
  tab : t.tab = if r.j = 0 then d.tab else Table.put d.tab r.j { start := s.epos, length := r.len + 1 }
  estate : t.estate = if s.setup.variant = .lz78 ∧ r.hasChar = false then .done else .ready

/-- The input before the match, the match and the extending character are the input before what follows. -/
theorem take_record {X : List Byte} {p L : Nat} {has : Bool} {c : Byte} (hc : has = true → X[p + L]? = some c) :
    X.take p ++ ((X.drop p).take L ++ if has = true then [c] else []) = X.take (p + L + has.toNat) := by
  rw [← List.append_assoc, ← List.take_add]
  cases has
  · exact List.append_nil _
  · rw [Bool.toNat_true, List.take_add_one, hc rfl]
    rfl

section
variable {X : List Byte} {s v d : State} {r : Record} {l : Bits} (h : Coupled X s d) (hpos : s.epos < X.length)
  (hE : EncStep s v r)
include h hpos hE

theorem Coupled.advance : s.epos < v.epos ∧ v.epos ≤ X.length ∧ (r.hasChar = false → v.epos = X.length) := by
  rw [← h.nchars]
  exact hE.advance h.enc (h.nchars ▸ hpos)

/-- The record of the encoder is well formed to the decoder. -/
theorem Coupled.readable (hU : Upcoming s d r) {e : Entry} (he : Table.get d.tab r.i = some e)
    (hc : Copyable s.epos e) : Readable d e (X.take s.epos) := by
  have hne := hE.number_ne_zero h.enc (by rw [h.nchars]; exact hpos)
  have hw : d.setup.width = s.setup.width := by rw [h.setup]
  have hwidth := h.width
  have hwide := hU.wide
  exact {
    configured := h.configured
    mode := by rw [h.setup]
    ready := h.ready
    whole := h.output
    more := by omega
    wide := hwide
    entry := by rw [hU.number]; exact he
    assigned := by rw [hU.number, h.size]; exact hE.long.assigned h.enc.encDict
    lzw := fun hv => by
      rw [h.setup] at hv
      rw [hU.number]
      exact hne (.inl hv)
    final := fun hf => by
      rw [hU.final] at hf
      rw [hU.number]
      exact hne (.inr (of_decide_eq_true hf).2)
    char := hU.whole
    copyable := by rw [List.length_take_of_le h.epos]; exact hc }

/-- OUT has room for the record: what is decoded is input, which SRC holds in as many bits (R45). -/
theorem Coupled.room (hU : Upcoming s d r) {e : Entry} (hlen : e.length = r.len) : d.roomFor e := by
  have hcap : d.capBits = s.capBits := by
    unfold State.capBits
    rw [h.build]
  have hsrc : (s.buf .src).len ≤ s.capBits := ((Buffer.wf_iff _ _).1 (memOk_of_buf.1 h.enc.mem .src)).2
  have hend := (h.advance hpos hE).2.1
  have hepos := hU.epos hE
  unfold State.roomFor
  rw [hcap, h.output.len, List.length_take_of_le h.epos, hlen]
  rw [h.input.len] at hsrc
  omega

/-- The decoder decodes the record the encoder wrote (R231). -/
theorem Coupled.decodes (hahead : d.ahead = emitted s r.i r.hasChar r.char ++ l) (hl : r.hasChar = false → l = []) :
    ∃ t r', decodeStep d = .ok (t, some r') ∧ Follows X s v d t r l := by
  have hO : (X.take s.epos).length = s.epos := List.length_take_of_le h.epos
  obtain ⟨b, htab, hc, hcopy⟩ := h.entry hE.long
  have hi : r.i < 2 ^ s.setup.width :=
    (hE.long.assigned h.enc.encDict).trans_lt (h.enc.policy.queue.size.trans_lt h.limit)
  rw [← emitted_decode h.setup] at hahead
  have hU := upcoming_of_emitted h.setup hahead hl hi
  obtain ⟨p, hp, hpol, hsize⟩ := hE.policy
  obtain ⟨q, hq, hqpol, hqsize⟩ := h.selects hp
  have hallowed : MatchAllowed d d.nextNumber := by
    rw [hU.number]
    exact (matchPolicy_ok hq).1
  obtain ⟨t, r', hstep, hD⟩ := decodeStep_forward
    ⟨h.readable hpos hE hU htab hc, hallowed, h.room hpos hE hU rfl⟩
  obtain ⟨q', hq', hpol', hsize'⟩ := hD.policy
  rw [hU.number, hq] at hq'
  obtain ⟨rfl, hj⟩ := Prod.mk.inj (Except.ok.inj hq')
  refine ⟨t, r', hstep, hD.frame, hpol'.trans (hqpol.trans hpol.symm), hsize'.trans (hqsize.trans hsize.symm),
    hD.ahead hahead hl, ?_, ?_, ?_⟩
  · have hchar : d.nextHas = true → X[s.epos + r.len]? = some d.nextChar := fun hh => by
      have hc : r.hasChar = true := (of_decide_eq_true (hU.has.symm.trans hh)).2
      have hlt : s.epos + r.len < (s.buf .src).nchars := of_decide_eq_true (hE.has.symm.trans hc)
      rw [hU.char hh, hE.char, if_pos hc]
      exact h.input.get_charAt (h.nchars ▸ hlt)
    unfold Holds
    rw [hD.out, hU.epos hE, ← take_record hchar, bitsOf_append, ← h.output, State.nextString, hU.number, hcopy]
  · rw [hD.tab, hO, hj]
  · rw [hD.estate, hU.final]
    exact if_congr decide_eq_true_iff rfl rfl

/-- A record with an extending character leaves both at the same place again. -/
theorem Coupled.next {t : State} (hstep : encodeStep s = .ok (v, some r)) (hh : r.hasChar = true)
    (hF : Follows X s v d t r l) : Coupled X v t := by
  obtain ⟨hlt, hle, -⟩ := h.advance hpos hE
  have hset : v.setup = s.setup := by rw [hE.frame]
  have hepos : s.epos + r.len ≤ v.epos := by
    rw [hE.epos, encodeAdvance, ← Nat.add_assoc]
    exact Nat.le_add_right _ _
  have hinside : s.epos + r.len + 1 ≤ (s.buf .src).nchars := of_decide_eq_true (hE.has.symm.trans hh)
  have hsmall := small_of_inside h.enc.build h.enc.mem hinside
  have hold : ∀ {k b n c}, s.body k = some (b, n, c) → r.j = 0 ∨ k ≠ r.j →
      Table.get t.tab k = some { start := b, length := n } ∧ Copyable v.epos { start := b, length := n } := by
    intro k b n c hb hk
    obtain ⟨htab, hc⟩ := h.entries hb
    refine ⟨?_, hc.mono hlt.le⟩
    rw [hF.tab]
    split
    · exact htab
    · next hj => rw [Table.get_put_other _ _ (hk.resolve_left hj), htab]
  exact {
    enc := h.enc.encodeStep hstep
    policy := hE.exact h.policy
    ordered := fun hp => by
      rw [hset] at hp
      obtain ⟨p, hm, hpol, -⟩ := hE.policy
      obtain ⟨ha, -, rfl⟩ := matchPolicy_ok hm
      rw [hpol]
      exact (h.ordered hp).select h.enc.policy.queue h.policy hp ha.2.2.1
    width := by rw [hset]; exact h.width
    limit := by rw [hset]; exact h.limit
    input := by rw [hE.other .src (by decide)]; exact h.input
    epos := hle
    running := by rw [hE.estate, if_pos hh]; exact h.running
    build := by rw [hF.frame, hE.frame]; exact h.build
    configured := by rw [hF.frame]; exact h.configured
    setup := by rw [hF.frame, hset]; exact h.setup
    ready := by rw [hF.estate, hh]; exact if_neg fun hn => Bool.noConfusion hn.2
    pol := hF.pol
    size := hF.size
    output := hF.output
    entries := by
      intro k b n c hb
      by_cases hj : r.j = 0
      · refine hold (c := c) ?_ (.inl hj)
        rw [← hb]
        exact (body_congr (by unfold State.slot; rw [(hE.rejected hj).1])).symm
      by_cases hk : k = r.j
      · obtain ⟨-, hnew⟩ := hE.grown hj hh
        subst hk
        cases hnew.symm.trans hb
        rw [hF.tab, if_neg hj]
        exact ⟨Table.get_put_same _ _ _, fun hs => absurd hs hsmall, fun _ => .inr ⟨hlt, Nat.succ_le_succ hepos⟩⟩
      · exact hold ((hE.kept hj k hk).symm.trans hb) (.inr hk) }

end

/-! ### The runs -/

/-- A decoder with no bits left finishes without a record (R220, R227). -/
theorem decodeRun_of_no_bits {d : State} {X : List Byte} (hr : DecodeReady d) (hO : Holds (d.buf .out) X)
    (ha : d.ahead = []) (fuel n : Nat) : ∃ u, runSteps decodeStep (fuel + 1) n d = .ok (u, n) ∧ DecodeFrame d u
      ∧ u.estate = .done ∧ Holds (u.buf .out) X := by
  have hrem : d.remaining = 0 := by
    rw [← length_ahead, ha]
    rfl
  have hstep := decodeStep_end hr.1 hr.2.1 hr.2.2 (by rw [hO.len]; exact Nat.mul_mod_right 8 _) hrem
  exact ⟨_, runSteps_of_end hr.2.2 hstep EngineState.noConfusion, rfl, rfl, hO⟩

theorem runSteps_of_record {step : State → Work (State × Option Record)} {fuel n : Nat} {s t : State} {r : Record}
    (hr : s.estate = .ready) (h : step s = .ok (t, some r)) :
    runSteps step (fuel + 1) n s = runSteps step fuel (n + 1) t := by
  rw [runSteps, if_pos hr, h]

section
variable {X : List Byte} {s d : State} (h : Coupled X s d)
include h

theorem Coupled.decodeReady : DecodeReady d := ⟨h.configured, by rw [h.setup], h.ready⟩

theorem Coupled.width_pos : 0 < d.setup.width := by
  rw [h.setup]
  exact Nat.lt_of_lt_of_le Nat.zero_lt_two h.width

/-- Over the encoder's last record the decoder finishes: LZ78's is final (R221), and after LZW's no bits are left. -/
theorem Coupled.finishes {v : State} {r : Record} (hpos : s.epos < X.length) (hE : EncStep s v r)
    (hh : r.hasChar = false) (hahead : d.ahead = emitted s r.i r.hasChar r.char) (fuel n : Nat) :
    ∃ u, runSteps decodeStep (fuel + 2) n d = .ok (u, n + 1) ∧ DecodeFrame d u ∧ u.estate = .done
      ∧ Holds (u.buf .out) X := by
  obtain ⟨t, r', hd, hF⟩ := h.decodes hpos hE (hahead.trans (List.append_nil _).symm) fun _ => rfl
  have hO := hF.output
  have hestate := hF.estate
  rw [(h.advance hpos hE).2.2 hh, List.take_length] at hO
  rw [hh] at hestate
  rw [runSteps_of_record h.ready hd]
  cases hv : s.setup.variant with
  | lz78 =>
    rw [if_pos ⟨hv, rfl⟩] at hestate
    exact ⟨t, runSteps_done (by rw [hestate]; exact EngineState.noConfusion), hF.frame, hestate, hO⟩
  | lzw =>
    rw [if_neg (by rw [hv]; exact fun hn => Variant.noConfusion hn.1)] at hestate
    have hready : DecodeReady t := by
      refine ⟨?_, ?_, hestate⟩ <;> rw [hF.frame]
      exacts [h.decodeReady.1, h.decodeReady.2.1]
    obtain ⟨u, hu, hfr, hdone, hO⟩ := decodeRun_of_no_bits hready hO hF.ahead fuel (n + 1)
    exact ⟨u, hu, hF.frame.trans hfr, hdone, hO⟩

end

/-- DRUN over the bits of an encode run counts its records and ends with its input in OUT (R231). -/
theorem decodeRun_of_encodeRun {X : List Byte} {fuel g n m : Nat} {s t d : State} (h : Coupled X s d)
    (hrun : runSteps encodeStep fuel n s = .ok (t, m)) (hfuel : X.length - s.epos < fuel)
    (hbits : (t.buf .cw).bits = (s.buf .cw).bits ++ d.ahead) (hg : d.remaining < g) :
    ∃ u, runSteps decodeStep g n d = .ok (u, m) ∧ DecodeFrame d u ∧ u.estate = .done ∧ Holds (u.buf .out) X := by
  induction fuel generalizing n s d g with
  | zero => omega
  | succ f ih =>
    obtain ⟨g, rfl⟩ : ∃ k, g = k + 1 := ⟨g - 1, by omega⟩
    by_cases hend : s.epos = X.length
    · have hwhole : (s.buf .src).len % 8 = 0 := by
        rw [h.input.len]
        exact Nat.mul_mod_right 8 _
      have hstep := encodeStep_end ⟨h.enc.configured, h.enc.mode, h.running⟩ hwhole (hend.trans h.nchars.symm)
      cases (runSteps_of_end h.running hstep EngineState.noConfusion).symm.trans hrun
      have hO := h.output
      rw [hend, List.take_length] at hO
      exact decodeRun_of_no_bits h.decodeReady hO (List.append_cancel_left (hbits.symm.trans (List.append_nil _).symm)) _ _
    have hpos : s.epos < X.length := lt_of_le_of_ne h.epos hend
    cases hstep : encodeStep s with
    | error e => cases (runSteps_of_first_error h.running hstep).symm.trans hrun
    | ok x =>
      obtain ⟨v, x⟩ := x
      obtain ⟨r, rfl, hE⟩ := encodeStep_sound h.enc (by rw [h.nchars]; exact hpos) hstep
      rw [runSteps_of_record h.running hstep] at hrun
      obtain ⟨l, hl⟩ := (encodeRun_frame hrun).2.1.bits
      have hbitst : (t.buf .cw).bits = (v.buf .cw).bits ++ l := (congrArg Buffer.bits hl :)
      have hbitsv : (v.buf .cw).bits = (s.buf .cw).bits ++ emitted s r.i r.hasChar r.char :=
        (congrArg Buffer.bits hE.cw :)
      have hahead : d.ahead = emitted s r.i r.hasChar r.char ++ l := by
        rw [hbitst, hbitsv, List.append_assoc] at hbits
        exact (List.append_cancel_left hbits).symm
      cases hh : r.hasChar with
      | true =>
        obtain ⟨hlt, hle, -⟩ := h.advance hpos hE
        obtain ⟨d', r', hd, hF⟩ := h.decodes hpos hE hahead (by rw [hh]; exact Bool.noConfusion)
        have hrem := decodeStep_remaining hd h.width_pos
        obtain ⟨u, hu, hfr, hdone, hO⟩ := ih (h.next hpos hE hstep hh hF) hrun (by omega) (by rw [hF.ahead]; exact hbitst)
          (g := g) (by omega)
        exact ⟨u, (runSteps_of_record h.ready hd).trans hu, hF.frame.trans hfr, hdone, hO⟩
      | false =>
        have hdone : v.estate ≠ .ready := by
          rw [hE.estate, hh]
          exact EngineState.noConfusion
        cases (runSteps_done hdone).symm.trans hrun
        have hl0 : l = [] := List.append_cancel_left (hbitst.symm.trans (List.append_nil _).symm)
        rw [hl0, List.append_nil] at hahead
        have hbound := remaining_of_emitted (l := [])
          ((hahead.trans (emitted_decode h.setup _ _ _).symm).trans (List.append_nil _).symm)
        have hwidth := h.width_pos
        obtain ⟨g, rfl⟩ : ∃ k, g = k + 1 := ⟨g - 1, by omega⟩
        exact h.finishes hpos hE hh hahead g n

/-! ### The configurations (R200, R201) -/

section
variable (w : Word)

theorem variantField_decode : variantField (w ||| 8) = variantField w := by
  have h8 : (8 : Word).getLsbD 0 = false := by decide
  unfold variantField
  rw [BitVec.getLsbD_or, h8, Bool.or_false]

theorem policyField_decode : policyField (w ||| 8) = policyField w := by
  have h8 : (8 : Word).extractLsb' 1 2 = 0#2 := by decide
  unfold policyField
  rw [BitVec.extractLsb'_or, h8, BitVec.or_zero]

theorem modeField_decode : modeField (w ||| 8) = .dec := by
  have h8 : (8 : Word).getLsbD 3 = true := by decide
  unfold modeField
  rw [BitVec.getLsbD_or, h8, Bool.or_true]
  rfl

/-- Bit 3 of the configuration word chooses the mode and nothing else (R34). -/
theorem latchedSetup_decode (n u : Nat) : latchedSetup n (w ||| 8) u = { latchedSetup n w u with mode := .dec } := by
  unfold latchedSetup
  rw [variantField_decode, policyField_decode, modeField_decode]

end

section
variable {s t : State} (hw : econfigWork s = .ok t) (hmode : modeField s.a0 = .enc)
include hw hmode

/-- The codewords after ECONFIG: the root, and the seeds of LZW (R131, R201). -/
theorem body_of_econfig (k : Nat) : t.body k = if k = 0 then some (0, 0, 0)
    else if k ≤ (variantField s.a0).nseed then some (Config.seed, 1, k) else none := by
  obtain ⟨-, -, rfl⟩ := econfigWork_ok hw
  have hslot := initialArena_get (variantField s.a0) .enc k
  rw [← hmode] at hslot
  unfold State.body State.slot
  show (Table.get (initialArena (variantField s.a0) (modeField s.a0)) k).bind _ = _
  rw [hslot]
  by_cases h0 : k = 0
  · rw [if_pos h0, if_pos h0]
    rfl
  rw [if_neg h0, if_neg h0]
  by_cases hk : k ≤ (variantField s.a0).nseed
  · rw [if_pos ⟨rfl, hk⟩, if_pos hk]
    rfl
  · rw [if_neg fun hn => hk hn.2, if_neg hk]
    rfl

variable (hb : buildOk s.build = true) (hm : s.memOk = true)
include hb hm

/-- ECONFIG leaves the invariants of an encoder, whatever the state it is issued in (R201). -/
theorem encOk_of_econfig : EncOk t := by
  obtain ⟨hqueue, hcursor, hlimit, hsize, hq, hperm⟩ := configure_policy hb hw
  obtain ⟨-, -, rfl⟩ := econfigWork_ok hw
  exact {
    build := hb
    mem := memOk_congr hm rfl rfl
    policy := ⟨hqueue, hcursor⟩
    dict := {
      fixed := fun k hk => by rw [hperm]; exact List.mem_range.2 (Nat.lt_succ_of_le hk)
      grown := hsize.ge
      free := by rw [hq]; exact fun k hk => absurd hk List.not_mem_nil
      dict := fun _ _ => initial_encDict (congrArg (initialArena _) hmode) hsize (by omega)
      bare := fun hn => absurd ⟨rfl, hmode⟩ hn }
    configured := rfl
    mode := hmode }

/-- ECONFIG to encode and ECONFIG alike but to decode leave an encoder and a decoder at the start of the input. -/
theorem coupled_of_econfig {d u : State} {X : List Byte} (hX : Holds (s.buf .src) X) (hdb : d.build = s.build)
    (hda0 : d.a0 = s.a0 ||| 8) (hda1 : d.a1 = s.a1) (hout : (d.buf .out).bits = []) (hwd : econfigWork d = .ok u) :
    Coupled X t.begin u.begin := by
  have hE := encOk_of_econfig hw hmode hb hm
  have hbody := body_of_econfig hw hmode
  have hwidth := setup_width (econfig_setup hb hw) hE.configured
  obtain ⟨-, -, -, hsize, hq, hperm⟩ := configure_policy hb hw
  obtain ⟨-, -, rfl⟩ := econfigWork_ok hw
  obtain ⟨-, -, rfl⟩ := econfigWork_ok hwd
  have hsetup : latchedSetup d.maxUnbounded d.a0 d.opA1
      = { latchedSetup s.maxUnbounded s.a0 s.opA1 with mode := .dec } := by
    unfold State.maxUnbounded State.opA1
    rw [hdb, hda0, hda1, latchedSetup_decode]
  have hvariant : variantField d.a0 = variantField s.a0 := by rw [hda0, variantField_decode]
  exact {
    enc := hE.begin
    policy := ⟨by rw [State.begin_pol, hq]; exact fun k hk => absurd hk List.not_mem_nil, fun k hk => by
      rw [State.begin_pol, hperm] at hk
      exact (Nat.le_of_lt_succ (List.mem_range.1 hk)).trans hsize.ge⟩
    ordered := fun _ => ⟨by rw [State.begin_pol, hq]; exact .nil, by
      rw [State.begin_pol, hq]
      exact fun k hk => absurd hk List.not_mem_nil⟩
    width := hwidth.1
    limit := hwidth.2.2.1
    input := hX
    epos := Nat.zero_le _
    running := rfl
    build := hdb
    configured := rfl
    setup := hsetup
    ready := rfl
    pol := congrArg initialPolicy hvariant
    size := congrArg Variant.nseed hvariant
    output := hout
    entries := by
      intro k b n c hk
      have htab := initialTab_get (variantField d.a0) k
      rw [hvariant] at htab
      have hk := (hbody k).symm.trans hk
      split_ifs at hk with h0 hseed
      · cases hk
        rw [if_pos h0] at htab
        exact ⟨(congrArg (fun v => Table.get (initialTab v) k) hvariant).trans htab, fun hs => absurd hs (by decide), fun _ => .inl rfl⟩
      · cases hk
        rw [if_neg h0, if_pos hseed] at htab
        exact ⟨(congrArg (fun v => Table.get (initialTab v) k) hvariant).trans htab, fun _ => rfl, fun hs => absurd rfl hs⟩ }

end

/-- Settles O60: ECONFIG couples the two blocks, and the runs keep them coupled to the end of the input. -/
theorem decodeOfEncodeIsTheInput : Obligations.DecodeOfEncodeIsTheInput := by
  intro s s1 t d d1 hb hm hf hbit hexs hf1 hwhole hcw hexr hft hdb hdf hda0 hda1 hexd hdcw hdrc hdout
  have hmode : modeField s.a0 = .enc := (mode_enc s.a0).1 hbit
  have hws : econfigWork s.begin = .ok s1 := work_of_completed hf hf1 hexs
  obtain ⟨-, -, -, u, n, hrun, ht⟩ := erunWork_ok (work_of_completed hf1 hft hexr)
  obtain ⟨hres, hlimit, hs1⟩ := econfigWork_ok hws
  have hlegal : LegalConfig d := by
    unfold LegalConfig State.maxLimit
    rw [hda0, hda1, hdb, variantField_decode, BitVec.toNat_or]
    exact ⟨Nat.or_lt_two_pow (n := 4) ((reserved_zero s.a0).1 hres) (by decide), hlimit⟩
  have hwd : econfigWork d.begin = .ok d1 := by
    have hgood := econfig_of_good hlegal.1 hlegal.2
    cases hexd.symm.trans (exec_of_work hdf hgood)
    exact hgood
  have hC := coupled_of_econfig (s := s.begin) (d := d.begin) hws hmode hb hm (holds_charsAt hwhole) hdb hda0 hda1 hdout hwd
  have hd1 := (econfigWork_ok hwd).2.2
  have hmem : d1.mem = d.mem := by rw [hd1]; rfl
  have hbits : (u.buf .cw).bits = (s1.begin.buf .cw).bits ++ d1.begin.ahead := by
    have h1 : (s1.begin.buf .cw).bits = [] := by rw [hs1]; exact hcw
    have h2 : (t.buf .cw).bits = (u.buf .cw).bits := by rw [ht]; exact bumpEpochs_bits _ _ _
    have h3 : d1.begin.ahead = (d.buf .cw).bits.drop (d.buf .cw).rc := by rw [hd1]; rfl
    rw [h1, h3, hdrc, hdcw, h2]
    rfl
  obtain ⟨w, hw, hframe, hdone, hO⟩ := decodeRun_of_encodeRun (g := d1.begin.remaining + 2) hC hrun
    (by rw [← hC.nchars]; omega) hbits (by omega)
  have hfault : d1.fault = false := by rw [hd1]; exact hdf
  refine ⟨_, exec_of_work hfault (drunWork_of_run hC.decodeReady hw), ?_, ?_, ?_, ?_⟩
  · rw [bumpEpochs_frame, hframe]
    exact hfault
  · rw [bumpEpochs_frame]
    exact hdone
  · exact (bumpEpochs_bits _ _ _).trans (hO.trans (holds_charsAt hwhole).symm)
  · rw [ht]
    exact (bumpEpochs_results _ _ _ _ _ _).1.trans (bumpEpochs_results _ _ _ _ _ _).1.symm

end Sys2Proof.Machine
end

section
/-! PROOFS. The statements about faults: what a fault latches (60_exceptions.md R241), the fault of an unconfigured block
(R240, 70 R272) and the faulted state (R243). -/

namespace Sys2Proof.Machine

/-! ### The write of a command word -/

/-- While FAULT = 1 a command is not even decoded (R85, R243). -/
theorem issueCommand_faulted (w : Word) {s : State} (hf : s.fault = true) : issueCommand w s = .next s := if_pos hf

/-- A word written to CMD is a command that completes, or its fault is latched over the state before it (R241). -/
theorem issueCommand_cases {w : Word} {s t : State} (hf : s.fault = false) (h : issueCommand w s = .next t) :
    (∃ i, decode w = .ok i ∧ workOf i s.begin = .ok t) ∨ ∃ e, t = s.latch e w := by
  cases hd : decode w with
  | error e =>
    rw [issueCommand, if_neg (ne_true_of_eq_false hf), hd] at h
    cases h
    exact .inr ⟨_, rfl⟩
  | ok i =>
    rw [issueCommand_ok hf hd] at h
    rcases exec_completes hf h with ⟨-, hw⟩ | ⟨-, e, -, rfl⟩
    · exact .inl ⟨i, rfl, hw⟩
    · exact .inr ⟨e, by rw [(encodeOfDecode w i hd).1]⟩

/-- The fault codes of R240 are numbered `0x01` to `0x11`. -/
theorem FaultCode.num_bounds (c : FaultCode) : 1 ≤ c.num ∧ c.num ≤ 0x11 := by
  cases c <;> decide

/-- Settles O9: a word written to CMD completes, and then its work does not touch the fault registers, or it is latched. -/
theorem faultLatchRollsBack : Obligations.FaultLatchRollsBack := by
  intro w s t hf h
  rcases issueCommand_cases hf h with ⟨i, -, hw⟩ | ⟨e, rfl⟩
  · have kept := (workFrame hw).untouched
    exact ⟨fun ht => absurd (kept.fault.symm.trans ht) (ne_true_of_eq_false hf),
      fun _ => ⟨kept.faultInfo, kept.faultCmd⟩⟩
  · obtain ⟨hlow, hhigh⟩ := e.code.num_bounds
    exact ⟨fun _ => ⟨_, _, hlow, hhigh, latched s e w⟩, fun ht => absurd ht (by simp)⟩

/-! ### Before ECONFIG -/

/-- The check of CONFIGURED is the first of each of these commands; ESTEP, DSTEP and PMATCH make it in the rule they share
with the runs and the engine. -/
theorem work_of_unconfigured {i : Instr} {s : State} (hc : s.configured = false)
    (hi : i ∈ [.textend, .tedge, .tremove, .tmreset, .tmstep, .tlookup, .tnode, .pmatch, .pperm, .pinfo, .porder, .estep,
      .dstep, .erun, .drun, .eaddext]) : workOf i s = .error ⟨.notConfigured, 0⟩ := by
  cases i
  case estep => exact estepWork_error_iff.2 (if_pos hc)
  case dstep => exact dstepWork_error_iff.2 (if_pos hc)
  case pmatch => exact pmatchWork_error (if_pos hc)
  case textend | tedge | tremove | tmreset | tmstep | tlookup | tnode | pperm | pinfo | porder | erun | drun | eaddext =>
    exact if_pos hc
  all_goals simp at hi

/-- Settles O19: the work of each of these commands raises NOT_CONFIGURED. -/
theorem unconfiguredCommandsFault : Obligations.UnconfiguredCommandsFault :=
  fun _ s hf hc hi => fault_of .notConfigured 0 hf (work_of_unconfigured (s := s.begin) hc hi)

/-! ### The faulted state -/

/-- Settles O10: of the accesses to the window only the write of CMD looks at FAULT. -/
theorem faultedBlockIgnoresCommands : Obligations.FaultedBlockIgnoresCommands := by
  intro s rest hf after
  have hafter : after.fault = true := hf
  refine ⟨fun w hh => ?_, fun off halign hle hh => ?_, fun v => step_of_write rfl, fun v => step_of_write rfl,
    fun v => step_of_write rfl, fun v hv hh => ?_⟩
  · exact (step_of_write rfl hh).trans (issueCommand_faulted w hafter)
  · exact step_of_read ((accessOk_iff off 4).2 ⟨rfl, halign, hle⟩) hh
  · exact ((resetByCtrlAndByInput s rest).2 v hh).trans (by rw [if_pos hv])

end Sys2Proof.Machine
end
